-- ==== Sys2Proof/Word.lean ====
section
/-! DEFINITION. The words of the Glidric and the shape of its sparse stores. -/
namespace Sys2Proof

/-- A scalar register's contents (R84). -/
abbrev Word := BitVec 64

/-- One instruction word, one line word, one FP32 value (R8, R57). -/
abbrev Word32 := BitVec 32

/-- One byte of memory. -/
abbrev Byte := BitVec 8

/-- A code position: bits [23:4] the line, bits [3:0] the slot (R62). -/
abbrev CodePos := BitVec 24

/-- A scalar or tile register number (R68). -/
abbrev Reg := BitVec 5

/-- A factor register number (R68). -/
abbrev FIdx := BitVec 4

/-- A predicate number (R68). -/
abbrev PIdx := BitVec 3

/-- A ring register number (R68). -/
abbrev KIdx := BitVec 4

/-- An accumulator region number (R68). -/
abbrev AIdx := BitVec 3

/-- The sparse store of `w`-bit words: pairs of an address and a word, addresses strictly rising and no
word equal to what an unlisted address reads as. -/
abbrev Store (w : Nat) := List (Nat × BitVec w)

end Sys2Proof
end

