-- ==== Sys2Proof/Config.lean ====
section
/-! DEFINITION. What the manual leaves open: the free values (nothing constrains them) and the primitives that
the manual names without defining. -/
namespace Sys2Proof.Config

/-- The value of the n-th free word the machine draws (log 2, DESIGN CHOICE): no body, so no claim rests on it. -/
opaque freeWord : Nat → BitVec 64

/-- The poisoned byte that a load of an address of a silent expander returns (log 2, DESIGN CHOICE). -/
opaque lostByte : Nat → BitVec 8

/-- SHA-384, named by R380 to R383 and not defined there (log 4, DESIGN CHOICE). -/
opaque sha384 : List (BitVec 8) → BitVec 384

/-- The verification of an ECDSA signature on brainpoolP384r1 with SHA-384 (R380, R381): the key that signs
(0 the configuration key, 1 the firmware key), the signed digest and the 96 signature bytes (log 4, DESIGN CHOICE). -/
opaque ecdsaVerifies : Nat → BitVec 384 → List (BitVec 8) → Bool

/-- The configuration record in the flash of a package that takes another's place (R384; log 7, DESIGN CHOICE). -/
opaque flashRecord : Nat → List (BitVec 8)

/-- The image that an update of Sahfin brings (R384; log 2, DESIGN CHOICE). -/
opaque updateImage : Nat → List (BitVec 8)

/-- The firmware image in its flash (R384; log 7, DESIGN CHOICE). -/
opaque flashImage : Nat → List (BitVec 8)

/-- The signature that the identity key of a package makes over a digest (R382, R383; log 4, DESIGN CHOICE). -/
opaque identitySignature : Nat → BitVec 384 → BitVec 768

end Sys2Proof.Config
end

