-- ==== Sys2Proof/Syntax.lean ====
section
/-! DEFINITION. The instructions of the Glidric and the steps of its hardware, its firmware and its host: one
constructor for each row of the opcode table. -/
namespace Sys2Proof

/-- The four streams of a core (R5, R58): 0 S, 1 M, 2 V, 3 C. -/
inductive Stream where
  | s | m | v | c
deriving DecidableEq, Repr

/-- The scopes of R5. -/
inductive Scope where
  | core | quad | die | pkg | pod | sys
deriving DecidableEq, Repr

/-- The rounding modes of R23. -/
inductive RMode where
  | rne | rtz | rup | rdn | sr
deriving DecidableEq, Repr

/-- The format tags of R15. -/
inductive Tag where
  | fp32 | bf16 | fp16 | e4m3 | e5m2 | e3m2 | e2m3 | e2m1
  | mxe4m3 | mxe5m2 | mxe3m2 | mxe2m3 | mxe2m1
  | i8 | i16 | i32 | n8 | i64 | e2m1b16 | e4m3b16 | empty
deriving DecidableEq, Repr

/-- The branch conditions of R69. -/
inductive Cond where
  | eq | ne | lt | ge | ltn | gen
deriving DecidableEq, Repr

/-- The fence kinds of R69. -/
inductive FenceKind where
  | acq | rel | full
deriving DecidableEq, Repr

/-- The atomic orders of R69. -/
inductive AOrder where
  | rlx | acq | rel | ar
deriving DecidableEq, Repr

/-- The atomic operations of R69. -/
inductive AtomOp where
  | add | fadd32 | max | min | maxn | minn | fmax32 | fmin32 | and | or | xor | xchg
deriving DecidableEq, Repr

/-- The vector compares of R69. -/
inductive VCmp where
  | eq | ne | lt | le | gt | ge | un
deriving DecidableEq, Repr

/-- The event classes of R69. -/
inductive EvClass where
  | tier | notify | sealed | deadline
deriving DecidableEq, Repr

/-- The bobbin kinds of R69. -/
inductive BobKind where
  | sum | sumsq | max | min
deriving DecidableEq, Repr

/-- What `vgetslot`, `vputslot` and `mslot` name: one of the four slots, or cm (R69, R144, R167). -/
inductive SlotSel where
  | rs | cs | rp | cq | cm
deriving DecidableEq, Repr

/-- The operations of `vfop` (R149). -/
inductive FOp where
  | add | sub | mul | max | min | rcp | rsqrt | mov | exp2 | log2
deriving DecidableEq, Repr

/-- The operations of `cred` (R78, R214). -/
inductive CredOp where
  | fadd32 | add32 | add64
deriving DecidableEq, Repr

/-- The drain modes of `mdrain` (R77, R169). -/
inductive DrainMode where
  | st | add | kv
deriving DecidableEq, Repr

/-- The destination of a reduction (R135): a tile with its Q, P or index register, a factor register with its
index register, or a bobbin of the home core. -/
inductive RedDest where
  | tile (td : Reg) (q : FIdx)
  | freg (f : FIdx) (x : FIdx)
  | bobbin (b : BitVec 6)
deriving DecidableEq, Repr

/-- The scale sources of `mopnd` (R77, R156). -/
inductive ScaleSrc where
  | none | table | side
deriving DecidableEq, Repr

/-- The operand that `mopnd` sets (R161): a tile, or an address register with its leading stride register, tag
and table address register (0 when the scale source is not `table`). -/
inductive MOperand where
  | tile (t : Reg) (src : ScaleSrc)
  | addr (a ld : Reg) (tag : Tag) (src : ScaleSrc) (table : Reg)
deriving DecidableEq, Repr

/-- The standard modifiers of a T3 instruction (R67): predicate, predication mode (true is `zero`). -/
structure PMod where
  p    : PIdx
  zero : Bool
deriving DecidableEq, Repr

/-- The completion word of a copy command (R78), without its `cred` operation. -/
structure Completion where
  cap    : BitVec 6
  bscope : Scope
  barr   : Bool
  notify : Bool
  fill   : Bool
  ring   : KIdx
  shape  : BitVec 4
deriving DecidableEq, Repr

/-- A link of the part: a die link or hub link of a package (R377), a die's mesh between its cores (R283), a weft port
(R346), or the host link. -/
inductive LinkId where
  | dlink (pkg n : Nat)
  | hlink (pkg die : Nat)
  | mesh (pkg die : Nat)
  | weft (pkg port : Nat)
  | host (pkg : Nat)
deriving DecidableEq, Repr

/-- A board, as an instruction names it (R75): an index of the launch's board table, or a capability. -/
structure BoardRef where
  viaCap : Bool
  index  : BitVec 6
deriving DecidableEq, Repr

/-- Where a soft error is found (R373). -/
inductive ScrubPlace where
  /-- a 32-byte word of HBM or of its home slice -/
  | memory (word : Nat)
  | spad (die phys word : Nat)
  | imem (die phys line : Nat)
  | code (die line : Nat)
  /-- the cached leaves of a context's address -/
  | leaf (die ctx va : Nat)
  /-- a unit of the core in focus, numbered as the failing units are -/
  | unit (unit : Nat)
deriving DecidableEq, Repr

/-- The instructions and steps, each under the row it models. Operands stand in the order d, a, b of R79. -/
inductive Instr where
  /-- Does nothing (R72). -/
  | nop
  /-- Three-register operation (R85, R86). -/
  | add (d a b : Reg)
  /-- Three-register operation (R85, R86). -/
  | sub (d a b : Reg)
  /-- Three-register operation (R85, R86). -/
  | and (d a b : Reg)
  /-- Three-register operation (R85, R86). -/
  | or (d a b : Reg)
  /-- Three-register operation (R85, R86). -/
  | xor (d a b : Reg)
  /-- Three-register operation (R85, R86). -/
  | shl (d a b : Reg)
  /-- Three-register operation (R85, R86). -/
  | shr (d a b : Reg)
  /-- Three-register operation (R85, R86). -/
  | sra (d a b : Reg)
  /-- Three-register operation (R85, R86). -/
  | mul (d a b : Reg)
  /-- Three-register operation (R85, R86). -/
  | mulh (d a b : Reg)
  /-- Three-register operation (R85, R86). -/
  | mulhn (d a b : Reg)
  /-- Three-register operation (R85, R86). -/
  | div (d a b : Reg)
  /-- Three-register operation (R85, R86). -/
  | divn (d a b : Reg)
  /-- Three-register operation (R85, R86). -/
  | rem (d a b : Reg)
  /-- Three-register operation (R85, R86). -/
  | remn (d a b : Reg)
  /-- Three-register operation (R85, R86). -/
  | min (d a b : Reg)
  /-- Three-register operation (R85, R86). -/
  | max (d a b : Reg)
  /-- Three-register operation (R85, R86). -/
  | minn (d a b : Reg)
  /-- Three-register operation (R85, R86). -/
  | maxn (d a b : Reg)
  /-- Three-register operation (R85, R86). -/
  | slt (d a b : Reg)
  /-- Three-register operation (R85, R86). -/
  | sltn (d a b : Reg)
  /-- Three-register operation (R85, R86). -/
  | seq (d a b : Reg)
  /-- d := a + (b << sh) (R85). -/
  | addx (d a b : Reg) (sh : BitVec 3)
  /-- Bit count (R85). -/
  | popc (d a : Reg)
  /-- Bit count (R85). -/
  | clz (d a : Reg)
  /-- Bit count (R85). -/
  | ctz (d a : Reg)
  /-- Operation with a sign-extended immediate (R87). -/
  | addi (d a : Reg) (imm : BitVec 14)
  /-- Operation with a sign-extended immediate (R87). -/
  | andi (d a : Reg) (imm : BitVec 14)
  /-- Operation with a sign-extended immediate (R87). -/
  | ori (d a : Reg) (imm : BitVec 14)
  /-- Operation with a sign-extended immediate (R87). -/
  | xori (d a : Reg) (imm : BitVec 14)
  /-- Operation with a sign-extended immediate (R87). -/
  | slti (d a : Reg) (imm : BitVec 14)
  /-- Shift by an immediate (R87). -/
  | shli (d a : Reg) (sh : BitVec 6)
  /-- Shift by an immediate (R87). -/
  | shri (d a : Reg) (sh : BitVec 6)
  /-- Shift by an immediate (R87). -/
  | srai (d a : Reg) (sh : BitVec 6)
  /-- Constant (R88). -/
  | li (d : Reg) (imm : BitVec 32)
  /-- Constant (R88). -/
  | lih (d : Reg) (imm : BitVec 32)
  /-- Bit field (R89). -/
  | bext (d a : Reg) (len : BitVec 7) (pos : BitVec 6)
  /-- Bit field (R89). -/
  | bins (d a : Reg) (len : BitVec 7) (pos : BitVec 6)
  /-- Transfer to a J-form target (R90). -/
  | b (target : CodePos)
  /-- Transfer to a J-form target (R90). -/
  | jal (target : CodePos)
  /-- Transfer to the position in a (R91). -/
  | jr (a : Reg)
  /-- Compare two registers and branch (R92). -/
  | bc (cond : Cond) (a b : Reg) (target : CodePos)
  /-- Compare with an immediate and branch (R92). -/
  | bci (cond : Cond) (a : Reg) (imm : BitVec 14) (target : CodePos)
  /-- Counted loop (R93). -/
  | loop (a : Reg) (last : CodePos)
  /-- Scalar load (R94, R95). -/
  | ldb (d a : Reg) (off : BitVec 14)
  /-- Scalar load (R94, R95). -/
  | ldh (d a : Reg) (off : BitVec 14)
  /-- Scalar load (R94, R95). -/
  | ldw (d a : Reg) (off : BitVec 14)
  /-- Scalar load (R94, R95). -/
  | ldd (d a : Reg) (off : BitVec 14)
  /-- Scalar load (R94, R95). -/
  | ldbn (d a : Reg) (off : BitVec 14)
  /-- Scalar load (R94, R95). -/
  | ldhn (d a : Reg) (off : BitVec 14)
  /-- Scalar load (R94, R95). -/
  | ldwn (d a : Reg) (off : BitVec 14)
  /-- Scalar store of register d (R94, R95). -/
  | stb (d a : Reg) (off : BitVec 14)
  /-- Scalar store of register d (R94, R95). -/
  | sth (d a : Reg) (off : BitVec 14)
  /-- Scalar store of register d (R94, R95). -/
  | stw (d a : Reg) (off : BitVec 14)
  /-- Scalar store of register d (R94, R95). -/
  | std (d a : Reg) (off : BitVec 14)
  /-- Read a CSR (R98). -/
  | csrr (d : Reg) (n : BitVec 12)
  /-- Write a CSR (R98). -/
  | csrw (a : Reg) (n : BitVec 12)
  /-- Exchange with a CSR (R98). -/
  | csrx (d a : Reg) (n : BitVec 12)
  /-- The write of `csrw` to srseed (R98). -/
  | srseedWrite (a : Reg)
  /-- The write of `csrw` to retmode (R98). -/
  | retmodeWrite (a : Reg)
  /-- Stop the stream with TRAP (R99). -/
  | trap (code : BitVec 14)
  /-- Start a stream (R100). -/
  | fork (stream : Stream) (a b : Reg) (target : CodePos)
  /-- Wait for streams and their queues (R101). -/
  | join (m v c : Bool)
  /-- End the stream (R102). -/
  | exit
  /-- Register or remove a handler (R105). -/
  | catchEv (cls : EvClass) (handler : CodePos)
  /-- Return from a handler (R109). -/
  | evret
  /-- Exchange the event mask (R106). -/
  | evmask (d : Reg) (mask : BitVec 4)
  /-- Give up issue turns (R103). -/
  | yield
  /-- Order queues: [3] S, [2] M, [1] V, [0] C (R104). -/
  | qfence (queues : BitVec 4)
  /-- Fence (R177, R178). -/
  | fence (kind : FenceKind) (scope : Scope)
  /-- Ring instruction (R181). -/
  | rclaim (d : Reg) (k : KIdx)
  /-- Ring instruction (R181). -/
  | rfill (d : Reg) (k : KIdx)
  /-- Ring instruction (R181). -/
  | rwait (d : Reg) (k : KIdx)
  /-- Ring instruction (R181). -/
  | rfree (d : Reg) (k : KIdx)
  /-- Configure a ring register (R180). -/
  | rset (a b : Reg) (k : KIdx)
  /-- Ring status (R183). -/
  | rstat (d : Reg) (k : KIdx)
  /-- Give a buffer handle (R185). -/
  | hgive (a : Reg) (target : BitVec 2)
  /-- Take a buffer handle (R185). -/
  | htake (d : Reg)
  /-- Barrier (R187). -/
  | bar (scope : Scope)
  /-- Barrier arrival (R187). -/
  | bara (d : Reg) (scope : Scope)
  /-- Barrier test (R187). -/
  | bart (d a : Reg) (scope : Scope)
  /-- Atomic operation (R188). -/
  | aop (d a b : Reg) (op : AtomOp) (order : AOrder) (scope : Scope) (w : Bool)
  /-- Atomic compare and swap (R189). -/
  | acas (d a b cmp : Reg) (order : AOrder) (scope : Scope) (w : Bool)
  /-- Pop the return queue (R191). -/
  | apop (d : Reg)
  /-- Post to a board (R195). -/
  | bpost (d a b : Reg) (board : BoardRef) (vm : BitVec 3)
  /-- Look at a board (R195). -/
  | blook (d : Reg) (board : BoardRef) (vm : BitVec 3)
  /-- Read through a view (R196). -/
  | bread (d b : Reg) (board : BoardRef) (vm : BitVec 3)
  /-- Advance a board's round (R197). -/
  | bround (d : Reg) (board : BoardRef)
  /-- Read reed time (R198). -/
  | tread (d b : Reg)
  /-- Wait for reed time (R199). -/
  | twait (a : Reg)
  /-- Open a bobbin (R201). -/
  | bopen (d a b : Reg) (index : BitVec 6) (kind : BobKind)
  /-- Contribute a factor register (R202). -/
  | bcontFreg (a : Reg) (p : PIdx) (f : FIdx)
  /-- Contribute from the scratchpad (R202). -/
  | bcontMem (a b : Reg) (p : PIdx)
  /-- Wait for a bobbin (R203). -/
  | bwait (d a : Reg)
  /-- Free a bobbin (R203). -/
  | bfree (a : Reg)
  /-- Shape a tile; rows and cols are the counts less one (R117). -/
  | vshape (td : Reg) (rows cols : BitVec 8) (tag : Tag)
  /-- Load a tile (R118, R119). -/
  | vld (td ta tb : Reg) (pm : PMod) (side : Reg) (tag : Tag) (rows cols : BitVec 8)
  /-- Store a tile (R120). -/
  | vst (td ta tb : Reg) (p : PIdx) (side : Reg)
  /-- Zero a tile (R121). -/
  | vzeroKeep (td : Reg) (pm : PMod)
  /-- Empty a tile (R121). -/
  | vzeroEmpty (td : Reg)
  /-- Copy a tile (R122). -/
  | vmov (td ta : Reg) (pm : PMod)
  /-- Element-wise arithmetic on tiles (R125, R126). -/
  | vadd (td ta tb : Reg) (pm : PMod) (mode : RMode) (any : Bool)
  /-- Element-wise arithmetic on tiles (R125, R126). -/
  | vsub (td ta tb : Reg) (pm : PMod) (mode : RMode) (any : Bool)
  /-- Element-wise arithmetic on tiles (R125, R126). -/
  | vmul (td ta tb : Reg) (pm : PMod) (mode : RMode) (any : Bool)
  /-- Element-wise arithmetic on tiles (R125, R126). -/
  | vfma (td ta tb : Reg) (pm : PMod) (mode : RMode) (any : Bool)
  /-- Element-wise arithmetic on tiles (R125, R126). -/
  | vmax (td ta tb : Reg) (pm : PMod) (mode : RMode) (any : Bool)
  /-- Element-wise arithmetic on tiles (R125, R126). -/
  | vmin (td ta tb : Reg) (pm : PMod) (mode : RMode) (any : Bool)
  /-- Element-wise sign operation (R125, R126). -/
  | vabs (td ta : Reg) (pm : PMod) (mode : RMode)
  /-- Element-wise sign operation (R125, R126). -/
  | vneg (td ta : Reg) (pm : PMod) (mode : RMode)
  /-- Element-wise arithmetic with an FP32 scalar (R125). -/
  | vadds (td ta tb : Reg) (pm : PMod) (mode : RMode)
  /-- Element-wise arithmetic with an FP32 scalar (R125). -/
  | vmuls (td ta tb : Reg) (pm : PMod) (mode : RMode)
  /-- Broadcast a factor register (R127). -/
  | vbcr (td : Reg) (f : FIdx) (pm : PMod) (mode : RMode)
  /-- Broadcast a factor register (R127). -/
  | vbcc (td : Reg) (f : FIdx) (pm : PMod) (mode : RMode)
  /-- Convert (R129). -/
  | vcvt (td ta : Reg) (tag : Tag) (pm : PMod) (mode : RMode)
  /-- Transcendental function (R130). -/
  | vexp2 (td ta : Reg) (pm : PMod) (mode : RMode)
  /-- Transcendental function (R130). -/
  | vlog2 (td ta : Reg) (pm : PMod) (mode : RMode)
  /-- Transcendental function (R130). -/
  | vrcp (td ta : Reg) (pm : PMod) (mode : RMode)
  /-- Transcendental function (R130). -/
  | vrsq (td ta : Reg) (pm : PMod) (mode : RMode)
  /-- Transcendental function (R130). -/
  | vsig (td ta : Reg) (pm : PMod) (mode : RMode)
  /-- Transcendental function (R130). -/
  | vtanh (td ta : Reg) (pm : PMod) (mode : RMode)
  /-- Compare into a predicate (R131). -/
  | vcmp (pd : PIdx) (ta tb : Reg) (pm : PMod) (cmp : VCmp) (any : Bool)
  /-- Select by a predicate (R132). -/
  | vsel (td ta tb : Reg) (p : PIdx) (any : Bool)
  /-- Predicate truth table (R133). -/
  | vpset (pd pa pb : PIdx) (tt : BitVec 4)
  /-- Reduction (R135 to R138). -/
  | vrsum (ta : Reg) (p : PIdx) (dest : RedDest)
  /-- Reduction (R135 to R138). -/
  | vrmax (ta : Reg) (p : PIdx) (dest : RedDest)
  /-- Reduction (R135 to R138). -/
  | vrmaxi (ta : Reg) (p : PIdx) (dest : RedDest)
  /-- Reduction (R135 to R138). -/
  | vcsum (ta : Reg) (p : PIdx) (dest : RedDest)
  /-- Reduction (R135 to R138). -/
  | vcmax (ta : Reg) (p : PIdx) (dest : RedDest)
  /-- Top k of each column (R134). -/
  | vctopk (pd : PIdx) (ta tb : Reg) (pm : PMod)
  /-- Transpose (R139). -/
  | vtrans (td ta : Reg) (pm : PMod)
  /-- Copy a region into a tile (R140). -/
  | vacc (td : Reg) (a : AIdx) (pm : PMod)
  /-- Copy a tile into a region (R141). -/
  | vtoacc (a : AIdx) (ta : Reg) (p : PIdx)
  /-- Write the RS or CS slot (R143). -/
  | vsetrs (td tb : Reg) (desc : BitVec 32)
  /-- Write the RS or CS slot (R143). -/
  | vsetcs (td tb : Reg) (desc : BitVec 32)
  /-- Write the RP and CQ slots (R143). -/
  | vsetrk (td ta tb : Reg)
  /-- Resolve a tile (R146). -/
  | vresolve (td : Reg) (mode : RMode)
  /-- Read a slot (R144). -/
  | vgetslot (d ta : Reg) (sel : SlotSel)
  /-- Write a slot (R144). -/
  | vputslot (td a : Reg) (sel : SlotSel)
  /-- Set or clear the strict bit (R147). -/
  | vstrict (td : Reg) (clr : Bool)
  /-- Load or store a factor register (R124). -/
  | vfld (f : FIdx) (a : Reg)
  /-- Load or store a factor register (R124). -/
  | vfst (f : FIdx) (a : Reg)
  /-- Factor-register arithmetic (R149). -/
  | vfop (fd fa fb : FIdx) (op : FOp)
  /-- Scale rows or columns (R128). -/
  | vscl (td ta : Reg) (f : FIdx) (pm : PMod) (mode : RMode) (cols : Bool)
  /-- Rotate column pairs (R150). -/
  | vrope (td ta : Reg) (f : FIdx) (pm : PMod) (mode : RMode)
  /-- Gather elements (R123). -/
  | vgather (td ta tb : Reg) (pm : PMod)
  /-- Scatter elements (R123). -/
  | vscat (td ta tb : Reg) (p : PIdx)
  /-- Describe a tile (R148). -/
  | vstat (d ta : Reg)
  /-- Merge softmax states (R151). -/
  | vsmerge (td ta tb : Reg)
  /-- Load the nest shadow (R163). -/
  | mloadn (a : Reg)
  /-- Set a count (R160). -/
  | mnest (a : Reg) (level : BitVec 3)
  /-- Set strides (R160). -/
  | mstep (d a b : Reg) (level : BitVec 3)
  /-- Set an operand (R161). -/
  | mopnd (isB : Bool) (op : MOperand)
  /-- Describe a region (R162). -/
  | mregion (a : Reg) (r : AIdx)
  /-- Set the per-tensor scale (R160). -/
  | mscale (a : Reg)
  /-- Start the nest (R164). -/
  | mgo (extra : Option FIdx)
  /-- Wait for the M queue (R165). -/
  | mwait
  /-- Zero a region (R166). -/
  | mzero (r : AIdx)
  /-- Drain a region (R169). -/
  | mdrain (a b : Reg) (r : AIdx) (tag : Tag) (rmode : RMode) (mode : DrainMode)
  /-- Name the profile (R160). -/
  | mprog (n : BitVec 4)
  /-- Engine status (R168). -/
  | mstat (d : Reg)
  /-- Write a region's slot (R167). -/
  | mslot (a : Reg) (r : AIdx) (sel : SlotSel)
  /-- The permitted matrix rate moves (R305). -/
  | rampLimitUpdate (pkg die : Nat)
  /-- Load a shape record (R209). -/
  | cshape (a : Reg) (entry : BitVec 4)
  /-- Copy command (R212 to R216). -/
  | ccopy (a b : Reg) (comp : Completion)
  /-- Copy command (R212 to R216). -/
  | cpush (a b : Reg) (comp : Completion)
  /-- Copy command (R212 to R216). -/
  | cpull (a b : Reg) (comp : Completion)
  /-- Copy command (R212 to R216). -/
  | cmcast (a b : Reg) (comp : Completion)
  /-- Copy command (R212 to R216). -/
  | cpage (a b : Reg) (comp : Completion)
  /-- Reducing command (R214). -/
  | cred (a b : Reg) (op : CredOp) (comp : Completion)
  /-- Code or attention command (R217, R218). -/
  | ccode (d a b : Reg) (comp : Completion)
  /-- Code or attention command (R217, R218). -/
  | cattn (d a b : Reg) (comp : Completion)
  /-- Wait for the C queue (R219). -/
  | cwait
  /-- Shuttle status (R220). -/
  | cstat (d : Reg)
  /-- A drupelet finishes the index-th page in flight (R337). -/
  | drupeletPageState (index : Nat)
  /-- A quad combiner forwards its oldest write (R256). -/
  | combinerForward (pkg die quad : Nat)
  /-- A walker fills the die's leaf cache (R317, R320). -/
  | pageWalk (pkg die ctx va : Nat)
  /-- The directory takes an invalidation request (R322, R323). -/
  | tlbInvalidate (pkg : Nat) (rec : BitVec 128)
  /-- A die acknowledges the oldest request (R323). -/
  | invalidationAck (pkg die : Nat)
  /-- Sahfin maps a page and the faulting member resumes (R325). -/
  | demandFaultResolve (entryAddr : Nat) (entry : BitVec 64)
  /-- A sync message steers a die's counter (R278, R279). -/
  | reedSync (pkg die time bound : Nat)
  /-- A die's time changes state (R279). -/
  | holdoverEntry (pkg die : Nat)
  /-- A die's time changes state (R279). -/
  | timeUnlock (pkg die : Nat)
  /-- Link error handling (R346, R347). -/
  | flitReplay (link : LinkId)
  /-- Link error handling (R346, R347). -/
  | linkRetrain (link : LinkId)
  /-- Link error handling (R346, R347). -/
  | linkRecoveryTimeout (link : LinkId)
  /-- The host submits a packet (R289, R292). -/
  | launchSubmit (packet : BitVec 1024)
  /-- Sahfin admits a waiting launch (R299). -/
  | launchAdmit (launch : Nat)
  /-- Sahfin stops a launch (R300, R306). -/
  | budgetExpiry (launch : Nat)
  /-- Sahfin stops a launch (R300, R306). -/
  | gangPreemption (launch : Nat)
  /-- Sahfin resumes a launch (R309). -/
  | launchResume (launch : Nat) (budget : Option Nat)
  /-- The host ends, halts or reruns a launch (R370, R377). -/
  | hostStop (launch : Nat)
  /-- The host ends, halts or reruns a launch (R370, R377). -/
  | hostHalt (launch : Nat)
  /-- The host ends, halts or reruns a launch (R370, R377). -/
  | launchRerun (launch : Nat)
  /-- The host arms a debug record (R376). -/
  | debugRecordArm (launch : Nat) (rec : List (BitVec 8))
  /-- A unit of the core in focus fails (R373, R377): unit 2u + k as the cause codes number them, k 0 a loss of parity and
  1 a stall; 22 an uncorrectable error in the state of its rings, bobbins, boards and barriers. -/
  | unitStall (unit : Nat)
  /-- The host creates a collective (R353). -/
  | collectiveCreate (pkg : Nat) (rec : List (BitVec 8))
  /-- Collective steps (R353, R357, R358). -/
  | collectiveDestroy (collid : Nat)
  /-- Collective steps (R353, R357, R358). -/
  | collComplete (collid : Nat)
  /-- Collective steps (R353, R357, R358). -/
  | collTimeout (collid : Nat)
  /-- Collective steps (R353, R357, R358). -/
  | collAbort (collid : Nat)
  /-- A contribution reaches the weft processor (R354). -/
  | collContribution (collid rank word : Nat) (value : BitVec 32)
  /-- The host raises an allowance (R350). -/
  | allowanceRaise (launch cap amount : Nat)
  /-- The package boots (R378). -/
  | powerOn (pkg : Nat)
  /-- A streamed firmware image is taken (R381). -/
  | recoveryImage (pkg : Nat) (image : List (BitVec 8))
  /-- Sahfin returns a quote (R383). -/
  | quoteRequest (pkg : Nat) (nonce : BitVec 384) (launch : Option Nat)
  /-- Sahfin takes a core out of use, and lists it (R384, R385). -/
  | coreRetire (pkg die phys : Nat)
  /-- Sahfin takes an HBM row out of use, moving the pages that lie in it to toPA, and lists it (R384, R385); entryAddr may name
  the leaf of a page that no launch maps. -/
  | hbmRowRetire (pkg fromPA toPA entryAddr : Nat)
  /-- A die link is recalibrated (R384). -/
  | dlinkRecal (pkg n : Nat)
  /-- An HBM channel is recalibrated (R384). -/
  | hbmRecal (pkg stack channel : Nat)
  /-- Sahfin is updated (R384). -/
  | sahfinUpdate (pkg : Nat)
  /-- A package of a pod is replaced (R384). -/
  | packageReplace (pkg : Nat)
  /-- The core supply leaves its range (R386). -/
  | supplyStop (pkg die mv : Nat)
  /-- Thermal limits (R387). -/
  | thermalThrottle (pkg die : Nat)
  /-- Thermal limits (R387). -/
  | thermalStop (pkg die : Nat)
  /-- A clock fails (R377). -/
  | clockLoss (pkg die : Nat)
  /-- A management core fails (R377). -/
  | mgmtFailover (pkg core : Nat)
  /-- The host link is reset (R377). -/
  | hostReset (pkg : Nat)
  /-- An expander stops answering (R377). -/
  | cxlDown (pkg expander : Nat)
  /-- An HBM stack fails (R377). -/
  | stackFail (pkg stack : Nat)
  /-- A soft error is found, by a scrub or a read (R373). -/
  | backgroundScrub (pkg : Nat) (place : ScrubPlace) (uncorrectable : Bool)
  /-- A word with no instruction is issued (R70). -/
  | illegalOpcode (word : BitVec 32)
  /-- A word with no instruction is issued (R70). -/
  | privilegedOpcode (word : BitVec 32)
  /-- A retrain completes in time (R347). -/
  | retrainRecovery (link : LinkId)
  /-- Pod time disciplines the grandmaster (R278). -/
  | ieee1588Sync (pkg time bound : Nat)
  /-- Thrumub sets the epoch (R278). -/
  | packageTimeEpoch (pkg time : Nat)
  /-- The host registers a range as on demand (R325). -/
  | onDemandRegister (ctx lo hi : Nat)
  /-- The host removes a capability (R377). -/
  | capabilityRevoke (launch cap : Nat)
  /-- The host reads or writes HBM (R342). -/
  | bar2Access (pkg addr : Nat) (write : Option (BitVec 64))
  /-- Power is lost (R385). -/
  | powerLoss (pkg : Nat)
  /-- The package power limit is reached (R386). -/
  | packagePowerCap (pkg : Nat)
  /-- Deliver the pending event to S (R107, R108). -/
  | eventDelivery
  /-- The armed deadline is reached (R98, R281). -/
  | evdlDeadline
  /-- A die acknowledges the oldest release token (R266). -/
  | releaseTokenAck
  /-- A fill message arrives (R182). -/
  | fillMessage
  /-- A credit arrives (R182). -/
  | freeCredit
  /-- An arrival message reaches its barrier instance (R186). -/
  | barrierArrival
  /-- The oldest travelling atomic is applied at its home (R193). -/
  | atomicHomeApply
  /-- The oldest travelling atomic reply arrives (R191). -/
  | atomicReply
  /-- The oldest travelling board message is applied at its home (R273). -/
  | boardHomeStep
  /-- The counter reaches the deadline of the waiting `twait` (R281). -/
  | twaitExpiry
  /-- The oldest travelling contribution reaches its home (R202). -/
  | bobbinContribution
  /-- The engine performs one step of the active nest (R154). -/
  | nestStep
  /-- The oldest drain is performed (R169 to R171). -/
  | drainRegion
  /-- The shuttle performs the oldest command's elements (R210). -/
  | shuttleWalk
  /-- The oldest command's completion actions are taken (R205). -/
  | commandPerformed
  /-- The oldest command's block-table entry is replaced (R216). -/
  | cpageEntryReplace
  /-- A multicast credit arrives (R215). -/
  | cmcastCredit
  /-- The shuttle sends one page of the oldest command (R336). -/
  | cattnPageSend
  /-- The oldest travelling load's data returns (R256). -/
  | loadReply
  /-- The current stream enters a code line (R59). -/
  | lineFetch
  /-- Dispatch hardware of the core in focus (R298). -/
  | dispatchStart
  /-- Dispatch hardware of the core in focus (R298). -/
  | dispatchStage
  /-- Dispatch hardware of the core in focus (R298). -/
  | dispatchPromote
  /-- Dispatch hardware of the core in focus (R298). -/
  | dispatchRelease
  /-- The oldest travelling write is applied at its home (R256). -/
  | homeAppliesWrite
  /-- The oldest bind request reaches the remote member (R180). -/
  | remoteRingBind
deriving DecidableEq, Repr

end Sys2Proof
end

