-- ==== Sys2Proof/WellFormed.lean ====
section
/-! DEFINITION. Which instructions an encoding can express: the conditions on code fields that R66 and each
instruction's own rules make RESERVED_FIELD, and the ranges of the hardware steps' parameters. -/
namespace Sys2Proof

/-- A block tag: tags 8 to 12, 18 and 19 carry a scale sidecar (R15). -/
def Tag.isBlock : Tag → Bool
  | .mxe4m3 | .mxe5m2 | .mxe3m2 | .mxe2m3 | .mxe2m1 | .e2m1b16 | .e4m3b16 => true
  | .fp32 | .bf16 | .fp16 | .e4m3 | .e5m2 | .e3m2 | .e2m3 | .e2m1
  | .i8 | .i16 | .i32 | .n8 | .i64 | .empty => false

/-- The float operations of `aop` (R69). -/
def AtomOp.isFloat : AtomOp → Bool
  | .fadd32 | .fmax32 | .fmin32 => true
  | .add | .max | .min | .maxn | .minn | .and | .or | .xor | .xchg => false

/-- The `vfop` operations that read one register (R149). -/
def FOp.isUnary : FOp → Bool
  | .rcp | .rsqrt | .mov | .exp2 | .log2 => true
  | .add | .sub | .mul | .max | .min => false

/-- The opcodes that name no instruction (R70). -/
def unlistedOpcode (op : Nat) : Bool :=
  op == 0 || (0x3D ≤ op && op ≤ 0x3F) || op == 0x47 || (0x49 ≤ op && op ≤ 0x4F) || (0x5C ≤ op && op ≤ 0x5F) ||
  (0x6D ≤ op && op ≤ 0x6F) || (0xA4 ≤ op && op ≤ 0xAF) || (0xBD ≤ op && op ≤ 0xC7) || (0xD3 ≤ op && op ≤ 0xDF) ||
  0xF0 ≤ op

/-- The opcodes of R70 that fault PRIVILEGED_OPCODE at user privilege. -/
def privilegedOp (op : Nat) : Bool := 0xE0 ≤ op && op ≤ 0xEF

/-- A reduction's word 2 holds zero in every field its destination does not use (R135). -/
def RedDest.wf (usesQ usesX bobbinOk : Bool) : RedDest → Bool
  | .tile _ q => usesQ || q == 0
  | .freg _ x => usesX || x == 0
  | .bobbin _ => bobbinOk

/-- A package and die that can exist (R1). -/
def dieWf (pkg die : Nat) : Bool := pkg < 64 && die < 4

/-- A link that can exist (R1, R377). -/
def LinkId.wf : LinkId → Bool
  | .dlink pkg n => pkg < 64 && n < 4
  | .hlink pkg die => pkg < 64 && die < 4
  | .mesh pkg die => pkg < 64 && die < 4
  | .weft pkg port => pkg < 64 && port < 18
  | .host pkg => pkg < 64

/-- The instruction's code fields hold no reserved value (R66). -/
def Instr.wf : Instr → Bool
  | .bext _ _ len pos => 1 ≤ len.toNat && len.toNat ≤ 64 && pos.toNat + len.toNat ≤ 64
  | .bins _ _ len pos => 1 ≤ len.toNat && len.toNat ≤ 64 && pos.toNat + len.toNat ≤ 64
  | .csrw _ n => n != 5 && n != 6
  | .fork st _ _ _ => st != .s
  | .join _ _ _ => true
  | .qfence _ => true
  | .aop _ _ _ op _ _ w => !(w && op.isFloat)
  | .vshape _ _ _ tag => tag != .empty
  | .vld _ _ _ _ side tag _ _ => tag != .empty && (tag.isBlock || side == 0)
  | .vcvt _ _ tag _ _ => tag != .empty
  | .vrsum _ _ dest => dest.wf true false true
  | .vcsum _ _ dest => dest.wf true false true
  | .vrmax _ _ dest => dest.wf false false true
  | .vcmax _ _ dest => dest.wf false false true
  | .vrmaxi _ _ dest => dest.wf true true false
  | .vfop _ _ fb op => !op.isUnary || fb == 0
  | .mnest _ level => level.toNat < 6
  | .mstep _ _ _ level => level.toNat < 6
  | .mopnd _ (.tile _ _) => true
  | .mopnd _ (.addr _ _ tag src table) => tag != .empty && (src == .table || table == 0)
  | .mdrain _ _ _ tag _ _ => tag != .empty
  | .ccopy _ _ comp => comp.cap == 0
  | .cred _ _ _ comp => comp.cap == 0
  | .cpage _ _ comp => comp.cap == 0
  | .cmcast _ _ comp => !comp.fill && comp.ring == 0
  | .ccode _ _ _ comp => comp.cap == 0 && comp.shape == 0
  | .cattn _ _ _ comp => comp.cap == 0 && comp.shape == 0 && comp.fill
  | .illegalOpcode w => unlistedOpcode (w.toNat / 2 ^ 24)
  | .privilegedOpcode w => privilegedOp (w.toNat / 2 ^ 24)
  | .rampLimitUpdate pkg die | .pageWalk pkg die _ _ | .invalidationAck pkg die | .reedSync pkg die _ _
  | .holdoverEntry pkg die | .timeUnlock pkg die | .supplyStop pkg die _
  | .clockLoss pkg die => dieWf pkg die
  | .thermalThrottle pkg die | .thermalStop pkg die => pkg < 64 && die < 5
  | .combinerForward pkg die quad => dieWf pkg die && quad < 7
  | .coreRetire pkg die phys => dieWf pkg die && phys < 26
  | .flitReplay link | .linkRetrain link | .linkRecoveryTimeout link | .retrainRecovery link => link.wf
  | .dlinkRecal pkg n => dieWf pkg n
  | .stackFail pkg stack => pkg < 64 && stack < 8
  | .hbmRecal pkg stack _ => pkg < 64 && stack < 8
  | .mgmtFailover pkg core => pkg < 64 && core < 4
  | .cxlDown pkg n => pkg < 64 && n < 16
  | .unitStall unit => unit < 23
  | .tlbInvalidate pkg _ | .powerOn pkg | .recoveryImage pkg _ | .quoteRequest pkg _ _ | .hbmRowRetire pkg _ _ _
  | .sahfinUpdate pkg | .packageReplace pkg | .hostReset pkg | .backgroundScrub pkg _ _ | .ieee1588Sync pkg _ _
  | .packageTimeEpoch pkg _ | .bar2Access pkg _ _ | .powerLoss pkg | .packagePowerCap pkg
  | .collectiveCreate pkg _ => pkg < 64
  | .onDemandRegister _ lo hi => lo ≤ hi
  | _ => true

end Sys2Proof
end

