-- ==== Sys2Proof/Decode.lean ====
section
/-! DEFINITION. Decoding (R57, R65 to R78): total on any bytes, refusing by name; and the encoder, written from the
same encoding tables. -/
namespace Sys2Proof

/-! ### Field codes (R5, R15, R23, R69) -/

def Stream.code : Stream → Nat
  | .s => 0 | .m => 1 | .v => 2 | .c => 3

def Stream.ofCode : Nat → Option Stream
  | 0 => some .s | 1 => some .m | 2 => some .v | 3 => some .c | _ => none

def Scope.code : Scope → Nat
  | .core => 0 | .quad => 1 | .die => 2 | .pkg => 3 | .pod => 4 | .sys => 5

def Scope.ofCode : Nat → Option Scope
  | 0 => some .core | 1 => some .quad | 2 => some .die | 3 => some .pkg | 4 => some .pod | 5 => some .sys | _ => none

def RMode.code : RMode → Nat
  | .rne => 0 | .rtz => 1 | .rup => 2 | .rdn => 3 | .sr => 4

def RMode.ofCode : Nat → Option RMode
  | 0 => some .rne | 1 => some .rtz | 2 => some .rup | 3 => some .rdn | 4 => some .sr | _ => none

def Tag.code : Tag → Nat
  | .fp32 => 0 | .bf16 => 1 | .fp16 => 2 | .e4m3 => 3 | .e5m2 => 4 | .e3m2 => 5 | .e2m3 => 6 | .e2m1 => 7
  | .mxe4m3 => 8 | .mxe5m2 => 9 | .mxe3m2 => 10 | .mxe2m3 => 11 | .mxe2m1 => 12 | .i8 => 13 | .i16 => 14 | .i32 => 15
  | .n8 => 16 | .i64 => 17 | .e2m1b16 => 18 | .e4m3b16 => 19 | .empty => 31

/-- A format field that requires a format (R18): 20 to 31 are refused. -/
def Tag.ofCode : Nat → Option Tag
  | 0 => some .fp32 | 1 => some .bf16 | 2 => some .fp16 | 3 => some .e4m3 | 4 => some .e5m2 | 5 => some .e3m2
  | 6 => some .e2m3 | 7 => some .e2m1 | 8 => some .mxe4m3 | 9 => some .mxe5m2 | 10 => some .mxe3m2 | 11 => some .mxe2m3
  | 12 => some .mxe2m1 | 13 => some .i8 | 14 => some .i16 | 15 => some .i32 | 16 => some .n8 | 17 => some .i64
  | 18 => some .e2m1b16 | 19 => some .e4m3b16 | _ => none

def Cond.code : Cond → Nat
  | .eq => 0 | .ne => 1 | .lt => 2 | .ge => 3 | .ltn => 4 | .gen => 5

def Cond.ofCode : Nat → Option Cond
  | 0 => some .eq | 1 => some .ne | 2 => some .lt | 3 => some .ge | 4 => some .ltn | 5 => some .gen | _ => none

def FenceKind.code : FenceKind → Nat
  | .acq => 1 | .rel => 2 | .full => 3

def FenceKind.ofCode : Nat → Option FenceKind
  | 1 => some .acq | 2 => some .rel | 3 => some .full | _ => none

def AOrder.code : AOrder → Nat
  | .rlx => 0 | .acq => 1 | .rel => 2 | .ar => 3

def AOrder.ofCode : Nat → Option AOrder
  | 0 => some .rlx | 1 => some .acq | 2 => some .rel | 3 => some .ar | _ => none

def AtomOp.code : AtomOp → Nat
  | .add => 0 | .fadd32 => 1 | .max => 2 | .min => 3 | .maxn => 4 | .minn => 5 | .fmax32 => 6 | .fmin32 => 7
  | .and => 8 | .or => 9 | .xor => 10 | .xchg => 11

def AtomOp.ofCode : Nat → Option AtomOp
  | 0 => some .add | 1 => some .fadd32 | 2 => some .max | 3 => some .min | 4 => some .maxn | 5 => some .minn
  | 6 => some .fmax32 | 7 => some .fmin32 | 8 => some .and | 9 => some .or | 10 => some .xor | 11 => some .xchg
  | _ => none

def VCmp.code : VCmp → Nat
  | .eq => 0 | .ne => 1 | .lt => 2 | .le => 3 | .gt => 4 | .ge => 5 | .un => 6

def VCmp.ofCode : Nat → Option VCmp
  | 0 => some .eq | 1 => some .ne | 2 => some .lt | 3 => some .le | 4 => some .gt | 5 => some .ge | 6 => some .un
  | _ => none

def EvClass.code : EvClass → Nat
  | .tier => 0 | .notify => 1 | .sealed => 2 | .deadline => 3

def EvClass.ofCode : Nat → Option EvClass
  | 0 => some .tier | 1 => some .notify | 2 => some .sealed | 3 => some .deadline | _ => none

def BobKind.code : BobKind → Nat
  | .sum => 0 | .sumsq => 1 | .max => 2 | .min => 3

def BobKind.ofCode (n : Nat) : BobKind :=
  match n % 4 with
  | 0 => .sum | 1 => .sumsq | 2 => .max | _ => .min

/-- A slot selector as `vgetslot` writes it: bit 2 is cm, bits [1:0] the slot, zero under cm (R76). -/
def SlotSel.code : SlotSel → Nat
  | .rs => 0 | .cs => 1 | .rp => 2 | .cq => 3 | .cm => 4

def SlotSel.ofCode : Nat → Option SlotSel
  | 0 => some .rs | 1 => some .cs | 2 => some .rp | 3 => some .cq | 4 => some .cm | _ => none

def FOp.code : FOp → Nat
  | .add => 0 | .sub => 1 | .mul => 2 | .max => 3 | .min => 4 | .rcp => 5 | .rsqrt => 6 | .mov => 7 | .exp2 => 8
  | .log2 => 9

def FOp.ofCode : Nat → Option FOp
  | 0 => some .add | 1 => some .sub | 2 => some .mul | 3 => some .max | 4 => some .min | 5 => some .rcp
  | 6 => some .rsqrt | 7 => some .mov | 8 => some .exp2 | 9 => some .log2 | _ => none

def CredOp.code : CredOp → Nat
  | .fadd32 => 0 | .add32 => 1 | .add64 => 2

def CredOp.ofCode : Nat → Option CredOp
  | 0 => some .fadd32 | 1 => some .add32 | 2 => some .add64 | _ => none

def DrainMode.code : DrainMode → Nat
  | .st => 0 | .add => 1 | .kv => 2

def DrainMode.ofCode : Nat → Option DrainMode
  | 0 => some .st | 1 => some .add | 2 => some .kv | _ => none

def ScaleSrc.code : ScaleSrc → Nat
  | .none => 0 | .table => 1 | .side => 2

def ScaleSrc.ofCode : Nat → Option ScaleSrc
  | 0 => some .none | 1 => some .table | 2 => some .side | _ => Option.none

def bit (b : Bool) : Nat := if b then 1 else 0

/-! ### Decoding -/

/-- Why no instruction is read (R59, R66). -/
inductive DecodeErr where
  /-- a long instruction without its second word -/
  | truncated
  /-- an unused field is not zero, or a code field holds a reserved value -/
  | reservedField
deriving DecidableEq, Repr

/-- The opcodes of the long instructions (R72 to R78). -/
def longOpcode (op : Nat) : Bool :=
  op == 0x20 || op == 0x21 || op == 0x23 || op == 0x24 || op == 0x2B || op == 0x2C || op == 0x2D || op == 0x40 ||
  op == 0x43 || op == 0x60 || op == 0x61 || (0x63 ≤ op && op ≤ 0x66) || op == 0x70 || op == 0x71 ||
  (0x8B ≤ op && op ≤ 0x8F) || op == 0x94 || op == 0x95 || op == 0xB3 || op == 0xB9 || (0xC9 ≤ op && op ≤ 0xCF) ||
  op == 0xD2

/-- The streams an opcode is legal in (R72 to R78); `bcont` reads its x[8] as well (R75). -/
def opcodeLegalIn (op : Nat) (x8 : Bool) (st : Stream) : Bool :=
  if op ≤ 0x3F then true
  else if op == 0x42 || op == 0x46 || op == 0x48 then true
  else if op ≤ 0x4F then st == .s
  else if op ≤ 0x56 then true
  else if op ≤ 0x68 then st == .s
  else if op == 0x6A then st == .v || (st == .s && x8)
  else if op ≤ 0x6C then st == .s || st == .v
  else if op ≤ 0xA3 then st == .v
  else if op ≤ 0xBC then st == .m
  else st == .c

/-- The first word's fields (R65). -/
def fD (n : Nat) : Reg := BitVec.ofNat 5 (n / 2 ^ 19)
def fA (n : Nat) : Reg := BitVec.ofNat 5 (n / 2 ^ 14)
def fB (n : Nat) : Reg := BitVec.ofNat 5 (n / 2 ^ 9)
def fX (n : Nat) : Nat := n % 2 ^ 9
def fImm (n : Nat) : BitVec 14 := BitVec.ofNat 14 n
/-- Bits [lo+len−1:lo] of a word. -/
def fBits (n lo len : Nat) : Nat := n / 2 ^ lo % 2 ^ len
def fFlag (n lo : Nat) : Bool := fBits n lo 1 == 1
def fPMod (n : Nat) : PMod := ⟨BitVec.ofNat 3 (n / 2 ^ 6), fFlag n 5⟩

/-- An instruction, or RESERVED_FIELD. -/
abbrev Decoded := Except DecodeErr Instr

def okIf (c : Bool) (i : Instr) : Decoded := if c then .ok i else .error .reservedField

def okSome {α : Type} (o : Option α) (f : α → Decoded) : Decoded :=
  match o with
  | some a => f a
  | none => .error .reservedField

/-- An R3 form that uses d, a and b. -/
def dR3 (n : Nat) (f : Reg → Reg → Reg → Instr) : Decoded := okIf (fX n == 0) (f (fD n) (fA n) (fB n))
/-- An R3 form that uses d and a. -/
def dDA (n : Nat) (f : Reg → Reg → Instr) : Decoded := okIf (fBits n 0 14 == 0) (f (fD n) (fA n))
/-- An RI form. -/
def dRI (n : Nat) (f : Reg → Reg → BitVec 14 → Instr) : Decoded := .ok (f (fD n) (fA n) (fImm n))
/-- An RI shift (R87). -/
def dSh (n : Nat) (f : Reg → Reg → BitVec 6 → Instr) : Decoded :=
  okIf (fBits n 6 8 == 0) (f (fD n) (fA n) (BitVec.ofNat 6 n))
/-- A J form. -/
def dJ (n : Nat) (f : CodePos → Instr) : Decoded := .ok (f (BitVec.ofNat 24 n))
/-- A form that uses no field. -/
def dNone (n : Nat) (i : Instr) : Decoded := okIf (fBits n 0 24 == 0) i
/-- A form that uses a alone. -/
def dOnlyA (n : Nat) (f : Reg → Instr) : Decoded := okIf (fBits n 19 5 == 0 && fBits n 0 14 == 0) (f (fA n))
/-- A form that uses d alone. -/
def dOnlyD (n : Nat) (f : Reg → Instr) : Decoded := okIf (fBits n 0 19 == 0) (f (fD n))
/-- A second word that holds a code position in [23:0] (R65). -/
def dTarget (w2 : Nat) (f : CodePos → Instr) : Decoded := okIf (fBits w2 24 8 == 0) (f (BitVec.ofNat 24 w2))

/-- The common group without its long instructions and the CSR writes (R72). -/
def decodeCommon (op n : Nat) : Decoded :=
  match op with
  | 0x01 => dNone n .nop
  | 0x02 => dR3 n .add | 0x03 => dR3 n .sub | 0x04 => dR3 n .and | 0x05 => dR3 n .or | 0x06 => dR3 n .xor
  | 0x07 => dR3 n .shl | 0x08 => dR3 n .shr | 0x09 => dR3 n .sra | 0x0A => dR3 n .mul | 0x0B => dR3 n .mulh
  | 0x0C => dR3 n .mulhn | 0x0D => dR3 n .div | 0x0E => dR3 n .divn | 0x0F => dR3 n .rem | 0x10 => dR3 n .remn
  | 0x11 => dR3 n .min | 0x12 => dR3 n .max | 0x13 => dR3 n .minn | 0x14 => dR3 n .maxn | 0x15 => dR3 n .slt
  | 0x16 => dR3 n .sltn | 0x17 => dR3 n .seq
  | 0x18 => dRI n .addi | 0x19 => dRI n .andi | 0x1A => dRI n .ori | 0x1B => dRI n .xori
  | 0x1C => dSh n .shli | 0x1D => dSh n .shri | 0x1E => dSh n .srai | 0x1F => dRI n .slti
  | 0x22 => okIf (fBits n 3 6 == 0) (.addx (fD n) (fA n) (fB n) (BitVec.ofNat 3 n))
  | 0x25 => dDA n .popc | 0x26 => dDA n .clz | 0x27 => dDA n .ctz
  | 0x28 => dJ n .b | 0x29 => dJ n .jal | 0x2A => dOnlyA n .jr
  | 0x2E => dRI n .ldb | 0x2F => dRI n .ldh | 0x30 => dRI n .ldw | 0x31 => dRI n .ldd | 0x32 => dRI n .ldbn
  | 0x33 => dRI n .ldhn | 0x34 => dRI n .ldwn | 0x35 => dRI n .stb | 0x36 => dRI n .sth | 0x37 => dRI n .stw
  | 0x38 => dRI n .std
  | 0x39 => okIf (fBits n 12 2 == 0 && fBits n 14 5 == 0) (.csrr (fD n) (BitVec.ofNat 12 n))
  | 0x3A => okIf (fBits n 12 2 == 0 && fBits n 19 5 == 0)
      (if fBits n 0 12 == 6 then .srseedWrite (fA n) else if fBits n 0 12 == 5 then .retmodeWrite (fA n)
       else .csrw (fA n) (BitVec.ofNat 12 n))
  | 0x3B => okIf (fBits n 12 2 == 0) (.csrx (fD n) (fA n) (BitVec.ofNat 12 n))
  | 0x3C => okIf (fBits n 14 10 == 0) (.trap (fImm n))
  | _ => .error .reservedField

/-- A ring instruction's fields (R74). -/
def dRing (n : Nat) (f : Reg → KIdx → Instr) : Decoded :=
  okIf (fBits n 4 15 == 0) (f (fD n) (BitVec.ofNat 4 n))

/-- Stream control, fences, rings, handles, barriers, time and bobbins, the short ones (R73 to R75). -/
def decodeSync (op n : Nat) : Decoded :=
  match op with
  | 0x41 => okIf (fBits n 4 20 == 0 && fBits n 0 1 == 0) (.join (fFlag n 3) (fFlag n 2) (fFlag n 1))
  | 0x42 => dNone n .exit
  | 0x44 => dNone n .evret
  | 0x45 => okIf (fBits n 4 15 == 0) (.evmask (fD n) (BitVec.ofNat 4 n))
  | 0x46 => dNone n .yield
  | 0x48 => okIf (fBits n 4 20 == 0) (.qfence (BitVec.ofNat 4 n))
  | 0x50 => okSome (FenceKind.ofCode (fBits n 3 2)) fun k => okSome (Scope.ofCode (fBits n 0 3)) fun sc =>
      okIf (fBits n 5 19 == 0) (.fence k sc)
  | 0x51 => dRing n .rclaim | 0x52 => dRing n .rfill | 0x53 => dRing n .rwait | 0x54 => dRing n .rfree
  | 0x55 => okIf (fBits n 19 5 == 0 && fBits n 4 5 == 0) (.rset (fA n) (fB n) (BitVec.ofNat 4 n))
  | 0x56 => dRing n .rstat
  | 0x57 => okIf (fBits n 19 5 == 0 && fBits n 2 12 == 0) (.hgive (fA n) (BitVec.ofNat 2 n))
  | 0x58 => dOnlyD n .htake
  | 0x59 => okSome (Scope.ofCode (fBits n 0 3)) fun sc => okIf (fBits n 3 21 == 0) (.bar sc)
  | 0x5A => okSome (Scope.ofCode (fBits n 0 3)) fun sc => okIf (fBits n 3 16 == 0) (.bara (fD n) sc)
  | 0x5B => okSome (Scope.ofCode (fBits n 0 3)) fun sc => okIf (fBits n 3 11 == 0) (.bart (fD n) (fA n) sc)
  | 0x62 => dOnlyD n .apop
  | 0x67 => okIf (fX n == 0 && fBits n 14 5 == 0) (.tread (fD n) (fB n))
  | 0x68 => dOnlyA n .twait
  | 0x69 => okIf (fBits n 8 1 == 0) (.bopen (fD n) (fA n) (fB n) (BitVec.ofNat 6 (n / 4)) (BobKind.ofCode n))
  | 0x6A =>
      if fFlag n 8 then okIf (fBits n 19 5 == 0 && fBits n 7 1 == 0 && fBits n 0 4 == 0)
        (.bcontMem (fA n) (fB n) (BitVec.ofNat 3 (n / 16)))
      else okIf (fBits n 19 5 == 0 && fBits n 7 7 == 0) (.bcontFreg (fA n) (BitVec.ofNat 3 (n / 16)) (BitVec.ofNat 4 n))
  | 0x6B => dDA n .bwait
  | 0x6C => dOnlyA n .bfree
  | _ => .error .reservedField

/-- td, ta, tb with the whole standard x but spec (R67, R76). -/
def dBin (n : Nat) (f : Reg → Reg → Reg → PMod → RMode → Bool → Instr) : Decoded :=
  okSome (RMode.ofCode (fBits n 2 3)) fun m => okIf (!fFlag n 0) (f (fD n) (fA n) (fB n) (fPMod n) m (fFlag n 1))
/-- td, ta, tb with p, pm and mode. -/
def dBinS (n : Nat) (f : Reg → Reg → Reg → PMod → RMode → Instr) : Decoded :=
  okSome (RMode.ofCode (fBits n 2 3)) fun m => okIf (fBits n 0 2 == 0) (f (fD n) (fA n) (fB n) (fPMod n) m)
/-- td and ta with p, pm and mode. -/
def dUn (n : Nat) (f : Reg → Reg → PMod → RMode → Instr) : Decoded :=
  okSome (RMode.ofCode (fBits n 2 3)) fun m =>
    okIf (fBits n 9 5 == 0 && fBits n 0 2 == 0) (f (fD n) (fA n) (fPMod n) m)
/-- td and a factor register at [17:14], with p, pm and mode. -/
def dBcast (n : Nat) (f : Reg → FIdx → PMod → RMode → Instr) : Decoded :=
  okSome (RMode.ofCode (fBits n 2 3)) fun m =>
    okIf (fBits n 18 1 == 0 && fBits n 9 5 == 0 && fBits n 0 2 == 0) (f (fD n) (BitVec.ofNat 4 (n / 2 ^ 14)) (fPMod n) m)

/-- Tile and vector instructions, the short ones (R76). -/
def decodeTile (op n : Nat) : Decoded :=
  match op with
  | 0x72 => okIf (!fFlag n 5) (.vst (fD n) (fA n) (fB n) (fPMod n).p (BitVec.ofNat 5 n))
  | 0x73 =>
      if fFlag n 0 then okIf (fBits n 1 18 == 0) (.vzeroEmpty (fD n))
      else okIf (fBits n 9 10 == 0 && fBits n 0 5 == 0) (.vzeroKeep (fD n) (fPMod n))
  | 0x74 => okIf (fBits n 9 5 == 0 && fBits n 0 5 == 0) (.vmov (fD n) (fA n) (fPMod n))
  | 0x75 => dBin n .vadd | 0x76 => dBin n .vsub | 0x77 => dBin n .vmul | 0x78 => dBin n .vfma | 0x79 => dBin n .vmax
  | 0x7A => dBin n .vmin | 0x7B => dUn n .vabs | 0x7C => dUn n .vneg | 0x7D => dBinS n .vadds | 0x7E => dBinS n .vmuls
  | 0x7F => dBcast n .vbcr | 0x80 => dBcast n .vbcc
  | 0x81 => okSome (RMode.ofCode (fBits n 2 3)) fun m => okSome (Tag.ofCode (fBits n 9 5)) fun g =>
      okIf (fBits n 0 2 == 0) (.vcvt (fD n) (fA n) g (fPMod n) m)
  | 0x82 => dUn n .vexp2 | 0x83 => dUn n .vlog2 | 0x84 => dUn n .vrcp | 0x85 => dUn n .vrsq | 0x86 => dUn n .vsig
  | 0x87 => dUn n .vtanh
  | 0x88 => okSome (VCmp.ofCode (fBits n 2 3)) fun c =>
      okIf (fBits n 22 2 == 0 && !fFlag n 0) (.vcmp (BitVec.ofNat 3 (n / 2 ^ 19)) (fA n) (fB n) (fPMod n) c (fFlag n 1))
  | 0x89 => okIf (fBits n 2 4 == 0 && !fFlag n 0) (.vsel (fD n) (fA n) (fB n) (fPMod n).p (fFlag n 1))
  | 0x8A => okIf (fBits n 22 2 == 0 && fBits n 17 2 == 0 && fBits n 12 2 == 0 && fBits n 4 5 == 0)
      (.vpset (BitVec.ofNat 3 (n / 2 ^ 19)) (BitVec.ofNat 3 (n / 2 ^ 14)) (BitVec.ofNat 3 (n / 2 ^ 9)) (BitVec.ofNat 4 n))
  | 0x90 => okIf (fBits n 22 2 == 0 && fBits n 0 5 == 0)
      (.vctopk (BitVec.ofNat 3 (n / 2 ^ 19)) (fA n) (fB n) (fPMod n))
  | 0x91 => okIf (fBits n 9 5 == 0 && fBits n 0 5 == 0) (.vtrans (fD n) (fA n) (fPMod n))
  | 0x92 => okIf (fBits n 17 2 == 0 && fBits n 9 5 == 0 && fBits n 0 5 == 0)
      (.vacc (fD n) (BitVec.ofNat 3 (n / 2 ^ 14)) (fPMod n))
  | 0x93 => okIf (fBits n 22 2 == 0 && fBits n 9 5 == 0 && fBits n 0 6 == 0)
      (.vtoacc (BitVec.ofNat 3 (n / 2 ^ 19)) (fA n) (fPMod n).p)
  | 0x96 => dR3 n .vsetrk
  | 0x97 => okSome (RMode.ofCode (fBits n 2 3)) fun m =>
      okIf (fBits n 5 14 == 0 && fBits n 0 2 == 0) (.vresolve (fD n) m)
  | 0x98 => okSome (SlotSel.ofCode (fBits n 0 3)) fun sel => okIf (fBits n 3 11 == 0) (.vgetslot (fD n) (fA n) sel)
  | 0x99 => okSome (SlotSel.ofCode (fBits n 0 3)) fun sel => okIf (fBits n 3 11 == 0) (.vputslot (fD n) (fA n) sel)
  | 0x9A => okIf (fBits n 1 18 == 0) (.vstrict (fD n) (fFlag n 0))
  | 0x9B => okIf (fBits n 23 1 == 0 && fBits n 0 14 == 0) (.vfld (BitVec.ofNat 4 (n / 2 ^ 19)) (fA n))
  | 0x9C => okIf (fBits n 23 1 == 0 && fBits n 0 14 == 0) (.vfst (BitVec.ofNat 4 (n / 2 ^ 19)) (fA n))
  | 0x9D => okSome (FOp.ofCode (fBits n 0 4)) fun o =>
      okIf (fBits n 23 1 == 0 && fBits n 18 1 == 0 && fBits n 13 1 == 0 && fBits n 4 5 == 0 &&
          (!o.isUnary || fBits n 9 4 == 0))
        (.vfop (BitVec.ofNat 4 (n / 2 ^ 19)) (BitVec.ofNat 4 (n / 2 ^ 14)) (BitVec.ofNat 4 (n / 2 ^ 9)) o)
  | 0x9E => okSome (RMode.ofCode (fBits n 2 3)) fun m => okIf (fBits n 13 1 == 0 && !fFlag n 1)
      (.vscl (fD n) (fA n) (BitVec.ofNat 4 (n / 2 ^ 9)) (fPMod n) m (fFlag n 0))
  | 0x9F => okSome (RMode.ofCode (fBits n 2 3)) fun m => okIf (fBits n 13 1 == 0 && fBits n 0 2 == 0)
      (.vrope (fD n) (fA n) (BitVec.ofNat 4 (n / 2 ^ 9)) (fPMod n) m)
  | 0xA0 => okIf (fBits n 0 5 == 0) (.vgather (fD n) (fA n) (fB n) (fPMod n))
  | 0xA1 => okIf (fBits n 0 6 == 0) (.vscat (fD n) (fA n) (fB n) (fPMod n).p)
  | 0xA2 => dDA n .vstat
  | 0xA3 => dR3 n .vsmerge
  | _ => .error .reservedField

/-- A matrix instruction that names a region in x[2:0] and a register in a. -/
def dRegA (n : Nat) (f : Reg → AIdx → Instr) : Decoded :=
  okIf (fBits n 19 5 == 0 && fBits n 3 11 == 0) (f (fA n) (BitVec.ofNat 3 n))

/-- Matrix and shuttle instructions, the short ones (R77, R78). -/
def decodeEngine (op n : Nat) : Decoded :=
  match op with
  | 0xB0 => dOnlyA n .mloadn
  | 0xB1 => okIf (fBits n 19 5 == 0 && fBits n 3 11 == 0 && fBits n 0 3 < 6) (.mnest (fA n) (BitVec.ofNat 3 n))
  | 0xB2 => okIf (fBits n 3 6 == 0 && fBits n 0 3 < 6) (.mstep (fD n) (fA n) (fB n) (BitVec.ofNat 3 n))
  | 0xB4 => dRegA n .mregion
  | 0xB5 => dOnlyA n .mscale
  | 0xB6 => okIf (fBits n 5 19 == 0 && (fFlag n 4 || fBits n 0 4 == 0))
      (.mgo (if fFlag n 4 then some (BitVec.ofNat 4 n) else none))
  | 0xB7 => dNone n .mwait
  | 0xB8 => okIf (fBits n 3 21 == 0) (.mzero (BitVec.ofNat 3 n))
  | 0xBA => okIf (fBits n 4 20 == 0) (.mprog (BitVec.ofNat 4 n))
  | 0xBB => dOnlyD n .mstat
  | 0xBC => okSome (SlotSel.ofCode (fBits n 5 1 * 4 + fBits n 3 2)) fun sel =>
      okIf (fBits n 19 5 == 0 && fBits n 6 8 == 0) (.mslot (fA n) (BitVec.ofNat 3 n) sel)
  | 0xC8 => okIf (fBits n 19 5 == 0 && fBits n 4 10 == 0) (.cshape (fA n) (BitVec.ofNat 4 n))
  | 0xD0 => dNone n .cwait
  | 0xD1 => dOnlyD n .cstat
  | _ => .error .reservedField

/-- The completion word (R78); the operation of `cred` is read apart. -/
def dCompletion (w2 : Nat) (f : Completion → Decoded) : Decoded :=
  okSome (Scope.ofCode (fBits w2 11 3)) fun sc =>
    if fBits w2 22 10 == 0 then
      f ⟨BitVec.ofNat 6 (w2 / 2 ^ 14), sc, fFlag w2 10, fFlag w2 9, fFlag w2 8, BitVec.ofNat 4 (w2 / 16), BitVec.ofNat 4 w2⟩
    else .error .reservedField

/-- A command of R78 that reads a and b, with or without a capability. -/
def dCopy (n w2 : Nat) (cap : Bool) (f : Reg → Reg → Completion → Instr) : Decoded :=
  dCompletion w2 fun c => okIf (fBits n 19 5 == 0 && fX n == 0 && fBits w2 20 2 == 0 && (cap || c.cap == 0)) (f (fA n) (fB n) c)

/-- A reduction (R135). -/
def dRed (n w2 : Nat) (usesQ usesX bobbinOk : Bool) (f : Reg → PIdx → RedDest → Instr) : Decoded :=
  if fBits n 9 5 == 0 && fBits n 0 6 == 0 && fBits w2 16 16 == 0 then
    match fBits w2 0 2 with
    | 0 => okIf (fBits w2 2 10 == 0 && (usesQ || fBits w2 12 4 == 0))
        (f (fA n) (fPMod n).p (.tile (fD n) (BitVec.ofNat 4 (w2 / 2 ^ 12))))
    | 1 => okIf (fBits n 19 5 == 0 && fBits w2 2 6 == 0 && (usesX || fBits w2 12 4 == 0))
        (f (fA n) (fPMod n).p (.freg (BitVec.ofNat 4 (w2 / 2 ^ 8)) (BitVec.ofNat 4 (w2 / 2 ^ 12))))
    | 2 => okIf (bobbinOk && fBits n 19 5 == 0 && fBits w2 8 8 == 0)
        (f (fA n) (fPMod n).p (.bobbin (BitVec.ofNat 6 (w2 / 4))))
    | _ => .error .reservedField
  else .error .reservedField

/-- A board in word 2: [9:4] the index, [3] a capability (R75). -/
def dBoard (w2 : Nat) : BoardRef := ⟨fFlag w2 3, BitVec.ofNat 6 (w2 / 16)⟩

/-- `mopnd` (R161). -/
def dMopnd (n w2 : Nat) : Decoded :=
  if fBits n 19 5 == 0 && fBits n 1 8 == 0 && fBits w2 18 14 == 0 then
    okSome (ScaleSrc.ofCode (fBits w2 11 2)) fun src =>
      if fFlag w2 5 then
        okIf (fBits n 9 10 == 0 && fBits w2 0 5 == 0 && fBits w2 13 5 == 0)
          (.mopnd (fFlag n 0) (.tile (BitVec.ofNat 5 (w2 / 2 ^ 6)) src))
      else okSome (Tag.ofCode (fBits w2 0 5)) fun tag =>
        okIf (fBits w2 6 5 == 0 && (src == .table || fBits w2 13 5 == 0))
          (.mopnd (fFlag n 0) (.addr (fA n) (fB n) tag src (BitVec.ofNat 5 (w2 / 2 ^ 13))))
  else .error .reservedField

/-- The long instructions (R72 to R78). -/
def decodeLong (op n w2 : Nat) : Decoded :=
  match op with
  | 0x20 => okIf (fBits n 0 19 == 0) (.li (fD n) (BitVec.ofNat 32 w2))
  | 0x21 => okIf (fBits n 0 19 == 0) (.lih (fD n) (BitVec.ofNat 32 w2))
  | 0x23 => okIf (fBits n 0 14 == 0 && fBits w2 13 19 == 0 && 1 ≤ fBits w2 6 7 && fBits w2 6 7 ≤ 64 &&
      fBits w2 0 6 + fBits w2 6 7 ≤ 64) (.bext (fD n) (fA n) (BitVec.ofNat 7 (w2 / 2 ^ 6)) (BitVec.ofNat 6 w2))
  | 0x24 => okIf (fBits n 0 14 == 0 && fBits w2 13 19 == 0 && 1 ≤ fBits w2 6 7 && fBits w2 6 7 ≤ 64 &&
      fBits w2 0 6 + fBits w2 6 7 ≤ 64) (.bins (fD n) (fA n) (BitVec.ofNat 7 (w2 / 2 ^ 6)) (BitVec.ofNat 6 w2))
  | 0x2B => okSome (Cond.ofCode (fBits n 19 5)) fun c => if fX n == 0 then dTarget w2 (.bc c (fA n) (fB n))
      else .error .reservedField
  | 0x2C => okSome (Cond.ofCode (fBits n 19 5)) fun c => dTarget w2 (.bci c (fA n) (fImm n))
  | 0x2D => if fBits n 19 5 == 0 && fBits n 0 14 == 0 then dTarget w2 (.loop (fA n)) else .error .reservedField
  | 0x40 => okSome (Stream.ofCode (fBits n 19 5)) fun st =>
      if st != .s && fX n == 0 then dTarget w2 (.fork st (fA n) (fB n)) else .error .reservedField
  | 0x43 => okSome (EvClass.ofCode (fBits n 19 5)) fun c => if fBits n 0 19 == 0 then dTarget w2 (.catchEv c)
      else .error .reservedField
  | 0x60 => okSome (AtomOp.ofCode (fBits w2 6 4)) fun o => okSome (AOrder.ofCode (fBits w2 4 2)) fun r =>
      okSome (Scope.ofCode (fBits w2 1 3)) fun sc =>
        okIf (fX n == 0 && fBits w2 10 22 == 0 && !(fFlag w2 0 && o.isFloat))
          (.aop (fD n) (fA n) (fB n) o r sc (fFlag w2 0))
  | 0x61 => okSome (AOrder.ofCode (fBits w2 4 2)) fun r => okSome (Scope.ofCode (fBits w2 1 3)) fun sc =>
      okIf (fX n == 0 && fBits w2 15 17 == 0 && fBits w2 6 4 == 0)
        (.acas (fD n) (fA n) (fB n) (BitVec.ofNat 5 (w2 / 2 ^ 10)) r sc (fFlag w2 0))
  | 0x63 => okIf (fX n == 0 && fBits w2 10 22 == 0) (.bpost (fD n) (fA n) (fB n) (dBoard w2) (BitVec.ofNat 3 w2))
  | 0x64 => okIf (fBits n 0 19 == 0 && fBits w2 10 22 == 0) (.blook (fD n) (dBoard w2) (BitVec.ofNat 3 w2))
  | 0x65 => okIf (fX n == 0 && fBits n 14 5 == 0 && fBits w2 10 22 == 0)
      (.bread (fD n) (fB n) (dBoard w2) (BitVec.ofNat 3 w2))
  | 0x66 => okIf (fBits n 0 19 == 0 && fBits w2 10 22 == 0 && fBits w2 0 3 == 0) (.bround (fD n) (dBoard w2))
  | 0x70 => okSome (Tag.ofCode (fBits w2 16 5)) fun tag => okIf (fBits n 0 19 == 0 && fBits w2 21 11 == 0)
      (.vshape (fD n) (BitVec.ofNat 8 w2) (BitVec.ofNat 8 (w2 / 2 ^ 8)) tag)
  | 0x71 => okSome (Tag.ofCode (fBits w2 0 5)) fun tag =>
      okIf (fBits w2 21 11 == 0 && (tag.isBlock || fBits n 0 5 == 0))
        (.vld (fD n) (fA n) (fB n) (fPMod n) (BitVec.ofNat 5 n) tag (BitVec.ofNat 8 (w2 / 2 ^ 5)) (BitVec.ofNat 8 (w2 / 2 ^ 13)))
  | 0x8B => dRed n w2 true false true .vrsum
  | 0x8C => dRed n w2 false false true .vrmax
  | 0x8D => dRed n w2 true true false .vrmaxi
  | 0x8E => dRed n w2 true false true .vcsum
  | 0x8F => dRed n w2 false false true .vcmax
  | 0x94 => okIf (fBits n 14 5 == 0 && fX n == 0) (.vsetrs (fD n) (fB n) (BitVec.ofNat 32 w2))
  | 0x95 => okIf (fBits n 14 5 == 0 && fX n == 0) (.vsetcs (fD n) (fB n) (BitVec.ofNat 32 w2))
  | 0xB3 => dMopnd n w2
  | 0xB9 => okSome (Tag.ofCode (fBits w2 5 5)) fun tag => okSome (RMode.ofCode (fBits w2 2 3)) fun rm =>
      okSome (DrainMode.ofCode (fBits w2 0 2)) fun dm =>
        okIf (fBits n 19 5 == 0 && fBits n 3 6 == 0 && fBits w2 10 22 == 0)
          (.mdrain (fA n) (fB n) (BitVec.ofNat 3 n) tag rm dm)
  | 0xC9 => dCopy n w2 false .ccopy
  | 0xCA => dCopy n w2 true .cpush
  | 0xCB => dCopy n w2 true .cpull
  | 0xCC => dCompletion w2 fun c => okIf (fBits n 19 5 == 0 && fX n == 0 && fBits w2 20 2 == 0 && !c.fill && c.ring == 0)
      (.cmcast (fA n) (fB n) c)
  | 0xCD => dCompletion w2 fun c => okSome (CredOp.ofCode (fBits w2 20 2)) fun o =>
      okIf (fBits n 19 5 == 0 && fX n == 0 && c.cap == 0) (.cred (fA n) (fB n) o c)
  | 0xCE => dCopy n w2 false .cpage
  | 0xCF => dCompletion w2 fun c => okIf (fX n == 0 && fBits w2 20 2 == 0 && c.cap == 0 && c.shape == 0)
      (.ccode (fD n) (fA n) (fB n) c)
  | 0xD2 => dCompletion w2 fun c => okIf (fX n == 0 && fBits w2 20 2 == 0 && c.cap == 0 && c.shape == 0 && c.fill)
      (.cattn (fD n) (fA n) (fB n) c)
  | _ => .error .reservedField

/-- The instruction in a first word and, for a long one, a second word. -/
def decodeWords (w : Word32) (next : Option Word32) : Decoded :=
  let n := w.toNat
  let op := n / 2 ^ 24
  if unlistedOpcode op then .ok (.illegalOpcode w)
  else if privilegedOp op then .ok (.privilegedOpcode w)
  else if longOpcode op then
    match next with
    | none => .error .truncated
    | some w2 => decodeLong op n w2.toNat
  else if op < 0x40 then decodeCommon op n
  else if op < 0x70 then decodeSync op n
  else if op < 0xB0 then decodeTile op n
  else decodeEngine op n

/-- A 32-bit word from its bytes, lowest address first (R57). -/
def wordOfBytes (b0 b1 b2 b3 : Byte) : Word32 :=
  BitVec.ofNat 32 (b0.toNat + 2 ^ 8 * b1.toNat + 2 ^ 16 * b2.toNat + 2 ^ 24 * b3.toNat)

/-- A word's bytes, lowest address first. -/
def bytesOfWord (w : Word32) : List Byte :=
  [BitVec.ofNat 8 w.toNat, BitVec.ofNat 8 (w.toNat / 2 ^ 8), BitVec.ofNat 8 (w.toNat / 2 ^ 16), BitVec.ofNat 8 (w.toNat / 2 ^ 24)]

/-- The instruction that starts at the first byte. -/
def decodeBytes : List Byte → Decoded
  | b0 :: b1 :: b2 :: b3 :: rest =>
      match rest with
      | c0 :: c1 :: c2 :: c3 :: _ => decodeWords (wordOfBytes b0 b1 b2 b3) (some (wordOfBytes c0 c1 c2 c3))
      | _ => decodeWords (wordOfBytes b0 b1 b2 b3) none
  | _ => .error .truncated

/-- The instruction whose bits are w, bit 0 the least significant bit of the first word. -/
def decodeTableWord (_nbits w : Nat) : Option Instr :=
  match decodeBytes (bytesOfWord (BitVec.ofNat 32 w) ++ bytesOfWord (BitVec.ofNat 32 (w / 2 ^ 32))) with
  | .ok i => some i
  | .error _ => none

/-! ### Encoding, from the same tables -/

/-- A first word in the R3 layout (R65). -/
def wR3 (op d a b x : Nat) : Nat := op * 2 ^ 24 + d * 2 ^ 19 + a * 2 ^ 14 + b * 2 ^ 9 + x
/-- A first word in the RI layout (R65). -/
def wRI (op d a imm : Nat) : Nat := op * 2 ^ 24 + d * 2 ^ 19 + a * 2 ^ 14 + imm
/-- A first word in the J layout (R65). -/
def wJ (op target : Nat) : Nat := op * 2 ^ 24 + target
/-- p at [8:6] and pm at [5] (R67). -/
def xPM (pm : PMod) : Nat := pm.p.toNat * 2 ^ 6 + bit pm.zero * 2 ^ 5

def w1 (n : Nat) : List Word32 := [BitVec.ofNat 32 n]
def w2 (n m : Nat) : List Word32 := [BitVec.ofNat 32 n, BitVec.ofNat 32 m]

def encR3 (op : Nat) (d a b : Reg) : List Word32 := w1 (wR3 op d.toNat a.toNat b.toNat 0)
def encRI (op : Nat) (d a : Reg) (imm : BitVec 14) : List Word32 := w1 (wRI op d.toNat a.toNat imm.toNat)
def encSh (op : Nat) (d a : Reg) (sh : BitVec 6) : List Word32 := w1 (wRI op d.toNat a.toNat sh.toNat)
def encBin (op : Nat) (td ta tb : Reg) (pm : PMod) (m : RMode) (any : Bool) : List Word32 :=
  w1 (wR3 op td.toNat ta.toNat tb.toNat (xPM pm + m.code * 2 ^ 2 + bit any * 2))
def encUn (op : Nat) (td ta : Reg) (pm : PMod) (m : RMode) : List Word32 :=
  w1 (wR3 op td.toNat ta.toNat 0 (xPM pm + m.code * 2 ^ 2))
def encRing (op : Nat) (d : Reg) (k : KIdx) : List Word32 := w1 (wR3 op d.toNat 0 0 k.toNat)

def encBoard (r : BoardRef) (vm : Nat) : Nat := r.index.toNat * 2 ^ 4 + bit r.viaCap * 2 ^ 3 + vm

/-- The completion word with the operation of `cred` (R78). -/
def encComp (op : Nat) (c : Completion) : Nat :=
  op * 2 ^ 20 + c.cap.toNat * 2 ^ 14 + c.bscope.code * 2 ^ 11 + bit c.barr * 2 ^ 10 + bit c.notify * 2 ^ 9 + bit c.fill * 2 ^ 8 +
    c.ring.toNat * 2 ^ 4 + c.shape.toNat

/-- The fields of a reduction: td, and word 2 (R135). -/
def encRed (op : Nat) (ta : Reg) (p : PIdx) : RedDest → List Word32
  | .tile td q => w2 (wR3 op td.toNat ta.toNat 0 (p.toNat * 2 ^ 6)) (q.toNat * 2 ^ 12)
  | .freg f x => w2 (wR3 op 0 ta.toNat 0 (p.toNat * 2 ^ 6)) (x.toNat * 2 ^ 12 + f.toNat * 2 ^ 8 + 1)
  | .bobbin b => w2 (wR3 op 0 ta.toNat 0 (p.toNat * 2 ^ 6)) (b.toNat * 2 ^ 2 + 2)

/-- The words of an instruction; a step that has no word encodes to none. -/
def encode : Instr → List Word32
  | .nop => w1 (wR3 0x01 0 0 0 0)
  | .add d a b => encR3 0x02 d a b
  | .sub d a b => encR3 0x03 d a b
  | .and d a b => encR3 0x04 d a b
  | .or d a b => encR3 0x05 d a b
  | .xor d a b => encR3 0x06 d a b
  | .shl d a b => encR3 0x07 d a b
  | .shr d a b => encR3 0x08 d a b
  | .sra d a b => encR3 0x09 d a b
  | .mul d a b => encR3 0x0A d a b
  | .mulh d a b => encR3 0x0B d a b
  | .mulhn d a b => encR3 0x0C d a b
  | .div d a b => encR3 0x0D d a b
  | .divn d a b => encR3 0x0E d a b
  | .rem d a b => encR3 0x0F d a b
  | .remn d a b => encR3 0x10 d a b
  | .min d a b => encR3 0x11 d a b
  | .max d a b => encR3 0x12 d a b
  | .minn d a b => encR3 0x13 d a b
  | .maxn d a b => encR3 0x14 d a b
  | .slt d a b => encR3 0x15 d a b
  | .sltn d a b => encR3 0x16 d a b
  | .seq d a b => encR3 0x17 d a b
  | .addx d a b sh => w1 (wR3 0x22 d.toNat a.toNat b.toNat sh.toNat)
  | .popc d a => encR3 0x25 d a 0
  | .clz d a => encR3 0x26 d a 0
  | .ctz d a => encR3 0x27 d a 0
  | .addi d a i => encRI 0x18 d a i
  | .andi d a i => encRI 0x19 d a i
  | .ori d a i => encRI 0x1A d a i
  | .xori d a i => encRI 0x1B d a i
  | .slti d a i => encRI 0x1F d a i
  | .shli d a s => encSh 0x1C d a s
  | .shri d a s => encSh 0x1D d a s
  | .srai d a s => encSh 0x1E d a s
  | .li d i => w2 (wRI 0x20 d.toNat 0 0) i.toNat
  | .lih d i => w2 (wRI 0x21 d.toNat 0 0) i.toNat
  | .bext d a len pos => w2 (wR3 0x23 d.toNat a.toNat 0 0) (len.toNat * 2 ^ 6 + pos.toNat)
  | .bins d a len pos => w2 (wR3 0x24 d.toNat a.toNat 0 0) (len.toNat * 2 ^ 6 + pos.toNat)
  | .b t => w1 (wJ 0x28 t.toNat)
  | .jal t => w1 (wJ 0x29 t.toNat)
  | .jr a => encR3 0x2A 0 a 0
  | .bc c a b t => w2 (wR3 0x2B c.code a.toNat b.toNat 0) t.toNat
  | .bci c a i t => w2 (wRI 0x2C c.code a.toNat i.toNat) t.toNat
  | .loop a l => w2 (wRI 0x2D 0 a.toNat 0) l.toNat
  | .ldb d a o => encRI 0x2E d a o
  | .ldh d a o => encRI 0x2F d a o
  | .ldw d a o => encRI 0x30 d a o
  | .ldd d a o => encRI 0x31 d a o
  | .ldbn d a o => encRI 0x32 d a o
  | .ldhn d a o => encRI 0x33 d a o
  | .ldwn d a o => encRI 0x34 d a o
  | .stb d a o => encRI 0x35 d a o
  | .sth d a o => encRI 0x36 d a o
  | .stw d a o => encRI 0x37 d a o
  | .std d a o => encRI 0x38 d a o
  | .csrr d n => w1 (wRI 0x39 d.toNat 0 n.toNat)
  | .csrw a n => w1 (wRI 0x3A 0 a.toNat n.toNat)
  | .srseedWrite a => w1 (wRI 0x3A 0 a.toNat 6)
  | .retmodeWrite a => w1 (wRI 0x3A 0 a.toNat 5)
  | .csrx d a n => w1 (wRI 0x3B d.toNat a.toNat n.toNat)
  | .trap c => w1 (wRI 0x3C 0 0 c.toNat)
  | .fork st a b t => w2 (wR3 0x40 st.code a.toNat b.toNat 0) t.toNat
  | .join m v c => w1 (wR3 0x41 0 0 0 (bit m * 2 ^ 3 + bit v * 2 ^ 2 + bit c * 2))
  | .exit => w1 (wR3 0x42 0 0 0 0)
  | .catchEv c h => w2 (wR3 0x43 c.code 0 0 0) h.toNat
  | .evret => w1 (wR3 0x44 0 0 0 0)
  | .evmask d m => w1 (wRI 0x45 d.toNat 0 m.toNat)
  | .yield => w1 (wR3 0x46 0 0 0 0)
  | .qfence q => w1 (wR3 0x48 0 0 0 q.toNat)
  | .fence k sc => w1 (wR3 0x50 0 0 0 (k.code * 2 ^ 3 + sc.code))
  | .rclaim d k => encRing 0x51 d k
  | .rfill d k => encRing 0x52 d k
  | .rwait d k => encRing 0x53 d k
  | .rfree d k => encRing 0x54 d k
  | .rset a b k => w1 (wR3 0x55 0 a.toNat b.toNat k.toNat)
  | .rstat d k => encRing 0x56 d k
  | .hgive a t => w1 (wR3 0x57 0 a.toNat 0 t.toNat)
  | .htake d => encR3 0x58 d 0 0
  | .bar sc => w1 (wR3 0x59 0 0 0 sc.code)
  | .bara d sc => w1 (wR3 0x5A d.toNat 0 0 sc.code)
  | .bart d a sc => w1 (wR3 0x5B d.toNat a.toNat 0 sc.code)
  | .aop d a b op r sc w =>
      w2 (wR3 0x60 d.toNat a.toNat b.toNat 0) (op.code * 2 ^ 6 + r.code * 2 ^ 4 + sc.code * 2 + bit w)
  | .acas d a b cmp r sc w =>
      w2 (wR3 0x61 d.toNat a.toNat b.toNat 0) (cmp.toNat * 2 ^ 10 + r.code * 2 ^ 4 + sc.code * 2 + bit w)
  | .apop d => encR3 0x62 d 0 0
  | .bpost d a b r vm => w2 (wR3 0x63 d.toNat a.toNat b.toNat 0) (encBoard r vm.toNat)
  | .blook d r vm => w2 (wR3 0x64 d.toNat 0 0 0) (encBoard r vm.toNat)
  | .bread d b r vm => w2 (wR3 0x65 d.toNat 0 b.toNat 0) (encBoard r vm.toNat)
  | .bround d r => w2 (wR3 0x66 d.toNat 0 0 0) (encBoard r 0)
  | .tread d b => encR3 0x67 d 0 b
  | .twait a => encR3 0x68 0 a 0
  | .bopen d a b i k => w1 (wR3 0x69 d.toNat a.toNat b.toNat (i.toNat * 2 ^ 2 + k.code))
  | .bcontFreg a p f => w1 (wR3 0x6A 0 a.toNat 0 (p.toNat * 2 ^ 4 + f.toNat))
  | .bcontMem a b p => w1 (wR3 0x6A 0 a.toNat b.toNat (2 ^ 8 + p.toNat * 2 ^ 4))
  | .bwait d a => encR3 0x6B d a 0
  | .bfree a => encR3 0x6C 0 a 0
  | .vshape td r c tag => w2 (wR3 0x70 td.toNat 0 0 0) (tag.code * 2 ^ 16 + c.toNat * 2 ^ 8 + r.toNat)
  | .vld td ta tb pm side tag r c =>
      w2 (wR3 0x71 td.toNat ta.toNat tb.toNat (xPM pm + side.toNat)) (c.toNat * 2 ^ 13 + r.toNat * 2 ^ 5 + tag.code)
  | .vst td ta tb p side => w1 (wR3 0x72 td.toNat ta.toNat tb.toNat (p.toNat * 2 ^ 6 + side.toNat))
  | .vzeroKeep td pm => w1 (wR3 0x73 td.toNat 0 0 (xPM pm))
  | .vzeroEmpty td => w1 (wR3 0x73 td.toNat 0 0 1)
  | .vmov td ta pm => w1 (wR3 0x74 td.toNat ta.toNat 0 (xPM pm))
  | .vadd td ta tb pm m any => encBin 0x75 td ta tb pm m any
  | .vsub td ta tb pm m any => encBin 0x76 td ta tb pm m any
  | .vmul td ta tb pm m any => encBin 0x77 td ta tb pm m any
  | .vfma td ta tb pm m any => encBin 0x78 td ta tb pm m any
  | .vmax td ta tb pm m any => encBin 0x79 td ta tb pm m any
  | .vmin td ta tb pm m any => encBin 0x7A td ta tb pm m any
  | .vabs td ta pm m => encUn 0x7B td ta pm m
  | .vneg td ta pm m => encUn 0x7C td ta pm m
  | .vadds td ta tb pm m => encBin 0x7D td ta tb pm m false
  | .vmuls td ta tb pm m => encBin 0x7E td ta tb pm m false
  | .vbcr td f pm m => w1 (wR3 0x7F td.toNat f.toNat 0 (xPM pm + m.code * 2 ^ 2))
  | .vbcc td f pm m => w1 (wR3 0x80 td.toNat f.toNat 0 (xPM pm + m.code * 2 ^ 2))
  | .vcvt td ta tag pm m => w1 (wR3 0x81 td.toNat ta.toNat tag.code (xPM pm + m.code * 2 ^ 2))
  | .vexp2 td ta pm m => encUn 0x82 td ta pm m
  | .vlog2 td ta pm m => encUn 0x83 td ta pm m
  | .vrcp td ta pm m => encUn 0x84 td ta pm m
  | .vrsq td ta pm m => encUn 0x85 td ta pm m
  | .vsig td ta pm m => encUn 0x86 td ta pm m
  | .vtanh td ta pm m => encUn 0x87 td ta pm m
  | .vcmp pd ta tb pm cmp any => w1 (wR3 0x88 pd.toNat ta.toNat tb.toNat (xPM pm + cmp.code * 2 ^ 2 + bit any * 2))
  | .vsel td ta tb p any => w1 (wR3 0x89 td.toNat ta.toNat tb.toNat (p.toNat * 2 ^ 6 + bit any * 2))
  | .vpset pd pa pb tt => w1 (wR3 0x8A pd.toNat pa.toNat pb.toNat tt.toNat)
  | .vrsum ta p dest => encRed 0x8B ta p dest
  | .vrmax ta p dest => encRed 0x8C ta p dest
  | .vrmaxi ta p dest => encRed 0x8D ta p dest
  | .vcsum ta p dest => encRed 0x8E ta p dest
  | .vcmax ta p dest => encRed 0x8F ta p dest
  | .vctopk pd ta tb pm => w1 (wR3 0x90 pd.toNat ta.toNat tb.toNat (xPM pm))
  | .vtrans td ta pm => w1 (wR3 0x91 td.toNat ta.toNat 0 (xPM pm))
  | .vacc td a pm => w1 (wR3 0x92 td.toNat a.toNat 0 (xPM pm))
  | .vtoacc a ta p => w1 (wR3 0x93 a.toNat ta.toNat 0 (p.toNat * 2 ^ 6))
  | .vsetrs td tb desc => w2 (wR3 0x94 td.toNat 0 tb.toNat 0) desc.toNat
  | .vsetcs td tb desc => w2 (wR3 0x95 td.toNat 0 tb.toNat 0) desc.toNat
  | .vsetrk td ta tb => encR3 0x96 td ta tb
  | .vresolve td m => w1 (wR3 0x97 td.toNat 0 0 (m.code * 2 ^ 2))
  | .vgetslot d ta sel => w1 (wR3 0x98 d.toNat ta.toNat 0 sel.code)
  | .vputslot td a sel => w1 (wR3 0x99 td.toNat a.toNat 0 sel.code)
  | .vstrict td clr => w1 (wR3 0x9A td.toNat 0 0 (bit clr))
  | .vfld f a => w1 (wR3 0x9B f.toNat a.toNat 0 0)
  | .vfst f a => w1 (wR3 0x9C f.toNat a.toNat 0 0)
  | .vfop fd fa fb op => w1 (wR3 0x9D fd.toNat fa.toNat fb.toNat op.code)
  | .vscl td ta f pm m cols => w1 (wR3 0x9E td.toNat ta.toNat f.toNat (xPM pm + m.code * 2 ^ 2 + bit cols))
  | .vrope td ta f pm m => w1 (wR3 0x9F td.toNat ta.toNat f.toNat (xPM pm + m.code * 2 ^ 2))
  | .vgather td ta tb pm => w1 (wR3 0xA0 td.toNat ta.toNat tb.toNat (xPM pm))
  | .vscat td ta tb p => w1 (wR3 0xA1 td.toNat ta.toNat tb.toNat (p.toNat * 2 ^ 6))
  | .vstat d ta => encR3 0xA2 d ta 0
  | .vsmerge td ta tb => encR3 0xA3 td ta tb
  | .mloadn a => encR3 0xB0 0 a 0
  | .mnest a level => w1 (wR3 0xB1 0 a.toNat 0 level.toNat)
  | .mstep d a b level => w1 (wR3 0xB2 d.toNat a.toNat b.toNat level.toNat)
  | .mopnd isB (.tile t src) => w2 (wR3 0xB3 0 0 0 (bit isB)) (src.code * 2 ^ 11 + t.toNat * 2 ^ 6 + 2 ^ 5)
  | .mopnd isB (.addr a ld tag src table) =>
      w2 (wR3 0xB3 0 a.toNat ld.toNat (bit isB)) (table.toNat * 2 ^ 13 + src.code * 2 ^ 11 + tag.code)
  | .mregion a r => w1 (wR3 0xB4 0 a.toNat 0 r.toNat)
  | .mscale a => encR3 0xB5 0 a 0
  | .mgo none => w1 (wR3 0xB6 0 0 0 0)
  | .mgo (some f) => w1 (wR3 0xB6 0 0 0 (2 ^ 4 + f.toNat))
  | .mwait => w1 (wR3 0xB7 0 0 0 0)
  | .mzero r => w1 (wR3 0xB8 0 0 0 r.toNat)
  | .mdrain a b r tag rm dm => w2 (wR3 0xB9 0 a.toNat b.toNat r.toNat) (tag.code * 2 ^ 5 + rm.code * 2 ^ 2 + dm.code)
  | .mprog n => w1 (wR3 0xBA 0 0 0 n.toNat)
  | .mstat d => encR3 0xBB d 0 0
  | .mslot a r sel => w1 (wR3 0xBC 0 a.toNat 0 (sel.code / 4 * 2 ^ 5 + sel.code % 4 * 2 ^ 3 + r.toNat))
  | .cshape a e => w1 (wR3 0xC8 0 a.toNat 0 e.toNat)
  | .ccopy a b c => w2 (wR3 0xC9 0 a.toNat b.toNat 0) (encComp 0 c)
  | .cpush a b c => w2 (wR3 0xCA 0 a.toNat b.toNat 0) (encComp 0 c)
  | .cpull a b c => w2 (wR3 0xCB 0 a.toNat b.toNat 0) (encComp 0 c)
  | .cmcast a b c => w2 (wR3 0xCC 0 a.toNat b.toNat 0) (encComp 0 c)
  | .cred a b op c => w2 (wR3 0xCD 0 a.toNat b.toNat 0) (encComp op.code c)
  | .cpage a b c => w2 (wR3 0xCE 0 a.toNat b.toNat 0) (encComp 0 c)
  | .ccode d a b c => w2 (wR3 0xCF d.toNat a.toNat b.toNat 0) (encComp 0 c)
  | .cwait => w1 (wR3 0xD0 0 0 0 0)
  | .cstat d => encR3 0xD1 d 0 0
  | .cattn d a b c => w2 (wR3 0xD2 d.toNat a.toNat b.toNat 0) (encComp 0 c)
  | .illegalOpcode w => [w]
  | .privilegedOpcode w => [w]
  | .lineFetch | .eventDelivery | .evdlDeadline | .releaseTokenAck | .fillMessage | .freeCredit | .barrierArrival
  | .atomicHomeApply | .atomicReply | .boardHomeStep | .twaitExpiry | .bobbinContribution | .nestStep | .drainRegion
  | .rampLimitUpdate _ _ | .shuttleWalk | .commandPerformed | .cpageEntryReplace | .cmcastCredit | .cattnPageSend
  | .drupeletPageState _ | .combinerForward _ _ _ | .loadReply | .pageWalk _ _ _ _ | .tlbInvalidate _ _
  | .invalidationAck _ _ | .demandFaultResolve _ _ | .reedSync _ _ _ _ | .holdoverEntry _ _ | .timeUnlock _ _
  | .flitReplay _ | .linkRetrain _ | .linkRecoveryTimeout _ | .launchSubmit _ | .launchAdmit _ | .dispatchStart
  | .dispatchStage | .dispatchPromote | .dispatchRelease | .budgetExpiry _ | .gangPreemption _ | .launchResume _ _
  | .hostStop _ | .hostHalt _ | .launchRerun _ | .debugRecordArm _ _ | .unitStall _ | .collectiveCreate _ _
  | .collectiveDestroy _ | .collComplete _ | .collTimeout _ | .collAbort _ | .collContribution _ _ _ _
  | .allowanceRaise _ _ _ | .powerOn _ | .recoveryImage _ _ | .quoteRequest _ _ _ | .coreRetire _ _ _
  | .hbmRowRetire _ _ _ _ | .dlinkRecal _ _ | .hbmRecal _ _ _ | .sahfinUpdate _ | .packageReplace _
  | .supplyStop _ _ _ | .thermalThrottle _ _ | .thermalStop _ _ | .clockLoss _ _ | .mgmtFailover _ _ | .hostReset _
  | .cxlDown _ _ | .stackFail _ _ | .backgroundScrub _ _ _ | .retrainRecovery _ | .homeAppliesWrite | .remoteRingBind
  | .ieee1588Sync _ _ _ | .packageTimeEpoch _ _ | .onDemandRegister _ _ _ | .capabilityRevoke _ _ | .bar2Access _ _ _
  | .powerLoss _ | .packagePowerCap _ => []

/-- The instruction in a list of words. -/
def decodeList : List Word32 → Decoded
  | [] => .error .truncated
  | [w] => decodeWords w none
  | w :: v :: _ => decodeWords w (some v)

end Sys2Proof
end

