-- ==== Sys2Proof/Machine/Store.lean ====
section
/-! DEFINITION. Sparse stores in one canonical form: what an unlisted address reads as, reads, writes, and the
little-endian access of several bytes (R94). -/
namespace Sys2Proof.Machine

/-- What an address reads as that no entry lists: zero (log 5, DESIGN CHOICE for HBM and CXL memory; R294 for a scratchpad). -/
def unlisted (w : Nat) : BitVec w := 0

def storeGet {w : Nat} : Store w → Nat → BitVec w
  | [], _ => unlisted w
  | (k, v) :: rest, a => if k = a then v else if a < k then unlisted w else storeGet rest a

/-- A write that keeps the form: rising addresses, no entry that equals what an unlisted address reads as. -/
def storeSet {w : Nat} : Store w → Nat → BitVec w → Store w
  | [], a, x => if x = unlisted w then [] else [(a, x)]
  | (k, v) :: rest, a, x =>
      if k = a then (if x = unlisted w then rest else (a, x) :: rest)
      else if a < k then (if x = unlisted w then (k, v) :: rest else (a, x) :: (k, v) :: rest)
      else (k, v) :: storeSet rest a x

/-- The form holds above a bound. -/
def storeWfFrom {w : Nat} : Nat → Store w → Bool
  | _, [] => true
  | lo, (k, v) :: rest => lo ≤ k && v != unlisted w && storeWfFrom (k + 1) rest

/-- The canonical form of a store. -/
def Memory.wf {w : Nat} (m : Store w) : Bool := storeWfFrom 0 m

/-- n consecutive entries. -/
def storeRead {w : Nat} (m : Store w) (a : Nat) : Nat → List (BitVec w)
  | 0 => []
  | n + 1 => storeGet m a :: storeRead m (a + 1) n

def storeWrite {w : Nat} (m : Store w) (a : Nat) : List (BitVec w) → Store w
  | [] => m
  | x :: rest => storeWrite (storeSet m a x) (a + 1) rest

/-- Every entry in [a, a + n) becomes zero. -/
def storeClear {w : Nat} (m : Store w) (a n : Nat) : Store w := m.filter fun e => e.1 < a || a + n ≤ e.1

/-- The number that bytes spell, lowest first (R94). -/
def bytesToNat : List Byte → Nat
  | [] => 0
  | b :: rest => b.toNat + 256 * bytesToNat rest

/-- The n bytes of a number, lowest first (R94). -/
def natToBytes : Nat → Nat → List Byte
  | 0, _ => []
  | n + 1, v => BitVec.ofNat 8 v :: natToBytes n (v / 256)

/-- Bits [hi:lo] of a word (R83). -/
def bits {w : Nat} (x : BitVec w) (hi lo : Nat) : Nat := x.toNat / 2 ^ lo % 2 ^ (hi + 1 - lo)

def flag {w : Nat} (x : BitVec w) (n : Nat) : Bool := bits x n n == 1

/-- A field placed at bit lo. -/
def field (v lo : Nat) : Nat := v * 2 ^ lo

def boolNat (b : Bool) : Nat := if b then 1 else 0

/-- A number read as two's complement in n bits. -/
def signed (n v : Nat) : Int := if v % 2 ^ n < 2 ^ (n - 1) then (v % 2 ^ n : Nat) else (v % 2 ^ n : Nat) - (2 ^ n : Nat)

/-- An integer wrapped to 64 bits. -/
def wrap64 (i : Int) : Word := BitVec.ofInt 64 i

/-- The i-th entry of a list, or a default. -/
def nth {α : Type} (l : List α) (i : Nat) (d : α) : α :=
  match l, i with
  | [], _ => d
  | x :: _, 0 => x
  | _ :: t, i + 1 => nth t i d

/-- The list with its i-th entry replaced. -/
def setNth {α : Type} (l : List α) (i : Nat) (x : α) : List α :=
  match l, i with
  | [], _ => []
  | _ :: t, 0 => x :: t
  | h :: t, i + 1 => h :: setNth t i x

/-- 0, 1, …, n − 1. -/
def upTo (n : Nat) : List Nat := List.range n

/-- Consecutive runs of k entries. -/
def chunks {α : Type} (k : Nat) : Nat → List α → List (List α)
  | 0, _ => []
  | f + 1, l => match l with
    | [] => []
    | _ => l.take k :: chunks k f (l.drop k)

/-- The first entry that satisfies p becomes f of it. -/
def mapFirst {α : Type} (p : α → Bool) (f : α → α) : List α → List α
  | [] => []
  | x :: t => if p x then f x :: t else x :: mapFirst p f t

/-- The list without its first entry that satisfies p. -/
def dropFirst {α : Type} (p : α → Bool) : List α → List α
  | [] => []
  | x :: t => if p x then t else x :: dropFirst p t

end Sys2Proof.Machine
end

