-- ==== Sys2Proof/Machine/Num.lean ====
section
/-! DEFINITION. Exact values, the formats of R8, R13 and R14, and the one rounding function (R23 to R27, R30). -/
namespace Sys2Proof.Machine

/-- The sticky flags of R27 with PFOV (R39): [4] PFOV, [3] NV, [2] OF, [1] UF, [0] NX. -/
abbrev Flags := BitVec 5

def flagNV : Flags := 8
def flagOF : Flags := 4
def flagUF : Flags := 2
def flagNX : Flags := 1
def flagPFOV : Flags := 16
def onlyIf (b : Bool) (f : Flags) : Flags := if b then f else 0

/-- An exact value: NaN, an infinity, or (−1)^neg · m · 2^e, where m = 0 is a signed zero (R24). -/
inductive XVal where
  | nan
  | inf (neg : Bool)
  | fin (neg : Bool) (m : Nat) (e : Int)
deriving DecidableEq, Repr

def xzero : XVal := .fin false 0 0
def xone : XVal := .fin false 1 0
def xofInt (i : Int) : XVal := .fin (i < 0) i.natAbs 0
def xneg : XVal → XVal
  | .nan => .nan | .inf n => .inf (!n) | .fin n m e => .fin (!n) m e
def xabs : XVal → XVal
  | .nan => .nan | .inf _ => .inf false | .fin _ m e => .fin false m e
def xisNan : XVal → Bool
  | .nan => true | .inf _ => false | .fin _ _ _ => false
def xisInf : XVal → Bool
  | .nan => false | .inf _ => true | .fin _ _ _ => false
def xisZero : XVal → Bool
  | .nan => false | .inf _ => false | .fin _ m _ => m == 0
def xneg? : XVal → Bool
  | .nan => false | .inf n => n | .fin n _ _ => n

/-- m · 2^e with its sign, as an integer in units of 2^u, where u ≤ e. -/
def scaledInt (neg : Bool) (m : Nat) (e u : Int) : Int :=
  let v : Int := m * 2 ^ (e - u).toNat
  if neg then -v else v

/-- Exact sum; an exact zero sum is +0 but for −0 + −0, and −0 under RDN for opposite operands, as IEEE 754 has it. -/
def xadd (rdn : Bool) : XVal → XVal → XVal
  | .nan, _ => .nan
  | _, .nan => .nan
  | .inf a, .inf b => if a == b then .inf a else .nan
  | .inf a, .fin _ _ _ => .inf a
  | .fin _ _ _, .inf b => .inf b
  | .fin n1 m1 e1, .fin n2 m2 e2 =>
    if m1 == 0 && m2 == 0 then .fin (if n1 == n2 then n1 else rdn) 0 0
    else if m1 == 0 then .fin n2 m2 e2
    else if m2 == 0 then .fin n1 m1 e1
    else
      let u := min e1 e2
      let s := scaledInt n1 m1 e1 u + scaledInt n2 m2 e2 u
      if s == 0 then .fin rdn 0 0 else .fin (s < 0) s.natAbs u

/-- Exact product. -/
def xmul : XVal → XVal → XVal
  | .nan, _ => .nan
  | _, .nan => .nan
  | .inf a, .inf b => .inf (a != b)
  | .inf a, .fin n m _ => if m == 0 then .nan else .inf (a != n)
  | .fin n m _, .inf b => if m == 0 then .nan else .inf (n != b)
  | .fin n1 m1 e1, .fin n2 m2 e2 => .fin (n1 != n2) (m1 * m2) (if m1 * m2 == 0 then 0 else e1 + e2)

/-- An order on values that are not NaN; zeros of both signs are equal. -/
def xle : XVal → XVal → Bool
  | .nan, _ => false
  | _, .nan => false
  | .inf true, _ => true
  | .inf false, .inf b => !b
  | .inf false, .fin _ _ _ => false
  | .fin _ _ _, .inf b => !b
  | .fin n1 m1 e1, .fin n2 m2 e2 => let u := min e1 e2; scaledInt n1 m1 e1 u ≤ scaledInt n2 m2 e2 u
def xlt (a b : XVal) : Bool := !xisNan a && !xisNan b && !xle b a
def xeq (a b : XVal) : Bool := xle a b && xle b a

/-- The larger of two values, with −0 < +0; NaN if one is NaN (R125, R188). -/
def xmax (a b : XVal) : XVal :=
  if xisNan a || xisNan b then .nan
  else if xlt a b then b else if xlt b a then a else if xneg? a then b else a
def xmin (a b : XVal) : XVal :=
  if xisNan a || xisNan b then .nan
  else if xlt a b then a else if xlt b a then b else if xneg? a then a else b

/-! ### Formats -/

/-- A floating-point format (R8, R13): total bits, mantissa bits, exponent of the smallest normal, the code of the
largest finite magnitude, the code of infinity and of the canonical NaN if any, and whether it has a sign. -/
structure Fmt where
  width   : Nat
  mbits   : Nat
  emin    : Int
  maxCode : Nat
  infCode : Option Nat
  nanCode : Option Nat
  isSigned  : Bool
deriving DecidableEq, Repr

def fp32 : Fmt := ⟨32, 23, -126, 0x7F7FFFFF, some 0x7F800000, some 0x7FC00000, true⟩
def fp16 : Fmt := ⟨16, 10, -14, 0x7BFF, some 0x7C00, some 0x7E00, true⟩
def bf16 : Fmt := ⟨16, 7, -126, 0x7F7F, some 0x7F80, some 0x7FC0, true⟩
def e4m3 : Fmt := ⟨8, 3, -6, 0x7E, none, some 0x7F, true⟩
def e5m2 : Fmt := ⟨8, 2, -14, 0x7B, some 0x7C, some 0x7E, true⟩
def e3m2 : Fmt := ⟨6, 2, -2, 0x1F, none, none, true⟩
def e2m3 : Fmt := ⟨6, 3, 0, 0x1F, none, none, true⟩
def e2m1 : Fmt := ⟨4, 1, 0, 0x7, none, none, true⟩
def ue5m3 : Fmt := ⟨8, 3, -14, 0xFE, none, some 0xFF, false⟩

/-- The value a code stands for (R8, R13). -/
def decodeFmt (f : Fmt) (code : Nat) : XVal :=
  let mag := if f.isSigned then code % 2 ^ (f.width - 1) else code
  let neg := f.isSigned && code / 2 ^ (f.width - 1) % 2 == 1
  if mag ≤ f.maxCode then
    let ex := mag / 2 ^ f.mbits
    let mant := mag % 2 ^ f.mbits
    if ex == 0 then .fin neg mant (if mant == 0 then 0 else f.emin - f.mbits)
    else .fin neg (2 ^ f.mbits + mant) (f.emin + (ex : Int) - 1 - f.mbits)
  else if f.infCode == some mag then .inf neg
  else .nan

/-- Whether a discarded fraction of rem / 2^k rounds the magnitude up; u is the stochastic word of the element
(R23, R30). -/
def roundsUp (mode : RMode) (neg odd : Bool) (rem k u : Nat) : Bool :=
  if rem == 0 then false
  else match mode with
    | .rne => 2 ^ k < 2 * rem || (2 * rem == 2 ^ k && odd)
    | .rtz => false
    | .rup => !neg
    | .rdn => neg
    | .sr => 2 ^ 32 ≤ rem * 2 ^ 32 / 2 ^ k + u

/-- What the picked magnitude becomes beyond the largest finite one (R24). -/
def overflowCode (f : Fmt) (mode : RMode) (neg : Bool) : Nat :=
  match f.infCode with
  | none => f.maxCode
  | some c => match mode with
    | .rne | .sr => c
    | .rtz => f.maxCode
    | .rup => if neg then f.maxCode else c
    | .rdn => if neg then c else f.maxCode

def signBit (f : Fmt) (neg : Bool) : Nat := if neg && f.isSigned then 2 ^ (f.width - 1) else 0

/-- `round(x, fmt, mode)` with its flags (R24, R25, R27); u is used under SR alone (R30). -/
def roundTo (f : Fmt) (mode : RMode) (u : Nat) : XVal → Nat × Flags
  | .nan => match f.nanCode with
    | some c => (c, 0)
    | none => (0, flagNV)
  | .inf neg => match f.infCode with
    | some c => (c + signBit f neg, 0)
    | none => (f.maxCode + signBit f neg, flagOF)
  | .fin neg m e =>
    if m == 0 then (signBit f neg, 0)
    else
      let p : Int := (Nat.log2 m : Int) + e
      let q := if p < f.emin then f.emin else p
      let k := e - (q - f.mbits)
      let n := if 0 ≤ k then m * 2 ^ k.toNat else m / 2 ^ (-k).toNat
      let rem := if 0 ≤ k then 0 else m % 2 ^ (-k).toNat
      let n' := n + boolNat (roundsUp mode neg (n % 2 == 1) rem (-k).toNat u)
      let code := (q - f.emin).toNat * 2 ^ f.mbits + n'
      if f.maxCode < code then (overflowCode f mode neg + signBit f neg, flagOF ||| flagNX)
      else (code + signBit f neg, onlyIf (rem != 0) flagNX ||| onlyIf (rem != 0 && p < f.emin) flagUF)

/-- Conversion to an integer range, saturating with NV (R25, R26). -/
def roundInt (lo hi : Int) (mode : RMode) (u : Nat) : XVal → Int × Flags
  | .nan => (0, flagNV)
  | .inf neg => (if neg then lo else hi, flagNV)
  | .fin neg m e =>
    let n := if 0 ≤ e then m * 2 ^ e.toNat else m / 2 ^ (-e).toNat
    let rem := if 0 ≤ e then 0 else m % 2 ^ (-e).toNat
    let n' := n + boolNat (roundsUp mode neg (n % 2 == 1) rem (-e).toNat u)
    let i : Int := if neg then -(n' : Int) else n'
    if i < lo then (lo, flagNV) else if hi < i then (hi, flagNV) else (i, onlyIf (rem != 0) flagNX)

/-! ### FP32 values -/

def x32 (w : Word32) : XVal := decodeFmt fp32 w.toNat
/-- `round(x, FP32, RNE)` with its flags. -/
def r32 (x : XVal) : Word32 × Flags :=
  let r := roundTo fp32 .rne 0 x
  (BitVec.ofNat 32 r.1, r.2)
def nan32 : Word32 := 0x7FC00000#32
def one32 : Word32 := 0x3F800000#32
def isNan32 (w : Word32) : Bool := xisNan (x32 w)
def isInf32 (w : Word32) : Bool := xisInf (x32 w)

/-- NV of an operation that has no meaningful result: NaN from operands that are not NaN (R27). -/
def invalid (r : XVal) (ops : List XVal) : Flags := onlyIf (xisNan r && ops.all fun x => !xisNan x) flagNV

def add32 (a b : Word32) : Word32 × Flags :=
  let x := xadd false (x32 a) (x32 b)
  let r := r32 x
  (r.1, r.2 ||| invalid x [x32 a, x32 b])
def mul32 (a b : Word32) : Word32 × Flags :=
  let x := xmul (x32 a) (x32 b)
  let r := r32 x
  (r.1, r.2 ||| invalid x [x32 a, x32 b])

/-! ### Quotients, roots and transcendental functions: exact, or cut at 256 bits with a low bit that says more
follows, which no rounding of these formats can tell from the exact value -/

/-- floor(sqrt n), by bits from 2^(k−1) down. -/
def isqrtFrom (n : Nat) : Nat → Nat → Nat
  | 0, r => r
  | k + 1, r => let t := r + 2 ^ k; isqrtFrom n k (if t * t ≤ n then t else r)
def isqrt (n : Nat) : Nat := isqrtFrom n (Nat.log2 n / 2 + 1) 0

/-- 2·n, and one more when bits were cut. -/
def sticky (n : Nat) (cut : Bool) : Nat := 2 * n + boolNat cut

/-- a / b. -/
def xdiv : XVal → XVal → XVal
  | .nan, _ => .nan
  | _, .nan => .nan
  | .inf _, .inf _ => .nan
  | .inf a, .fin n _ _ => .inf (a != n)
  | .fin n _ _, .inf b => .fin (n != b) 0 0
  | .fin n1 m1 e1, .fin n2 m2 e2 =>
    if m2 == 0 then (if m1 == 0 then .nan else .inf (n1 != n2))
    else if m1 == 0 then .fin (n1 != n2) 0 0
    else
      let k := 256 + Nat.log2 m2
      let num := m1 * 2 ^ k
      .fin (n1 != n2) (sticky (num / m2) (num % m2 != 0)) (e1 - e2 - k - 1)

/-- 1 / sqrt x: −0 gives −inf, a negative x gives NaN (R44, R130). -/
def xrsqrt : XVal → XVal
  | .nan => .nan
  | .inf neg => if neg then .nan else xzero
  | .fin neg m e =>
    if m == 0 then .inf neg
    else if neg then .nan
    else
      let odd := e % 2 != 0
      let m' := if odd then 2 * m else m
      let e' := if odd then e - 1 else e
      let k := 256 + Nat.log2 m'
      let q := 2 ^ (2 * k) / m'
      let r := isqrt q
      .fin false (sticky r (r * r * m' != 2 ^ (2 * k))) (-(e' / 2) - k - 1)

/-- ln 2 and π, times 2^320 and 2^640, cut. PRESUMED of no rule: they are the mathematical constants. Log 14, PRESUMED. -/
def ln2Fix : Nat := 0xb17217f7d1cf79abc9e3b39803f2f6af40f343267298b62d8a0d175b8baafa2be7b876206debac98
def piFix : Nat := 0x3243f6a8885a308d313198a2e03707344a4093822299f31d0082efa98ec4e6c89452821e638d01377be5466cf34e90c6cc0ac29b7c97c50dd3f84d5b5b54709179216d5d98979fb1bd1310ba698dfb5ac

/-- Σ z^i / i! in units of 2^-256, from term i on, for z < 1. -/
def expSeries (z : Nat) : Nat → Nat → Nat → Nat
  | 0, _, _ => 0
  | fuel + 1, i, t => t + expSeries z fuel (i + 1) (t * z / 2 ^ 256 / (i + 1))

/-- e^y for y = r in units of 2^-256 below ln 2: mantissa in units of 2^-256. -/
def expSmall (r : Nat) : Nat := expSeries r 70 0 (2 ^ 256)

/-- e^y for y in units of 2^-320, as a value. -/
def expFix (y : Int) : XVal :=
  let n := y / (ln2Fix : Int)
  let r := (y % (ln2Fix : Int)).toNat / 2 ^ 64
  .fin false (sticky (expSmall r) true) (n - 257)

/-- A finite value in units of 2^-320, cut toward −inf. -/
def toFix (neg : Bool) (m : Nat) (e : Int) : Int :=
  let k := e + 320
  let v : Nat := if 0 ≤ k then m * 2 ^ k.toNat else m / 2 ^ (-k).toNat
  let cut := k < 0 && m % 2 ^ (-k).toNat != 0
  if neg then -(v : Int) - (if cut then 1 else 0) else v

/-- A positive value below every positive value of the formats, and one above them all. -/
def tiny : XVal := .fin false 1 (-2000)
def huge : XVal := .fin false 1 2000

/-- 2^x (R130, R337). -/
def xexp2 : XVal → XVal
  | .nan => .nan
  | .inf neg => if neg then xzero else .inf false
  | .fin neg m e =>
    if m == 0 then xone
    else
      let p : Int := (Nat.log2 m : Int) + e
      if 11 ≤ p then (if neg then tiny else huge)
      else if p < -250 then .fin false (2 ^ 300 + (if neg then 0 else 2) - 1) (-300)
      else
        let y := toFix neg m e
        let n := y / 2 ^ 320
        let f := (y % 2 ^ 320).toNat
        if f == 0 then .fin false 1 n
        else .fin false (sticky (expSmall (f * ln2Fix / 2 ^ 384)) true) (n - 257)

/-- atanh z = Σ z^(2i+1)/(2i+1), in units of 2^-256. -/
def atanhSeries (z2 : Nat) : Nat → Nat → Nat → Nat
  | 0, _, _ => 0
  | fuel + 1, i, t => t / (2 * i + 1) + atanhSeries z2 fuel (i + 1) (t * z2 / 2 ^ 256)

/-- log2 x: −inf at ±0, NaN below (R130). -/
def xlog2 : XVal → XVal
  | .nan => .nan
  | .inf neg => if neg then .nan else .inf false
  | .fin neg m e =>
    if m == 0 then .inf true
    else if neg then .nan
    else
      let k := Nat.log2 m
      let n : Int := (k : Int) + e
      if m == 2 ^ k then xofInt n
      else
        let z := (m - 2 ^ k) * 2 ^ 256 / (m + 2 ^ k)
        let l : Nat := 2 * atanhSeries (z * z / 2 ^ 256) 90 0 z * 2 ^ 320 / ln2Fix
        let v : Int := 2 * (n * 2 ^ 256 + Int.ofNat l) + 1
        .fin (v < 0) v.natAbs (-257)

/-- 1 / (1 + e^(−x)) (R130). -/
def xsig : XVal → XVal
  | .nan => .nan
  | .inf neg => if neg then xzero else xone
  | .fin neg m e =>
    if m == 0 then .fin false 1 (-1)
    else
      let p : Int := (Nat.log2 m : Int) + e
      if 11 ≤ p then (if neg then tiny else .fin false (2 ^ 300 - 1) (-300))
      else if p < -250 then .fin false (2 ^ 300 + (if neg then 0 else 2) - 1) (-301)
      else
        let t := expFix (toFix neg m e)
        xdiv t (xadd false xone t)

/-- tanh x (R130). -/
def xtanh : XVal → XVal
  | .nan => .nan
  | .inf neg => .fin neg 1 0
  | .fin neg m e =>
    if m == 0 then .fin neg 0 0
    else
      let p : Int := (Nat.log2 m : Int) + e
      if 11 ≤ p then .fin neg (2 ^ 300 - 1) (-300)
      else if p < -60 then .fin neg (m * 2 ^ 100 - 1) (e - 100)
      else
        let t := expFix (toFix false m (e + 1))
        let r := xdiv (xadd false t (xneg xone)) (xadd false t xone)
        if neg then xneg r else r

/-- Σ (−1)^i z^(2i+j)/(2i+j)! in units of 2^-256, from a term t of index i on. -/
def trigSeries (z2 : Nat) : Nat → Nat → Nat → Int
  | 0, _, _ => 0
  | fuel + 1, i, t => (t : Int) - trigSeries z2 fuel (i + 2) (t * z2 / 2 ^ 256 / ((i + 1) * (i + 2)))

/-- sin and cos of an angle z below π/2, in units of 2^-256. -/
def sinSmall (z : Nat) : Int := trigSeries (z * z / 2 ^ 256) 60 1 z
def cosSmall (z : Nat) : Int := trigSeries (z * z / 2 ^ 256) 60 0 (2 ^ 256)

/-- The value of an integer in units of 2^-256, with more following. -/
def fixVal (v : Int) : XVal := .fin (v < 0) (sticky v.natAbs true) (-257)

/-- The quadrant of |x| and the angle within it, in units of 2^-256. -/
def quadrant (m : Nat) (e : Int) : Nat × Nat :=
  let half := piFix / 2
  let k := e + 640
  let v := if 0 ≤ k then m * 2 ^ k.toNat else m / 2 ^ (-k).toNat
  (v / half % 4, v % half / 2 ^ 384)

/-- sin x; NaN at an infinity (R150, R171). -/
def xsin : XVal → XVal
  | .nan => .nan
  | .inf _ => .nan
  | .fin neg m e =>
    if m == 0 then .fin neg 0 0
    else if (Nat.log2 m : Int) + e < -60 then .fin neg (m * 2 ^ 100 - 1) (e - 100)
    else
      let q := quadrant m e
      let v := match q.1 with
        | 0 => sinSmall q.2 | 1 => cosSmall q.2 | 2 => -sinSmall q.2 | _ => -cosSmall q.2
      if neg then xneg (fixVal v) else fixVal v

def xcos : XVal → XVal
  | .nan => .nan
  | .inf _ => .nan
  | .fin _ m e =>
    if m == 0 then xone
    else if (Nat.log2 m : Int) + e < -60 then .fin false (2 ^ 300 - 1) (-300)
    else
      let q := quadrant m e
      fixVal (match q.1 with
        | 0 => cosSmall q.2 | 1 => -sinSmall q.2 | 2 => -cosSmall q.2 | _ => sinSmall q.2)

end Sys2Proof.Machine
end

