-- ==== Sys2Proof/Machine/State.lean ====
section
/-! DEFINITION. The state of the machine: everything the manual names, as plain data, and the state after reset. -/
namespace Sys2Proof.Machine

/-! ### Causes (R377) -/

/-- The 192 cause codes. -/
inductive Cause where
  | illegalOpcode | reservedField | wrongStream | splitLong | chainEnd | foreignLine | privilegedOpcode | loopDepth
  | slotCount | trap | notInHandler | fetchPoison | codeRange | staging | hostStop | hostHalt
  | brk (n : BitVec 3) | step | evbreak (n : BitVec 2) | forkBreak | exitBreak | csrwBreak
  | tagMismatch | tagEmpty | shapeMismatch | shapeLimit | pendingConflict | pendingShape | divideByZero | detRange
  /-- g: 0 VEC, 1 MAT, 2 ATM; f: 0 NV, 1 OF, 2 UF, 3 NX, 4 PFOV, 5 NAN, 6 INF, 7 SUB -/
  | flagTrap (g : BitVec 2) (f : BitVec 3)
  | misaligned | notPresent | permission | noncanonical | windowRange | handleNotHeld | straddleAtomic | walkPoison
  /-- d: 1 read, 2 write, 3 update -/
  | watch (d : BitVec 2) (n : BitVec 3)
  | capInvalid | capPermission | capAllowance | ringConfig | bobbinInvalid | bobbinOverflow | boardNotParticipant
  | boardRound | barrierScope | handleTableFull | apopEmpty | barrierLost | fillLost | creditLost | tokenLost | collAborted
  /-- k: 0 RING, 1 ENDPOINT, 2 HOSTQ, 3 BOARD; e: 0 FAULTED, 1 ENDED, 2 LEFT, 3 REVOKED -/
  | peer (k e : BitVec 2)
  | nestConfig | regionRange | profileUnknown | shapeRecord | packedMalformed | packedDirectory | tierFault
  | drupeletFault | codeOverlayBusy | tierMissUncaught
  /-- u: 0 SEQS to 10 DECODER -/
  | unitParity (u : Nat) | unitStall (u : Nat)
  | poisonConsumed | remoteStoreLost | linkDown | eccUncorrectable | budgetOverrun | timeUnlocked | thermalStop | supplyStop
  | clockLoss | mgmtFailover | coreRetired | packageLeft | imageEcc | cxlDown | hostReset | saveAbort
  | dlink (n : BitVec 2) | hlink (n : BitVec 2) | stack (n : BitVec 3)
deriving DecidableEq, Repr

/-- The member and stream that an access, a message or a fault belongs to. -/
structure Who where
  launch : Nat
  member : Nat
  stream : Stream
deriving DecidableEq, Repr

/-- A lost write or message (R374). -/
structure Loss where
  cause : Cause
  addr  : Nat
  size  : Nat
  pos   : CodePos
  /-- the narrowest scope that covers the loss -/
  scope : Scope
  /-- issue age of the access (R176) -/
  age   : Nat
deriving DecidableEq, Repr

/-- A fault record (R368). -/
structure FaultRecord where
  cause     : Cause
  who       : Who
  ctx       : Nat
  pos       : CodePos
  origin    : BitVec 2
  addr      : BitVec 64
  /-- the six level indices of a nest, or the byte or line progress of a command -/
  progress  : List Nat
  time      : Nat
  malformed : Bool
  level     : BitVec 2
  lost      : List Loss
  detail    : Nat
deriving DecidableEq, Repr

/-! ### Streams and events -/

/-- The states of a stream (R227); `stopped` is kept apart, so that a resume finds the state it left. -/
inductive StreamState where
  | idle | running | stalled
deriving DecidableEq, Repr

/-- Where the stream's next instruction comes from: the line it holds, a line it must enter, the continuation of a
TERM line, or that continuation attempted again with the link word read afresh (R59, R63, R370). -/
inductive Pend where
  | run | enter | chainEnd | again
deriving DecidableEq, Repr

/-- A loop record (R93). -/
structure LoopRec where
  b   : CodePos
  e   : CodePos
  x   : CodePos
  rem : BitVec 64
deriving DecidableEq, Repr

/-- The mark of a waiting `qfence` (R104): the queues it names and the issue age at which it stands. -/
structure QMark where
  queues : BitVec 4
  age : Nat
deriving DecidableEq, Repr

/-- One stream of a member (R84, R226). -/
structure StreamCtx where
  state   : StreamState
  stopped : Bool
  pc      : CodePos
  pend    : Pend
  /-- the code line the stream holds: its link word and 15 slots (R57, R59) -/
  line    : Vector Word32 16
  regs    : Vector Word 32
  poison  : BitVec 32
  /-- registers whose load has not returned (R231) -/
  await   : BitVec 32
  loops   : List LoopRec
  /-- the arrival a waiting `bar` keeps (R187): its scope and generation -/
  arrived : Option (Scope × BitVec 32)
  mark    : Option QMark
  /-- the instruction at pc waits for a reply that is on its way (R191, R276) -/
  replyDue : Bool
  /-- the homes written since the last release at `die` or wider (R177), as 8·package + die, 4 for the hub -/
  written : List Nat
  /-- per queue S, M, V, C: the age below which executed `qfence`s have carried its accesses into the covered set (R176) -/
  carried : Vector Nat 4
  /-- accesses that this stream's later ones follow: those of a stream below an issue age (R192, R263) -/
  after   : List (Stream × Nat)
  /-- the debug stops that were taken at pc and do not fire again (R370) -/
  pastStop : List Cause
  /-- the bobbins that were SEALED when the waiting reduction at pc issued (R49) -/
  sealedAt : Option (BitVec 64)
deriving DecidableEq, Repr

/-- The events of a member (R105 to R109). -/
structure Events where
  handlers  : Vector CodePos 4
  mask      : BitVec 4
  queues    : Vector (List (BitVec 56)) 4
  lost      : BitVec 4
  inHandler : Bool
  aside     : List LoopRec
  /-- the arrival of the `bar` that the event interrupted (R187) -/
  asideArrived : Option (Scope × BitVec 32)
  shadow    : Vector Word 8
  shadowPoison : BitVec 8
  /-- shadow registers whose load has not returned (R231) -/
  shadowAwait : BitVec 8
deriving DecidableEq, Repr

/-- The CSRs with storage (R97). -/
structure Csrs where
  vstatus   : BitVec 5
  atomflags : BitVec 4
  retmode   : BitVec 1
  srseed    : Word
  profile   : BitVec 4
  evcause   : Word
  evpc      : CodePos
  evdl      : Word
deriving DecidableEq, Repr

/-! ### Vector and matrix state -/

/-- The four pending slots and the common multiplier (R40, R46). -/
structure Slots where
  rs : BitVec 64
  cs : BitVec 64
  rp : BitVec 64
  cq : BitVec 64
  cm : Word32
deriving DecidableEq, Repr

/-- A tile register (R110): elements in row-major order as raw codes, the sidecar scales of a block tag. -/
structure Tile where
  tag    : Tag
  rows   : Nat
  cols   : Nat
  elems  : List Word
  side   : List Byte
  slots  : Slots
  strict : Bool
  poison : Bool
deriving DecidableEq, Repr

/-- A factor register (R110). -/
structure FReg where
  vals   : Vector Word32 256
  poison : Bool
deriving DecidableEq, Repr

/-- An accumulator region (R153, R158). -/
structure Region where
  desc   : Option (BitVec 64)
  slots  : Slots
  isInt  : Bool
  fresh  : Bool
deriving DecidableEq, Repr

/-- A nest operand (R152, R161). -/
inductive NestOp where
  | unset
  | tile (t : Reg) (src : ScaleSrc)
  | addr (a ld : Word) (tag : Tag) (src : ScaleSrc) (table : Word)
deriving DecidableEq, Repr

/-- A nest record: the shadow, or the copy the engine walks (R152). -/
structure Nest where
  n    : Vector Word32 6
  sa   : Vector Word 6
  sb   : Vector Word 6
  sc   : Vector Word 6
  opA  : NestOp
  opB  : NestOp
  s    : Word32
  dest : AIdx
  prof : Option (BitVec 4)
deriving DecidableEq, Repr

/-- The active copy (R154, R164): steps performed so far, whether the walk is over, the profile it resolved to. -/
structure Walk where
  nest    : Nest
  x       : Option FIdx
  profile : BitVec 4
  done    : Nat
  finished : Bool
  pos     : CodePos
deriving DecidableEq, Repr

/-- A drain not yet performed (R169, R170). -/
structure Drain where
  age    : Nat
  region : AIdx
  a      : Word
  b      : Word
  tag    : Tag
  rmode  : RMode
  mode   : DrainMode
  /-- the region has been resolved into FP32 values -/
  taken  : Bool
  /-- the word drawn for a stochastic rounding (R30) -/
  word   : Word
  /-- elements, or rows of a KV append, already written -/
  done   : Nat
  pos    : CodePos
deriving DecidableEq, Repr

/-! ### Queues -/

/-- What the range checker compares: 64-byte granules of the windows, and register units (R234). -/
inductive FootUnit where
  | granules (lo hi : Nat)
  | tile (t : Reg)
  | freg (f : FIdx)
  /-- a region with the rows and columns of the store it covers, ends exclusive -/
  | region (a : AIdx) (r0 r1 c0 c1 : Nat)
deriving DecidableEq, Repr

structure Foot where
  reads  : List FootUnit
  writes : List FootUnit
deriving DecidableEq, Repr

/-- An instruction in the queue of M, V or C (R231): its stream, its issue age (R233), its footprint, whether it draws
a stochastic word, the register it writes, the tile it reshapes with the new tag, rows and columns, and the stream's
context at its issue. -/
structure QEntry where
  stream : Stream
  age    : Nat
  foot   : Foot
  draws  : Bool
  dst    : Reg
  shape  : Option (Reg × Tag × Nat × Nat)
  ctx    : StreamCtx
deriving DecidableEq, Repr

/-- An entry of the M queue: the active nest, or a drain (R231). -/
inductive MEntry where
  | nest (age : Nat)
  | drain (d : Drain)
deriving DecidableEq, Repr

/-! ### Shuttle -/

/-- What a command of the C queue does, with its resolved operands (R212 to R218). -/
inductive CmdKind where
  | copy | push (cap : Nat) | pull (cap : Nat)
  /-- the capability, the receivers and the slot taken at each (R215) -/
  | mcast (cap : Nat) (dests : List (Nat × Nat))
  | red (op : CredOp)
  | page
  | code (lines : Nat)
  | attn (table : Word)
deriving DecidableEq, Repr

/-- A page of a `cattn` that has been sent and whose record has not filled its slot (R336, R338). -/
structure PageJob where
  page : Nat
  slot : Nat
  keyEntry : BitVec 64
  valEntry : BitVec 64
deriving DecidableEq, Repr

/-- An entry of the C queue (R204 to R210). -/
structure Cmd where
  /-- issue age (R233) -/
  age      : Nat
  kind     : CmdKind
  a        : Word
  b        : Word
  shape    : BitVec 256
  comp     : Completion
  /-- the ring slot reserved for the fill (R206) -/
  slot     : Option Nat
  /-- elements, lines or pages done (R210, R217, R340) -/
  progress : Nat
  /-- every element is written; only completion is left -/
  walked   : Bool
  /-- the query, headers and entries a started `cattn` has read (R336), the entry a `cpage` read (R216) -/
  read     : List (BitVec 64)
  jobs     : List PageJob
  /-- the receivers, as launch and member, that lost bytes of it; (0, 0) for host or package memory (R223) -/
  lost     : List (Nat × Nat)
  pos      : CodePos
deriving DecidableEq, Repr

/-! ### Rings, bobbins, boards, barriers -/

inductive SlotState where
  | free | claimed | filled | held
deriving DecidableEq, Repr

/-- What a ring is bound to: a proxy register of a member, or the proxy a collective holds for a rank (R180, R353). -/
inductive RingPeer where
  | proxy (launch member : Nat) (k : KIdx)
  | coll (collid rank : Nat)
deriving DecidableEq, Repr

/-- A ring register (R179 to R183, R206). -/
structure Ring where
  cfg      : BitVec 64
  base     : Word
  head     : Nat
  tail     : Nat
  slots    : List SlotState
  /-- claimed slots, longest ago first -/
  claims   : List Nat
  /-- held slots, longest ago first -/
  holds    : List Nat
  /-- claimed slots that shuttle commands have reserved -/
  reserved : List Nat
  bound    : Option RingPeer
  /-- slots filled by a multicast: slot, launch, capability, receiver (R215) -/
  mfrom    : List (Nat × Nat × Nat × Nat)
deriving DecidableEq, Repr

inductive BobState where
  | free | opened | sealed | faulted
deriving DecidableEq, Repr

/-- A bobbin (R200, R249); its live count is the number of slots that name it (R245). -/
structure Bobbin where
  state    : BobState
  kind     : BobKind
  len      : Nat
  expected : Nat
  received : Nat
  sreq     : Bool
  vals     : List Word32
deriving DecidableEq, Repr

/-- A view-mask register (R272): none is an invalid one. -/
structure View where
  mask  : BitVec 64
  round : Word32
  board : BoardRef
deriving DecidableEq, Repr

/-- A notice board (R194, R271): level is the bit count of mask. -/
structure Board where
  p      : Nat
  pod    : Bool
  mask   : BitVec 64
  round  : Word32
  owners : Vector (Option Nat) 64
  cur    : Vector Word 64
  prev   : Vector Word 64
deriving DecidableEq, Repr

/-- A barrier instance (R186): completed phases, and each member's arrivals. -/
structure Barrier where
  scope : Scope
  pkg   : Nat
  die   : Nat
  quad  : Nat
  gen   : Nat
  arrivals : List (Nat × Nat)
  /-- phases of which an arrival was lost (R347, R377) -/
  lost  : List Nat
  /-- members whose release is on its way, with the generation that has reached them; members and phases whose release was
  lost (R347, R377) -/
  behind : List (Nat × Nat)
  missed : List (Nat × Nat)
deriving DecidableEq, Repr

/-! ### Member and core -/

/-- The state of a member (R226, R307) but for what its core holds. -/
structure Member where
  streams  : Vector StreamCtx 4
  events   : Events
  csrs     : Csrs
  /-- generators: vector, matrix drain, shuttle (R28, R29) -/
  gens     : Vector Word 3
  tiles    : Vector Tile 32
  fregs    : Vector FReg 16
  preds    : Vector (BitVec 4096) 8
  regions  : Vector Region 8
  /-- accumulator words, at 256·row + column (R153) -/
  acc      : Store 32
  shadow   : Nest
  active   : Option Walk
  /-- the shadow as `mgo` last copied it (R168) -/
  copied   : Option Nest
  /-- the next issue age (R233) -/
  age      : Nat
  mq       : List MEntry
  cq       : List Cmd
  /-- the queued instructions of M, V and C, rising in age -/
  iq       : List QEntry
  /-- the entry being performed: its age, and the context of its stream meanwhile; none between steps -/
  perform  : Option (Nat × StreamCtx)
  /-- faults that sequencers found while older entries of their queues were unperformed (R367, R369); a demand one -/
  found    : List (FaultRecord × Bool)
  cDone    : BitVec 32
  shapes   : Vector (BitVec 256) 16
  bobbins  : Vector Bobbin 64
  rings    : Vector Ring 16
  views    : Vector (Option View) 8
  /-- the round of the last reply of each board (R197) -/
  rounds   : List (BoardRef × Word32)
  /-- returned atomics, oldest first: the entry's number, its value and poison; none has not arrived (R191) -/
  returns  : List (Nat × Option (Word × Bool))
  losses   : Vector (List Loss) 4
  /-- homes of outstanding reads that a failed link has lost: stream and key (R347) -/
  readLost : List (Stream × Nat)
  /-- debug stops that entries of the queues and engines pass: stream, position, stop (R370) -/
  passed   : List (Stream × CodePos × Cause)
  /-- the fault whose page Sahfin is to map (R325) -/
  demand   : Option FaultRecord
  /-- S executed `exit`; the member has ended (R102) -/
  ended    : Bool
deriving DecidableEq, Repr

inductive BindState where
  | empty | staging | ready | active
deriving DecidableEq, Repr

/-- A bind record (R297). -/
structure Bind where
  image  : Nat
  launch : Nat
  member : Nat
  ctx    : Nat
  spbase : Nat
  dep    : Bool
  prio   : BitVec 3
  state  : BindState
  /-- its staging list has been performed (R298) -/
  staged : Bool
deriving DecidableEq, Repr

/-- A registered buffer (R184): its handle, the core of the quad that holds it, and the owner's issue age at its registration
(R185, R233). -/
structure Buffer where
  handle : BitVec 64
  holder : Nat
  since  : Nat
deriving DecidableEq, Repr

/-- A cached leaf (R320, R321). -/
structure Leaf where
  ctx   : Nat
  va    : Nat
  level : Nat
  entry : BitVec 64
deriving DecidableEq, Repr

/-- A physical core (R1, R2, R6): the quad and position it stands in, its spare number if it is a spare. -/
structure Core where
  pkg    : Nat
  die    : Nat
  phys   : Nat
  quad   : Nat
  idx    : Nat
  spare  : Option Nat
  retired : Bool
  cur    : Bind
  next   : Bind
  m      : Member
  /-- the current member's scratchpad bytes, by window offset (R236), and its marked ECC words (R371) -/
  spad   : Store 8
  spadPoison : List Nat
  /-- the scratchpad the preload has been staged into (R303), and its marked ECC words -/
  nextSpad : Store 8
  nextSpadPoison : List Nat
  /-- instruction memory bytes, at 64·line + offset (R60), and lines with an uncorrectable error -/
  imem   : Store 8
  imemPoison : List Nat
  buffers : List Buffer
  inbox  : List (BitVec 64)
  /-- the leaf caches of the matrix load pipes, of S and V, and of the shuttle, oldest first (R320) -/
  leavesM : List Leaf
  leavesS : List Leaf
  leavesC : List Leaf
deriving DecidableEq, Repr

/-- What a saved member section holds (R307). -/
structure Saved where
  member : Nat
  /-- bytes of the section, and the `coreid` of the core that wrote it -/
  length : Nat
  coreid : Word
  /-- the stream whose issue turn comes first at the resume -/
  rotation : Stream
  /-- the image cannot be read back (R373, IMAGE_ECC) -/
  unreadable : Bool
  /-- the tag codes of the reserved tile registers (R19), and the reserved bobbins as R249 lays them out -/
  tags   : List Nat
  bobbins : List (List Byte)
  m      : Member
  spad   : Store 8
  spadPoison : List Nat
  imem   : Store 8
  imemPoison : List Nat
  buffers : List Buffer
  inbox  : List (BitVec 64)
deriving DecidableEq, Repr

/-! ### Launches -/

inductive LaunchPhase where
  | waiting | running | stopping | saved | ended
deriving DecidableEq, Repr

/-- A pod board's home (R349). -/
structure BoardHome where
  pkg : Nat
  die : Nat
  slice : Nat
  index : Nat
  ctx : Nat
deriving DecidableEq, Repr

/-- A capability as admitted (R349, R350): its entry with the live allowance, the multicast counters and tails. -/
structure Cap where
  entry   : BitVec 256
  revoked : Bool
  /-- the group record of a multicast capability, as admission found it (R351) -/
  group   : List (BitVec 64)
  /-- per receiver of a multicast group: free slots and tail; empty until first use (R215) -/
  mcast   : List (Nat × Nat)
deriving DecidableEq, Repr

/-- A launch (R289 to R310). -/
structure Launch where
  number  : Nat
  packet  : BitVec 1024
  phase   : LaunchPhase
  /-- the host asked for, or a fault forced, the stop -/
  cause   : Option Cause
  /-- submission order (R299) -/
  order   : Nat
  /-- counter of the first die when it last began to wait (R299) -/
  submitted : Nat
  /-- budget used, in 2^-16 ns, and the budget in force in µs (R300) -/
  used    : Nat
  budget  : Nat
  /-- and at the last start or resume -/
  startedAt : Nat
  /-- the (package, die, quad) of each ordinal quad, in member order (R296) -/
  place   : List (Nat × Nat × Nat)
  /-- the packages and dies it keeps for its life once it has been placed (R296) -/
  keeps   : List (Nat × Nat)
  /-- each member's core field at admission, as bobbin names hold it (R242) -/
  fields  : List Nat
  /-- SHA-384 of its code ranges at admission (R383) -/
  codeHash : BitVec 384
  caps    : List Cap
  barriers : List Barrier
  boards  : List Board
  saved   : List Saved
  /-- the address of its context image (R297), and the boards of the image as R271 lays them out: its own, and its pod boards -/
  image   : Nat
  boardImages : List (List Byte)
  podImages : List (BoardHome × List Byte)
  records : List FaultRecord
  /-- debug record armed and debug record in force (R376) -/
  armed   : Option (List Byte)
  debug   : Option (List Byte)
  /-- the launch whose fault holds it, as a preload that depended on that launch (R303) -/
  heldDep : Option Nat
deriving DecidableEq, Repr

/-! ### Memory system, links, dies and packages -/

inductive LinkState where
  | up | replaying (n : Nat) | retraining | failed
deriving DecidableEq, Repr

structure Link where
  id    : LinkId
  state : LinkState
deriving DecidableEq, Repr

/-- The class a message travels in (R282). -/
inductive TClass where
  | tc0 | tc1 | tc2
deriving DecidableEq, Repr

/-- A write in a quad combiner (R256), with the context for its loss log. -/
structure PendWrite where
  who  : Who
  pos  : CodePos
  /-- package · 2^52 + PA -/
  key  : Nat
  data : List Byte
  /-- the source was poisoned (R371) -/
  poison : Bool
  /-- issue age of the access (R176) and class of the write (R282) -/
  age  : Nat
  cls  : TClass
deriving DecidableEq, Repr

/-- The combiner of a quad, oldest write first (R256). -/
structure Combiner where
  pkg : Nat
  die : Nat
  quad : Nat
  writes : List PendWrite
deriving DecidableEq, Repr

/-- What an atomic does at its home (R188, R189). -/
inductive AtomKind where
  | op (o : AtomOp)
  | cas (cmp : Word)
deriving DecidableEq, Repr

/-- Where the old value of an atomic goes (R191). -/
inductive AtomRet where
  | none | direct (d : Reg)
  /-- the entry of the return queue -/
  | queued (n : Nat)
deriving DecidableEq, Repr

/-- What a reply of a board's home says: the register and its word, the round it reports, the view (R195 to R197). -/
structure BoardAnswer where
  board : BoardRef
  word  : Word
  round : Option Word32
  view  : Option (BitVec 3 × View)
deriving DecidableEq, Repr

/-- A reply, or the refusal that the home found. -/
inductive BoardResult where
  | answer (a : BoardAnswer)
  | refused (c : Cause)
deriving DecidableEq, Repr

/-- What a message carries (R282). -/
inductive Body where
  /-- a load into a register, a shadow one where it says so -/
  | load (d : Reg) (shadow : Bool) (leaf : BitVec 64) (key size : Nat) (signed : Bool)
  /-- an outstanding read of an instruction or entry that waits for it -/
  | fetch (key size : Nat)
  | write (key : Nat) (data : List Byte) (poison : Bool)
  | detWrite (leaf : BitVec 64) (key : Nat) (value : Word32)
  /-- bytes for a member's scratchpad, or for host memory (R182, R213) -/
  | copyWrite (launch member off : Nat) (data : List Byte) (poison : Bool)
  | hostWrite (addr : Nat) (data : List Byte)
  | atomic (kind : AtomKind) (w : Bool) (leaf : BitVec 64) (key : Nat) (b : Word) (ret : AtomRet)
  | atomicReply (value : Word) (poison : Bool) (ret : AtomRet)
  /-- a post of a value to a slot, a look, or a round advance -/
  | boardPost (board : BoardRef) (value : Word) (slot : Word) (vm : BitVec 3) (d : Reg)
  | boardLook (board : BoardRef) (vm : BitVec 3) (d : Reg)
  | boardRead (board : BoardRef) (slot : Word) (vm : BitVec 3) (d : Reg)
  | boardRound (board : BoardRef) (round : Word32) (d : Reg)
  /-- the home's reply, or its refusal -/
  | boardReply (result : BoardResult) (vm : Option (BitVec 3)) (d : Reg)
  /-- a rank's contribution to a word of a collective's round (R354) -/
  | collWrite (collid rank word : Nat) (value : Word32)
  | arrival (scope : Scope)
  /-- the home of a barrier instance tells a member the generation it has reached -/
  | release (scope : Scope) (gen : Nat)
  | fill (launch member : Nat) (k : KIdx) (slot : Nat)
  /-- a weft processor's record for a slot of a rank's ring, and its fill (R353, R357) -/
  | collFill (collid rank launch member : Nat) (k : KIdx) (slot : Nat) (record : List Byte)
  | credit (launch member : Nat) (k : KIdx) (slot : Nat)
  | collCredit (collid rank slot : Nat)
  | mcredit (launch cap receiver : Nat)
  | token
  | bobbin (home : Nat) (index : Nat) (vals : List Word32) (poison : Bool)
  | bind (launch member : Nat) (k : KIdx) (cfg : BitVec 64) (cap : BitVec 6) (proxy : KIdx)
deriving DecidableEq, Repr

/-- A message on its way (R282, R347). -/
structure Msg where
  who   : Who
  pos   : CodePos
  route : List LinkId
  /-- the instance that the home lies in, as seen from the issuer (R374) -/
  scope : Scope
  /-- issue age (R233) and class (R282) -/
  age   : Nat
  cls   : TClass
  /-- for an access not yet performed at `core`: its page's order, 0 STRONG, 1 RC, 2 UNORD (R257 to R261) -/
  ord   : Option Nat
  /-- turns of the memory system that an UNORD access still sits out (R261) -/
  delay : Nat
  body  : Body
  /-- a command's transfer or a drain's write sent it (R168, R282) -/
  bulk  : Bool := false
deriving DecidableEq, Repr

inductive TimeState where
  | unlocked | locked | holdover
deriving DecidableEq, Repr

/-- A compute die (R1 to R3, R60, R174, R278 to R281, R304, R320). -/
structure Die where
  pkg   : Nat
  die   : Nat
  on    : Bool
  mhz   : Nat
  mv    : Nat
  /-- local counter in 2^-16 ns, the estimate of its error in ps, when a sync was last accepted -/
  count : Nat
  time  : TimeState
  bound : Nat
  lastSync : Nat
  /-- when a sync message last arrived -/
  syncAt : Nat
  /-- backward correction still to be absorbed, in 2^-16 ns (R280) -/
  slew  : Nat
  ramp  : Nat
  rampAt : Nat
  /-- by how many parts per million the die's oscillator runs fast (R278) -/
  drift : Int
  /-- the servo's correction of that rate, in parts per million (R278) -/
  trim  : Int
  /-- the ceiling Sahfin has set beside the launches' classes (R304, R386, R387) -/
  cap   : Nat
  code  : Store 8
  codePoison : List Nat
  leaves : List Leaf
deriving DecidableEq, Repr

/-- An invalidation request and the dies that have not acknowledged it (R322, R323). -/
structure Inval where
  pkg : Nat
  record : BitVec 128
  dies : List Nat
deriving DecidableEq, Repr

/-- A record of the translation directory: a page and the dies that hold its leaf (R323). -/
structure DirEntry where
  ctx  : Nat
  va   : Nat
  level : Nat
  dies : List Nat
deriving DecidableEq, Repr

/-- A page that Sahfin moves: whose it is, where its entry stands, the leaf, the frame it moves to, and the row that is to be
retired (R384). -/
structure Moving where
  pkg : Nat
  ctx : Nat
  root : Nat
  va  : Nat
  level : Nat
  entryAddr : Nat
  entry : BitVec 64
  toPA : Nat
  row : Nat
deriving DecidableEq, Repr

inductive BootStage where
  | off | stuck | recovery | serving
deriving DecidableEq, Repr

/-- A package (R1, R343, R378 to R387). -/
structure Package where
  pkg     : Nat
  stage   : BootStage
  inPod   : Bool
  /-- it is to join the pod at its next boot; the ID that Sahfin gave it (R6, R348) -/
  joins   : Bool
  id      : Nat
  /-- the package in the socket: what its identity key derives from (R382) -/
  chip    : Nat
  /-- flash: configuration record, firmware image, second copy of the retirement list with its SHA-384 (R379 to R381) -/
  config  : List Byte
  image   : List Byte
  retire2 : List Byte
  retire2Hash : BitVec 384
  bootKeyHash : BitVec 384
  keyHash : BitVec 384
  running : List Byte
  stackUp : BitVec 8
  cxlUp   : BitVec 16
  mgmtUp  : BitVec 4
  ethUp   : BitVec 2
  /-- corrected errors, by unit (R373) -/
  corrected : List (Nat × Nat)
  /-- the thermal limits, supply points and certificate read at stage 2 (R379) -/
  limits  : List Byte
  certificate : List Byte
  /-- the grandmaster's time in 2^-16 ns, and the bound of its own discipline in ps (R278, R279) -/
  gmTime  : Nat
  gmBound : Nat
  /-- hub clock in MHz (R387) -/
  hubMhz  : Nat
  /-- path to each package that its route tables name (R348) -/
  routes  : List (Nat × List LinkId)
  /-- the translation directory, oldest first (R323) -/
  directory : List DirEntry
  /-- entries of resources to be retired that the list does not name yet (R385), and pages on the move (R384) -/
  outOfUse : List Nat
  moving  : List Moving
  /-- rows that a power loss has put back into use before they were listed (R385) -/
  again   : List Nat
  /-- moves of bytes of HBM: from, how many, to (R384) -/
  moved   : List (Nat × Nat × Nat)
  /-- the package is to be replaced: the launches on it end or are saved first (R384) -/
  leaving : Bool
deriving DecidableEq, Repr

/-- A rank of a collective as the weft processor holds it (R353, R357). -/
structure Rank where
  bound : Bool
  tail  : Nat
  slots : List SlotState
  /-- the record that waits for a FREE slot -/
  waiting : Option (List Byte)
  round : Nat
deriving DecidableEq, Repr

/-- A collective (R353 to R358). -/
structure Coll where
  pkg     : Nat
  record  : List Byte
  /-- the round that not every rank has ended, and when it began -/
  round   : Nat
  since   : Nat
  /-- rank, word, value -/
  contribs : List (Nat × Nat × Word32)
  dup     : Bool
  ranks   : List Rank
  aborted : Bool
deriving DecidableEq, Repr

/-- What the host has received (R292, R358, R368, R377, R383). -/
inductive HostEvent where
  | fault (r : FaultRecord)
  | refused (packet : BitVec 1024) (cause : Cause)
  | recordRefused (cause : Cause)
  | ended (launch : Nat)
  | machine (cause : Cause) (pkg : Nat) (time : Nat)
  | outcome (collid round mask : Nat)
  | quote (body : List Byte) (signature : BitVec 768)
  | data (value : Word)
  | invalidated (pkg : Nat)
  | dieOff (pkg die : Nat)
deriving DecidableEq, Repr

/-- Whose turn it is (R229): a stream of the core in focus, one of its queues or engines, the memory system, events,
dispatch hardware and Sahfin, or the next core. -/
inductive Turn where
  | stream (st : Stream) | queue (st : Stream) | nest | drain | shuttle | memory | events | mgmt | next
deriving DecidableEq, Repr

/-- The machine. -/
structure State where
  /-- steps that come next, oldest first; the host and the free choices of the hardware stand here (log 1, DESIGN CHOICE) -/
  agenda : List Instr
  turn   : Turn
  /-- the stream whose instruction is executed (log 1, DESIGN CHOICE) -/
  cur    : Stream
  /-- free values drawn so far (log 2, DESIGN CHOICE) -/
  fresh  : Nat
  /-- reed time that a step takes, in 2^-16 ns (log 3, DESIGN CHOICE) -/
  tick   : Nat
  me     : Core
  others : List Core
  launches : List Launch
  pkgs   : List Package
  dies   : List Die
  links  : List Link
  /-- HBM and CXL bytes, at package · 2^52 + PA, and marked 32-byte words -/
  mem    : Store 8
  memPoison : List Nat
  hostMem : Store 8
  combiners : List Combiner
  inFlight : List Msg
  inval  : List Inval
  /-- context, first and last VA of a range registered as on demand (R325) -/
  onDemand : List (Nat × Nat × Nat)
  colls  : List Coll
  podBoards : List (BoardHome × Board)
  hostLog : List HostEvent
  nextLaunch : Nat
  /-- pod time in 2^-16 ns (R278) -/
  podTime : Nat
deriving DecidableEq, Repr

/-- Why the model has no next state. -/
inductive Fault where
  /-- An access to a physical address that no memory of the part answers (R390; log 33): raised by page
  walks, by the moves and appends of block-table pages and by `bar2Access`. Safe: the manual gives no effect. -/
  | noSuchPhysicalAddress (pa : Nat)
deriving DecidableEq, Repr

/-- Why the model declines. -/
inductive Refusal where
  /-- The instruction has no meaning yet. Raised by the dispatch alone. Safe. -/
  | notModelled (mnemonic : String)
deriving DecidableEq, Repr

/-! ### Reset values -/

def Slots.none : Slots := ⟨0, 0, 0, 0, 0x3F800000#32⟩
def Tile.empty : Tile := ⟨.empty, 0, 0, [], [], Slots.none, false, false⟩
def FReg.zero : FReg := ⟨Vector.replicate 256 0#32, false⟩
def Region.undescribed : Region := ⟨.none, Slots.none, false, true⟩
/-- The defaults of R152. -/
def Nest.default : Nest :=
  ⟨Vector.replicate 6 1#32, Vector.replicate 6 0#64, Vector.replicate 6 0#64, Vector.replicate 6 0#64, .unset, .unset,
   0x3F800000#32, 0#3, none⟩
def StreamCtx.start : StreamCtx :=
  { state := .idle, stopped := false, pc := 0#24, pend := .enter, line := Vector.replicate 16 0#32,
    regs := Vector.replicate 32 0#64, poison := 0#32, await := 0#32, loops := [], arrived := none, mark := none,
    replyDue := false, written := [], carried := Vector.replicate 4 0, after := [], pastStop := [], sealedAt := none }
def Events.start : Events :=
  { handlers := Vector.replicate 4 0#24, mask := 0#4, queues := Vector.replicate 4 [], lost := 0#4, inHandler := false,
    aside := [], asideArrived := none, shadow := Vector.replicate 8 0#64, shadowPoison := 0#8, shadowAwait := 0#8 }
/-- The defaults of R97. -/
def Csrs.start : Csrs := ⟨0#5, 0#4, 0#1, 0#64, 0#4, 0#64, 0#24, 0xFFFFFFFFFFFFFFFF#64⟩
def Ring.unconfigured : Ring := ⟨0#64, 0#64, 0, 0, [], [], [], [], none, []⟩
def Bobbin.free : Bobbin := ⟨.free, .sum, 1, 0, 0, false, []⟩
/-- A member at its start (R84, R97, R105, R110, R152, R191, R200, R209, R226, R272). -/
def Member.start : Member :=
  { streams := Vector.replicate 4 StreamCtx.start, events := Events.start, csrs := Csrs.start,
    gens := Vector.replicate 3 0#64, tiles := Vector.replicate 32 Tile.empty, fregs := Vector.replicate 16 FReg.zero,
    preds := Vector.replicate 8 0#4096, regions := Vector.replicate 8 Region.undescribed, acc := [],
    shadow := Nest.default, active := none, copied := none, age := 0, mq := [], cq := [], iq := [], perform := none, found := [], cDone := 0#32,
    shapes := Vector.replicate 16 0#256, bobbins := Vector.replicate 64 Bobbin.free,
    rings := Vector.replicate 16 Ring.unconfigured, views := Vector.replicate 8 none, rounds := [], returns := [],
    losses := Vector.replicate 4 [], readLost := [], passed := [], demand := none, ended := false }
def Bind.empty : Bind := ⟨0, 0, 0, 0, 0, false, 0#3, .empty, false⟩
def Core.idle (pkg die phys quad idx : Nat) (spare : Option Nat) : Core :=
  { pkg := pkg, die := die, phys := phys, quad := quad, idx := idx, spare := spare, retired := false, cur := Bind.empty,
    next := Bind.empty, m := Member.start, spad := [], spadPoison := [], nextSpad := [], nextSpadPoison := [], imem := [],
    imemPoison := [], buffers := [], inbox := [], leavesM := [], leavesS := [], leavesC := [] }
/-- A die before power is applied (log 6, DESIGN CHOICE). -/
def Die.off (pkg die : Nat) : Die :=
  { pkg := pkg, die := die, on := false, mhz := 0, mv := 0, count := 0, time := .unlocked, bound := 0, lastSync := 0, syncAt := 0,
    slew := 0, ramp := 0, rampAt := 0, drift := 0, trim := 0, cap := 8, code := [], codePoison := [], leaves := [] }
/-- A package before power is applied (R378; log 6, DESIGN CHOICE). -/
def Package.off (pkg : Nat) : Package :=
  { pkg := pkg, stage := .off, inPod := false, joins := false, id := 0, chip := pkg, config := [], image := [], retire2 := [],
    retire2Hash := 0#384, bootKeyHash := 0#384, keyHash := 0#384, running := [], stackUp := 0#8, cxlUp := 0#16, mgmtUp := 0#4,
    ethUp := 0#2, corrected := [], limits := [], certificate := [], gmTime := 0, gmBound := 0, hubMhz := 0, routes := [],
    directory := [], outOfUse := [], moving := [], again := [], moved := [], leaving := false }

/-- The machine right after reset: one package, to which power is then applied (R378; logs 1 to 7). -/
def State.reset : State :=
  { agenda := [.powerOn 0], turn := .stream .s, cur := .s, fresh := 0, tick := 65536, me := Core.idle 0 0 0 0 0 none,
    others := [], launches := [], pkgs := [Package.off 0],
    dies := [Die.off 0 0, Die.off 0 1, Die.off 0 2, Die.off 0 3], links := [], mem := [], memPoison := [], hostMem := [],
    combiners := [], inFlight := [], inval := [], onDemand := [], colls := [], podBoards := [], hostLog := [],
    nextLaunch := 1, podTime := 0 }

end Sys2Proof.Machine
end

