-- ==== Sys2Proof/Machine/Causes.lean ====
section
/-! DEFINITION. The cause codes (R377) and the layout of a fault record (R368). -/
namespace Sys2Proof.Machine

/-- The code of a cause (R377). -/
def Cause.code : Cause → Nat
  | .illegalOpcode => 0x00 | .reservedField => 0x01 | .wrongStream => 0x02 | .splitLong => 0x03 | .chainEnd => 0x04
  | .foreignLine => 0x05 | .privilegedOpcode => 0x06 | .loopDepth => 0x07 | .slotCount => 0x08 | .trap => 0x09
  | .notInHandler => 0x0A | .fetchPoison => 0x0B | .codeRange => 0x0C | .staging => 0x0D | .hostStop => 0x0E
  | .hostHalt => 0x0F | .brk n => 0x10 + n.toNat | .step => 0x18 | .evbreak n => 0x19 + n.toNat | .forkBreak => 0x1D
  | .exitBreak => 0x1E | .csrwBreak => 0x1F | .tagMismatch => 0x20 | .tagEmpty => 0x21 | .shapeMismatch => 0x22
  | .shapeLimit => 0x23 | .pendingConflict => 0x24 | .pendingShape => 0x25 | .divideByZero => 0x26 | .detRange => 0x27
  | .flagTrap g f => 0x28 + 8 * g.toNat + f.toNat | .misaligned => 0x40 | .notPresent => 0x41 | .permission => 0x42
  | .noncanonical => 0x43 | .windowRange => 0x44 | .handleNotHeld => 0x45 | .straddleAtomic => 0x46 | .walkPoison => 0x47
  | .watch d n => 0x40 + 8 * d.toNat + n.toNat | .capInvalid => 0x60 | .capPermission => 0x61 | .capAllowance => 0x62
  | .ringConfig => 0x63 | .bobbinInvalid => 0x64 | .bobbinOverflow => 0x65 | .boardNotParticipant => 0x66
  | .boardRound => 0x67 | .barrierScope => 0x68 | .handleTableFull => 0x69 | .apopEmpty => 0x6A | .barrierLost => 0x6B
  | .fillLost => 0x6C | .creditLost => 0x6D | .tokenLost => 0x6E | .collAborted => 0x6F
  | .peer k e => 0x70 + 4 * k.toNat + e.toNat | .nestConfig => 0x80 | .regionRange => 0x81 | .profileUnknown => 0x82
  | .shapeRecord => 0x83 | .packedMalformed => 0x84 | .packedDirectory => 0x85 | .tierFault => 0x86
  | .drupeletFault => 0x87 | .codeOverlayBusy => 0x88 | .tierMissUncaught => 0x89 | .unitParity u => 0x8A + 2 * u
  | .unitStall u => 0x8B + 2 * u | .poisonConsumed => 0xA0 | .remoteStoreLost => 0xA1 | .linkDown => 0xA2
  | .eccUncorrectable => 0xA3 | .budgetOverrun => 0xA4 | .timeUnlocked => 0xA5 | .thermalStop => 0xA6
  | .supplyStop => 0xA7 | .clockLoss => 0xA8 | .mgmtFailover => 0xA9 | .coreRetired => 0xAA | .packageLeft => 0xAB
  | .imageEcc => 0xAC | .cxlDown => 0xAD | .hostReset => 0xAE | .saveAbort => 0xAF | .dlink n => 0xB0 + n.toNat
  | .hlink n => 0xB4 + n.toNat | .stack n => 0xB8 + n.toNat

/-- The progress field of a fault record: six 32-bit indices, or a byte progress in the low 64 bits (R368). -/
def FaultRecord.progressBits : List Nat → Nat
  | [n] => n % 2 ^ 64
  | l => l.foldr (fun n acc => n % 2 ^ 32 + 2 ^ 32 * acc) 0

/-- The 64 bytes of a fault record (R368). -/
def FaultRecord.bits (r : FaultRecord) : BitVec 512 :=
  BitVec.ofNat 512 (field (FaultRecord.progressBits r.progress % 2 ^ 192) 320 + field r.addr.toNat 256 +
    field (r.time % 2 ^ 64) 192 + field (r.who.member % 2 ^ 32) 160 + field (r.who.launch % 2 ^ 32) 128 +
    field (r.ctx % 2 ^ 16) 112 + field r.pos.toNat 88 + field r.who.stream.code 86 + field r.origin.toNat 84 +
    field (boolNat r.malformed) 83 + field r.level.toNat 81 + field (boolNat (!r.lost.isEmpty)) 80 +
    field (r.cause.code % 2 ^ 8) 72 + r.detail % 2 ^ 72)

end Sys2Proof.Machine
end

