-- ==== Sys2Proof/Machine/Ops.lean ====
section
/-! DEFINITION. The named operations over the state: registers, streams, cores and launches, the completion of an
instruction, transfers of control, the taking of a fault and of an event and the return from one. -/
namespace Sys2Proof.Machine

/-! ### Outcomes of an effect -/

/-- A failed check, as the fault record holds it (R368). -/
structure Trouble where
  cause     : Cause
  addr      : Word := 0
  level     : BitVec 2 := 0
  malformed : Bool := false
  detail    : Nat := 0
  lost      : List Loss := []
  progress  : List Nat := []
  /-- a page of the launch is absent: NOT_PRESENT, or the TIER_FAULT of an absent page (R325) -/
  absent    : Bool := false
deriving DecidableEq, Repr

/-- Why an effect has no result: `wait_until` does not hold (R83), a check failed, or no memory answers. -/
inductive Stop where
  | wait
  /-- it waits for a read of a home over links that hold it (R347) -/
  | reading (route : List LinkId) (scope : Scope) (cls : TClass) (key size : Nat)
  | fault (t : Trouble)
  | hole (pa : Nat)
deriving DecidableEq, Repr

abbrev Eff (α : Type) := Except Stop α

def fail {α : Type} (c : Cause) : Eff α := .error (.fault { cause := c })
def failAt {α : Type} (c : Cause) (addr : Nat) : Eff α := .error (.fault { cause := c, addr := BitVec.ofNat 64 addr })
def hold {α : Type} : Eff α := .error .wait
/-- A fault that Sahfin may resolve by mapping a page (R325). -/
def failAbsent {α : Type} (c : Cause) (addr : Nat) : Eff α := .error (.fault { cause := c, addr := BitVec.ofNat 64 addr, absent := true })
/-- A check: the fault when the condition fails. -/
def need (ok : Bool) (c : Cause) : Eff Unit := if ok then .ok () else fail c
/-- `wait_until` (R83). -/
def waitUntil (ok : Bool) : Eff Unit := if ok then .ok () else hold

/-! ### Indexed files -/

def vat {α : Type} {k : Nat} (v : Vector α (2 ^ k)) (i : BitVec k) : α := v[i.toNat]'i.isLt
def vput {α : Type} {k : Nat} (v : Vector α (2 ^ k)) (i : BitVec k) (x : α) : Vector α (2 ^ k) := v.set i.toNat x i.isLt

def streamIdx : Stream → BitVec 2
  | .s => 0 | .m => 1 | .v => 2 | .c => 3

def classIdx : EvClass → BitVec 2
  | .tier => 0 | .notify => 1 | .sealed => 2 | .deadline => 3

/-! ### Cores, members and streams -/

def modCore (f : Core → Core) (s : State) : State := { s with me := f s.me }
def modM (f : Member → Member) (s : State) : State := { s with me := { s.me with m := f s.me.m } }

def memberCtx (m : Member) (st : Stream) : StreamCtx := vat (k := 2) m.streams (streamIdx st)
def memberSetCtx (m : Member) (st : Stream) (c : StreamCtx) : Member :=
  { m with streams := vput (k := 2) m.streams (streamIdx st) c }

/-- The stream whose instruction is executed. -/
def ctx (s : State) : StreamCtx := memberCtx s.me.m s.cur
def setCtx (c : StreamCtx) (s : State) : State := modM (fun m => memberSetCtx m s.cur c) s
def modCtx (f : StreamCtx → StreamCtx) (s : State) : State := setCtx (f (ctx s)) s

def runs (c : Core) (launch member : Nat) : Bool :=
  c.cur.state == .active && c.cur.launch == launch && c.cur.member == member

def findCore (p : Core → Bool) (s : State) : Option Core := if p s.me then some s.me else s.others.find? p
def updCore (p : Core → Bool) (f : Core → Core) (s : State) : State :=
  if p s.me then { s with me := f s.me } else { s with others := mapFirst p f s.others }
/-- Every core that satisfies p. -/
def updCores (p : Core → Bool) (f : Core → Core) (s : State) : State :=
  { s with me := if p s.me then f s.me else s.me, others := s.others.map fun c => if p c then f c else c }
def allCores (s : State) : List Core := s.me :: s.others

/-- A stream of the member in focus. -/
def mine (st : Stream) (s : State) : Who := ⟨s.me.cur.launch, s.me.cur.member, st⟩
def me (s : State) : Who := mine s.cur s

def isBound (launch member : Nat) (s : State) : Bool := (allCores s).any fun c => runs c launch member

/-- The core that a position of the quad names; a spare stands in the place of the core it replaces (R296). -/
def inQuad (c : Core) (pkg die quad idx : Nat) : Bool :=
  c.pkg == pkg && c.die == die && c.quad == quad && c.idx == idx && !c.retired && (c.spare.isNone || c.cur.state != .empty)
def sibling (s : State) (idx : Nat) : Option Core := findCore (fun c => inQuad c s.me.pkg s.me.die s.me.quad idx) s

/-! ### Launches and the packet (R289 to R291) -/

def findLaunch (n : Nat) (s : State) : Option Launch := s.launches.find? fun l => l.number == n
def modLaunch (n : Nat) (f : Launch → Launch) (s : State) : State :=
  { s with launches := s.launches.map fun l => if l.number == n then f l else l }
def myLaunch (s : State) : Option Launch := findLaunch s.me.cur.launch s
def modMyLaunch (f : Launch → Launch) (s : State) : State := modLaunch s.me.cur.launch f s

/-- A field of the packet: byte offset and byte count (R289). -/
def packetField (p : BitVec 1024) (off len : Nat) : Nat := bits p (8 * off + 8 * len - 1) (8 * off)
def packet (s : State) : BitVec 1024 := match myLaunch s with | some l => l.packet | none => 0
def control (p : BitVec 1024) : BitVec 32 := BitVec.ofNat 32 (packetField p 0x04 4)
def reservation (p : BitVec 1024) : BitVec 64 := BitVec.ofNat 64 (packetField p 0x08 8)

def resTiles (s : State) : Nat := bits (reservation (packet s)) 63 58
def resFregs (s : State) : Nat := bits (reservation (packet s)) 57 53
def resRegions (s : State) : Nat := bits (reservation (packet s)) 52 49
def resBobbins (s : State) : Nat := bits (reservation (packet s)) 48 42
def resRings (s : State) : Nat := bits (reservation (packet s)) 41 37
def resBoards (s : State) : Nat := bits (reservation (packet s)) 36 30
def resCaps (s : State) : Nat := bits (reservation (packet s)) 29 23
def resSpad (s : State) : Nat := bits (reservation (packet s)) 21 0

def packetPkgs (p : BitVec 1024) : Nat := bits (control p) 25 20 + 1
def packetDies (p : BitVec 1024) : Nat := bits (control p) 19 17
def packetQuads (p : BitVec 1024) : Nat := bits (control p) 16 14
/-- R296. -/
def packetMembers (p : BitVec 1024) : Nat := packetPkgs p * packetDies p * packetQuads p * 4

/-- The debug record in force (R376). -/
def debugOf (s : State) : Option (List Byte) := match myLaunch s with | some l => l.debug | none => none
def debugByte (d : List Byte) (i : Nat) : Byte := nth d i 0

/-- The n-th stop of the debug record's stop mask, for a stream it applies to (R376). -/
def stopMask (n : Nat) (s : State) : Bool :=
  match debugOf s with
  | some d => flag (debugByte d 0xA4) n && flag (debugByte d 0xA5) (3 - s.cur.code)
  | none => false

/-! ### Reed time (R278 to R281) -/

def findDie (pkg die : Nat) (s : State) : Option Die := s.dies.find? fun d => d.pkg == pkg && d.die == die
def modDie (pkg die : Nat) (f : Die → Die) (s : State) : State :=
  { s with dies := s.dies.map fun d => if d.pkg == pkg && d.die == die then f d else d }
/-- The local counter of the core's die, in 2^-16 ns. -/
def counter (s : State) : Nat := match findDie s.me.pkg s.me.die s with | some d => d.count | none => 0
def timeNs (s : State) : Nat := counter s / 65536
def timeLocked (s : State) : Bool :=
  match findDie s.me.pkg s.me.die s with
  | some d => d.time != .unlocked
  | none => false
/-- The bound a die reports, in ps: the remaining backward offset is part of it (R279, R280). -/
def dieBound (d : Die) : Nat :=
  match d.time with
  | .unlocked => 0xFFFFFFFF
  | .locked => d.bound + d.slew * 1000 / 65536
  | .holdover => d.bound + d.slew * 1000 / 65536 + 20 * ((d.count - d.lastSync) / (65536 * 1000))
def boundPs (s : State) : Nat :=
  match findDie s.me.pkg s.me.die s with
  | some d => dieBound d
  | none => 0xFFFFFFFF

/-! ### Scalar registers (R84) -/

/-- A handler of S names the shadow copies of s24 to s31 (R108). -/
def shadowed (s : State) (r : Reg) : Bool := s.cur == .s && s.me.m.events.inHandler && 24 ≤ r.toNat

def rawReg (s : State) (r : Reg) : Word :=
  if r == 0 then 0
  else if shadowed s r then vat (k := 3) s.me.m.events.shadow (BitVec.ofNat 3 r.toNat)
  else vat (k := 5) (ctx s).regs r

def regPoison (s : State) (r : Reg) : Bool :=
  if r == 0 then false
  else if shadowed s r then s.me.m.events.shadowPoison.getLsbD (r.toNat - 24)
  else (ctx s).poison.getLsbD r.toNat

/-- The register's load has not returned (R231). -/
def awaited (s : State) (r : Reg) : Bool :=
  if r == 0 then false
  else if shadowed s r then s.me.m.events.shadowAwait.getLsbD (r.toNat - 24)
  else (ctx s).await.getLsbD r.toNat

/-- A source register: wait while its load is on its way, fault while it is poisoned (R84, R231). -/
def rd (s : State) (r : Reg) : Eff Word :=
  if awaited s r then hold
  else if regPoison s r then fail .poisonConsumed
  else .ok (rawReg s r)

/-- The bits of a source register, whatever its poison, which `needReg` checks in its own place. -/
def rdBits (s : State) (r : Reg) : Eff Word := if awaited s r then hold else .ok (rawReg s r)
def needReg (s : State) (r : Reg) : Eff Unit := need (!regPoison s r) .poisonConsumed

def setBit {n : Nat} (x : BitVec n) (i : Nat) (b : Bool) : BitVec n :=
  if b then x ||| BitVec.ofNat n (2 ^ i) else x &&& ~~~(BitVec.ofNat n (2 ^ i))

/-- The loads of a stream that travel for a register no longer do. -/
def untarget (w : Who) (d : Reg) (shadow : Bool) (m : Msg) : Msg :=
  if m.who != w then m
  else { m with body := match m.body with
    | .load r sh leaf key n sg => .load (if r == d && sh == shadow then 0 else r) sh leaf key n sg
    | b => b }

/-- A register that is written again takes nothing from an older load or queued instruction (R231). -/
def dropAwaited (st : Stream) (d : Reg) (s : State) : State :=
  if (memberCtx s.me.m st).await.getLsbD d.toNat then
    let t := modM (fun m => { memberSetCtx m st { memberCtx m st with await := setBit (memberCtx m st).await d.toNat false } with
      iq := m.iq.map fun e => if e.stream == st && e.dst == d then { e with dst := 0 } else e }) s
    { t with inFlight := t.inFlight.map (untarget (mine st s) d false) }
  else s

/-- The same of a shadow register (R108). -/
def dropShadow (d : Reg) (s : State) : State :=
  if s.me.m.events.shadowAwait.getLsbD (d.toNat - 24) then
    { modM (fun m => { m with events := { m.events with shadowAwait := setBit m.events.shadowAwait (d.toNat - 24) false } }) s with
      inFlight := s.inFlight.map (untarget (me s) d true) }
  else s

/-- A register whose value is on its way (R231). -/
def awaitReg (d : Reg) (s : State) : State :=
  if d == 0 then s
  else if shadowed s d then
    modM (fun m => { m with events := { m.events with shadowAwait := setBit m.events.shadowAwait (d.toNat - 24) true } }) (dropShadow d s)
  else modCtx (fun c => { c with await := setBit c.await d.toNat true }) (dropAwaited s.cur d s)

/-- A register write with its poison bit; s0 ignores it (R84). -/
def wrP (d : Reg) (v : Word) (poison : Bool) (s : State) : State :=
  if d == 0 then s
  else if shadowed s d then
    modM (fun m => { m with events := { m.events with
      shadow := vput (k := 3) m.events.shadow (BitVec.ofNat 3 d.toNat) v,
      shadowPoison := setBit m.events.shadowPoison (d.toNat - 24) poison } }) (dropShadow d s)
  else modCtx (fun c => { c with regs := vput (k := 5) c.regs d v, poison := setBit c.poison d.toNat poison }) (dropAwaited s.cur d s)

def wr (d : Reg) (v : Word) (s : State) : State := wrP d v false s

/-! ### Events: raising (R107) -/

/-- Queues an event at a member, or sets the lost bit of its class. -/
def raiseAt (cls : EvClass) (detail : Nat) (m : Member) : Member :=
  let q := vat (k := 2) m.events.queues (classIdx cls)
  if q.length < 16 then
    { m with events := { m.events with queues := vput (k := 2) m.events.queues (classIdx cls) (q ++ [BitVec.ofNat 56 detail]) } }
  else { m with events := { m.events with lost := setBit m.events.lost (classIdx cls).toNat true } }

def raiseEvent (cls : EvClass) (detail : Nat) (s : State) : State := modM (raiseAt cls detail) s

/-! ### Taking a fault (R367 to R370) -/

/-- A fault that Sahfin may resolve by mapping a page (R325). -/
def isDemand (t : Trouble) : Bool := !t.malformed && t.absent

/-- The size of the page a leaf at a level maps (R313). -/
def pageSize : Nat → Nat
  | 0 => 2 ^ 16 | 1 => 2 ^ 21 | _ => 2 ^ 30

/-- The range of an absent page is registered as on demand (R325). -/
def onDemandHas (ctxId va : Nat) (s : State) : Bool := s.onDemand.any fun r => r.1 == ctxId && r.2.1 ≤ va && va ≤ r.2.2

def recordOf (s : State) (st : Stream) (pos : CodePos) (origin : BitVec 2) (t : Trouble) : FaultRecord :=
  { cause := t.cause, who := ⟨s.me.cur.launch, s.me.cur.member, st⟩, ctx := s.me.cur.ctx, pos := pos, origin := origin,
    addr := t.addr, progress := t.progress, time := timeNs s, malformed := t.malformed, level := t.level, lost := t.lost,
    detail := t.detail }

/-- Every stream of the member stops at its boundary (R367). -/
def stopStreams (m : Member) : Member := { m with streams := m.streams.map fun c => { c with stopped := true } }

/-- A record goes to the launch's completion and image (R368). -/
def logRecord (r : FaultRecord) (s : State) : State :=
  modLaunch r.who.launch (fun l => { l with records := l.records ++ [r] }) { s with hostLog := s.hostLog ++ [.fault r] }

/-- The entry or command at a position is over, and the debug stops it passed fire again (R370). -/
def dropPassed (st : Stream) (pos : CodePos) (m : Member) : Member :=
  { m with passed := m.passed.filter fun x => !(x.1 == st && x.2.1 == pos) }

/-- Sahfin begins the gang stop of a launch once (R306, R375). -/
def beginStop (n : Nat) (c : Cause) (s : State) : State :=
  match findLaunch n s with
  | some l =>
    if l.phase == .running then
      modLaunch n (fun l => { l with phase := .stopping, cause := some c }) { s with agenda := s.agenda ++ [.gangPreemption n] }
    else s
  | none => s

/-- A stream's own queue holds no entry (R231). -/
def queueEmpty (st : Stream) (m : Member) : Bool :=
  (match st with
    | .m => m.mq.isEmpty
    | .c => m.cq.isEmpty
    | .s | .v => true) && m.iq.all fun e => e.stream != st

/-- An access of a stream that is not yet performed at `core` (R257). -/
def unperformed (w : Who) (m : Msg) : Bool := m.ord.isSome && m.who == w
def pendingOf (st : Stream) (s : State) : Bool := s.inFlight.any (unperformed (mine st s))

/-- Nothing that a stream has issued is unperformed (R231, R257). -/
def ownEmpty (st : Stream) (s : State) : Bool := queueEmpty st s.me.m && !pendingOf st s

/-- The faults that were detected before the member stopped are reported too (R369). -/
def logFound (s : State) : State :=
  let t := s.me.m.found.foldl (fun u r => logRecord r.1 u) s
  modM (fun m => { m with found := [] }) t

/-- A fault record takes effect: the member's streams stop, and the launch, or the member alone while Sahfin maps a
page that is registered as on demand (R325, R367, R368). -/
def takeRecord (r : FaultRecord) (demand : Bool) (s : State) : State :=
  if demand && onDemandHas r.ctx r.addr.toNat s then
    modM (fun m => { stopStreams m with demand := some r }) s
  else beginStop r.who.launch r.cause (logFound (logRecord r (modM stopStreams s)))

/-- Taking a fault. One that a sequencer finds takes effect once its stream's older entries are performed (R367). Log 15, DEDUCED. -/
def takeFault (st : Stream) (pos : CodePos) (origin : BitVec 2) (t : Trouble) (s : State) : State :=
  let r := recordOf s st pos origin t
  if origin == 0 && s.me.m.perform.isNone && !ownEmpty st s then
    modM (fun m => { memberSetCtx m st { memberCtx m st with state := if (memberCtx m st).state == .idle then .idle else .stalled } with
      found := if m.found.any (fun x => x.1.who.stream == st) then m.found else m.found ++ [(r, isDemand t)] }) s
  else takeRecord r (isDemand t) s

/-- The fault that a stream's sequencer had found takes effect. -/
def takeFound (st : Stream) (s : State) : State :=
  match s.me.m.found.find? fun x => x.1.who.stream == st with
  | none => s
  | some x => takeRecord x.1 x.2 (modM (fun m => { m with found := m.found.filter fun y => y.1.who.stream != st }) s)

/-! ### The completion of an instruction (R59, R90, R93) -/

def lineOf (p : CodePos) : Nat := p.toNat / 16
def slotOf (p : CodePos) : Nat := p.toNat % 16
def position (line slot : Nat) : CodePos := BitVec.ofNat 24 (line * 16 + slot)

def linkWord (l : Vector Word32 16) : Word32 := vat (k := 4) l 0
def lineCount (l : Vector Word32 16) : Nat := bits (linkWord l) 28 25
def lineTerm (l : Vector Word32 16) : Bool := flag (linkWord l) 29
def lineNext (l : Vector Word32 16) : Nat := bits (linkWord l) 19 0

/-- What follows an instruction whose last word is in slot n of a line (R90). -/
inductive Following where
  | here (p : CodePos)
  | entering (p : CodePos)
  | term
deriving DecidableEq, Repr

def following (l : Vector Word32 16) (line n : Nat) : Following :=
  if n < lineCount l then .here (position line (n + 1))
  else if n == lineCount l && !lineTerm l then .entering (position (lineNext l) 1)
  else .term

/-- The position P of R90: 0 where nothing follows. -/
def followingPos : Following → CodePos
  | .here p => p
  | .entering p => p
  | .term => 0

/-- The back-edge rule of R93 for an instruction at a position: the loop stack, and where control passes. -/
def backEdge (pc : CodePos) : List LoopRec → List LoopRec × Option CodePos
  | [] => ([], none)
  | r :: t =>
    if r.e == pc then
      if 1 < r.rem.toNat then ({ r with rem := r.rem - 1 } :: t, some r.b) else backEdge pc t
    else (r :: t, none)

/-- The stream continues at what follows; a continuation enters its line afresh, also where the stream holds that line (R59; log 37,
DESIGN CHOICE). -/
def continueAt (c : StreamCtx) : Following → StreamCtx
  | .here p => { c with pc := p, pend := .run }
  | .entering p => { c with pc := p, pend := .enter }
  | .term => { c with pc := position (lineOf c.pc) (lineCount c.line), pend := .chainEnd }

/-- The stream's fields after an instruction of len words that did not transfer control. -/
def sequenced (len : Nat) (c : StreamCtx) : StreamCtx :=
  let c := { c with state := .running, arrived := none, mark := none, replyDue := false, pastStop := [],
                     sealedAt := none }
  match backEdge c.pc c.loops with
  | (loops, some b) =>
      { c with loops := loops, pc := b, pend := if lineOf b == lineOf c.pc then .run else .enter }
  | (loops, none) => continueAt { c with loops := loops } (following c.line (lineOf c.pc) (slotOf c.pc + len - 1))

/-- The STEP stop of the debug record, after an instruction that stood at pos (R376). -/
def stepStop (pos : CodePos) (s : State) : State :=
  if stopMask 0 s && s.me.m.perform.isNone then takeFault s.cur pos 0 { cause := .step } s else s

/-- A free value (log 2, DESIGN CHOICE). -/
def drawFree (s : State) : Word × State := (Config.freeWord s.fresh, { s with fresh := s.fresh + 1 })
/-- n free bytes: what a lost read would have returned. Log 2. -/
def drawBytes (n : Nat) (s : State) : List Byte × State :=
  ((upTo n).map fun i => (Config.freeWord (s.fresh + i)).setWidth 8, { s with fresh := s.fresh + n })

/-- The instruction of len words completes. -/
def retire (len : Nat) (s : State) : State := stepStop (ctx s).pc (modCtx (sequenced len) s)

/-- The stream waits at its instruction (R227). -/
def stall (s : State) : State := modCtx (fun c => { c with state := .stalled }) s

/-! ### Accesses on their way (R176, R232, R233, R257 to R263) -/

/-- The issue age of what the current stream performs: of the queue entry or the engine's command, else the next one (R233). -/
def accessAge (s : State) : Nat :=
  match s.me.m.perform with
  | some p => p.1
  | none => match s.cur with
    | .s | .v => s.me.m.age
    | .m => (match s.me.m.mq with
      | .nest a :: _ => a
      | .drain d :: _ => d.age
      | [] => s.me.m.age)
    | .c => (match s.me.m.cq with
      | c :: _ => c.age
      | [] => s.me.m.age)

/-- An age that has been used is not used again. -/
def takeAge (s : State) : State := if accessAge s == s.me.m.age then modM (fun m => { m with age := m.age + 1 }) s else s

/-- What the current stream performs is a command's transfer or a drain's write (R282). -/
def bulkNow (s : State) : Bool :=
  s.me.m.perform.isNone && match s.cur with
    | .c => (match s.me.m.cq with
      | c :: _ => (match c.kind with
        | .attn _ => false
        | .copy | .push _ | .pull _ | .mcast _ _ | .red _ | .page | .code _ => true)
      | [] => false)
    | .m => (match s.me.m.mq with
      | .drain _ :: _ => true
      | _ => false)
    | .s | .v => false

/-- A message of the current stream sets out. -/
def sendAs (ord : Option Nat) (delay : Nat) (cls : TClass) (route : List LinkId) (scope : Scope) (body : Body) (s : State) : State :=
  takeAge { s with inFlight := s.inFlight ++
    [{ who := me s, pos := (ctx s).pc, route := route, scope := scope, age := accessAge s, cls := cls, ord := ord, delay := delay, body := body,
       bulk := bulkNow s }] }

/-- The outstanding read of an instruction or entry that waits for it; one is enough. -/
def sendFetch (route : List LinkId) (scope : Scope) (cls : TClass) (key n : Nat) (s : State) : State :=
  if s.inFlight.any fun m => m.who == me s && m.body == .fetch key n then s else sendAs none 0 cls route scope (.fetch key n) s

/-- The stream's later accesses follow what a stream has issued so far (R263). -/
def followAll (st : Stream) (age : Nat) (c : StreamCtx) : StreamCtx := { c with after := (st, age) :: c.after.filter fun e => e.1 != st }
/-- An acquiring or releasing instruction: the stream's later accesses follow its earlier ones (R263). -/
def ordered (s : State) : State := if ownEmpty s.cur s then s else modCtx (followAll s.cur s.me.m.age) s

/-- What an instruction's effect comes to: the next state, the fault taken at its position, the wait, or no
answer. -/
def conclude (origin : BitVec 2) (s : State) : Eff State → Host.Outcome State Fault Refusal
  | .ok t => .next t
  | .error .wait => .next (stall s)
  | .error (.reading route scope cls key n) => .next (stall (sendFetch route scope cls key n s))
  | .error (.fault t) => .next (takeFault s.cur (ctx s).pc origin t s)
  | .error (.hole pa) => .fault (.noSuchPhysicalAddress pa)

/-- An instruction found wanting by the sequencer has origin 0 (R368). -/
def run (s : State) (e : Eff State) : Host.Outcome State Fault Refusal := conclude 0 s e

/-! ### Code lines and transfers (R57 to R64) -/

/-- A `ccode` that is at the head of a C queue writes these lines (R64, R217). -/
def overlayCovers (line : Nat) (m : Member) : Bool :=
  match m.cq with
  | c :: _ => match c.kind with
    | .code n => c.b.toNat ≤ line && line < c.b.toNat + n
    | .copy | .push _ | .pull _ | .mcast _ _ | .red _ | .page | .attn _ => false
  | [] => false

def overlayBusy (line : Nat) (s : State) : Bool :=
  if line < 4096 then overlayCovers line s.me.m
  else (allCores s).any fun c => c.pkg == s.me.pkg && c.die == s.me.die && c.cur.state == .active && overlayCovers line c.m

/-- The launch's line ranges (R289). -/
def inRanges (line : Nat) (s : State) : Bool :=
  let p := packet s
  let i := packetField p 0x18 2
  let k := packetField p 0x1C 4
  (i ≤ line && line < i + packetField p 0x1A 2 && line < 4096) ||
  (k ≤ line && line < k + packetField p 0x20 4 && 4096 ≤ line)

/-- The words of a 64-byte line, from bytes at base. -/
def lineAt (m : Store 8) (base : Nat) : Vector Word32 16 :=
  Vector.ofFn fun i : Fin 16 => BitVec.ofNat 32 (bytesToNat (storeRead m (base + 4 * i.val) 4))

def readLine (line : Nat) (s : State) : Vector Word32 16 :=
  if line < 4096 then lineAt s.me.imem (64 * line)
  else match findDie s.me.pkg s.me.die s with
    | some d => lineAt d.code (64 * (line - 4096))
    | none => Vector.replicate 16 0

def linePoisoned (line : Nat) (s : State) : Bool :=
  if line < 4096 then s.me.imemPoison.contains line
  else match findDie s.me.pkg s.me.die s with
    | some d => d.codePoison.contains line
    | none => false

/-- The line a stream enters at a position, or the first fetch fault (R60, R61, R62, R71). -/
def fetchLine (st : Stream) (pos : CodePos) (s : State) : Eff (Vector Word32 16) :=
  let line := lineOf pos
  let l := readLine line s
  do
    need (line < 135168) .notPresent
    need (inRanges line s) .codeRange
    need (!overlayBusy line s) .codeOverlayBusy
    need (!linePoisoned line s) .fetchPoison
    need (bits (linkWord l) 24 20 == 0) .reservedField
    need (lineCount l != 0 && slotOf pos != 0 && slotOf pos ≤ lineCount l) .slotCount
    need (bits (linkWord l) 31 30 == st.code) .foreignLine
    .ok l

/-- The stream stands at a position of a line it holds. -/
def enterLine (pos : CodePos) (l : Vector Word32 16) (c : StreamCtx) : StreamCtx :=
  { c with pc := pos, line := l, pend := .run, state := .running, arrived := none, mark := none, replyDue := false,
           pastStop := [], sealedAt := none }

/-- A line the stream is already in is not entered again; its slot and owner are still checked (R59, R62, R64). -/
def targetLine (pos : CodePos) (s : State) : Eff (Vector Word32 16) :=
  let c := ctx s
  if lineOf pos == lineOf c.pc && c.pend == .run then do
    need (slotOf pos != 0 && slotOf pos ≤ lineCount c.line) .slotCount
    .ok c.line
  else fetchLine s.cur pos s

/-- A taken transfer pops each record whose exit is its target, and every record pushed after it (R93). -/
def popTo (target : CodePos) : List LoopRec → List LoopRec
  | [] => []
  | r :: t => if t.any (fun q => q.x == target) then popTo target t else if r.x == target then t else r :: t

/-- The stream moves to a checked target; loop says whether the loop stack takes part (R63, R93). -/
def transfer (loop : Bool) (target : CodePos) (s : State) : Eff State := do
  let l ← targetLine target s
  let p := (ctx s).pc
  .ok (stepStop p (modCtx (fun c => enterLine target l { c with loops := if loop then popTo target c.loops else c.loops }) s))

/-- The position that follows the instruction of len words at pc (R90). -/
def nextPos (len : Nat) (s : State) : CodePos :=
  let c := ctx s
  followingPos (following c.line (lineOf c.pc) (slotOf c.pc + len - 1))

/-! ### Taking an event and returning from it (R107 to R109) -/

def evcauseWord (cls : EvClass) (lost : Bool) (detail : BitVec 56) : Word :=
  BitVec.ofNat 64 (cls.code + field (boolNat lost) 7 + field detail.toNat 8)

/-- S takes an event whose handler stands at h: pc saved in evpc, the cause in evcause, the shadow registers and an
empty loop stack in place (R108). The handler's line is entered at the next turn of S. -/
def takeEvent (cls : EvClass) (detail : BitVec 56) (h : CodePos) (m : Member) : Member :=
  let c := memberCtx m .s
  let i := classIdx cls
  { memberSetCtx m .s { c with pc := h, pend := .enter, loops := [], arrived := none, state := .running, mark := none } with
    csrs := { m.csrs with evpc := c.pc, evcause := evcauseWord cls (m.events.lost.getLsbD i.toNat) detail },
    events := { m.events with inHandler := true, aside := c.loops, asideArrived := c.arrived, lost := setBit m.events.lost i.toNat false,
                              queues := vput (k := 2) m.events.queues i ((vat (k := 2) m.events.queues i).drop 1) } }

/-- The effect of `evret` (R109). -/
def returnFromEvent (s : State) : Eff State := do
  need s.me.m.events.inHandler .notInHandler
  let s' ← transfer false s.me.m.csrs.evpc s
  .ok (modM (fun m => { memberSetCtx m .s { memberCtx m .s with loops := m.events.aside, arrived := m.events.asideArrived } with
    events := { m.events with inHandler := false, aside := [], asideArrived := none } }) s')

end Sys2Proof.Machine
end

