-- ==== Sys2Proof/Machine/Format.lean ====
section
/-! DEFINITION. Tags, shapes and rows (R11, R15, R16), the decoding of elements and blocks (R12, R13, R20) and the
requantisation of blocks (R21, R22). -/
namespace Sys2Proof.Machine

/-! ### Tags (R15, R114) -/

/-- The floating tags: 0 to 12, 18 and 19 (R114). -/
def isFloatTag : Tag → Bool
  | .i8 | .i16 | .i32 | .n8 | .i64 | .empty => false
  | .fp32 | .bf16 | .fp16 | .e4m3 | .e5m2 | .e3m2 | .e2m3 | .e2m1
  | .mxe4m3 | .mxe5m2 | .mxe3m2 | .mxe2m3 | .mxe2m1 | .e2m1b16 | .e4m3b16 => true

/-- The integer tags: 13 to 17 (R114). -/
def isIntTag : Tag → Bool
  | .i8 | .i16 | .i32 | .n8 | .i64 => true
  | .fp32 | .bf16 | .fp16 | .e4m3 | .e5m2 | .e3m2 | .e2m3 | .e2m1
  | .mxe4m3 | .mxe5m2 | .mxe3m2 | .mxe2m3 | .mxe2m1 | .e2m1b16 | .e4m3b16 | .empty => false

/-- Byte-multiple elements without a sidecar: tags 0 to 4 and 13 to 17 (R114). -/
def isByteTag : Tag → Bool
  | .fp32 | .bf16 | .fp16 | .e4m3 | .e5m2 | .i8 | .i16 | .i32 | .n8 | .i64 => true
  | .e3m2 | .e2m3 | .e2m1 | .mxe4m3 | .mxe5m2 | .mxe3m2 | .mxe2m3 | .mxe2m1 | .e2m1b16 | .e4m3b16 | .empty => false

def elemBits : Tag → Nat
  | .fp32 | .i32 => 32
  | .bf16 | .fp16 | .i16 => 16
  | .e4m3 | .e5m2 | .mxe4m3 | .mxe5m2 | .i8 | .n8 | .e4m3b16 => 8
  | .e3m2 | .e2m3 | .mxe3m2 | .mxe2m3 => 6
  | .e2m1 | .mxe2m1 | .e2m1b16 => 4
  | .i64 => 64
  | .empty => 0

/-- Elements per block; 0 for a tag without blocks. -/
def blockLen : Tag → Nat
  | .mxe4m3 | .mxe5m2 | .mxe3m2 | .mxe2m3 | .mxe2m1 => 32
  | .e2m1b16 | .e4m3b16 => 16
  | .fp32 | .bf16 | .fp16 | .e4m3 | .e5m2 | .e3m2 | .e2m3 | .e2m1 | .i8 | .i16 | .i32 | .n8 | .i64 | .empty => 0

/-- The element format of a floating tag; elements of block tags have no infinity to round to (R24). -/
def elemFmt : Tag → Fmt
  | .bf16 => bf16
  | .fp16 => fp16
  | .e4m3 | .mxe4m3 | .e4m3b16 => e4m3
  | .e5m2 | .mxe5m2 => e5m2
  | .e3m2 | .mxe3m2 => e3m2
  | .e2m3 | .mxe2m3 => e2m3
  | .e2m1 | .mxe2m1 | .e2m1b16 => e2m1
  | .fp32 | .i8 | .i16 | .i32 | .n8 | .i64 | .empty => fp32

/-- The range of an integer tag (R14). -/
def intRange : Tag → Int × Int
  | .i8 => (-128, 127)
  | .i16 => (-32768, 32767)
  | .i32 => (-2147483648, 2147483647)
  | .n8 => (0, 255)
  | _ => (-9223372036854775808, 9223372036854775807)

def intValue (tag : Tag) (code : Word) : Int :=
  match tag with
  | .n8 => (code.toNat % 256 : Nat)
  | _ => signed (elemBits tag) code.toNat

/-- The code of an integer, modulo the element width. -/
def intCode (tag : Tag) (i : Int) : Word := BitVec.ofInt 64 (i % 2 ^ elemBits tag)

/-! ### Shapes and rows (R11, R16) -/

/-- The bytes of a row of c elements (R11). -/
def rowBytes (tag : Tag) (c : Nat) : Nat :=
  match elemBits tag with
  | 4 => (c + 1) / 2
  | 6 => 3 * ((c + 3) / 4)
  | n => c * (n / 8)

/-- R16. -/
def legalShape (tag : Tag) (r c : Nat) : Bool :=
  1 ≤ r && r ≤ 256 && 1 ≤ c && c ≤ 256 && r * c ≤ 4096 && r * rowBytes tag c ≤ 8192 &&
  (blockLen tag == 0 || c % blockLen tag == 0)

/-- The first byte and the byte count of a row that element j reaches, and its bit in them (R11). -/
def elemSpot (tag : Tag) (j : Nat) : Nat × Nat × Nat :=
  let w := elemBits tag
  (j * w / 8, (j * w % 8 + w + 7) / 8, j * w % 8)

/-- Element j of the bytes of a row. -/
def rowElem (tag : Tag) (row : List Byte) (j : Nat) : Word :=
  let p := elemSpot tag j
  BitVec.ofNat 64 (bytesToNat ((row.drop p.1).take p.2.1) / 2 ^ p.2.2 % 2 ^ elemBits tag)

/-- The codes of a row of c elements, in order. -/
def rowCodes (tag : Tag) (c : Nat) (row : List Byte) : List Word :=
  match elemBits tag with
  | 4 => (row.flatMap fun x => [BitVec.ofNat 64 (x.toNat % 16), BitVec.ofNat 64 (x.toNat / 16)]).take c
  | 6 => ((chunks 3 row.length row).flatMap fun b =>
      let v := bytesToNat b
      (upTo 4).map fun k => BitVec.ofNat 64 (v / 2 ^ (6 * k) % 64)).take c
  | n => ((chunks (n / 8) row.length row).map fun b => BitVec.ofNat 64 (bytesToNat b)).take c

/-- The bytes of a row of elements, with zero padding. -/
def packRow (tag : Tag) (es : List Word) : List Byte :=
  let w := elemBits tag
  natToBytes (rowBytes tag es.length) (es.foldr (fun e acc => e.toNat % 2 ^ w + 2 ^ w * acc) 0)

/-! ### Slots (R40 to R42) -/

/-- Some slot is not none, or cm is not 1.0. -/
def pendingSlots (s : Slots) : Bool := s.rs != 0 || s.cs != 0 || s.rp != 0 || s.cq != 0 || s.cm != one32
def rankOne (s : Slots) : Bool := s.rp != 0 || s.cq != 0

/-! ### Decoding (R12, R13, R20, R41, R111) -/

/-- The value of a block scale. -/
def scaleValue (tag : Tag) (b : Byte) : XVal :=
  if blockLen tag == 16 then decodeFmt ue5m3 b.toNat
  else if b == 0xFF then .nan else .fin false 1 (b.toNat - 127)

/-- An element of a block times its scale, rounded once to FP32 (R20). -/
def blockValue (tag : Tag) (code : Word) (scale : Byte) : XVal × Flags :=
  let r := r32 (xmul (decodeFmt (elemFmt tag) code.toNat) (scaleValue tag scale))
  (x32 r.1, r.2)

/-- The value of an element of a tag, with its block's scale. -/
def elemValue (tag : Tag) (code : Word) (scale : Byte) : XVal × Flags :=
  if blockLen tag != 0 then blockValue tag code scale
  else if isIntTag tag then (xofInt (intValue tag code), 0)
  else (decodeFmt (elemFmt tag) code.toNat, 0)

/-- The blocks of a row. -/
def rowBlocks (tag : Tag) (cols : Nat) : Nat := if blockLen tag == 0 then 0 else cols / blockLen tag

/-- The values of the elements of a tile, in index order: raw FP32 values while it carries slots or a cm (R111). -/
def tileValues (t : Tile) : List (XVal × Flags) :=
  if pendingSlots t.slots then t.elems.map fun e => (x32 (e.setWidth 32), 0)
  else if blockLen t.tag == 0 then t.elems.map fun e => elemValue t.tag e 0
  else
    ((chunks (blockLen t.tag) t.elems.length t.elems).zip t.side).flatMap fun p => p.1.map fun e => elemValue t.tag e p.2

/-! ### Requantisation (R21, R22) -/

/-- A format whose rounding saturates (R24, R25). -/
def saturating (f : Fmt) : Fmt := { f with infCode := none }

def emaxOf : Tag → Int
  | .mxe4m3 => 8
  | .mxe5m2 => 15
  | .mxe3m2 => 4
  | _ => 2

/-- 6 or 448 (R22). -/
def emaxval (tag : Tag) : XVal := if tag == .e2m1b16 then .fin false 6 0 else .fin false 448 0

/-- The scale byte of a block of values that are finite and not all zero, and the exact quotient of a value. -/
def blockScale (tag : Tag) (vs : List XVal) : Byte × (XVal → XVal) :=
  let a := vs.foldl (fun a v => xmax a (xabs v)) xzero
  if blockLen tag == 16 then
    let c := (roundTo ue5m3 .rup 0 (xdiv a (emaxval tag))).1
    (BitVec.ofNat 8 c, fun v => xdiv v (decodeFmt ue5m3 c))
  else
    let top : Int := match a with
      | .fin _ m e => (Nat.log2 m : Int) + e
      | _ => 0
    let x := max (top - emaxOf tag) (-127)
    (BitVec.ofNat 8 (x + 127).toNat, fun v => xmul v (.fin false 1 (-x)))

/-- A block of FP32 values written: its scale, its elements, the flags of each rounding; u gives the stochastic
word of the k-th element. -/
def requantise (tag : Tag) (mode : RMode) (u : Nat → Nat) (vs : List XVal) : Byte × List Word × List Flags :=
  if vs.any fun v => xisNan v || xisInf v then (0xFF, vs.map fun _ => 0, vs.map fun _ => 0)
  else if vs.all xisZero then (0x00, vs.map fun v => BitVec.ofNat 64 (signBit (elemFmt tag) (xneg? v)), vs.map fun _ => 0)
  else
    let sc := blockScale tag vs
    let rs := (vs.zip (upTo vs.length)).map fun p => roundTo (saturating (elemFmt tag)) mode (u p.2) (sc.2 p.1)
    (sc.1, rs.map fun r => BitVec.ofNat 64 r.1, rs.map (·.2))

end Sys2Proof.Machine
end

