-- ==== Sys2Proof/Machine/Flags.lean ====
section
/-! DEFINITION. The sticky flags of `vstatus` and `atomflags` (R27, R39, R53, R98, R188) and the flag traps of the
debug record (R376, R377). -/
namespace Sys2Proof.Machine

/-- What an operation can raise, by the codes f of class 1 (R377): [0] NV, [1] OF, [2] UF, [3] NX, [4] PFOV, and of
its results [5] NaN, [6] infinite, [7] subnormal. -/
abbrev Conds := BitVec 8

def condNV : Conds := 1
def condOF : Conds := 2
def condUF : Conds := 4
def condNX : Conds := 8
def condPFOV : Conds := 16
def condNaN : Conds := 32
def condInf : Conds := 64
def condSub : Conds := 128
def condIf (b : Bool) (c : Conds) : Conds := if b then c else 0

/-- The conditions that flags stand for. -/
def flagConds (f : Flags) : Conds :=
  condIf (f.getLsbD 3) condNV ||| condIf (f.getLsbD 2) condOF ||| condIf (f.getLsbD 1) condUF |||
  condIf (f.getLsbD 0) condNX ||| condIf (f.getLsbD 4) condPFOV

/-- The flags among conditions. -/
def condFlags (c : Conds) : Flags :=
  onlyIf (c.getLsbD 0) flagNV ||| onlyIf (c.getLsbD 1) flagOF ||| onlyIf (c.getLsbD 2) flagUF |||
  onlyIf (c.getLsbD 3) flagNX ||| onlyIf (c.getLsbD 4) flagPFOV

/-- What a result's class adds. -/
def resultConds (f : Fmt) (code : Nat) : Conds :=
  match decodeFmt f code with
  | .nan => condNaN
  | .inf _ => condInf
  | .fin _ m _ => condIf (m != 0 && m < 2 ^ f.mbits) condSub

/-- The flag-trap mask of a group: 0 VEC, 1 MAT, 2 ATM (R376). -/
def trapMask (g : Nat) (s : State) : Conds :=
  match debugOf s with
  | some d => debugByte d (0xA0 + g)
  | none => 0

/-- The condition of lowest code that the mask traps. -/
def trapped (g : Nat) (c : Conds) (s : State) : Option Cause :=
  let hit := trapMask g s &&& c
  ((upTo 8).find? fun f => hit.getLsbD f).map fun f => .flagTrap (BitVec.ofNat 2 g) (BitVec.ofNat 3 f)

/-- Flags of the vector converter (group 0) or of the nest tree and drain converter (group 1) accumulate in
`vstatus`, or the trap discards the result (R27, R376). -/
def raiseStatus (g : Nat) (c : Conds) (s : State) : Eff State :=
  match trapped g c s with
  | some k => fail k
  | none => .ok (modM (fun m => { m with csrs := { m.csrs with vstatus := m.csrs.vstatus ||| condFlags c } }) s)

/-- A loss or a late report is entered in a stream's log (R374). -/
def addLoss (st : Stream) (l : Loss) (m : Member) : Member :=
  { m with losses := vput (k := 2) m.losses (streamIdx st) (vat (k := 2) m.losses (streamIdx st) ++ [l]) }

/-- Flags of an atomic or a DET read accumulate in `atomflags`; its trap is reported at the stream's next fence of
covering scope, after the effect (R188, R376). -/
def raiseAtomAt (st : Stream) (c : Conds) (addr size : Nat) (pos : CodePos) (scope : Scope) (age : Nat) (s : State) : State :=
  let t := modM (fun m => { m with csrs := { m.csrs with
    atomflags := m.csrs.atomflags ||| BitVec.ofNat 4 (condFlags c).toNat } }) s
  match trapped 2 c s with
  | some k => modM (addLoss st ⟨k, addr, size, pos, scope, age⟩) t
  | none => t

end Sys2Proof.Machine
end

