-- ==== Sys2Proof/Machine/Memory.lean ====
section
/-! DEFINITION. The memory system: links and routes, translation, the windows, the page attributes, DET words, the
quad combiners, and the reads and writes that every instruction uses (R95, R184, R236, R256 to R262, R311 to R319). -/
namespace Sys2Proof.Machine

/-! ### Links and routes (R1, R347, R377, R390) -/

def linkOf (id : LinkId) (s : State) : LinkState :=
  match s.links.find? fun l => l.id == id with | some l => l.state | none => .up
def setLink (id : LinkId) (st : LinkState) (s : State) : State :=
  { s with links := ⟨id, st⟩ :: s.links.filter fun l => l.id != id }
/-- A link that holds its traffic until it recovers (R347). -/
def linkBusy (id : LinkId) (s : State) : Bool :=
  match linkOf id s with
  | .up | .failed => false
  | .replaying _ | .retraining => true
def linkFailed (id : LinkId) (s : State) : Bool := linkOf id s == .failed

/-- The die link between two neighbours (R377). -/
def dieLink (a b : Nat) : Option Nat :=
  match min a b, max a b with
  | 0, 1 => some 0 | 0, 2 => some 1 | 1, 3 => some 2 | 2, 3 => some 3 | _, _ => none

/-- From a die to the hub: its own link, or a neighbour's when that has failed (R377). -/
def hubRoute (pkg die : Nat) (s : State) : List LinkId :=
  if linkFailed (.hlink pkg die) s then
    let n := if die == 0 then 1 else if die == 3 then 2 else 0
    (match dieLink die n with | some l => [.dlink pkg l] | none => []) ++ [.hlink pkg n]
  else [.hlink pkg die]

/-- Between dies of one package: the die link, or the hub when there is none or it has failed (R377). -/
def dieRoute (pkg a b : Nat) (s : State) : List LinkId :=
  if a == b then []
  else match dieLink a b with
    | some l => if linkFailed (.dlink pkg l) s then hubRoute pkg a s ++ hubRoute pkg b s else [.dlink pkg l]
    | none => hubRoute pkg a s ++ hubRoute pkg b s

/-- The compute die that a physical address belongs to; CXL memory lies behind the hub (R343, R390). -/
def homeDie (pa : Nat) : Option Nat := if pa < 2 ^ 39 then some (pa / 2 ^ 37) else none

/-- The first weft port of a package, from a given one on, that has not failed; the given one where all have. -/
def portFrom (pkg first : Nat) (s : State) : LinkId :=
  let ports := (upTo 18).map fun i => LinkId.weft pkg ((first + i) % 18)
  (ports.find? fun l => !linkFailed l s).getD (.weft pkg (first % 18))

/-- The path that Sahfin writes into the route tables for a pair of packages (R348; log 8, DESIGN CHOICE: the ports). -/
def newPath (a b : Nat) (s : State) : List LinkId := [portFrom a b s, portFrom b a s]

/-- Sahfin writes every package's route tables (R348); a failed port stands in none while another is up (R347). -/
def writeRoutes (s : State) : State :=
  let paths := fun (p : Package) => (s.pkgs.filter fun q => q.pkg != p.pkg && q.inPod && p.inPod).map fun q => (q.pkg, newPath p.pkg q.pkg s)
  { s with pkgs := s.pkgs.map fun p => { p with routes := paths p } }

/-- The links between two packages' hubs, by the route table of the first (R348). -/
def podRoute (a b : Nat) (s : State) : List LinkId :=
  if a == b then []
  else match (s.pkgs.find? fun p => p.pkg == a).bind fun p => p.routes.find? fun r => r.1 == b with
    | some r => r.2
    | none => newPath a b s

/-- From a core's die to a die, or to the hub (none), of a package. -/
def routeTo (pkg die tpkg : Nat) (tdie : Option Nat) (s : State) : List LinkId :=
  if pkg == tpkg then
    match tdie with
    | some d => dieRoute pkg die d s
    | none => hubRoute pkg die s
  else hubRoute pkg die s ++ podRoute pkg tpkg s ++ (match tdie with | some d => hubRoute tpkg d s | none => [])

/-- No link of the route holds its traffic. -/
def routeUp (r : List LinkId) (s : State) : Bool := r.all fun l => !linkBusy l s

/-- Some link of the route has failed, and nothing passes it. -/
def routeDead (r : List LinkId) (s : State) : Bool := r.any fun l => linkFailed l s

/-- What changes memory at its home. -/
def isWriteBody : Body → Bool
  | .write _ _ _ | .detWrite _ _ _ | .collWrite _ _ _ _ | .copyWrite _ _ _ _ _ | .hostWrite _ _ | .atomic _ _ _ _ _ _ => true
  | .load _ _ _ _ _ _ | .fetch _ _ | .atomicReply _ _ _ | .boardPost _ _ _ _ _ | .boardLook _ _ _ | .boardRead _ _ _ _
  | .boardRound _ _ _ | .boardReply _ _ _ | .arrival _ | .release _ _ | .fill _ _ _ _ | .collFill _ _ _ _ _ _ _ | .credit _ _ _ _ | .collCredit _ _ _ | .mcredit _ _ _ | .token
  | .bobbin _ _ _ _ | .bind _ _ _ _ _ _ => false

/-- The replay limit of a package's links: the record's, or the default (R347, R379). -/
def replayLimit (pkg : Nat) (s : State) : Nat :=
  match s.pkgs.find? fun p => p.pkg == pkg with
  | some p => (let n := (nth p.config 0x98 0).toNat; if 4 ≤ n && n ≤ 64 then n else 16)
  | none => 16
def linkPkg : LinkId → Nat
  | .dlink p _ => p | .hlink p _ => p | .mesh p _ => p | .weft p _ => p | .host p => p

/-- A link that has replayed a flit up to its limit retrains; a link that retrains recovers, unless the agenda lets
the recovery timeout come first (R347; log 8, DESIGN CHOICE). -/
def linkDue (s : State) (l : Link) : Option Instr :=
  match l.state with
  | .replaying n => if replayLimit (linkPkg l.id) s ≤ n then some (.linkRetrain l.id) else none
  | .retraining => some (.retrainRecovery l.id)
  | .up => none
  | .failed => none

/-- A replay below the limit has succeeded once the memory system has had its turn (R346). -/
def replayed (s : State) (l : Link) : Link :=
  match l.state with
  | .replaying n => if replayLimit (linkPkg l.id) s ≤ n then l else { l with state := .up }
  | .retraining => l
  | .up => l
  | .failed => l

/-- The member a message must reach is bound or its launch is over, or the message needs none; until then Sahfin holds it
(R182, R277, R306). -/
def targetHere (m : Msg) (s : State) : Bool :=
  let gone := fun l => match findLaunch l s with
    | some x => x.phase == .ended
    | none => true
  let bound := fun l n => gone l || isBound l n s
  match m.body with
  | .atomicReply _ _ _ | .boardPost _ _ _ _ _ | .boardLook _ _ _ | .boardRead _ _ _ _ | .boardRound _ _ _
  | .boardReply _ _ _ | .bind _ _ _ _ _ _ | .token => bound m.who.launch m.who.member
  | .fill l n _ _ => bound l n
  | .collFill _ _ l n _ _ _ => bound l n
  | .credit l n _ _ => bound l n
  | .copyWrite l n _ _ _ => bound l n
  | .bobbin h _ _ _ => bound m.who.launch h
  | .load _ _ _ _ _ _ | .fetch _ _ | .write _ _ _ | .detWrite _ _ _ | .collWrite _ _ _ _ | .hostWrite _ _ | .atomic _ _ _ _ _ _ | .arrival _ | .release _ _
  | .collCredit _ _ _ | .mcredit _ _ _ => true

/-- A message on its way keeps a later one of a member behind it: one of its class on a link they share, or one of the same
member to the same destination (R283, R285). -/
def keepsBackOf (w : Who) (cls : TClass) (r : List LinkId) (s : State) (m : Msg) : Bool :=
  m.delay == 0 && targetHere m s && ((m.cls == cls && m.route.any fun l => r.contains l) ||
    (m.who.launch == w.launch && m.who.member == w.member && m.route == r && r != []))

/-- What a member sends over the route in a class arrives at once: every link is up, and nothing older is before it (R283,
R285). Log 24, DESIGN CHOICE. -/
def routeFreeFor (w : Who) (cls : TClass) (r : List LinkId) (s : State) : Bool :=
  routeUp r s && !routeDead r s && !s.inFlight.any (keepsBackOf w cls r s)

/-- The same of the member in focus. -/
def keepsBack (cls : TClass) (r : List LinkId) (s : State) (m : Msg) : Bool := keepsBackOf (me s) cls r s m
def routeFree (cls : TClass) (r : List LinkId) (s : State) : Bool := routeFreeFor (me s) cls r s

/-- The bytes an atomic covers (R188, R189). -/
def atomSize (k : AtomKind) (w : Bool) : Nat :=
  match k with
  | .op o => if w || o.isFloat then 4 else 8
  | .cas _ => if w then 4 else 8

/-- Memory keys hold the package above the physical address. -/
def memKey (pkg pa : Nat) : Nat := pkg * 2 ^ 52 + pa
def keyRoute (key : Nat) (s : State) : List LinkId :=
  routeTo s.me.pkg s.me.die (key / 2 ^ 52) (homeDie (key % 2 ^ 52)) s
/-- The narrowest scope whose instance of the caller holds a home (R255, R374). -/
def homeScopeFrom (pkg die key : Nat) : Scope :=
  match homeDie (key % 2 ^ 52) with
  | none => .sys
  | some d => if key / 2 ^ 52 != pkg then .pod else if d == die then .die else .pkg
def homeScope (key : Nat) (s : State) : Scope := homeScopeFrom s.me.pkg s.me.die key

/-- A member's state changed where it stands, on its core or in its saved section (R182, R307). -/
def modMember (launch member : Nat) (f : Member → Member) (s : State) : State :=
  if isBound launch member s then updCore (fun c => runs c launch member) (fun c => { c with m := f c.m }) s
  else modLaunch launch (fun l => { l with saved := l.saved.map fun v => if v.member == member then { v with m := f v.m } else v }) s

/-! ### Members elsewhere -/

def sameCore (a b : Core) : Bool := a.pkg == b.pkg && a.die == b.die && a.phys == b.phys

/-- k with another core in focus, which then returns to its place. -/
def atCore (p : Core → Bool) (k : State → State) (s : State) : State :=
  if p s.me then k s
  else match s.others.find? p with
    | none => s
    | some c =>
      let t := k { s with me := c, others := s.others.map fun x => if sameCore x c then s.me else x }
      match t.others.find? fun x => sameCore x s.me with
      | some m => { t with me := m, others := t.others.map fun x => if sameCore x s.me then t.me else x }
      | none => t

/-- A saved member as a core that ran it would see it. -/
def savedCore (l : Launch) (v : Saved) (s : State) : Core :=
  let p := (l.place[v.member / 4]?).getD (s.me.pkg, s.me.die, s.me.quad)
  { Core.idle p.1 p.2.1 26 p.2.2 (v.member % 4) none with
    cur := { Bind.empty with launch := l.number, member := v.member, ctx := packetField l.packet 0x14 2, state := .active },
    m := v.m, spad := v.spad, spadPoison := v.spadPoison, buffers := v.buffers, inbox := v.inbox }

/-- k with a saved member in focus; what it changes of the member goes back to the section (R306, R307). -/
def atSaved (launch member : Nat) (k : State → State) (s : State) : State :=
  match (findLaunch launch s).bind fun l => (l.saved.find? fun v => v.member == member).map fun v => (l, v) with
  | none => s
  | some (l, v) =>
    let t := k { s with me := savedCore l v s, others := s.me :: s.others }
    let back : Saved → Saved := fun x => if x.member == member then { x with m := t.me.m } else x
    match t.others with
    | c :: rest => modLaunch launch (fun l => { l with saved := l.saved.map back }) { t with me := c, others := rest }
    | [] => s

/-- k as the member and stream that a message belongs to, on its core or in its saved section. -/
def atWho (w : Who) (k : State → State) (s : State) : State :=
  let k' := fun (t : State) => k { t with cur := w.stream }
  { (if isBound w.launch w.member s then atCore (fun c => runs c w.launch w.member) k' s else atSaved w.launch w.member k' s) with cur := s.cur }

/-! ### Bytes and poison at homes (R371) -/

def setMarks (marks : List Nat) (a n : Nat) (on : Bool) : List Nat :=
  let touched := (upTo ((a % 32 + n + 31) / 32)).map fun i => a / 32 + i
  if on then marks ++ touched.filter fun w => !marks.contains w
  else marks.filter fun w => !(touched.contains w && a ≤ 32 * w && 32 * w + 32 ≤ a + n)
def anyMark (marks : List Nat) (a n : Nat) : Bool :=
  (upTo ((a % 32 + n + 31) / 32)).any fun i => marks.contains (a / 32 + i)

/-- A write applied at its home: whole ECC words lose their mark, poisoned data sets it. -/
def homeWrite (key : Nat) (data : List Byte) (poison : Bool) (s : State) : State :=
  { s with mem := storeWrite s.mem key data, memPoison := setMarks s.memPoison key data.length poison }

/-- The CXL expander ranges of the configuration record: base and length (R379). -/
def cxlRange (p : Package) (n : Nat) : Nat × Nat :=
  (bytesToNat ((p.config.drop (0x0A0 + 16 * n)).take 8), bytesToNat ((p.config.drop (0x0A8 + 16 * n)).take 8))

/-- The key lies at an expander that has stopped answering (R377). -/
def cxlDead (key : Nat) (s : State) : Bool :=
  match s.pkgs.find? fun p => p.pkg == key / 2 ^ 52 with
  | some p => (upTo 16).any fun i =>
      let r := cxlRange p i
      r.2 != 0 && r.1 ≤ key % 2 ^ 52 && key % 2 ^ 52 < r.1 + r.2 && !p.cxlUp.getLsbD i
  | none => false

/-! ### Quad combiners (R256) -/

def isCombiner (pkg die quad : Nat) (c : Combiner) : Bool := c.pkg == pkg && c.die == die && c.quad == quad
def combined (s : State) : List PendWrite :=
  match s.combiners.find? (isCombiner s.me.pkg s.me.die s.me.quad) with | some c => c.writes | none => []

/-- Overlay a write on bytes that start at key. -/
def overlay (key : Nat) (w : PendWrite) (bs : List Byte) : List Byte :=
  (bs.zip (upTo bs.length)).map fun p =>
    let a := key + p.2
    if w.key ≤ a && a < w.key + w.data.length then nth w.data (a - w.key) p.1 else p.1

/-- The bytes that a home delivers; an expander that is down delivers none of its own (R377, CXL_DOWN). Log 2. -/
def homeBytes (key n : Nat) (s : State) : List Byte :=
  if cxlDead key s then (upTo n).map fun i => Config.lostByte (key + i) else storeRead s.mem key n

/-- What the quad's sequences read: the combiner where it holds the bytes, else the home; the marks are those that the
words will have once the combiner's writes are applied (R371). -/
def quadRead (key n : Nat) (s : State) : List Byte × Bool :=
  let ws := combined s
  (ws.foldl (fun bs w => overlay key w bs) (homeBytes key n s),
   anyMark (ws.foldl (fun ms w => setMarks ms w.key w.data.length w.poison) s.memPoison) key n || cxlDead key s)

def addToCombiner (w : PendWrite) (s : State) : State :=
  if s.combiners.any (isCombiner s.me.pkg s.me.die s.me.quad) then
    { s with combiners := s.combiners.map fun c =>
        if isCombiner s.me.pkg s.me.die s.me.quad c then { c with writes := c.writes ++ [w] } else c }
  else { s with combiners := s.combiners ++ [⟨s.me.pkg, s.me.die, s.me.quad, [w]⟩] }

/-- A lost write is logged at its issuer, and in the shuttle command that made it (R223, R374). -/
def loseWrite (w : Who) (pos : CodePos) (addr size : Nat) (scope : Scope) (age : Nat) (s : State) : State :=
  modMember w.launch w.member (addLoss w.stream ⟨.remoteStoreLost, addr, size, pos, scope, age⟩) s

/-- A write that a combiner has forwarded over a route to these bytes is still on its way (R256). -/
def forwardedOver (r : List LinkId) (key n : Nat) (s : State) : Bool :=
  s.inFlight.any fun m => match m.body with
    | .write k data _ => m.ord.isNone && m.route == r && k < key + n && key < k + data.length
    | .load _ _ _ _ _ _ | .fetch _ _ | .detWrite _ _ _ | .collWrite _ _ _ _ | .copyWrite _ _ _ _ _ | .hostWrite _ _ | .atomic _ _ _ _ _ _
    | .atomicReply _ _ _ | .boardPost _ _ _ _ _ | .boardLook _ _ _ | .boardRead _ _ _ _ | .boardRound _ _ _ | .boardReply _ _ _
    | .arrival _ | .release _ _ | .fill _ _ _ _ | .collFill _ _ _ _ _ _ _ | .credit _ _ _ _ | .collCredit _ _ _ | .mcredit _ _ _ | .token | .bobbin _ _ _ _
    | .bind _ _ _ _ _ _ => false

/-- A write leaves the combiner of a quad of a die: applied at its home, or on its way while the route is held or an older
write of its bytes travels it (R260). -/
def forwardWrite (pkg die : Nat) (w : PendWrite) (s : State) : State :=
  let r := routeTo pkg die (w.key / 2 ^ 52) (homeDie (w.key % 2 ^ 52)) s
  if cxlDead w.key s then loseWrite w.who w.pos w.key w.data.length .sys w.age s
  else if routeFreeFor w.who w.cls r s && !forwardedOver r w.key w.data.length s then homeWrite w.key w.data w.poison s
  else { s with inFlight := s.inFlight ++
    [{ who := w.who, pos := w.pos, route := r, scope := homeScopeFrom pkg die w.key, age := w.age, cls := w.cls, ord := none, delay := 0,
       body := .write w.key w.data w.poison }] }

def drainCombiner (pkg die quad : Nat) (s : State) : State :=
  match s.combiners.find? (isCombiner pkg die quad) with
  | none => s
  | some c => c.writes.foldl (fun t w => forwardWrite pkg die w t)
      { s with combiners := s.combiners.filter fun d => !isCombiner pkg die quad d }

def drainMine (s : State) : State := drainCombiner s.me.pkg s.me.die s.me.quad s

/-! ### Page tables (R313 to R317, R390) -/

def findPkg (pkg : Nat) (s : State) : Option Package := s.pkgs.find? fun p => p.pkg == pkg
def modPkg (pkg : Nat) (f : Package → Package) (s : State) : State :=
  { s with pkgs := s.pkgs.map fun p => if p.pkg == pkg then f p else p }

def bytesField (b : List Byte) (off len : Nat) : Nat := bytesToNat ((b.drop off).take len)

/-- All of [pa, pa + n) is HBM of stacks that are up (R390). -/
def inHbm (p : Package) (pa n : Nat) : Bool :=
  pa + n ≤ 2 ^ 39 && (upTo ((pa + n - 1) / 2 ^ 36 + 1 - pa / 2 ^ 36)).all fun i => p.stackUp.getLsbD (pa / 2 ^ 36 + i)
/-- All of [pa, pa + n) is one expander's range. -/
def inCxl (p : Package) (pa n : Nat) : Bool :=
  (upTo 16).any fun i => let r := cxlRange p i; r.2 != 0 && r.1 ≤ pa && pa + n ≤ r.1 + r.2

def leafType (e : BitVec 64) : Nat := bits e 63 62
def leafDetw (e : BitVec 64) : Int := signed 8 (bits e 61 54)
def leafTier (e : BitVec 64) : Nat := bits e 53 52
def leafFrame (e : BitVec 64) : Nat := bits e 51 16 * 2 ^ 16
def leafCollid (e : BitVec 64) : Nat := bits e 15 8
def leafColl (e : BitVec 64) : Bool := flag e 7
def leafPack (e : BitVec 64) : Bool := flag e 6
def leafDet (e : BitVec 64) : Bool := flag e 5
def leafSig (e : BitVec 64) : Bool := flag e 4
def leafOrd (e : BitVec 64) : Nat := bits e 3 2
def leafW (e : BitVec 64) : Bool := flag e 1
def leafR (e : BitVec 64) : Bool := flag e 0

def levelShift : Nat → Nat
  | 0 => 16 | 1 => 21 | 2 => 30 | _ => 39
def levelIndex (va lvl : Nat) : Nat :=
  va / 2 ^ levelShift lvl % (match lvl with | 0 => 32 | 1 => 512 | 2 => 512 | _ => 8192)
/-- The size of the table that an entry of a level points to. -/
def nextTableSize : Nat → Nat
  | 3 => 2 ^ 12 | 2 => 2 ^ 12 | _ => 2 ^ 8

/-- R316, for an entry that is not invalid. -/
def malformed (p : Package) (lvl : Nat) (e : BitVec 64) : Bool :=
  match leafType e with
  | 1 => lvl == 0 || bits e 61 52 != 0 || bits e 7 0 != 0 || bits e 51 8 * 2 ^ 8 % nextTableSize lvl != 0
  | 2 =>
    lvl == 3 || leafOrd e == 3 || leafTier e == 3 ||
    (leafTier e != 2 &&
      let span := if leafDet e then 8 * pageSize lvl else pageSize lvl
      leafFrame e % span != 0 || !(if leafTier e == 0 then inHbm p (leafFrame e) span else inCxl p (leafFrame e) span)) ||
    1 < boolNat (leafDet e) + boolNat (leafColl e) + boolNat (leafPack e) ||
    ((leafDet e || leafColl e || leafPack e) && leafTier e != 0) ||
    (leafDetw e != 0 && !leafDet e) || (leafCollid e != 0 && !leafColl e)
  | _ => true

def walkFault {α : Type} (va lvl : Nat) (bad : Bool) : Eff α :=
  .error (.fault { cause := .notPresent, addr := BitVec.ofNat 64 va, level := BitVec.ofNat 2 lvl, malformed := bad, absent := !bad })

/-- The walk from a table at a level (R317): the leaf and its level. -/
def walkFrom (p : Package) (va : Nat) (s : State) : Nat → Nat → Eff (BitVec 64 × Nat)
  | fuel, table =>
    let key := memKey p.pkg (table + 8 * levelIndex va fuel)
    let e : BitVec 64 := BitVec.ofNat 64 (bytesToNat (storeRead s.mem key 8))
    if !(inHbm p table 8 || inCxl p table 8) then .error (.hole table)
    else if anyMark s.memPoison key 8 then failAt .walkPoison va
    else if leafType e == 0 then walkFault va fuel false
    else if malformed p fuel e then walkFault va fuel true
    else if leafType e == 2 then .ok (e, fuel)
    else match fuel with
      | 0 => walkFault va 0 true
      | n + 1 => walkFrom p va s n (bits e 51 8 * 2 ^ 8)

/-- The page-table root of a packet (R289, R314). -/
def packetRoot (p : BitVec 1024) : Nat := bits (BitVec.ofNat 64 (packetField p 0x28 8)) 51 16 * 2 ^ 16

/-- Where a walk starts, for a launch that holds a context. -/
def walkIn (pkg root va : Nat) (s : State) : Eff (BitVec 64 × Nat) :=
  match findPkg pkg s with
  | some p => walkFrom p va s 3 root
  | none => walkFault va 3 false

/-- The page that a table maps an address by is on the move (R384). -/
def pageMoving (pkg root va : Nat) (s : State) : Bool :=
  s.pkgs.any fun p => p.pkg == pkg && p.moving.any fun x => x.root == root && x.va ≤ va && va < x.va + pageSize x.level

/-- The keys that a walk reads, as far as its tables lead. -/
def walkKeys (p : Package) (va : Nat) (s : State) : Nat → Nat → List Nat
  | fuel, table =>
    let key := memKey p.pkg (table + 8 * levelIndex va fuel)
    let e : BitVec 64 := BitVec.ofNat 64 (bytesToNat (storeRead s.mem key 8))
    key :: match fuel with
      | 0 => []
      | n + 1 => if leafType e == 1 then walkKeys p va s n (bits e 51 8 * 2 ^ 8) else []

/-- The reads of a walk travel in TC1 to the homes of the tables (R282, R317, R321). -/
def walkReaches (pkg root va : Nat) (s : State) : Bool :=
  match findPkg pkg s with
  | some p => (walkKeys p va s 3 root).all fun k => routeFree .tc1 (keyRoute k s) s || routeDead (keyRoute k s) s
  | none => true

/-- The walk of an access, which waits for a page on the move (R317, R384). -/
def walkFor (pkg root va : Nat) (s : State) : Eff (BitVec 64 × Nat) :=
  match walkIn pkg root va s with
  | .ok r => .ok r
  | .error e => if pageMoving pkg root va s then hold else .error e

/-- A cached leaf translates an address of the launch in focus. -/
def leafServes (va : Nat) (s : State) (l : Leaf) : Bool := l.ctx == s.me.cur.ctx && l.va ≤ va && va < l.va + pageSize l.level

/-- The leaf cache of the core that serves the current stream: the matrix load pipes', that of S and V, the shuttle's
(R320; log 35, DESIGN CHOICE: M's and C's other accesses). -/
def coreLeaves (s : State) : List Leaf :=
  match s.cur with
  | .m => s.me.leavesM
  | .s | .v => s.me.leavesS
  | .c => s.me.leavesC

def dieLeaves (s : State) : List Leaf := match findDie s.me.pkg s.me.die s with | some d => d.leaves | none => []

/-- The leaf that translates an address: the core's cached one, the die's, or the walk's (R317, R320, R321, R324). -/
def translate (va : Nat) (s : State) : Eff (BitVec 64 × Nat) :=
  match (coreLeaves s).find? (leafServes va s) with
  | some l => .ok (l.entry, l.level)
  | none => match (dieLeaves s).find? (leafServes va s) with
    | some l => .ok (l.entry, l.level)
    | none => if walkReaches s.me.pkg (packetRoot (packet s)) va s then walkFor s.me.pkg (packetRoot (packet s)) va s else hold

/-! ### The leaf caches and the translation directory (R320, R323) -/

/-- A leaf joins a cache of so many entries; the oldest makes room. -/
def addLeaf (size : Nat) (l : Leaf) (ls : List Leaf) : List Leaf :=
  if ls.any fun (x : Leaf) => x.ctx == l.ctx && x.va == l.va && x.level == l.level then ls
  else (if ls.length < size then ls else ls.drop 1) ++ [l]

def sameLeafPage (l : Leaf) (d : DirEntry) : Bool := d.ctx == l.ctx && d.va == l.va && d.level == l.level
def dropPage (d : DirEntry) (ls : List Leaf) : List Leaf := ls.filter fun l => !sameLeafPage l d

/-- The caches of a core without the leaves of a page. -/
def dropFromCore (p : Leaf → Bool) (c : Core) : Core :=
  { c with leavesM := c.leavesM.filter fun l => !p l, leavesS := c.leavesS.filter fun l => !p l, leavesC := c.leavesC.filter fun l => !p l }

/-- A die and its cores drop cached leaves (R323). -/
def dropLeaves (pkg die : Nat) (p : Leaf → Bool) (s : State) : State :=
  updCores (fun c => c.pkg == pkg && c.die == die) (dropFromCore p)
    (modDie pkg die (fun d => { d with leaves := d.leaves.filter fun l => !p l }) s)

/-- The oldest record of a full directory makes room: its page's leaves are invalidated first (R323). -/
def roomInDirectory (p : Package) (s : State) : State :=
  if p.directory.length < 524288 then s
  else match p.directory with
    | old :: rest => modPkg p.pkg (fun p => { p with directory := rest })
        (old.dies.foldl (fun t d => dropLeaves p.pkg d (fun x => sameLeafPage x old) t) s)
    | [] => s

/-- The directory records that a die holds a leaf (R323). -/
def recordLeaf (pkg die : Nat) (l : Leaf) (s : State) : State :=
  let add := fun (d : DirEntry) => if sameLeafPage l d && !d.dies.contains die then { d with dies := d.dies ++ [die] } else d
  match findPkg pkg s with
  | none => s
  | some p =>
    if p.directory.any (sameLeafPage l) then modPkg pkg (fun p => { p with directory := p.directory.map add }) s
    else modPkg pkg (fun p => { p with directory := p.directory ++ [⟨l.ctx, l.va, l.level, [die]⟩] }) (roomInDirectory p s)

/-- A walk's leaf enters the cache of a die, and the directory (R320, R323). -/
def fillDie (pkg die : Nat) (l : Leaf) (s : State) : State :=
  recordLeaf pkg die l (modDie pkg die (fun d => { d with leaves := addLeaf 16384 l d.leaves }) s)

/-- A leaf enters the core's cache for the current stream (R320). -/
def fillCore (l : Leaf) (s : State) : State :=
  match s.cur with
  | .m => modCore (fun c => { c with leavesM := addLeaf 256 l c.leavesM }) s
  | .s | .v => modCore (fun c => { c with leavesS := addLeaf 256 l c.leavesS }) s
  | .c => modCore (fun c => { c with leavesC := addLeaf 256 l c.leavesC }) s

def inWindow (va : Nat) : Bool := va / 2 ^ 56 == 0xFE || va / 2 ^ 56 == 0xFD

/-- An access through a page leaves its leaf in the core's cache, and after a walk in the die's (R320, R321). -/
def cachePage (s : State) (va : Nat) : State :=
  if inWindow va || 2 ^ 52 ≤ va || (coreLeaves s).any (leafServes va s) then s
  else match (dieLeaves s).find? (leafServes va s) with
    | some l => fillCore l s
    | none => match walkIn s.me.pkg (packetRoot (packet s)) va s with
      | .ok (e, lvl) =>
        let l : Leaf := ⟨s.me.cur.ctx, va / pageSize lvl * pageSize lvl, lvl, e⟩
        fillCore l (fillDie s.me.pkg s.me.die l s)
      | .error _ => s

/-! ### The checks of an access (R311, R312, R318, R319) -/

inductive Dir where
  | read | write | update
deriving DecidableEq, Repr

/-- What an access is to the page attributes: its direction, whether DET pages admit it (4-byte words, FP32 where a
format is known), whether a COLL page takes it as a contribution, whether CXL memory or a PACK page is forbidden to it. -/
structure Acc where
  dir   : Dir
  det   : Bool := false
  coll  : Bool := false
  noCxl : Bool := false
  noPack : Bool := false
deriving DecidableEq, Repr

/-- Where the bytes of an access stand: the scratchpad of the core at a position of the quad, or global memory by
its leaf and its key (on a DET page, the key of the shadow entry). -/
inductive Place where
  | spad (idx : Nat) (off : Nat)
  | mem (leaf : BitVec 64) (key : Nat)
deriving DecidableEq, Repr

def permitted (a : Acc) (e : BitVec 64) : Bool :=
  (match a.dir with | .read => leafR e | .write => leafW e && !leafPack e | .update => leafW e && !leafPack e && !leafColl e) &&
  (!leafDet e || a.det) && (!leafColl e || a.dir == .read || a.coll) && (!leafPack e || !a.noPack)

/-- A DET page takes whole aligned words alone (R318). -/
def detAligned (e : BitVec 64) (va n : Nat) : Bool := !leafDet e || (va % 4 == 0 && n % 4 == 0)

/-- The bytes of a buffer in window terms (R184). -/
def handleOwner (h : BitVec 64) : Nat := bits h 39 38
def handleLen (h : BitVec 64) : Nat := bits h 37 22 * 64
def handleOff (h : BitVec 64) : Nat := bits h 21 0
def within (lo n start len : Nat) : Bool := start ≤ lo && lo + n ≤ start + len
def meets (lo n start len : Nat) : Bool := lo < start + len && start < lo + n

def dirCode : Dir → BitVec 2
  | .read => 1 | .write => 2 | .update => 3

/-- A stop of the debug record that the instruction, or the entry that a queue or engine performs, passes (R370). -/
def muted (c : Cause) (s : State) : Bool := (ctx s).pastStop.contains c || s.me.m.passed.contains (s.cur, (ctx s).pc, c)

/-- The comparator of the debug record that an access touches (R376). -/
def watchHit (d : Dir) (va n : Nat) (s : State) : Option Nat :=
  match debugOf s with
  | none => none
  | some rec => (upTo 8).find? fun i =>
      let o := 0x20 + 16 * i
      let ctl := bytesField rec (o + 12) 4
      !muted (.watch (dirCode d) (BitVec.ofNat 3 i)) s && ctl / 2 ^ 31 % 2 == 1 && ctl / 2 ^ (match d with | .read => 0 | .write => 1 | .update => 2) % 2 == 1 &&
        meets va n (bytesField rec o 8) (bytesField rec (o + 8) 4)

/-- One page part of an access, n bytes from va (R312, but for the straddle). -/
def resolvePart (a : Acc) (va n : Nat) (s : State) : Eff Place :=
  let top := va / 2 ^ 56
  if top == 0xFE then
    let off := va % 2 ^ 56
    do
      if !(off < resSpad s && off + n ≤ resSpad s) then failAt .windowRange va
      if s.me.buffers.any (fun b => b.since ≤ accessAge s && meets off n (handleOff b.handle) (handleLen b.handle)) then
        failAt .handleNotHeld va
      .ok (.spad s.me.idx off)
  else if top == 0xFD then
    let owner := va / 2 ^ 22 % 4
    let off := va % 2 ^ 22
    do
      if va / 2 ^ 24 % 2 ^ 32 != 0 then failAt .windowRange va
      match sibling s owner with
      | none => failAt .handleNotHeld va
      | some c =>
        if c.buffers.any (fun b => b.holder == s.me.idx && within off n (handleOff b.handle) (handleLen b.handle))
        then .ok (.spad owner off) else failAt .handleNotHeld va
  else if 2 ^ 52 ≤ va then failAt .noncanonical va
  else do
    let (e, lvl) ← translate va s
    if leafTier e == 2 then failAbsent .tierFault va
    if !(permitted a e && detAligned e va n) then failAt .permission va
    let o := va % pageSize lvl
    .ok (.mem e (memKey s.me.pkg (if leafDet e then leafFrame e + 8 * (o / 4 * 4) else leafFrame e + o)))

/-- The attributes that a straddling access must not mix (R319). -/
def straddles (x y : BitVec 64) : Bool :=
  (leafDet x || leafColl x || leafDet y || leafColl y) &&
  (leafDet x != leafDet y || leafColl x != leafColl y || leafDetw x != leafDetw y || leafCollid x != leafCollid y || leafW x != leafW y)

/-- The page parts of n bytes from va. -/
def pageParts (va : Nat) : Nat → Nat → List (Nat × Nat)
  | 0, _ => []
  | fuel + 1, n =>
    let k := 2 ^ 16 - va % 2 ^ 16
    if n ≤ k then (if n == 0 then [] else [(va, n)]) else (va, k) :: pageParts (va + k) fuel (n - k)

/-- A place and how many bytes of the access stand there. -/
abbrev Spot := Place × Nat

def checkPart (a : Acc) (prev : Option (BitVec 64)) (va n : Nat) (s : State) : Eff (Place × Option (BitVec 64)) := do
  let p ← resolvePart a va n s
  match p with
  | .spad _ _ => .ok (p, prev)
  | .mem e _ =>
    if (match prev with | some x => straddles x e | none => false) then failAt .straddleAtomic va
    if a.noCxl && leafTier e == 1 then failAt .tierFault va
    .ok (p, some e)

def checkParts (a : Acc) (s : State) : Option (BitVec 64) → List (Nat × Nat) → Eff (List Spot)
  | _, [] => .ok []
  | prev, (va, n) :: rest => do
    let (p, e) ← checkPart a prev va n s
    let t ← checkParts a s e rest
    .ok ((p, n) :: t)

/-- The parts of an access: a window is one part, other addresses are cut at 64 KiB (R184, R312). -/
def accessParts (va n : Nat) : List (Nat × Nat) :=
  if inWindow va then (if n == 0 then [] else [(va, n)]) else pageParts va (n / 2 ^ 16 + 2) n

/-- What the comparators take an access for: a contribution to a COLL page is an update (R376). -/
def watchDir (a : Acc) : List Spot → Dir
  | (.mem leaf _, _) :: _ => if a.dir == .write && leafColl leaf then .update else a.dir
  | _ => a.dir

/-- A data comparator stops an access of n bytes at va (R376). -/
def watchCheck (d : Dir) (va n : Nat) (s : State) : Eff Unit :=
  match watchHit d va n s with
  | some i => .error (.fault { cause := .watch (dirCode d) (BitVec.ofNat 3 i), addr := BitVec.ofNat 64 va, detail := i })
  | none => .ok ()

/-- Every check of an access of n bytes at va, then the watch comparators: where its bytes stand. -/
def resolve (a : Acc) (va n : Nat) (s : State) : Eff (List Spot) := do
  let spots ← checkParts a s none (accessParts va n)
  watchCheck (watchDir a spots) va n s
  .ok spots

/-- An access that was performed leaves its leaves in the caches (R320). -/
def cached (va n : Nat) (s : State) : State := (accessParts va n).foldl (fun t p => cachePage t p.1) s

def spotRoute (s : State) : Spot → List LinkId
  | (.spad _ _, _) => []
  | (.mem _ key, _) => keyRoute key s

/-- The class of an access of n bytes to a page (R282); all accesses to CXL memory travel in TC1 (R343). -/
def accessClass (leaf : BitVec 64) (n : Nat) (s : State) : TClass :=
  if leafTier leaf == 1 then .tc1 else if bulkNow s then .tc2 else if leafSig leaf && n ≤ 8 then .tc0 else .tc1

/-- A write that a combiner of the die has forwarded to these bytes is on its way, so that an access waits for it (R256). -/
def forwardedTo (key n : Nat) (s : State) : Bool := forwardedOver (keyRoute key s) key n s

def spotFree (s : State) : Spot → Bool
  | (.spad _ _, _) => true
  | (.mem leaf key, n) => routeFree (accessClass leaf n s) (keyRoute key s) s && !forwardedTo key n s
def spotsFree (l : List Spot) (s : State) : Bool := l.all (spotFree s)

/-! ### Order within a sequence (R96, R204, R257 to R263) -/

/-- The home bytes that an access on its way reaches. -/
def bodyRange : Body → Option (Nat × Nat)
  | .load _ _ leaf key n _ => some (key, if leafDet leaf then 8 * n else n)
  | .write key data _ => some (key, data.length)
  | .detWrite _ key _ => some (key, 32)
  | .atomic k w leaf key _ _ => some (key, if leafDet leaf then 32 else atomSize k w)
  | .fetch _ _ | .collWrite _ _ _ _ | .copyWrite _ _ _ _ _ | .hostWrite _ _ | .atomicReply _ _ _ | .boardPost _ _ _ _ _ | .boardLook _ _ _
  | .boardRead _ _ _ _ | .boardRound _ _ _ | .boardReply _ _ _ | .arrival _ | .release _ _ | .fill _ _ _ _ | .collFill _ _ _ _ _ _ _ | .credit _ _ _ _ | .collCredit _ _ _
  | .mcredit _ _ _ | .token | .bobbin _ _ _ _ | .bind _ _ _ _ _ _ => none

/-- An unperformed access of the sequence holds back a younger one to a place: in a queue every pair but two UNORD
accesses (R96, R204, R257); two STRONG ones (R259); two to one location, but for plain UNORD ones (R260, R261). -/
def holdsBack (plain : Bool) (s : State) (m : Msg) : Spot → Bool
  | (.spad _ _, _) => s.cur != .s
  | (.mem leaf key, n) =>
    let both := plain && leafOrd leaf == 2 && m.ord == some 2
    (s.cur != .s && !both) || (leafOrd leaf == 0 && m.ord == some 0) ||
      (match bodyRange m.body with
        | some r => !both && r.1 < key + (if leafDet leaf then 8 * n else n) && key < r.1 + r.2
        | none => false)

/-- An unperformed access of the stream stands before a later element or row of its own instruction or command, or before any
access that `holdsBack` would not hold: two STRONG accesses go one at a time, and accesses to one location keep their order
(R210, R259, R260); only two UNORD accesses of different instructions pass each other there (R261). -/
def precedesHere (s : State) (m : Msg) : Spot → Bool
  | (.spad _ _, _) => false
  | (.mem leaf key, n) => (leafOrd leaf == 0 && m.ord == some 0) ||
      (match bodyRange m.body with
        | some r => !(leafOrd leaf == 2 && m.ord == some 2 && m.age < accessAge s) &&
            r.1 < key + (if leafDet leaf then 8 * n else n) && key < r.1 + r.2
        | none => false)

/-- What the stream has sent of this or an older instruction is to be performed before an access to a place. -/
def behindOwn (s : State) (p : Spot) : Bool := s.inFlight.any fun m => unperformed (me s) m && precedesHere s m p

/-- Accesses issued before an ordering instruction of a stream, or before its `fork`, are unperformed (R192, R263). -/
def orderedBehind (c : StreamCtx) (s : State) : Bool :=
  s.inFlight.any fun m => m.ord.isSome && m.who.launch == s.me.cur.launch && m.who.member == s.me.cur.member &&
    c.after.any fun a => a.1 == m.who.stream && m.age < a.2
def behindOrdered (s : State) : Bool := orderedBehind (ctx s) s

/-- What the current stream now performs may be performed, as far as its older accesses go. -/
def inOrder (plain : Bool) (spots : List Spot) (s : State) : Bool :=
  !behindOrdered s && !s.inFlight.any fun m => unperformed (me s) m &&
    ((m.age < accessAge s && spots.any (holdsBack plain s m)) || (m.age == accessAge s && spots.any (precedesHere s m)))

/-- Nothing that the current stream issued before what it now performs is unperformed (R204, R257). -/
def nothingOlder (s : State) : Bool := !behindOrdered s && !s.inFlight.any fun m => unperformed (me s) m && m.age < accessAge s

/-! ### Request entries (R232) -/

/-- A message that is a memory access holds a request entry until it is performed: a load, store or atomic, an outstanding
read, bytes for a ring or the host. What a combiner has forwarded is performed at `core` (R256, R257). -/
def holdsEntry (w : Who) (m : Msg) : Bool :=
  m.who == w && (m.ord.isSome || match m.body with
    | .fetch _ _ | .copyWrite _ _ _ _ _ | .hostWrite _ _ => true
    | .load _ _ _ _ _ _ | .write _ _ _ | .detWrite _ _ _ | .collWrite _ _ _ _ | .atomic _ _ _ _ _ _ | .atomicReply _ _ _
    | .boardPost _ _ _ _ _ | .boardLook _ _ _ | .boardRead _ _ _ _ | .boardRound _ _ _ | .boardReply _ _ _ | .arrival _ | .release _ _
    | .fill _ _ _ _ | .collFill _ _ _ _ _ _ _ | .credit _ _ _ _ | .collCredit _ _ _ | .mcredit _ _ _ | .token | .bobbin _ _ _ _ | .bind _ _ _ _ _ _ => false)

/-- Accesses of a stream of the member in flight: each holds a request entry. -/
def entriesOf (st : Stream) (s : State) : Nat := (s.inFlight.filter (holdsEntry (mine st s))).length
/-- The current stream finds an entry within its share. Log 36, DESIGN CHOICE: M's accesses count with the load pipes'. -/
def entryFree (s : State) : Bool :=
  let others := entriesOf .m s + entriesOf .v s + entriesOf .c s
  match s.cur with
  | .s => others + entriesOf .s s < 1024
  | .m => entriesOf .m s < 512 && others < 960 && others + entriesOf .s s < 1024
  | .v => entriesOf .v s < 256 && others < 960 && others + entriesOf .s s < 1024
  | .c => entriesOf .c s < 256 && others < 960 && others + entriesOf .s s < 1024

/-- An access of n bytes sets out for the home of a key; it waits for a request entry (R232). -/
def sendAccess (leaf : BitVec 64) (delay n key : Nat) (body : Body) (s : State) : Eff State := do
  waitUntil (entryFree s)
  .ok (sendAs (some (leafOrd leaf)) delay (accessClass leaf n s) (keyRoute key s) (homeScope key s) body s)

/-- An access that is not put off is performed where its route is free and nothing of its stream stands before it; else it
sets out, once it finds a request entry. One that finds none while its route is free is performed all the same, and over a
failed link it is lost, so that an instruction of more accesses than entries ends (R230, R232). -/
def putAccess (leaf : BitVec 64) (delay n key : Nat) (body : Body) (now : State → State) (s : State) : Eff State :=
  let free := routeFree (accessClass leaf n s) (keyRoute key s) s && !behindOwn s (.mem leaf key, n)
  if delay == 0 && free then .ok (now s)
  else if entryFree s then sendAccess leaf delay n key body s
  else if free then .ok (now s)
  else if routeDead (keyRoute key s) s then .ok (loseWrite (me s) (ctx s).pc key n (homeScope key s) (accessAge s) s)
  else hold

/-- How long an UNORD access to plain bytes is put off: a free value (R261; log 2, DESIGN CHOICE). The elements of a command
or drain keep their order (R210). -/
def unordDelay (leaf : BitVec 64) (s : State) : Nat × State :=
  if leafOrd leaf == 2 && !bulkNow s then
    let r := drawFree s
    (r.1.toNat % 256, r.2)
  else (0, s)

/-! ### DET words (R54 to R56) -/

/-- A DET shadow entry. -/
structure DetWord where
  count : Nat
  ninf : Bool
  pinf : Bool
  nan : Bool
  sum : Int
deriving DecidableEq, Repr

def detDecode (n : Nat) : DetWord :=
  let b := BitVec.ofNat 256 n
  ⟨bits b 223 192, flag b 162, flag b 161, flag b 160, signed 160 (bits b 159 0)⟩
def detEncode (d : DetWord) : Nat :=
  field (d.count % 2 ^ 32) 192 + field (boolNat d.ninf) 162 + field (boolNat d.pinf) 161 + field (boolNat d.nan) 160 +
    (d.sum % 2 ^ 160).toNat

/-- x / 2^w truncated toward zero. -/
def detUnits (w : Int) (neg : Bool) (m : Nat) (e : Int) : Int :=
  let k := e - w
  let v : Nat := if 0 ≤ k then m * 2 ^ k.toNat else m / 2 ^ (-k).toNat
  if neg then -(v : Int) else v

/-- A contribution (R55). -/
def detAdd (w : Int) (x : Word32) (d : DetWord) : Eff DetWord :=
  if d.count == 0xFFFFFFFF then fail .detRange
  else match x32 x with
    | .nan => .ok { d with nan := true, count := d.count + 1 }
    | .inf neg => .ok { d with pinf := d.pinf || !neg, ninf := d.ninf || neg, count := d.count + 1 }
    | .fin neg m e =>
      let c := detUnits w neg m e
      if 2 ^ 127 ≤ c.natAbs then fail .detRange else .ok { d with sum := d.sum + c, count := d.count + 1 }

/-- The value a read returns, with the flags of `atomflags` (R56). -/
def detRead (w : Int) (d : DetWord) : Word32 × Flags :=
  if d.nan || (d.pinf && d.ninf) then (nan32, 0)
  else if d.pinf then (0x7F800000#32, 0)
  else if d.ninf then (0xFF800000#32, 0)
  else r32 (.fin (d.sum < 0) d.sum.natAbs w)

/-- A plain store (R56). -/
def detStore (w : Int) (x : Word32) : Eff DetWord :=
  match x32 x with
  | .nan => .ok ⟨0, false, false, true, 0⟩
  | .inf neg => .ok ⟨0, neg, !neg, false, 0⟩
  | .fin neg m e =>
    let c := detUnits w neg m e
    if 2 ^ 159 ≤ c.natAbs then fail .detRange else .ok ⟨0, false, false, false, c⟩

def detAt (key : Nat) (s : State) : DetWord := detDecode (bytesToNat (storeRead s.mem key 32))
def detPut (key : Nat) (d : DetWord) (s : State) : State := homeWrite key (natToBytes 32 (detEncode d)) false s

/-! ### Collective contributions (R353, R354) -/

def collRankCount (c : Coll) : Nat := bytesField c.record 2 1 + 1
def collLen (c : Coll) : Nat := bytesField c.record 8 4
def collEntry (c : Coll) (r : Nat) : BitVec 64 := BitVec.ofNat 64 (bytesField c.record (0x20 + 16 * r) 8)
def collFrame (c : Coll) (r : Nat) : Nat := bytesField c.record (0x28 + 16 * r) 8
/-- The package of a group-record entry (R351). -/
def groupPkg (e : BitVec 64) : Nat := bits e 31 26
def groupCtx (e : BitVec 64) : Nat := bits e 63 48
def groupMember (e : BitVec 64) : Nat := bits e 47 32
def groupRing (e : BitVec 64) : KIdx := BitVec.ofNat 4 (bits e 25 22)

def findColl (collid : Nat) (s : State) : Option Coll := s.colls.find? fun c => bytesField c.record 0 1 == collid
def modColl (collid : Nat) (f : Coll → Coll) (s : State) : State :=
  { s with colls := s.colls.map fun c => if bytesField c.record 0 1 == collid then f c else c }

/-- Where an address of a package's HBM stands now that pages have moved (R384; log 7, DESIGN CHOICE). -/
def frameNow (pkg pa : Nat) (s : State) : Nat :=
  match findPkg pkg s with
  | some p => p.moved.foldl (fun a x => if x.1 ≤ a && a < x.1 + x.2.1 then a - x.1 + x.2.2 else a) pa
  | none => pa

/-- Where n bytes at an address of a package stand now: in one piece, or a piece for each 64 KiB. -/
def physParts (pkg pa n : Nat) (s : State) : List (Nat × Nat) :=
  if (match findPkg pkg s with | some p => p.moved.isEmpty | none => true) then [(pa, n)]
  else (pageParts pa (n / 2 ^ 16 + 2) n).map fun p => (frameNow pkg p.1 s, p.2)

/-- How far into pieces an address lies. -/
def offsetIn : List (Nat × Nat) → Nat → Option Nat
  | [], _ => none
  | p :: rest, a => if p.1 ≤ a && a < p.1 + p.2 then some (a - p.1) else (offsetIn rest a).map (· + p.2)

/-- A rank's words. -/
def rankParts (c : Coll) (r : Nat) (s : State) : List (Nat × Nat) := physParts (groupPkg (collEntry c r)) (collFrame c r) (4 * collLen c) s

/-- The rank and word that a key of a COLL page stands for. -/
def collWord (c : Coll) (key : Nat) (s : State) : Option (Nat × Nat) :=
  (upTo (collRankCount c)).findSome? fun r =>
    if key / 2 ^ 52 == groupPkg (collEntry c r) then (offsetIn (rankParts c r s) (key % 2 ^ 52)).map fun o => (r, o / 4) else none

/-- The key of a word of a rank's frame. -/
def collKey (collid rank word : Nat) (s : State) : Nat :=
  match findColl collid s with
  | some c => memKey (groupPkg (collEntry c rank)) (frameNow (groupPkg (collEntry c rank)) (collFrame c rank + 4 * word) s)
  | none => 0

/-- The links from a home to the weft processor that runs a collective. -/
def weftRoute (key : Nat) (c : Coll) (s : State) : List LinkId :=
  match homeDie (key % 2 ^ 52) with
  | some d => routeTo (key / 2 ^ 52) d c.pkg none s
  | none => podRoute (key / 2 ^ 52) c.pkg s

/-- A word stored to a COLL page: performed at its home, and forwarded to the weft processor (R354); it travels in the class of
the store that makes it (R282). -/
def collSend (leaf : BitVec 64) (key : Nat) (v : Word32) (s : State) : Eff State :=
  match findColl (leafCollid leaf) s with
  | none => .ok s
  | some c =>
    if c.aborted then fail .collAborted
    else match collWord c key s with
      | some (r, w) =>
        let route := keyRoute key s ++ weftRoute key c s
        if routeFree (accessClass leaf 4 s) route s then .ok { s with agenda := s.agenda ++ [.collContribution (leafCollid leaf) r w v] }
        else do
          waitUntil (entryFree s)
          .ok (sendAs (some (leafOrd leaf)) 0 (accessClass leaf 4 s) route (homeScope key s) (.collWrite (leafCollid leaf) r w v) s)
      | none => .ok s

/-! ### Reads and writes at checked places -/

/-- The class of a message that is no load or store (R282). -/
def bodyClass : Body → TClass
  | .atomic _ _ _ _ _ _ | .atomicReply _ _ _ | .boardPost _ _ _ _ _ | .boardLook _ _ _ | .boardRead _ _ _ _ | .boardRound _ _ _
  | .boardReply _ _ _ | .arrival _ | .release _ _ | .fill _ _ _ _ | .collFill _ _ _ _ _ _ _ | .credit _ _ _ _ | .collCredit _ _ _ | .mcredit _ _ _ | .token
  | .bind _ _ _ _ _ _ => .tc0
  | .load _ _ _ _ _ _ | .fetch _ _ | .write _ _ _ | .detWrite _ _ _ | .collWrite _ _ _ _ | .bobbin _ _ _ _ => .tc1
  | .copyWrite _ _ _ _ _ | .hostWrite _ _ => .tc2

/-- A message of the current stream that is no access sets out over a route that holds its traffic. -/
def sendMsg (route : List LinkId) (scope : Scope) (body : Body) (s : State) : State := sendAs none 0 (bodyClass body) route scope body s

/-- The conditions of a DET read of the current stream. -/
def raiseAtom (c : Conds) (addr size : Nat) (scope : Scope) (s : State) : State :=
  raiseAtomAt s.cur c addr size (ctx s).pc scope (accessAge s) s

/-- The words of a DET page from a key, n bytes. -/
def detBytes (leaf : BitVec 64) (key n : Nat) (s : State) : List Byte × Conds :=
  (upTo (n / 4)).foldl (fun (acc : List Byte × Conds) i =>
    let r := detRead (leafDetw leaf) (detAt (key + 32 * i) s)
    (acc.1 ++ natToBytes 4 r.1.toNat, acc.2 ||| flagConds r.2 ||| resultConds fp32 r.1.toNat)) ([], 0)

/-- The bytes at a place: their values, whether any is poisoned, and the conditions of DET reads. -/
def readSpot (s : State) : Spot → List Byte × Bool × Conds
  | (.spad idx off, n) =>
    match sibling s idx with
    | some c => (storeRead c.spad off n, anyMark c.spadPoison off n, 0)
    | none => (storeRead s.me.spad off n, anyMark s.me.spadPoison off n, 0)
  | (.mem leaf key, n) =>
    if leafDet leaf then
      let r := detBytes leaf key n s
      (r.1, anyMark s.memPoison key (8 * n), r.2)
    else
      let r := quadRead key n s
      (r.1, r.2, 0)

def readSpots (s : State) : List Spot → List Byte × Bool × Conds
  | [] => ([], false, 0)
  | p :: t =>
    let a := readSpot s p
    let b := readSpots s t
    (a.1 ++ b.1, a.2.1 || b.2.1, a.2.2 ||| b.2.2)

/-- The home a key lies at, as the release rule counts homes (R177). -/
def homeCode (key : Nat) : Nat := 8 * (key / 2 ^ 52) + (match homeDie (key % 2 ^ 52) with | some d => d | none => 4)
def noteWritten (key : Nat) (s : State) : State :=
  modCtx (fun c => { c with written := if c.written.contains (homeCode key) then c.written else c.written ++ [homeCode key] }) s

def spadWrite (off : Nat) (data : List Byte) (poison : Bool) (c : Core) : Core :=
  { c with spad := storeWrite c.spad off data, spadPoison := setMarks c.spadPoison off data.length poison }

/-- A write at a checked place. RC writes enter the combiner; others go to their home, or set out for it (R256). -/
def writeSpot (data : List Byte) (poison : Bool) (s : State) : Spot → Eff State
  | (.spad idx off, _) =>
    .ok (if (sibling s idx).isSome then
      updCore (fun c => inQuad c s.me.pkg s.me.die s.me.quad idx) (spadWrite off data poison) s
    else modCore (spadWrite off data poison) s)
  | (.mem leaf key, _) =>
    let s := noteWritten key s
    if leafDet leaf then
      (chunks 4 data.length data).zip (upTo data.length) |>.foldlM (fun s p => do
        let d ← detStore (leafDetw leaf) (BitVec.ofNat 32 (bytesToNat p.1))
        let k := key + 32 * p.2
        putAccess leaf 0 4 k (.detWrite leaf k (BitVec.ofNat 32 (bytesToNat p.1))) (detPut k d) s) s
    else if leafColl leaf then
      (chunks 4 data.length data).zip (upTo data.length) |>.foldlM (fun s p =>
        collSend leaf (key + 4 * p.2) (BitVec.ofNat 32 (bytesToNat p.1)) s) s
    else
      let w : PendWrite := ⟨me s, (ctx s).pc, key, data, poison, accessAge s, accessClass leaf data.length s⟩
      if leafOrd leaf == 1 then .ok (addToCombiner w s)
      else if cxlDead key s then .ok (forwardWrite s.me.pkg s.me.die w s)
      else
        let r := unordDelay leaf s
        putAccess leaf r.1 data.length key (.write key data poison) (homeWrite key data poison) r.2

def writeSpots (data : List Byte) (poison : Bool) : List Spot → State → Eff State
  | [], s => .ok s
  | p :: t, s => do
    let s' ← writeSpot (data.take p.2) poison s p
    writeSpots (data.drop p.2) poison t s'

/-- The narrowest scope whose instance holds every home of an access (R374). -/
def spotsScope (l : List Spot) (s : State) : Scope :=
  l.foldl (fun a p => match p.1 with
    | .spad _ _ => a
    | .mem _ key => if a.code < (homeScope key s).code then homeScope key s else a) .core

/-- A read of these homes has been lost by a failed link (R347). -/
def readWasLost (spots : List Spot) (s : State) : Bool :=
  spots.any fun p => match p.1 with
    | .mem _ key => s.me.m.readLost.contains (s.cur, key)
    | .spad _ _ => false
def forgetLost (spots : List Spot) (m : Member) (st : Stream) : Member :=
  { m with readLost := m.readLost.filter fun x => !(x.1 == st && spots.any fun p => match p.1 with
    | .mem _ key => x.2 == key
    | .spad _ _ => false) }

/-- The quad's combiner holds every byte of a read (R256). -/
def combinerHolds (key n : Nat) (s : State) : Bool :=
  (upTo n).all fun i => (combined s).any fun w => w.key ≤ key + i && key + i < w.key + w.data.length
/-- A read needs no home, or reaches it at once. -/
def readFree (s : State) : Spot → Bool
  | (.spad _ _, _) => true
  | (.mem leaf key, n) => spotFree s (.mem leaf key, n) || (!leafDet leaf && combinerHolds key n s)

/-- The wait for a read of a home over links that hold it: the read is outstanding, or waits for a request entry (R232, R347). -/
def outstanding {α : Type} (route : List LinkId) (scope : Scope) (cls : TClass) (key n : Nat) (s : State) : Eff α :=
  if entryFree s || s.inFlight.any (fun m => m.who == me s && m.body == .fetch key n) then .error (.reading route scope cls key n) else hold

/-- The read waits for the first of its homes that it does not reach (R347). -/
def awaitSpots {α : Type} (spots : List Spot) (s : State) : Eff α :=
  match spots.find? fun p => !readFree s p with
  | some (.mem leaf key, n) => outstanding (keyRoute key s) (homeScope key s) (accessClass leaf n s) key n s
  | _ => hold

/-- A read waits for its turn and until it reaches every home; a link may have lost it, and it is then poisoned (R257, R347). -/
def awaitRead (spots : List Spot) (s : State) : Eff Bool :=
  if !inOrder true spots s then hold
  else if readWasLost spots s then .ok true
  else if spots.all (readFree s) then .ok false
  else awaitSpots spots s

/-- A checked read that waits for its routes and its turn; the value, its poison, and the state with DET flags raised and
the leaves cached. A read that a link lost returns poison (R347). -/
def loadBytes (a : Acc) (va n : Nat) (s : State) : Eff (List Byte × Bool × State) := do
  let spots ← resolve a va n s
  if (← awaitRead spots s) then
    let r := drawBytes n s
    .ok (r.1, true, modM (fun m => forgetLost spots m s.cur) r.2)
  else
    let r := readSpots s spots
    .ok (r.1, r.2.1, cached va n (if r.2.2 == 0 then s else raiseAtom r.2.2 va n (spotsScope spots s) s))

/-- A checked write. -/
def storeBytes (a : Acc) (va : Nat) (data : List Byte) (s : State) : Eff State := do
  let spots ← resolve a va data.length s
  waitUntil (inOrder true spots s)
  let t ← writeSpots data false spots s
  .ok (cached va data.length t)

end Sys2Proof.Machine
end

