-- ==== Sys2Proof/Machine/Placement.lean ====
section
/-! DEFINITION. Where Sahfin can place a launch and its image, whom it pre-empts for it, and what it admits next (R296, R297, R299,
R307); the retirement list (R379, R385). -/
namespace Sys2Proof.Machine

/-- The counter of a package's first die, which Sahfin's own times use. -/
def sahfinTime (s : State) : Nat := match s.dies.find? fun d => d.on with | some d => d.count | none => 0

/-- The class of a launch, and the bytes and lines it takes. -/
def prioOf (l : Launch) : Nat := bits (control l.packet) 11 9
def spadOf (p : BitVec 1024) : Nat := bits (reservation p) 21 0
def imemFirst (p : BitVec 1024) : Nat := packetField p 0x18 2
def imemCount (p : BitVec 1024) : Nat := packetField p 0x1A 2
def codeFirst (p : BitVec 1024) : Nat := packetField p 0x1C 4
def codeCount (p : BitVec 1024) : Nat := packetField p 0x20 4

/-! ### Capability entries (R349) and the pod boards of a launch (R270) -/

def capKind (e : BitVec 256) : Nat := bits e 3 0
def capBase (e : BitVec 256) : Nat := bits e 255 192
def capLength (e : BitVec 256) : Nat := bits e 191 160
def capAllowance (e : BitVec 256) : Nat := bits e 159 128
def capCtx (e : BitVec 256) : Nat := bits e 127 112
def capMember (e : BitVec 256) : Nat := bits e 111 96
def capPkg (e : BitVec 256) : Nat := bits e 63 58
def capDie (e : BitVec 256) : Nat := bits e 57 56
def capSlice (e : BitVec 256) : Nat := bits e 55 51
def capIndex (e : BitVec 256) : Nat := bits e 50 45
def capGroup (e : BitVec 256) : Nat := bits e 44 39 + 1
def capBoard (e : BitVec 256) : Bool := flag e 7
def capMcast (e : BitVec 256) : Bool := flag e 6
def capWrite (e : BitVec 256) : Bool := flag e 5
def capRead (e : BitVec 256) : Bool := flag e 4

/-- The home that a pod board's capability names. -/
def boardHomeOf (e : BitVec 256) : BoardHome := ⟨capPkg e, capDie e, capSlice e, capIndex e, capCtx e⟩

/-- Pod boards of a launch: their home is the endpoint of its capability for the board (R270). Log 27, DESIGN CHOICE. -/
def podBoardsOf (l : Launch) : List (BoardHome × Board) :=
  l.caps.filterMap fun c =>
    if capKind c.entry == 4 && capCtx c.entry == packetField l.packet 0x14 2 then
      match l.boards[capIndex c.entry]? with
      | some b => if b.pod then some (boardHomeOf c.entry, b) else none
      | none => none
    else none

/-- The home slices hold the pod boards of a launch no longer (R270). -/
def dropPodBoards (l : Launch) (s : State) : State :=
  let homes := (podBoardsOf l).map (·.1)
  { s with podBoards := s.podBoards.filter fun b => !homes.contains b.1 }

/-- Two boards take the same place of a home slice. -/
def samePlace (x y : BoardHome) : Bool := x.pkg == y.pkg && x.die == y.die && x.slice == y.slice && x.index == y.index

/-- The places of a launch's pod boards are free, or held by launches that give way (R299). -/
def podFree (l : Launch) (gone : List Nat) (s : State) : Bool :=
  let wants := (podBoardsOf l).map (·.1) ++ l.podImages.map (·.1)
  s.podBoards.all fun b => !(wants.any (samePlace b.1)) || s.launches.any fun v =>
    (v.number == l.number || gone.contains v.number) && packetField v.packet 0x14 2 == b.1.ctx

/-! ### The place of a context image (R297, R307; log 42, DESIGN CHOICE) -/

/-- Where parts of a member section begin: those without a reservation are absent. -/
def viewsPart (p : BitVec 1024) : Nat := 256 + 4 * 512 + 1024 + 64 + bits (reservation p) 41 37 * 128
def predsPart (p : BitVec 1024) : Nat := viewsPart p + 128
def shapesPart (p : BitVec 1024) : Nat :=
  let r := reservation p
  predsPart p + 3584 + bits r 57 53 * 1040 + bits r 63 58 * 8576 + (if bits r 52 49 == 0 then 0 else 512 + 262144) + 1024 + 7168
def bobbinsPart (p : BitVec 1024) : Nat := shapesPart p + 512
def spadPart (p : BitVec 1024) : Nat := bobbinsPart p + bits (reservation p) 48 42 * 1056 + 256
def linesPart (p : BitVec 1024) : Nat := spadPart p + spadOf p

/-- Bytes of a member section: its parts in order (R307). -/
def sectionLength (p : BitVec 1024) : Nat := linesPart p + imemCount p * 64

/-- Bytes rounded up to whole 4 KiB. -/
def wholePages (n : Nat) : Nat := (n + 4095) / 4096 * 4096

/-- Where the board records stand in a launch header, after the packet and the budget used, and its length. -/
def boardsPart : Nat := 128 + 8
def headerLength (p : BitVec 1024) : Nat := wholePages (boardsPart + bits (reservation p) 36 30 * 1296 + 4096)

/-- The address of a member's section: each begins on a 4 KiB boundary, after the header at the image's address. -/
def sectionAddress (l : Launch) (member : Nat) : Nat := l.image + headerLength l.packet + member * wholePages (sectionLength l.packet)

/-- The package whose memory holds a launch's image. -/
def imagePkg (l : Launch) : Nat := match l.keeps with
  | d :: _ => d.1
  | [] => 0

/-- A launch's image takes these bytes of its package. -/
def imageBytes (l : Launch) : Nat := headerLength l.packet + packetMembers l.packet * wholePages (sectionLength l.packet)

/-! ### The retirement list (R379, R380, R385; log 7, DESIGN CHOICE: how it holds a location) -/

/-- The list in force: the second copy if it passes its check, else the record's. -/
def retireList (p : Package) : List Byte :=
  if p.retire2.length == 4096 && Config.sha384 p.retire2 == p.retire2Hash then p.retire2 else (p.config.drop 0x41A0).take 4096
def retireEntry (l : List Byte) (n : Nat) : Nat := bytesField l (8 * n) 8
def retiredCoreEntry (die phys : Nat) : Nat := 2 * 2 ^ 62 + 32 * die + phys
def retiredRowEntry (pa : Nat) : Nat := 2 ^ 62 + pa

/-- Bytes at an offset of a list of bytes. -/
def patched (l : List Byte) (off : Nat) (d : List Byte) : List Byte := l.take off ++ d ++ l.drop (off + d.length)

/-- The first unused entry of a list. -/
def freeEntry (l : List Byte) : Option Nat := (upTo 512).find? fun n => retireEntry l n / 2 ^ 62 == 0
def isListed (e : Nat) (p : Package) : Bool := (upTo 512).any fun n => retireEntry (retireList p) n == e

/-- An entry joins the list, in both copies. -/
def listRetired (e : Nat) (p : Package) : Package :=
  let l := retireList p
  if isListed e p then p
  else match freeEntry l with
    | none => p
    | some n =>
      let l' := patched l (8 * n) (natToBytes 8 e)
      { p with config := patched p.config 0x41A0 l', retire2 := l', retire2Hash := Config.sha384 l' }

/-- An entry is listed and no longer stands out. -/
def listNow (e : Nat) (p : Package) : Package := let q := listRetired e p; { q with outOfUse := q.outOfUse.filter (· != e) }
/-- A resource is out of use, or to be retired. -/
def standOut (e : Nat) (p : Package) : Package :=
  { p with outOfUse := if p.outOfUse.contains e then p.outOfUse else p.outOfUse ++ [e], again := p.again.filter (· != e) }
/-- The list can take an entry, or holds it. -/
def canList (e : Nat) (p : Package) : Bool := isListed e p || (freeEntry (retireList p)).isSome

/-- The bytes touch a row that is retired, as the list or Sahfin has it (R378, R385). -/
def rowRetired (p : Package) (pa n : Nat) : Bool :=
  let hit := fun e => e / 2 ^ 62 == 1 && meets pa n (e % 2 ^ 62) (2 ^ 16)
  p.outOfUse.any hit || (upTo 512).any fun i => hit (retireEntry (retireList p) i)

/-! ### Cores -/

/-- Two line ranges share a line. -/
def rangesMeet (a n b m : Nat) : Bool := n != 0 && m != 0 && a < b + m && b < a + n

/-- A launch that holds its resources: bound, preloaded or saved. -/
def holdsPlace (l : Launch) : Bool := !l.place.isEmpty && l.phase != .ended

/-- The code-store range of a packet is free on a die; a launch that is asked for itself does not count (R307). -/
def codeFree (l : Launch) (pkg die : Nat) (s : State) : Bool :=
  s.launches.all fun (x : Launch) => x.number == l.number || !holdsPlace x || !(x.place.any fun p => p.1 == pkg && p.2.1 == die) ||
    !rangesMeet (codeFirst x.packet) (codeCount x.packet) (codeFirst l.packet) (codeCount l.packet)

/-- The current slot of a core is free, or is counted as free since its launch is among the given ones; a preload of a
lower class in the next slot gives way (R299, R303). -/
def coreFree (l : Launch) (gone : List Nat) (c : Core) : Bool :=
  !c.retired && (c.cur.state == .empty || gone.contains c.cur.launch) &&
    (c.next.state == .empty || c.next.prio.toNat < prioOf l)

def positionFree (l : Launch) (gone : List Nat) (pkg die quad idx : Nat) (s : State) : Bool :=
  (allCores s).any fun c => c.pkg == pkg && c.die == die && c.quad == quad && c.idx == idx && coreFree l gone c

def quadFree (l : Launch) (gone : List Nat) (pkg die quad : Nat) (s : State) : Bool :=
  (upTo 4).all fun i => positionFree l gone pkg die quad i s

/-- The free quads of a die, in ascending order. -/
def freeQuads (l : Launch) (gone : List Nat) (pkg die : Nat) (s : State) : List Nat :=
  (upTo 6).filter fun q => quadFree l gone pkg die q s

/-- The quads of one die, if it has enough. -/
def placeDie (l : Launch) (gone : List Nat) (pkg die : Nat) (s : State) : Option (List (Nat × Nat × Nat)) :=
  let n := packetQuads l.packet
  let qs := freeQuads l gone pkg die s
  if n ≤ qs.length && codeFree l pkg die s then some ((qs.take n).map fun q => (pkg, die, q)) else none

/-- The first dies of a package that have room. -/
def placePkg (l : Launch) (gone : List Nat) (pkg : Nat) (s : State) : Option (List (Nat × Nat × Nat)) :=
  let dies := (upTo 4).filter fun d => (findDie pkg d s).any fun x => x.on
  let some' := dies.filterMap fun d => placeDie l gone pkg d s
  let n := packetDies l.packet
  if n ≤ some'.length then some (some'.take n).flatten else none

/-- Packages that admit launches: booted, with every die that is on LOCKED or in HOLDOVER (R378), not on their way out of
the pod, and with no page on the move. -/
def serves (p : Package) (s : State) : Bool :=
  p.stage == .serving && !p.leaving && p.moving.isEmpty && (s.dies.filter fun d => d.pkg == p.pkg && d.on).all fun d => d.time != .unlocked

/-- The packages a launch may take, in ascending order; several only inside the pod. -/
def servingPkgs (l : Launch) (s : State) : List Nat :=
  let ps := (s.pkgs.filter fun p => serves p s && (packetPkgs l.packet == 1 || p.inPod)).map (·.pkg)
  (upTo 64).filter fun n => ps.contains n

/-- A placement of a launch that starts, by quads in member order (R296). -/
def placeFresh (l : Launch) (gone : List Nat) (s : State) : Option (List (Nat × Nat × Nat)) :=
  let ps := (servingPkgs l s).filterMap fun p => placePkg l gone p s
  let n := packetPkgs l.packet
  if n ≤ ps.length then some (ps.take n).flatten else none

/-- The dies that a place uses, in order. -/
def placeDies (place : List (Nat × Nat × Nat)) : List (Nat × Nat) :=
  place.foldl (fun acc p => if acc.contains (p.1, p.2.1) then acc else acc ++ [(p.1, p.2.1)]) []

/-- A package takes a launch that has it: one with an image resumes there; one that starts from its entry is admitted, for which
the package must serve (R309, R378). -/
def takesBack (l : Launch) (p : Package) (s : State) : Bool := if l.saved.isEmpty then serves p s else p.stage == .serving && !p.leaving

/-- A placement of a launch that keeps its packages and dies: any free quads of them (R296, R309). -/
def placeAgain (l : Launch) (gone : List Nat) (s : State) : Option (List (Nat × Nat × Nat)) :=
  let qs := l.keeps.filterMap fun d => placeDie l gone d.1 d.2 s
  let here := l.keeps.all fun d => (findPkg d.1 s).any fun p => takesBack l p s
  if here && qs.length == l.keeps.length then some qs.flatten else none

def placeFor (l : Launch) (gone : List Nat) (s : State) : Option (List (Nat × Nat × Nat)) :=
  if !podFree l gone s then none else if l.keeps.isEmpty then placeFresh l gone s else placeAgain l gone s

/-! ### Pre-emption for a higher class (R299) -/

/-- A running launch that a higher one may pre-empt: not within 50 µs of its start, but for class 7 and for a launch
that was already waiting when it started, and still is. -/
def preemptible (l v : Launch) (s : State) : Bool :=
  v.phase == .running && prioOf v < prioOf l &&
    (prioOf l == 7 || l.submitted ≤ v.startedAt || 65536 * 50000 ≤ sahfinTime s - v.startedAt)

/-- x goes before y as a victim: lower class, then more recently started. -/
def victimBefore (x y : Launch) : Bool := prioOf x < prioOf y || (prioOf x == prioOf y && y.startedAt ≤ x.startedAt)
def insertBy {α : Type} (lt : α → α → Bool) (x : α) : List α → List α
  | [] => [x]
  | y :: t => if lt x y then x :: y :: t else y :: insertBy lt x t

def victimOrder (l : Launch) (s : State) : List Nat :=
  ((s.launches.filter fun v => preemptible l v s).foldr (insertBy victimBefore) []).map (·.number)

/-- Victims without whom there is room all the same go on; those that come last in the order are spared first. -/
def spared (l : Launch) (g : List Nat) (s : State) : List Nat :=
  g.reverse.foldl (fun keep v => let less := keep.filter (· != v); if (placeFor l less s).isSome then less else keep) g

/-- The victims whose cores make room: those needed of the shortest run from the first. -/
def victimsFrom (l : Launch) (order : List Nat) (s : State) : Option (List Nat) :=
  (((upTo (order.length + 1)).map fun n => order.take n).find? fun g => (placeFor l g s).isSome).map fun g => spared l g s

def victimsFor (l : Launch) (s : State) : Option (List Nat) := victimsFrom l (victimOrder l s) s

/-! ### What Sahfin admits next (R299, R309) -/

/-- A launch that waits for cores: submitted and not yet placed, or saved by a pre-emption, with no page still to be mapped for a
member (R299, R370). -/
def waits (l : Launch) : Bool :=
  (l.phase == .waiting && l.place.isEmpty && l.heldDep.isNone) ||
    (l.phase == .saved && l.cause.isNone && !l.saved.any fun v => v.m.demand.isSome)

def waitBefore (x y : Launch) : Bool := prioOf y < prioOf x || (prioOf x == prioOf y && x.order ≤ y.order)

/-- No launch of its class has waited longer. -/
def atClassHead (l : Launch) (s : State) : Bool :=
  s.launches.all fun x => !waits x || prioOf x != prioOf l || l.order ≤ x.order

/-- A waiting launch of a higher class can be placed (R299). -/
def outranked (l : Launch) (s : State) : Bool :=
  s.launches.any fun x => waits x && prioOf l < prioOf x && atClassHead x s && (victimsFor x s).isSome

/-- The waiting launch that Sahfin takes up: the first, by class and order, that can be placed. -/
def nextAdmission (s : State) : Option Launch :=
  ((s.launches.filter waits).foldr (insertBy waitBefore) []).find? fun l => atClassHead l s && (victimsFor l s).isSome

end Sys2Proof.Machine
end

