-- ==== Sys2Proof/Machine/Issue.lean ====
section
/-! DEFINITION. What each unit does at its turn: the instruction a stream fetches and decodes, with the faults of
R71, and the step that an engine, the memory system, the events, the dispatch hardware or Sahfin takes. -/
namespace Sys2Proof.Machine

/-- What a unit does at its turn. -/
inductive Issue where
  | idle
  | instr (i : Instr)
  | trouble (pos : CodePos) (t : Trouble)
  /-- a fault found earlier takes effect (R367) -/
  | found
deriving DecidableEq, Repr

/-! ### Streams -/

/-- A stream that may be granted (R227, R229). -/
def ready (c : Core) (st : Stream) : Bool :=
  let x := memberCtx c.m st
  c.cur.state == .active && !c.m.ended && x.state != .idle && !x.stopped && !x.replyDue

/-- The code comparator of the debug record that names a position of a stream (R376). -/
def codeBreak (st : Stream) (pos : CodePos) (s : State) : Option Nat :=
  match debugOf s with
  | none => none
  | some rec => (upTo 8).find? fun n =>
      let w : BitVec 32 := BitVec.ofNat 32 (bytesField rec (4 * n) 4)
      !muted (.brk (BitVec.ofNat 3 n)) s && flag w 31 && flag w (27 - st.code) && bits w 23 0 == pos.toNat

/-- The instruction in a slot of the line the stream holds (R65 to R71). -/
def decodeSlot (st : Stream) (c : StreamCtx) : Issue :=
  let n := slotOf c.pc
  let w := vat (k := 4) c.line (BitVec.ofNat 4 n)
  let op := w.toNat / 2 ^ 24
  if longOpcode op && (n == 15 || lineCount c.line ≤ n) then .trouble c.pc { cause := .splitLong }
  else if unlistedOpcode op then .instr (.illegalOpcode w)
  else if privilegedOp op then .instr (.privilegedOpcode w)
  else if !opcodeLegalIn op (flag w 8) st then .trouble c.pc { cause := .wrongStream }
  else match decodeWords w (some (vat (k := 4) c.line (BitVec.ofNat 4 (n + 1)))) with
    | .ok i => .instr i
    | .error _ => .trouble c.pc { cause := .reservedField }

/-- The stop-mask stops of fork, exit and CSR writes, taken before the instruction decodes (R376). -/
def maskBreak (w : Word32) (s : State) : Option Cause :=
  let op := w.toNat / 2 ^ 24
  if op == 0x40 && stopMask 5 s && !muted .forkBreak s then some .forkBreak
  else if op == 0x42 && stopMask 6 s && !muted .exitBreak s then some .exitBreak
  else if (op == 0x3A || op == 0x3B) && stopMask 7 s && !muted .csrwBreak s then some .csrwBreak
  else none

/-- A stream at its turn, s.cur being that stream. -/
def issueStream (s : State) : Issue :=
  if s.me.m.found.any (fun x => x.1.who.stream == s.cur) then
    (if s.me.cur.state == .active && !(ctx s).stopped && ownEmpty s.cur s then .found else .idle)
  else if !ready s.me s.cur then .idle
  else
    let c := ctx s
    if c.pend != .run then .instr .lineFetch
    else match codeBreak s.cur c.pc s with
      | some n => .trouble c.pc { cause := .brk (BitVec.ofNat 3 n), detail := n }
      | none => match maskBreak (vat (k := 4) c.line (BitVec.ofNat 4 (slotOf c.pc))) s with
        | some k => .trouble c.pc { cause := k }
        | none => decodeSlot s.cur c

/-! ### Engines -/

/-- The member's engines perform while it runs and no fault has stopped it (R367). -/
def enginesRun (s : State) : Bool := s.me.cur.state == .active && !(memberCtx s.me.m .s).stopped

def entryAge : MEntry → Nat
  | .nest a => a
  | .drain d => d.age

/-- Some operation issued before a mark to a queue it names is unperformed (R104). -/
def markOpen (k : QMark) (s : State) : Bool :=
  let m := s.me.m
  (flag k.queues 2 && m.mq.any fun e => entryAge e < k.age) || (flag k.queues 0 && m.cq.any fun c => c.age < k.age) ||
  (m.iq.any fun e => flag k.queues (3 - e.stream.code) && e.age < k.age) ||
  s.inFlight.any fun x => unperformed (mine x.who.stream s) x && flag k.queues (3 - x.who.stream.code) && x.age < k.age

/-- A `qfence` of some stream holds an entry of a queue issued after its mark (R104). -/
def heldByMark (q age : Nat) (s : State) : Bool :=
  s.me.m.streams.toList.any fun c => match c.mark with
    | some k => flag k.queues q && k.age ≤ age && markOpen k s
    | none => false

/-- An instruction of the queue stands before an entry of it. -/
def behindQueued (st : Stream) (age : Nat) (m : Member) : Bool := m.iq.any fun e => e.stream == st && e.age < age

/-- An older access of the queue is unperformed, and no UNORD one (R204, R257). -/
def behindAccess (st : Stream) (age : Nat) (s : State) : Bool :=
  s.inFlight.any fun m => unperformed (mine st s) m && m.age < age && m.ord != some 2

/-- An entry of a queue may be performed: the member runs, and nothing is before it (R104, R231, R257). -/
def mayPerform (st : Stream) (age : Nat) (s : State) : Bool :=
  enginesRun s && !heldByMark (3 - st.code) age s && !behindAccess st age s && !orderedBehind (memberCtx s.me.m st) s

def issueNest (s : State) : Issue :=
  match s.me.m.mq with
  | .nest a :: _ => if mayPerform .m a s && !behindQueued .m a s.me.m then .instr .nestStep else .idle
  | _ => .idle

def issueDrain (s : State) : Issue :=
  match s.me.m.mq with
  | .drain d :: _ => if mayPerform .m d.age s && !behindQueued .m d.age s.me.m then .instr .drainRegion else .idle
  | _ => .idle

def attnCount (c : Cmd) : Nat := c.b.toNat / 2 ^ 32

def issueShuttle (s : State) : Issue :=
  let m := s.me.m
  match m.cq with
  | [] => .idle
  | c :: _ =>
    if !mayPerform .c c.age s || behindQueued .c c.age m then .idle
    else match c.kind with
      | .attn _ =>
        let r := vat (k := 4) m.rings c.comp.ring
        if c.progress < attnCount c && (c.jobs.isEmpty || nth r.slots r.tail .free == .free) then .instr .cattnPageSend
        else if !c.jobs.isEmpty then .instr (.drupeletPageState 0)
        else .instr .commandPerformed
      | .page => if !c.walked then .instr .shuttleWalk else if c.read != [] then .instr .cpageEntryReplace else .instr .commandPerformed
      | .copy | .push _ | .pull _ | .mcast _ _ | .red _ | .code _ =>
        if c.walked then .instr .commandPerformed else .instr .shuttleWalk

/-! ### Messages -/

/-- A message that set out earlier comes first: of the same member to the same destination (R285), of a weft processor to the same
rank (R357), of one sequence where both are STRONG (R259), or to the same bytes, unless both are UNORD accesses of different
instructions (R210, R260, R261). -/
def comesFirst (s : State) (m x : Msg) : Bool :=
  (m.who.launch == 0 && m.who.member != 0 && x.who == m.who) ||
  (x.delay == 0 && targetHere x s && x.who.launch == m.who.launch && x.who.member == m.who.member && x.route == m.route && m.route != []) ||
  (x.who == m.who && x.ord.isSome && m.ord.isSome && ((x.ord == some 0 && m.ord == some 0) ||
    (!(x.ord == some 2 && m.ord == some 2 && x.age != m.age) && match bodyRange x.body, bodyRange m.body with
      | some a, some b => a.1 < b.2 + b.1 && b.1 < a.1 + a.2
      | _, _ => false)))

/-- No earlier message comes before this one. -/
def inTurn (m : Msg) (s : State) : Bool := !(s.inFlight.takeWhile (· != m)).any (comesFirst s m)

/-- A message that has come to its end: its links are up, its target takes it, and it is its turn. -/
def deliverable (m : Msg) (s : State) : Bool :=
  m.delay == 0 && routeUp m.route s && !routeDead m.route s && targetHere m s && inTurn m s

/-- The step that delivers a message. -/
def deliveryStep : Body → Instr
  | .load _ _ _ _ _ _ | .fetch _ _ => .loadReply
  | .write _ _ _ | .detWrite _ _ _ | .collWrite _ _ _ _ | .copyWrite _ _ _ _ _ | .hostWrite _ _ => .homeAppliesWrite
  | .atomic _ _ _ _ _ _ => .atomicHomeApply
  | .atomicReply _ _ _ => .atomicReply
  | .boardPost _ _ _ _ _ | .boardLook _ _ _ | .boardRead _ _ _ _ | .boardRound _ _ _ | .boardReply _ _ _ => .boardHomeStep
  | .arrival _ | .release _ _ => .barrierArrival
  | .fill _ _ _ _ | .collFill _ _ _ _ _ _ _ => .fillMessage
  | .credit _ _ _ _ | .collCredit _ _ _ => .freeCredit
  | .mcredit _ _ _ => .cmcastCredit
  | .token => .releaseTokenAck
  | .bobbin _ _ _ _ => .bobbinContribution
  | .bind _ _ _ _ _ _ => .remoteRingBind

/-- The oldest message of a step's kind that can be delivered, and the others. -/
def takeMsg (i : Instr) (s : State) : Option (Msg × State) :=
  let p := fun m => deliveryStep m.body == i && deliverable m s
  match s.inFlight.find? p with
  | some m => some (m, { s with inFlight := dropFirst p s.inFlight })
  | none => none

def issueMemory (s : State) : Issue :=
  match s.links.findSome? (linkDue s) with
  | some i => .instr i
  | none =>
  match s.inFlight.findSome? fun m => m.route.find? fun l => linkFailed l s with
  | some l => .instr (.linkRecoveryTimeout l)
  | none =>
  match s.inFlight.find? fun m => deliverable m s with
  | some m => .instr (deliveryStep m.body)
  | none => match s.combiners.find? fun c => !c.writes.isEmpty with
    | some c => .instr (.combinerForward c.pkg c.die c.quad)
    | none => match s.inval with
      | r :: _ => (match r.dies with | d :: _ => .instr (.invalidationAck r.pkg d) | [] => .idle)
      | [] => .idle

/-! ### Events (R107, R281) -/

/-- Words of the instructions whose wait an event may interrupt (R107). -/
def waitOpcode (op : Nat) : Bool :=
  op == 0x51 || op == 0x53 || op == 0x58 || op == 0x59 || op == 0x68 || op == 0x6B || op == 0x62 || op == 0x41 || op == 0x40 || op == 0x48

/-- The stalled instruction of S is an access that the range checker, the request entries or the order of accesses holds,
and not one that waits for a register or is under way (R230). -/
def heldAccess (s : State) : Bool :=
  let t := { s with cur := .s }
  let c := ctx t
  let w := (vat (k := 4) c.line (BitVec.ofNat 4 (slotOf c.pc))).toNat
  let op := w / 2 ^ 24
  if op == 0x60 || op == 0x61 then !entryFree t
  else ((0x2E ≤ op && op ≤ 0x38 && (op < 0x35 || !awaited t (fD w))) || (op == 0x6A && !awaited t (fB w))) && !awaited t (fA w) &&
    !s.inFlight.any fun m => m.who == me t && (match m.body with
      | .fetch _ _ => true
      | _ => false)

/-- S may take an event: at a boundary, or stalled in a wait (R107, R230). -/
def mayTake (s : State) : Bool :=
  let c := memberCtx s.me.m .s
  let op := (vat (k := 4) c.line (BitVec.ofNat 4 (slotOf c.pc))).toNat / 2 ^ 24
  ready s.me .s && !s.me.m.events.inHandler && c.pend != .chainEnd && c.pend != .again &&
    (c.state == .running || waitOpcode op || heldAccess s)

/-- The unmasked class of lowest code with a pending event. -/
def pendingClass (m : Member) : Option EvClass :=
  [EvClass.tier, .notify, .sealed, .deadline].find? fun k =>
    !m.events.mask.getLsbD k.code && !(vat (k := 2) m.events.queues (classIdx k)).isEmpty

/-- The word and registers of the instruction S stands at: a `twait` that waits. -/
def twaitAt (s : State) : Option Word :=
  let c := memberCtx s.me.m .s
  let w := (vat (k := 4) c.line (BitVec.ofNat 4 (slotOf c.pc))).toNat
  if c.state == .stalled && c.pend == .run && w / 2 ^ 24 == 0x68 then some (rawReg { s with cur := .s } (fA w)) else none

def evdlArmed (m : Member) : Bool := m.csrs.evdl != 0xFFFFFFFFFFFFFFFF#64

def issueEvents (s : State) : Issue :=
  if s.me.cur.state != .active || s.me.m.ended then .idle
  else if evdlArmed s.me.m && s.me.m.csrs.evdl.toNat ≤ timeNs s then .instr .evdlDeadline
  else if (pendingClass s.me.m).isSome && mayTake s then .instr .eventDelivery
  else match twaitAt s with
    | some a => if ready s.me .s && a.toNat ≤ timeNs s then .instr .twaitExpiry else .idle
    | none => .idle

/-! ### Dispatch hardware and Sahfin -/

def launchPhase (n : Nat) (s : State) : Option LaunchPhase := (findLaunch n s).map (·.phase)

def issueDispatch (s : State) : Issue :=
  if s.me.cur.state == .ready && launchPhase s.me.cur.launch s != some .stopping then .instr .dispatchStart
  else if s.me.next.state == .staging then .instr .dispatchStage
  else if s.me.next.state == .ready && s.me.cur.state == .empty then .instr .dispatchPromote
  else if s.me.cur.state == .active && launchPhase s.me.cur.launch s == some .ended then .instr .dispatchRelease
  else .idle

/-- The asymmetry allowance of a configuration record, in ps (R279, R379). -/
def asymmetry (p : Package) : Nat := bytesField p.config 0x09C 4
/-- What the grandmaster's own time and the links add to a die's estimate: its bound in a pod, the asymmetry allowance, and the
drift of 4 µs (R279). -/
def syncBound (p : Package) : Nat := asymmetry p + 80 + if p.inPod then p.gmBound else 0

/-- The hub die's next sync reaches a die, in TC0 over links that carry it (R278, R282). -/
def syncDue (d : Die) (s : State) : Option Instr :=
  match findPkg d.pkg s with
  | none => none
  | some p =>
    let r := hubRoute d.pkg d.die s
    if 65536 * 1000 ≤ d.count - d.syncAt && routeFree .tc0 r s then some (.reedSync d.pkg d.die p.gmTime (syncBound p)) else none

/-- A die whose time or ramp is due for a step (R278, R279, R305). -/
def dieDue (s : State) (d : Die) : Option Instr :=
  if !d.on then none
  else if d.rampAt ≠ d.count / 32768000 * 32768000 then some (.rampLimitUpdate d.pkg d.die)
  else if d.time == .holdover && 1000000 < dieBound d then some (.timeUnlock d.pkg d.die)
  else if d.time == .locked && 65536 * 4000 ≤ d.count - d.lastSync then some (.holdoverEntry d.pkg d.die)
  else syncDue d s

/-- A die whose supply is out of range while a launch is bound on it (R386). -/
def supplyBad (s : State) (d : Die) : Option Instr :=
  if d.on && (d.mv < 540 || 720 < d.mv) && (allCores s).any (fun c => c.pkg == d.pkg && c.die == d.die &&
      (c.cur.state == .active || c.cur.state == .ready) && (launchPhase c.cur.launch s == some .running || launchPhase c.cur.launch s == some .waiting))
  then some (.supplyStop d.pkg d.die d.mv) else none

/-- A collective whose round has lasted its timeout (R353, R358). Log 30, DESIGN CHOICE. -/
def collLate (now : Nat) (c : Coll) : Bool :=
  !c.aborted && bytesField c.record 4 4 != 0 && bytesField c.record 4 4 * 65536000 ≤ now - c.since

/-- A running launch has spent its budget (R300); its members are judged once they have all started. -/
def budgetSpent (l : Launch) (s : State) : Bool :=
  (l.phase == .running || l.phase == .stopping) && !(l.records.any fun r => r.cause == .budgetOverrun) && l.budget * 65536000 ≤ l.used &&
    (allCores s).all fun c => c.cur.launch != l.number || c.cur.state == .empty || c.cur.state == .active

/-- The bytes of a page on the move. -/
def movingSpan (x : Moving) : Nat × Nat := (memKey x.pkg (leafFrame x.entry), if leafDet x.entry then 8 * pageSize x.level else pageSize x.level)

/-- Every die has given the moving pages up, and no access to them is on its way or in a combiner (R323, R324, R384). -/
def moveReady (p : Package) (s : State) : Bool :=
  !(s.inval.any fun r => r.pkg == p.pkg) && p.moving.all fun x =>
    let r := movingSpan x
    !(s.inFlight.any fun m => (bodyRange m.body).any fun b => meets b.1 b.2 r.1 r.2) &&
    !(s.combiners.any fun c => c.writes.any fun w => meets w.key w.data.length r.1 r.2)

/-- A launch is running or being saved on a package. -/
def runsOn (pkg : Nat) (s : State) : Bool := s.launches.any fun l => (l.phase == .running || l.phase == .stopping) && l.place.any fun p => p.1 == pkg

/-- The next step of a retirement (R384, R385). -/
def retireDue (p : Package) (s : State) (e : Nat) : Option Instr :=
  if e / 2 ^ 62 == 1 then (if canList e p then some (.hbmRowRetire p.pkg (e % 2 ^ 62) 0 0) else none)
  else
    let die := e % 2 ^ 62 / 32
    match findCore (fun c => c.pkg == p.pkg && c.die == die && c.phys == e % 32) s with
    | none => none
    | some c =>
      let step := Instr.coreRetire p.pkg die (e % 32)
      if c.retired then (if canList e p then some step else none)
      else if c.cur.state != .empty && launchPhase c.cur.launch s == some .stopping then none
      else some step

/-- The next step of a repair of a package that is under way (R384, R385). -/
def pkgDue (s : State) (p : Package) : Option Instr :=
  if p.stage != .serving then none
  else match p.moving with
    | x :: _ => if moveReady p s then some (.hbmRowRetire p.pkg x.row x.toPA 0) else none
    | [] => if p.leaving then (if runsOn p.pkg s then none else some (.packageReplace p.pkg)) else p.outOfUse.findSome? (retireDue p s)

/-- A row that a loss of power put back into use is retired again (R385). -/
def againDue (p : Package) : Option Instr :=
  if p.stage != .serving then none else p.again.head?.map fun e => .hbmRowRetire p.pkg (e % 2 ^ 62) 0 0

def issueSahfin (s : State) : Issue :=
  match s.dies.findSome? (dieDue s) with
  | some i => .instr i
  | none => match s.dies.findSome? (supplyBad s) with
  | some i => .instr i
  | none => match s.launches.find? (·.phase == .stopping) with
  | some l => .instr (.gangPreemption l.number)
  | none => match s.pkgs.findSome? (pkgDue s) with
  | some i => .instr i
  | none => match s.launches.find? (budgetSpent · s) with
    | some l => .instr (.budgetExpiry l.number)
    | none => match s.colls.find? (collLate (sahfinTime s)) with
      | some c => .instr (.collTimeout (bytesField c.record 0 1))
      | none => match nextAdmission s with
        | some l => if l.phase == .saved then .instr (.launchResume l.number none) else .instr (.launchAdmit l.number)
        | none => match s.pkgs.findSome? againDue with
          | some i => .instr i
          | none => .idle

/-! ### The turn -/

def nextTurn : Turn → Turn
  | .stream .s => .stream .m | .stream .m => .stream .v | .stream .v => .stream .c | .stream .c => .queue .m
  | .queue .s => .queue .m | .queue .m => .queue .v | .queue .v => .queue .c | .queue .c => .nest
  | .nest => .drain | .drain => .shuttle | .shuttle => .memory | .memory => .events | .events => .mgmt | .mgmt => .next
  | .next => .stream .s

def turnStream (s : State) : Stream := match s.turn with
  | .stream st => st
  | .queue st => st
  | .nest | .drain => .m
  | .shuttle => .c
  | .memory | .events | .mgmt | .next => .s

/-- Another core comes into focus. -/
def refocus (s : State) : State :=
  match s.turn, s.others with
  | .next, c :: rest => { s with me := c, others := rest ++ [s.me] }
  | _, _ => s

/-! ### Time that a step takes (R278 to R280, R300) -/

/-- Log 3, DESIGN CHOICE. -/
def tickDie (t : Nat) (d : Die) : Die :=
  if d.on then
    let run := ((t : Int) + t * (d.drift + d.trim) / 1000000).toNat
    let slow := min d.slew (run / 5000)
    { d with count := d.count + (run - slow), slew := d.slew - slow }
  else d

/-- Some member of the launch is ACTIVE and not stopped. -/
def consumes (s : State) (l : Launch) : Bool :=
  (l.phase == .running || l.phase == .stopping) && (allCores s).any fun c =>
    c.cur.state == .active && c.cur.launch == l.number && !(memberCtx c.m .s).stopped

/-- An UNORD access has sat out one turn of the memory system (R261). -/
def lessDelay (m : Msg) : Msg := { m with delay := m.delay - 1 }

/-- What a step adds around its instruction: the turn passes and time goes on. -/
def passTurn (s : State) : State :=
  let s := refocus s
  { s with turn := nextTurn s.turn, links := if s.turn == .memory then s.links.map (replayed s) else s.links, dies := s.dies.map (tickDie s.tick),
           inFlight := if s.turn == .memory then s.inFlight.map lessDelay else s.inFlight,
           pkgs := s.pkgs.map fun p => { p with gmTime := p.gmTime + s.tick },
           podTime := s.podTime + s.tick,
           launches := s.launches.map fun l => if consumes s l then { l with used := l.used + s.tick } else l }

end Sys2Proof.Machine
end

