-- ==== Sys2Proof/Machine/Footprints.lean ====
section
/-! DEFINITION. Shape records (R208), region descriptors (R153), footprints and the range checker (R142, R157, R207,
R234). -/
namespace Sys2Proof.Machine

/-! ### Tensor shape records (R208) -/

def shExt0 (h : BitVec 256) : Nat := bits h 255 240
def shExt1 (h : BitVec 256) : Nat := bits h 239 224
def shExt2 (h : BitVec 256) : Nat := bits h 223 208
def shBnd0 (h : BitVec 256) : Nat := bits h 207 192
def shBnd1 (h : BitVec 256) : Nat := bits h 191 176
def shOrg0 (h : BitVec 256) : Int := signed 16 (bits h 175 160)
def shOrg1 (h : BitVec 256) : Int := signed 16 (bits h 159 144)
def shEsz (h : BitVec 256) : Nat := bits h 143 141
/-- Element bytes. -/
def shE (h : BitVec 256) : Nat := 2 ^ shEsz h
/-- The clipped side is the source. -/
def shSrcSide (h : BitVec 256) : Bool := flag h 140
def shSst1 (h : BitVec 256) : Int := signed 32 (bits h 127 96)
def shSst2 (h : BitVec 256) : Int := signed 32 (bits h 95 64)
def shDst1 (h : BitVec 256) : Int := signed 32 (bits h 63 32)
def shDst2 (h : BitVec 256) : Int := signed 32 (bits h 31 0)
def shCount (h : BitVec 256) : Nat := shExt0 h * shExt1 h * shExt2 h
/-- The record's own check (R209). -/
def shWf (h : BitVec 256) : Bool := bits h 139 128 == 0 && shEsz h < 4

/-- The indices of a dimension that lie inside its bound. -/
def insideRange (ext bnd : Nat) (org : Int) : Int × Int :=
  if bnd == 0 then (0, ext) else (max 0 (-org), min (ext : Int) ((bnd : Int) - org))

/-! ### Region descriptors (R153) -/

def dDepth (d : BitVec 64) : Nat := bits d 63 48
def dSCols (d : BitVec 64) : Nat := bits d 47 40 + 1
def dSRows (d : BitVec 64) : Nat := bits d 39 32 + 1
def dCols (d : BitVec 64) : Nat := bits d 31 24 + 1
def dRows (d : BitVec 64) : Nat := bits d 23 16 + 1
def dCol0 (d : BitVec 64) : Nat := bits d 15 8
def dRow0 (d : BitVec 64) : Nat := bits d 7 0
def regionOf (m : Member) (a : AIdx) : Region := vat (k := 3) m.regions a

/-! ### Footprints -/

def unitsMeet : FootUnit → FootUnit → Bool
  | .granules a b, .granules c d => a ≤ d && c ≤ b
  | .granules _ _, _ => false
  | .tile x, .tile y => x == y
  | .tile _, _ => false
  | .freg x, .freg y => x == y
  | .freg _, _ => false
  | .region x r0 r1 c0 c1, .region y q0 q1 d0 d1 => x == y || (r0 < q1 && q0 < r1 && c0 < d1 && d0 < c1)
  | .region _ _ _ _ _, _ => false

/-- A region as a descriptor places it (R142, R153). Log 22, DEDUCED. -/
def regionRect (a : AIdx) (d : BitVec 64) : FootUnit := .region a (dRow0 d) (dRow0 d + dRows d) (dCol0 d) (dCol0 d + dCols d)
/-- A region as it stands. -/
def regionUnit (m : Member) (a : AIdx) : FootUnit :=
  match (regionOf m a).desc with
  | some d => regionRect a d
  | none => .region a 0 0 0 0

def listsMeet (x y : List FootUnit) : Bool := x.any fun u => y.any (unitsMeet u)

/-- The conflict of R234. -/
def footsMeet (x y : Foot) : Bool := listsMeet x.writes (y.reads ++ y.writes) || listsMeet x.reads y.writes


/-- The granules of n bytes at va; global memory enters no footprint. -/
def bytesUnit (va n : Nat) : List FootUnit := if n == 0 || !inWindow va then [] else [.granules (va / 64) ((va + n - 1) / 64)]

def accessFoot (d : Dir) (va n : Nat) : Foot :=
  match d with
  | .read => ⟨bytesUnit va n, []⟩
  | .write | .update => ⟨[], bytesUnit va n⟩

/-- The granules from a lowest to a highest offset, inclusive, from a base. -/
def spanUnit (base : Word) (lo hi : Int) : List FootUnit :=
  if hi < lo then [] else bytesUnit (wrap64 (base.toNat + lo)).toNat (hi - lo + 1).toNat

/-- The lowest and highest byte offset of one side of a walk: element size, origin added to the first two indices,
their ranges, the strides. -/
def sideSpan (e : Nat) (o0 o1 : Int) (r0 r1 : Int × Int) (ext2 : Nat) (st1 st2 : Int) : Option (Int × Int) :=
  if r0.2 ≤ r0.1 || r1.2 ≤ r1.1 || ext2 == 0 then none
  else
    let a1 := (o1 + r1.1) * st1
    let b1 := (o1 + r1.2 - 1) * st1
    let b2 := ((ext2 : Int) - 1) * st2
    some ((o0 + r0.1) * e + min a1 b1 + min 0 b2, (o0 + r0.2 - 1) * e + max a1 b1 + max 0 b2 + e - 1)

def sideUnits (base : Word) (e : Nat) (o0 o1 : Int) (r0 r1 : Int × Int) (ext2 : Nat) (st1 st2 : Int) : List FootUnit :=
  match sideSpan e o0 o1 r0 r1 ext2 st1 st2 with
  | some (lo, hi) => spanUnit base lo hi
  | none => []

def shRange0 (h : BitVec 256) : Int × Int := insideRange (shExt0 h) (shBnd0 h) (shOrg0 h)
def shRange1 (h : BitVec 256) : Int × Int := insideRange (shExt1 h) (shBnd1 h) (shOrg1 h)

/-- The offsets from a that a walk can read. -/
def srcSpan (h : BitVec 256) : Option (Int × Int) :=
  if shSrcSide h then sideSpan (shE h) (shOrg0 h) (shOrg1 h) (shRange0 h) (shRange1 h) (shExt2 h) (shSst1 h) (shSst2 h)
  else sideSpan (shE h) 0 0 (shRange0 h) (shRange1 h) (shExt2 h) (shSst1 h) (shSst2 h)

/-- The offsets from b that a walk can write. -/
def dstSpan (h : BitVec 256) : Option (Int × Int) :=
  if shSrcSide h then sideSpan (shE h) 0 0 (0, shExt0 h) (0, shExt1 h) (shExt2 h) (shDst1 h) (shDst2 h)
  else sideSpan (shE h) (shOrg0 h) (shOrg1 h) (shRange0 h) (shRange1 h) (shExt2 h) (shDst1 h) (shDst2 h)

def walkReads (a : Word) (h : BitVec 256) : List FootUnit := match srcSpan h with | some (lo, hi) => spanUnit a lo hi | none => []
def walkWrites (b : Word) (h : BitVec 256) : List FootUnit := match dstSpan h with | some (lo, hi) => spanUnit b lo hi | none => []

/-- R207. -/
def cmdFoot (c : Cmd) : Foot :=
  match c.kind with
  | .copy => ⟨walkReads c.a c.shape, walkWrites c.b c.shape⟩
  | .push _ => ⟨walkReads c.a c.shape, []⟩
  | .pull _ => ⟨[], walkWrites c.b c.shape⟩
  | .mcast _ _ => ⟨walkReads c.a c.shape, []⟩
  | .red _ => ⟨walkReads c.a c.shape, walkWrites c.b c.shape⟩
  | .page => ⟨[], walkWrites c.a c.shape⟩
  | .code n => ⟨bytesUnit c.a.toNat (64 * n), []⟩
  | .attn _ => ⟨bytesUnit c.a.toNat 1024, []⟩

/-- Bytes of a block of a block tag. -/
def blockBytes (tag : Tag) : Nat := blockLen tag * elemBits tag / 8

/-- The lowest and highest sum of l_v · s_v over the levels (R154). -/
def levelSpan (n : List Word32) (s : List Word) : Int × Int :=
  (n.zip s).foldl (fun acc p =>
    let top : Int := ((p.1.toNat : Int) - 1) * signed 64 p.2.toNat
    (acc.1 + min 0 top, acc.2 + max 0 top)) (0, 0)

/-- What a nest reads of an operand of so many stored rows, over the whole walk (R157). -/
def operandUnits (op : NestOp) (n : List Word32) (s : List Word) (rows sk : Nat) : List FootUnit :=
  match op with
  | .unset => []
  | .tile t _ => [.tile t]
  | .addr a ld tag src table =>
    if n.any (· == 0) then []
    else
      let l := levelSpan n s
      let r : Int := ((rows : Int) - 1) * signed 64 ld.toNat
      let lo := l.1 + min 0 r
      let hi := l.2 + max 0 r + rowBytes tag sk - 1
      spanUnit a lo hi ++
        (if src == .table && blockBytes tag != 0 then spanUnit table (lo / blockBytes tag) (hi / blockBytes tag) else [])

/-- R157. -/
def nestFoot (w : Walk) (m : Member) : Foot :=
  let d := (regionOf m w.nest.dest).desc.getD 0
  let n := w.nest.n.toList
  ⟨operandUnits w.nest.opA n w.nest.sa.toList (dSRows d) (dDepth d) ++
     operandUnits w.nest.opB n w.nest.sb.toList (dSCols d) (dDepth d) ++
     (match w.x with | some x => [.freg x] | none => []),
   regionUnit m w.nest.dest :: (match w.x with | some x => [.freg x] | none => [])⟩

/-- The bytes at an address as they stand, where it translates. -/
def peek (va n : Nat) (s : State) : List Byte :=
  match checkParts { dir := .read } s none (pageParts va 2 n) with
  | .ok spots => (readSpots s spots).1
  | .error _ => []

/-- A drain reads its region, writes the resolved values back, and under `st` writes what its record names (log 10, DEDUCED). -/
def drainFoot (d : Drain) (s : State) : Foot :=
  let h : BitVec 256 := BitVec.ofNat 256 (bytesToNat (peek d.b.toNat 32 s))
  let e := elemBits d.tag
  let r0 := shRange0 h
  let r1 := shRange1 h
  let rows := sideUnits d.a 1 0 (shOrg1 h) ((shOrg0 h + r0.1) * e / 8, (shOrg0 h + r0.2) * e / 8 + 1) r1 1 (shDst1 h) 0
  let scales := if blockLen d.tag == 0 then []
    else sideUnits (wrap64 (d.a.toNat + shDst2 h)) 1 0 (shOrg1 h)
      ((shOrg0 h + r0.1) / blockLen d.tag, (shOrg0 h + r0.2) / blockLen d.tag + 1) r1 1 (shSst1 h) 0
  ⟨[regionUnit s.me.m d.region],
   (if d.taken then [] else [regionUnit s.me.m d.region]) ++ (if d.mode == .st && inWindow d.a.toNat then rows ++ scales else [])⟩

def entryFoot (s : State) : MEntry → Foot
  | .nest _ => match s.me.m.active with
    | some w => nestFoot w s.me.m
    | none => ⟨[], []⟩
  | .drain d => drainFoot d s

/-- Granules of the core's own scratchpad named through the quad window, as offsets of its own window (R184, R234). -/
def ownGranules (idx : Nat) : FootUnit → List FootUnit
  | .granules a b =>
    let base := (0xFD * 2 ^ 56 + idx * 2 ^ 22) / 64
    let lo := max a base
    let hi := min b (base + 2 ^ 16 - 1)
    if lo ≤ hi then [.granules (0xFE * 2 ^ 56 / 64 + (lo - base)) (0xFE * 2 ^ 56 / 64 + (hi - base))] else []
  | .tile _ => []
  | .freg _ => []
  | .region _ _ _ _ _ => []

/-- A footprint with both names of the core's own granules. -/
def bothNames (s : State) (f : Foot) : Foot :=
  ⟨f.reads ++ f.reads.flatMap (ownGranules s.me.idx), f.writes ++ f.writes.flatMap (ownGranules s.me.idx)⟩

/-- The conflict of R234 at the core in focus. -/
def conflict (s : State) (x y : Foot) : Bool := footsMeet (bothNames s x) (bothNames s y)

/-- Some M-queue entry older than an age, or any, holds a footprint back. -/
def holdsM (f : Foot) (older : Nat → Bool) (s : State) : Bool :=
  s.me.m.mq.any fun e => older (entryAge e) && conflict s (entryFoot s e) f
def holdsC (f : Foot) (older : Nat → Bool) (s : State) : Bool :=
  s.me.m.cq.any fun c => older c.age && conflict s (cmdFoot c) f

def holdsQ (f : Foot) (st : Stream) (older : Nat → Bool) (s : State) : Bool :=
  s.me.m.iq.any fun e => e.stream != st && older e.age && conflict s e.foot f

/-- An older entry of another queue holds an entry of a stream's queue (R234). -/
def heldEntry (f : Foot) (st : Stream) (age : Nat) (s : State) : Bool :=
  (st != .m && holdsM f (· < age) s) || (st != .c && holdsC f (· < age) s) || holdsQ f st (· < age) s

/-- What the current stream performs is held: an entry by what is older, anything else by every entry (R234). -/
def held (f : Foot) (s : State) : Bool :=
  match s.me.m.perform with
  | some p => heldEntry f s.cur p.1 s
  | none => holdsM f (fun _ => true) s || holdsC f (fun _ => true) s || holdsQ f .s (fun _ => true) s

def notHeld (f : Foot) (s : State) : Eff Unit := waitUntil (!held f s)

/-- No command of any queue reads or writes a region (R162, R166, R167). -/
def regionFree (a : AIdx) (s : State) : Eff Unit := notHeld ⟨[regionUnit s.me.m a], [regionUnit s.me.m a]⟩ s

end Sys2Proof.Machine
end

