-- ==== Sys2Proof/Machine/Queues.lean ====
section
/-! DEFINITION. The queues of M, V and C (R231): what enters them at issue, and the performing of an entry (R96, R104,
R233, R234). -/
namespace Sys2Proof.Machine

/-- Ages of the entries that stand in a queue. -/
def queuedAges (st : Stream) (m : Member) : List Nat :=
  (m.iq.filter fun e => e.stream == st).map (·.age) ++
    (match st with
      | .m => m.mq.map entryAge
      | .c => m.cq.map (·.age)
      | .s | .v => [])

/-- Ages of a queue's accesses that have left it and are not yet performed. -/
def flyingAges (st : Stream) (s : State) : List Nat :=
  s.inFlight.foldl (fun acc m =>
    if unperformed (mine st s) m && !acc.contains m.age && !(queuedAges st s.me.m).contains m.age then acc ++ [m.age] else acc) []

/-- Entries of a queue issued and not performed (R204, R231). -/
def queueLength (st : Stream) (s : State) : Nat := (queuedAges st s.me.m).length + (flyingAges st s).length

def queueRoom (st : Stream) (s : State) : Bool :=
  queueLength st s < (match st with
    | .m => 16
    | .v => 32
    | .c => 64
    | .s => 0)

/-- The queue of the current stream holds nothing older than what it now performs (R96, R231). -/
def queueDone (s : State) : Bool := s.me.m.perform.isSome || queueEmpty s.cur s.me.m

/-- A `qfence` that names this queue still waits, so nothing issued after its mark is performed (R104). -/
def behindMark (s : State) : Bool :=
  let q := 3 - s.cur.code
  match s.me.m.perform with
  | some p => heldByMark q p.1 s
  | none => [Stream.s, .m, .v, .c].any fun st => st != s.cur &&
    match (memberCtx s.me.m st).mark with
    | some k => flag k.queues q
    | none => false

/-- What the queue must know of an instruction: its footprint, the registers it reads, the one it writes, whether it
draws a stochastic word, the bobbins SEALED at its issue (R49), the tile it reshapes, and that the footprint is known. -/
structure Queued where
  foot   : Foot := ⟨[], []⟩
  uses   : List Reg := []
  dst    : Reg := 0
  draws  : Bool := false
  sealed : Option (BitVec 64) := none
  shape  : Option (Reg × Tag × Nat × Nat) := none
  ready  : Bool := true
  /-- a load or store, whose place in the order of accesses the access itself checks (R257) -/
  access : Bool := false

/-- Nothing of the queue that is older is unperformed; an access compares the pages itself (R231, R257). -/
def turnOf (q : Queued) (s : State) : Bool :=
  !behindOrdered s && (q.access || !s.inFlight.any fun m => unperformed (me s) m && m.age < accessAge s)

/-- The words of the instruction at pc. -/
def wordsHere (s : State) : Nat :=
  let c := ctx s
  if longOpcode ((vat (k := 4) c.line (BitVec.ofNat 4 (slotOf c.pc))).toNat / 2 ^ 24) then 2 else 1

/-- The instruction enters its stream's queue and retires; it waits while the queue is full or a register it names is
awaited (R231). -/
def intoQueue (q : Queued) (s : State) : State :=
  let c := ctx s
  let awaited := q.uses.any fun r => r != 0 && c.await.getLsbD r.toNat
  if awaited || !q.ready || !queueRoom s.cur s then stall s
  else
    let e : QEntry := { stream := s.cur, age := s.me.m.age, foot := q.foot, draws := q.draws, dst := q.dst, shape := q.shape,
                        ctx := { c with state := .stalled, written := [], sealedAt := q.sealed,
                                        await := setBit c.await q.dst.toNat false } }
    retire (wordsHere s) (modM (fun m => { m with iq := m.iq ++ [e], age := m.age + 1 }) (awaitReg q.dst s))

/-- An instruction of a queue of M, V or C: performed at once where nothing is before it, else queued. In S it
executes directly. -/
def runIn (q : Queued) (s : State) (e : Eff State) : Host.Outcome State Fault Refusal :=
  if s.cur == .s then conclude 0 s e
  else if s.me.m.perform.isSome then (if turnOf q s then conclude 1 s e else .next (stall s))
  else if queueEmpty s.cur s.me.m && queueRoom s.cur s && !behindMark s && turnOf q s then
    match e with
    | .error .wait => .next (intoQueue q s)
    | .error (.reading _ _ _ _ _) => .next (intoQueue q s)
    | .error (.fault t) => conclude 1 s (.error (.fault t))
    | .error (.hole pa) => conclude 1 s (.error (.hole pa))
    | .ok t => conclude 1 s (.ok t)
  else .next (intoQueue q s)

/-! ### The step that performs an entry -/

/-- The oldest queued instruction of a stream, where it is that queue's oldest entry. -/
def entryDue (st : Stream) (m : Member) : Option QEntry :=
  match m.iq.find? fun e => e.stream == st with
  | none => none
  | some e =>
    let first := match st with
      | .m => m.mq.all fun x => e.age < entryAge x
      | .c => m.cq.all fun x => e.age < x.age
      | .s | .v => true
    if first then some e else none

/-- The entry that may be performed at the turn of a stream's queue. -/
def entryNow (st : Stream) (s : State) : Option QEntry :=
  match entryDue st s.me.m with
  | none => none
  | some e => if !e.ctx.replyDue && mayPerform st e.age s then some e else none

def issueQueue (st : Stream) (s : State) : Issue :=
  match entryNow st s with
  | some e => decodeSlot st e.ctx
  | none => .idle

/-- The unit whose turn it is; a stream's turn makes it the current stream. -/
def issue (s : State) : Issue :=
  match s.turn with
  | .stream st => issueStream { s with cur := st }
  | .queue st => issueQueue st s
  | .nest => issueNest s
  | .drain => issueDrain s
  | .shuttle => issueShuttle s
  | .memory => issueMemory s
  | .events => issueEvents s
  | .mgmt => match issueDispatch s with
    | .idle => issueSahfin s
    | .instr i => .instr i
    | .trouble p t => .trouble p t
    | .found => .idle
  | .next => .idle

/-- The entry takes the place of its stream's context while it is performed. -/
def installEntry (e : QEntry) (s : State) : State :=
  modM (fun m => { memberSetCtx m e.stream e.ctx with perform := some (e.age, memberCtx m e.stream) }) { s with cur := e.stream }

/-- The state that the unit whose turn it is starts from. -/
def turnState (s : State) : State :=
  match s.turn with
  | .queue st => (match entryNow st s with
    | some e => installEntry e s
    | none => { s with cur := st })
  | .stream _ | .nest | .drain | .shuttle | .memory | .events | .mgmt | .next => { s with cur := turnStream s }

/-- What a performed entry leaves in its stream's context: its register, the homes it wrote, a stop. -/
def mergeEntry (e : QEntry) (c real : StreamCtx) : StreamCtx :=
  let r := { real with
    stopped := real.stopped || c.stopped,
    written := real.written ++ c.written.filter fun h => !real.written.contains h }
  if c.state == .running && e.dst != 0 then
    { r with regs := vput (k := 5) r.regs e.dst (vat (k := 5) c.regs e.dst),
             poison := setBit r.poison e.dst.toNat (c.poison.getLsbD e.dst.toNat),
             await := setBit r.await e.dst.toNat (c.await.getLsbD e.dst.toNat) }
  else r

/-- The loads that an entry has sent write the register that still waits for them, or none (R231). -/
def retarget (e : QEntry) (s : State) : State :=
  { s with inFlight := s.inFlight.map fun m => if m.who == mine e.stream s && m.age == e.age then
      { m with body := match m.body with
        | .load _ sh leaf key n sg => .load e.dst sh leaf key n sg
        | b => b } else m }

/-- The stream's context returns to its place; an entry that was performed leaves its queue. -/
def endEntry (s : State) : State :=
  match s.me.m.perform with
  | none => s
  | some p => match s.me.m.iq.find? fun e => e.age == p.1 with
    | none => modM (fun m => { m with perform := none }) s
    | some e =>
      let c := memberCtx s.me.m e.stream
      retarget e <| modM (fun m => { memberSetCtx (if c.state == .running then dropPassed e.stream e.ctx.pc m else m) e.stream (mergeEntry e c p.2) with
        perform := none,
        iq := if c.state == .running then m.iq.filter (fun x => x.age != e.age)
          else m.iq.map fun x => if x.age == e.age then { x with ctx := { x.ctx with replyDue := c.replyDue } } else x }) s

/-- An instruction of M, V or C that is performed as it issues leaves no entry and stops nothing. -/
def performedNow (st : Stream) (s t : State) : Bool :=
  (memberCtx t.me.m st).state == .running && !(memberCtx t.me.m st).stopped && t.me.m.found.length == s.me.m.found.length &&
    t.me.m.iq.length == s.me.m.iq.length && t.me.m.mq.length == s.me.m.mq.length && t.me.m.cq.length == s.me.m.cq.length

/-- It is over then, and the debug stops that it passed fire again (R370). -/
def endIssue (s t : State) : State :=
  match s.turn with
  | .stream st => if st != .s && performedNow st s t then modM (dropPassed st (memberCtx s.me.m st).pc) t else t
  | .queue _ | .nest | .drain | .shuttle | .memory | .events | .mgmt | .next => t

end Sys2Proof.Machine
end

