-- ==== Sys2Proof/Machine/LoadStore.lean ====
section
/-! DEFINITION. Scalar loads and stores (R94 to R96) and the messages of a load and of a write that waited for a link
(R256, R347). -/
namespace Sys2Proof.Machine

/-- A scalar access of a footprint may be performed, as far as the queues, the marks and the range checker go. -/
def accessReady (f : Foot) (s : State) : Eff Unit := waitUntil (queueDone s && !behindMark s && !held f s)

/-- The value of loaded bytes (R94). -/
def extend (signedLoad : Bool) (n v : Nat) : Word := if signedLoad then wrap64 (signed (8 * n) v) else BitVec.ofNat 64 v

/-- ea (R94). -/
def effAddr (base : Word) (off : BitVec 14) : Nat := (base + off.signExtend 64).toNat

def scalarAcc (dir : Dir) (n : Nat) : Acc := { dir := dir, det := n == 4, coll := n == 4 }

/-- The value that a load of checked places puts into d (R94). -/
def loadHere (d : Reg) (n : Nat) (signedLoad : Bool) (va : Nat) (spots : List Spot) (s : State) : State :=
  let r := readSpots s spots
  let t := if r.2.2 == 0 then s else raiseAtom r.2.2 va n (spotsScope spots s) s
  retire 1 (wrP d (extend signedLoad n (bytesToNat r.1)) r.2.1 (cached va n t))

/-- The load of n bytes at va into d; over a route that holds its traffic, or put off in an UNORD page, it sets out, and the
register waits for the reply (R231, R261). -/
def loadInto (d : Reg) (n : Nat) (signedLoad : Bool) (va : Nat) (s : State) : Eff State := do
  let spots ← resolve (scalarAcc .read n) va n s
  waitUntil (inOrder true spots s)
  match spots with
  | (.mem leaf key, _) :: _ =>
    let r := unordDelay leaf s
    if r.1 == 0 && spots.all (readFree s) then .ok (loadHere d n signedLoad va spots r.2)
    else do
      let t ← sendAccess leaf r.1 n key (.load d (shadowed s d) leaf key n signedLoad) (awaitReg d r.2)
      .ok (retire 1 (cached va n t))
  | _ => .ok (loadHere d n signedLoad va spots s)

/-- A scalar load (R94, R95): poison of the base, then alignment, then the memory faults. -/
def scalarLoad (d a : Reg) (off : BitVec 14) (n : Nat) (signedLoad : Bool) (s : State) : Eff State := do
  let x ← rd s a
  let va := effAddr x off
  if va % n != 0 then failAt .misaligned va
  accessReady (accessFoot .read va n) s
  loadInto d n signedLoad va s

/-- A scalar store of register d (R94, R95). -/
def scalarStore (d a : Reg) (off : BitVec 14) (n : Nat) (s : State) : Eff State := do
  let x ← rd s a
  let v ← rd s d
  let va := effAddr x off
  if va % n != 0 then failAt .misaligned va
  accessReady (accessFoot .write va n) s
  let s' ← storeBytes (scalarAcc .write n) va (natToBytes n v.toNat) s
  .ok (retire 1 s')

/-- The granules that an access through register a reaches. -/
def scalarFoot (dir : Dir) (a : Reg) (off : BitVec 14) (n : Nat) (s : State) : Foot := accessFoot dir (effAddr (rawReg s a) off) n

/-- A scalar load of the current stream: S performs it, the others queue it (R96). -/
def runLoad (d a : Reg) (off : BitVec 14) (n : Nat) (signedLoad : Bool) (s : State) : Host.Outcome State Fault Refusal :=
  runIn { foot := scalarFoot .read a off n s, uses := [a], dst := d, access := true } s (scalarLoad d a off n signedLoad s)
/-- A scalar store of the current stream. -/
def runStore (d a : Reg) (off : BitVec 14) (n : Nat) (s : State) : Host.Outcome State Fault Refusal :=
  runIn { foot := scalarFoot .write a off n s, uses := [a, d], access := true } s (scalarStore d a off n s)

/-- `ldb` (R94). -/
def execLdb (d a : Reg) (off : BitVec 14) (s : State) : Host.Outcome State Fault Refusal := runLoad d a off 1 true s
/-- `ldh` (R94). -/
def execLdh (d a : Reg) (off : BitVec 14) (s : State) : Host.Outcome State Fault Refusal := runLoad d a off 2 true s
/-- `ldw` (R94). -/
def execLdw (d a : Reg) (off : BitVec 14) (s : State) : Host.Outcome State Fault Refusal := runLoad d a off 4 true s
/-- `ldd` (R94). -/
def execLdd (d a : Reg) (off : BitVec 14) (s : State) : Host.Outcome State Fault Refusal := runLoad d a off 8 false s
/-- `ldbn` (R94). -/
def execLdbn (d a : Reg) (off : BitVec 14) (s : State) : Host.Outcome State Fault Refusal := runLoad d a off 1 false s
/-- `ldhn` (R94). -/
def execLdhn (d a : Reg) (off : BitVec 14) (s : State) : Host.Outcome State Fault Refusal := runLoad d a off 2 false s
/-- `ldwn` (R94). -/
def execLdwn (d a : Reg) (off : BitVec 14) (s : State) : Host.Outcome State Fault Refusal := runLoad d a off 4 false s
/-- `stb` (R94). -/
def execStb (d a : Reg) (off : BitVec 14) (s : State) : Host.Outcome State Fault Refusal := runStore d a off 1 s
/-- `sth` (R94). -/
def execSth (d a : Reg) (off : BitVec 14) (s : State) : Host.Outcome State Fault Refusal := runStore d a off 2 s
/-- `stw` (R94). -/
def execStw (d a : Reg) (off : BitVec 14) (s : State) : Host.Outcome State Fault Refusal := runStore d a off 4 s
/-- `std` (R94). -/
def execStd (d a : Reg) (off : BitVec 14) (s : State) : Host.Outcome State Fault Refusal := runStore d a off 8 s

/-! ### Messages -/

/-- A value in a register of a stream, or in a shadow register, whose load has returned (R84, R108). -/
def arriveReg (st : Stream) (d : Reg) (shadow : Bool) (v : Word) (poison : Bool) (m : Member) : Member :=
  if d == 0 then m
  else if shadow then
    { m with events := { m.events with
      shadow := vput (k := 3) m.events.shadow (BitVec.ofNat 3 d.toNat) v,
      shadowPoison := setBit m.events.shadowPoison (d.toNat - 24) poison,
      shadowAwait := setBit m.events.shadowAwait (d.toNat - 24) false } }
  else memberSetCtx m st { memberCtx m st with
    regs := vput (k := 5) (memberCtx m st).regs d v,
    poison := setBit (memberCtx m st).poison d.toNat poison,
    await := setBit (memberCtx m st).await d.toNat false }

/-- A value arrives for a register of a member, on its core or in its saved section. -/
def deliverReg (w : Who) (d : Reg) (shadow : Bool) (v : Word) (poison : Bool) (s : State) : State :=
  modMember w.launch w.member (arriveReg w.stream d shadow v poison) s

/-- The core in focus for the issuer of a message, so that its quad's combiner is seen. -/
def viewOf (w : Who) (s : State) : State :=
  match findCore (fun c => runs c w.launch w.member) s with
  | some c => { s with me := c }
  | none => match (findLaunch w.launch s).bind fun l => (l.saved.find? fun v => v.member == w.member).map fun v => savedCore l v s with
    | some c => { s with me := c }
    | none => s

/-- What a load reads at its home, or in its quad's combiner: value, poison, and the conditions of a DET read. -/
def replyOf (w : Who) (leaf : BitVec 64) (key n : Nat) (s : State) : List Byte × Bool × Conds := readSpot (viewOf w s) (.mem leaf key, n)

/-- A load's data returns (R256); poisoned data marks the register (R84). An outstanding read lets its instruction go on. -/
def execLoadReply (s : State) : Host.Outcome State Fault Refusal :=
  .next (match takeMsg .loadReply s with
    | none => s
    | some (m, t) => match m.body with
      | .load d shadow leaf key n sg =>
        let r := replyOf m.who leaf key n t
        let u := deliverReg m.who d shadow (extend sg n (bytesToNat r.1)) r.2.1 t
        if r.2.2 == 0 then u else atWho m.who (raiseAtomAt m.who.stream r.2.2 key n m.pos m.scope m.age) u
      | .fetch _ _ => t
      | _ => s)

/-- The oldest travelling write is applied at its home (R256). -/
def execHomeAppliesWrite (s : State) : Host.Outcome State Fault Refusal :=
  .next (match takeMsg .homeAppliesWrite s with
    | none => s
    | some (m, t) => match m.body with
      | .write key data poison => homeWrite key data poison t
      | .detWrite leaf key v => (match detStore (leafDetw leaf) v with
        | .ok d => detPut key d t
        | .error _ => t)
      | .collWrite id rank word v => { t with agenda := t.agenda ++ [.collContribution id rank word v] }
      | .copyWrite l n off data poison => updCore (fun c => runs c l n) (spadWrite off data poison) t
      | .hostWrite a data => { t with hostMem := storeWrite t.hostMem a data }
      | _ => s)

/-- A quad combiner forwards its oldest write (R256). -/
def execCombinerForward (pkg die quad : Nat) (s : State) : Host.Outcome State Fault Refusal :=
  .next (match s.combiners.find? (isCombiner pkg die quad) with
    | none => s
    | some c => match c.writes with
      | [] => s
      | w :: rest => forwardWrite pkg die w
          { s with combiners := s.combiners.map fun d => if isCombiner pkg die quad d then { d with writes := rest } else d })

end Sys2Proof.Machine
end

