-- ==== Sys2Proof/Machine/Control.lean ====
section
/-! DEFINITION. Control and status registers, `trap`, stream control and events (R97 to R109). -/
namespace Sys2Proof.Machine

/-! ### What a stream has outstanding (R101, R104, R176, R231) -/

/-- A transfer of a stream that has not ended (R101, R104). -/
def transfers (w : Who) (m : Msg) : Bool :=
  m.who == w && (m.ord.isSome || match m.body with
    | .copyWrite _ _ _ _ _ | .hostWrite _ _ | .bobbin _ _ _ _ => true
    | .load _ _ _ _ _ _ | .fetch _ _ | .write _ _ _ | .detWrite _ _ _ | .collWrite _ _ _ _ | .atomic _ _ _ _ _ _ | .atomicReply _ _ _
    | .boardPost _ _ _ _ _ | .boardLook _ _ _ | .boardRead _ _ _ _ | .boardRound _ _ _ | .boardReply _ _ _ | .arrival _ | .release _ _ | .fill _ _ _ _ | .collFill _ _ _ _ _ _ _
    | .credit _ _ _ _ | .collCredit _ _ _ | .mcredit _ _ _ | .token | .bind _ _ _ _ _ _ => false)

/-- Nothing that a stream issued before an age is on its way. -/
def noneMoving (st : Stream) (age : Nat) (s : State) : Bool := s.inFlight.all fun m => !(transfers (mine st s) m && m.age < age)

/-- A stream's queue holds no unperformed entry. -/
def queueQuiet (st : Stream) (s : State) : Bool := queueEmpty st s.me.m && noneMoving st s.me.m.age s

/-! ### Seeds and generators (R28, R29) -/

def seedOf (seed : Word) (member c : Nat) : Word :=
  let g := seed ^^^ BitVec.ofNat 64 (member * 256) ^^^ BitVec.ofNat 64 c
  if g = 0 then 0x9E3779B97F4A7C15#64 else g

def seedAll (seed : Word) (member : Nat) (m : Member) : Member :=
  { m with gens := Vector.ofFn fun c : Fin 3 => seedOf seed member c.val }

def xorshift (g : Word) : Word :=
  let g := g ^^^ (g <<< 13)
  let g := g ^^^ (g >>> 7)
  g ^^^ (g <<< 17)

/-! ### CSRs (R97, R98) -/

/-- The `coreid` of a core (R6): its package's ID, as Sahfin set it at the pod join (R378). -/
def coreid (c : Core) (s : State) : Nat :=
  let pos := match c.spare with
    | some k => 6 * 4 + k
    | none => c.quad * 4 + c.idx
  field (match findPkg c.pkg s with | some p => p.id | none => 0) 7 + field c.die 5 + pos

def launchdims (p : BitVec 1024) : Nat :=
  packetMembers p + field (packetDies p) 16 + field (packetQuads p) 20 + field (packetPkgs p - 1) 23

/-- The value of a CSR; none for a number that is not listed. -/
def csrValue (n : Nat) (s : State) : Option Word :=
  let c := s.me.m.csrs
  match n with
  | 0x000 => some (BitVec.ofNat 64 s.me.cur.member)
  | 0x001 => some (BitVec.ofNat 64 (coreid s.me s))
  | 0x002 => some (BitVec.ofNat 64 (launchdims (packet s)))
  | 0x003 => some (c.vstatus.setWidth 64)
  | 0x004 => some (c.atomflags.setWidth 64)
  | 0x005 => some (c.retmode.setWidth 64)
  | 0x006 => some c.srseed
  | 0x007 => some (c.profile.setWidth 64)
  | 0x008 => some c.evcause
  | 0x009 => some (c.evpc.setWidth 64)
  | 0x00A => some (BitVec.ofNat 64 (boundPs s))
  | 0x00B => some c.evdl
  | _ => none

def csrWritable (n : Nat) : Bool := n == 3 || n == 4 || n == 5 || n == 6 || n == 7 || n == 9 || n == 0xB
/-- The width of a CSR's writable field. -/
def csrWidth (n : Nat) : Nat :=
  match n with
  | 3 => 5 | 4 => 4 | 5 => 1 | 7 => 4 | 9 => 24 | _ => 64

/-- A read or write of flags reflects the stream's own older commands (R98). -/
def csrOrdered (n : Nat) (s : State) : Eff Unit := if n == 3 || n == 4 then waitUntil (queueQuiet s.cur s) else .ok ()

/-- No stochastically rounded command of the queues has yet to draw its word (R98). -/
def drawsDone (m : Member) : Bool :=
  (m.iq.all fun e => !e.draws) && m.mq.all fun e => match e with
    | .drain d => d.taken || d.rmode != .sr
    | .nest _ => true

/-- No value-returning atomic of the member is outstanding (R98). -/
def returnsArrived (m : Member) : Bool := (m.returns.all fun e => e.2.isSome) && m.streams.toList.all fun c => !c.replyDue

/-- The effect of a CSR write with its side effects (R98). -/
def csrStore (n : Nat) (v : Word) (s : State) : Eff State := do
  need (v.toNat < 2 ^ csrWidth n) .reservedField
  csrOrdered n s
  let set := fun (f : Csrs → Csrs) => modM (fun m => { m with csrs := f m.csrs }) s
  match n with
  | 3 => .ok (set fun c => { c with vstatus := v.setWidth 5 })
  | 4 => .ok (set fun c => { c with atomflags := v.setWidth 4 })
  | 5 => do
      waitUntil (returnsArrived s.me.m)
      .ok (set fun c => { c with retmode := v.setWidth 1 })
  | 6 => do
      waitUntil (drawsDone s.me.m)
      .ok (modM (seedAll v s.me.cur.member) (set fun c => { c with srseed := v }))
  | 7 => .ok (set fun c => { c with profile := v.setWidth 4 })
  | 9 => .ok (set fun c => { c with evpc := v.setWidth 24 })
  | _ =>
      if v.toNat ≤ timeNs s then .ok (raiseEvent .deadline 0 (set fun c => { c with evdl := 0xFFFFFFFFFFFFFFFF#64 }))
      else .ok (set fun c => { c with evdl := v })

def csrRead (n : Nat) (s : State) : Eff Word := do
  match csrValue n s with
  | some v => do
      csrOrdered n s
      .ok v
  | none => fail .reservedField

/-- `csrw` to CSR n. -/
def csrWrite (a : Reg) (n : Nat) (s : State) : Eff State := do
  need (csrWritable n) .reservedField
  let v ← rd s a
  let s' ← csrStore n v s
  .ok (retire 1 s')

/-- `csrr` (R98). -/
def execCsrr (d : Reg) (n : BitVec 12) (s : State) : Host.Outcome State Fault Refusal :=
  run s (do
    let v ← csrRead n.toNat s
    .ok (retire 1 (wr d v s)))
/-- `csrw` (R98). -/
def execCsrw (a : Reg) (n : BitVec 12) (s : State) : Host.Outcome State Fault Refusal := run s (csrWrite a n.toNat s)
/-- `csrw` to `srseed`: every converter is seeded anew (R29, R98). -/
def execSrseedWrite (a : Reg) (s : State) : Host.Outcome State Fault Refusal := run s (csrWrite a 6 s)
/-- `csrw` to `retmode` (R98). -/
def execRetmodeWrite (a : Reg) (s : State) : Host.Outcome State Fault Refusal := run s (csrWrite a 5 s)
/-- `csrx` (R98): d takes the old value in the same step. -/
def execCsrx (d a : Reg) (n : BitVec 12) (s : State) : Host.Outcome State Fault Refusal :=
  run s (do
    need (csrWritable n.toNat) .reservedField
    let v ← rd s a
    let old ← csrRead n.toNat s
    let s' ← csrStore n.toNat v s
    .ok (retire 1 (wr d old s')))

/-- `trap` (R99): the fault is precise, and a resume goes on at the next instruction (R370). -/
def execTrap (code : BitVec 14) (s : State) : Host.Outcome State Fault Refusal :=
  .next (takeFault s.cur (ctx s).pc 0 { cause := .trap, detail := code.toNat } (modCtx (sequenced 1) s))

/-! ### Streams (R100 to R104) -/

def idleStream (m : Member) (st : Stream) : Bool := (memberCtx m st).state == .idle

/-- The forked stream's context (R100): s1 and s2 written, the loop stack empty, the target line entered. -/
def forked (x y : Word) (target : CodePos) (l : Vector Word32 16) (c : StreamCtx) : StreamCtx :=
  enterLine target l { c with
    regs := vput (k := 5) (vput (k := 5) c.regs 1 x) 2 y,
    poison := setBit (setBit c.poison 1 false) 2 false,
    loops := [] }

/-- The forked stream's accesses follow those of S that are on their way (R263). -/
def afterFork (s : State) (c : StreamCtx) : StreamCtx := if pendingOf .s s then followAll .s s.me.m.age c else c

/-- `fork` (R100). A poisoned operand is found before a bad target: log 37, DESIGN CHOICE. -/
def execFork (stream : Stream) (a b : Reg) (target : CodePos) (s : State) : Host.Outcome State Fault Refusal :=
  run s (do
    need (stream != .s) .reservedField
    let x ← rd s a
    let y ← rd s b
    let l ← fetchLine stream target s
    waitUntil (idleStream s.me.m stream)
    .ok (retire 2 (modM (fun m => memberSetCtx m stream (afterFork s (forked x y target l (memberCtx m stream))))
      (dropAwaited stream 1 (dropAwaited stream 2 s)))))

/-- `join` (R101). Log 32, DEDUCED. -/
def execJoin (m v c : Bool) (s : State) : Host.Outcome State Fault Refusal :=
  run s (do
    need (m || v || c) .reservedField
    let done := fun st => idleStream s.me.m st && queueQuiet st s
    waitUntil ((!m || done .m) && (!v || done .v) && (!c || done .c))
    .ok (retire 1 s))

/-- Every member of a launch has ended. -/
def allEnded (n : Nat) (p : BitVec 1024) (s : State) : Bool :=
  ((allCores s).filter fun c => c.cur.state == .active && c.cur.launch == n && c.m.ended).length == packetMembers p

/-- The last member's end ends the launch and releases its pod boards; its cores follow (R102, R298). -/
def endLaunchIfDone (s : State) : State :=
  match myLaunch s with
  | some l =>
    if allEnded l.number l.packet s then
      dropPodBoards l (modMyLaunch (fun l => { l with phase := .ended }) { s with hostLog := s.hostLog ++ [.ended l.number] })
    else s
  | none => s

/-- `exit` (R102, R228): M, V and C become idle; S waits for them and their queues, and the member ends. -/
def execExit (s : State) : Host.Outcome State Fault Refusal :=
  run s (match s.cur with
    | .s => do
        waitUntil ([Stream.m, .v, .c].all fun st => idleStream s.me.m st && queueQuiet st s)
        .ok (stepStop (ctx s).pc
          (endLaunchIfDone (modM (fun m => { m with ended := true }) (modCtx (fun c => { c with state := .idle }) s))))
    | .m | .v | .c => .ok (stepStop (ctx s).pc (modCtx (fun c => { (sequenced 1 c) with state := .idle }) s)))

/-- `yield` (R103). -/
def execYield (s : State) : Host.Outcome State Fault Refusal := run s (.ok (retire 1 s))

/-- Everything issued before a mark to a queue it names has been performed (R104). -/
def markDone (k : QMark) (s : State) : Bool :=
  !markOpen k s && [Stream.s, .m, .v, .c].all fun st => !flag k.queues (3 - st.code) || noneMoving st k.age s

/-- The accesses before a mark, in the queues it names, join the stream's covered set (R176). -/
def carry (k : QMark) (c : StreamCtx) : StreamCtx :=
  { c with carried := Vector.ofFn fun i : Fin 4 => if flag k.queues (3 - i.val) then k.age else c.carried[i] }

/-- `qfence` (R104): its marks stand from its first issue. -/
def execQfence (queues : BitVec 4) (s : State) : Host.Outcome State Fault Refusal :=
  run s (do
    need (queues != 0) .reservedField
    let k := match (ctx s).mark with
      | some k => k
      | none => ⟨queues, s.me.m.age⟩
    .ok (if markDone k s then retire 1 (modCtx (carry k) s) else stall (modCtx (fun c => { c with mark := some k }) s)))

/-! ### Events (R105 to R109) -/

/-- `catch` (R105): position 0 removes the handler, any other is checked as an S target, in full (log 37, DESIGN CHOICE). -/
def execCatchEv (cls : EvClass) (handler : CodePos) (s : State) : Host.Outcome State Fault Refusal :=
  run s (do
    let _ ← (if handler == 0 then .ok (ctx s).line else fetchLine .s handler s)
    .ok (retire 2 (modM (fun m => { m with events := { m.events with
      handlers := vput (k := 2) m.events.handlers (classIdx cls) handler } }) s)))

/-- `evret` (R109). -/
def execEvret (s : State) : Host.Outcome State Fault Refusal := run s (returnFromEvent s)

/-- `evmask` (R106). -/
def execEvmask (d : Reg) (mask : BitVec 4) (s : State) : Host.Outcome State Fault Refusal :=
  run s (.ok (retire 1 (modM (fun m => { m with events := { m.events with mask := mask } })
    (wr d (s.me.m.events.mask.setWidth 64) s))))

/-- The events of a class leave its queue without a delivery (R107). -/
def discardEvents (n : Nat) (cls : EvClass) (m : Member) : Member :=
  { m with events := { m.events with
      queues := vput (k := 2) m.events.queues (classIdx cls) ((vat (k := 2) m.events.queues (classIdx cls)).drop n) } }

/-- The unmasked events that a boundary meets before one with a handler are discarded, class by class from the lowest
(R107). Log 32, DEDUCED. -/
def discardUnhandled : List EvClass → Member → Member
  | [], m => m
  | k :: rest, m =>
    if m.events.mask.getLsbD k.code || (vat (k := 2) m.events.queues (classIdx k)).isEmpty then discardUnhandled rest m
    else if vat (k := 2) m.events.handlers (classIdx k) != 0 then m
    else discardUnhandled rest (discardEvents 16 k m)

/-- The pending event of lowest class is delivered to S; one that nothing handles is discarded, an uncaught tier miss
faults (R107, R108). The event stop of the debug record is taken before the handler's first instruction (R376). -/
def execEventDelivery (s : State) : Host.Outcome State Fault Refusal :=
  let m := if pendingClass s.me.m == some .tier then s.me.m else discardUnhandled [.notify, .sealed, .deadline] s.me.m
  let t := { s with cur := .s, me := { s.me with m := m } }
  .next (if !mayTake s then s
  else match pendingClass m with
    | none => { t with cur := s.cur }
    | some cls =>
        let h := vat (k := 2) s.me.m.events.handlers (classIdx cls)
        if h == 0 then takeFault .s (ctx t).pc 0 { cause := .tierMissUncaught } (modM (discardEvents 1 cls) t)
        else match vat (k := 2) s.me.m.events.queues (classIdx cls) with
          | [] => s
          | detail :: _ =>
            let u := modM (takeEvent cls detail h) t
            if stopMask (1 + cls.code) t then takeFault .s h 0 { cause := .evbreak (BitVec.ofNat 2 cls.code) } u else u)

/-- Reed time reaches an armed deadline (R98, R281). -/
def execEvdlDeadline (s : State) : Host.Outcome State Fault Refusal :=
  .next (if evdlArmed s.me.m && s.me.m.csrs.evdl.toNat ≤ timeNs s then
    raiseEvent .deadline 0 (modM (fun m => { m with csrs := { m.csrs with evdl := 0xFFFFFFFFFFFFFFFF#64 } }) s)
  else s)

end Sys2Proof.Machine
end

