-- ==== Sys2Proof/Machine/Operands.lean ====
section
/-! DEFINITION. Operand forms: the register files behind their reservations (R110, R293), the checks of tile operands
(R18, R112 to R116), stochastic words (R30), capabilities (R349, R350) and references to other members. -/
namespace Sys2Proof.Machine

/-! ### Register files (R110, R293) -/

def hasTile (t : Reg) (s : State) : Bool := t.toNat < resTiles s
def hasFreg (f : FIdx) (s : State) : Bool := f.toNat < resFregs s
def hasRegion (a : AIdx) (s : State) : Bool := a.toNat < resRegions s

def tileOf (s : State) (t : Reg) : Tile := vat (k := 5) s.me.m.tiles t
def putTile (t : Reg) (x : Tile) (s : State) : State := modM (fun m => { m with tiles := vput (k := 5) m.tiles t x }) s
def fregOf (m : Member) (f : FIdx) : FReg := vat (k := 4) m.fregs f
def putFreg (f : FIdx) (x : FReg) (s : State) : State := modM (fun m => { m with fregs := vput (k := 4) m.fregs f x }) s
def fregAt (m : Member) (f : FIdx) (n : Nat) : Word32 := vat (k := 8) (fregOf m f).vals (BitVec.ofNat 8 n)

/-- Predicate p: p0 reads all ones (R110). -/
def predOf (s : State) (p : PIdx) : BitVec 4096 := if p == 0 then BitVec.allOnes 4096 else vat (k := 3) s.me.m.preds p
def putPred (p : PIdx) (x : BitVec 4096) (s : State) : State :=
  if p == 0 then s else modM (fun m => { m with preds := vput (k := 3) m.preds p x }) s

/-- Elements 0 to len − 1 of a factor register written (R135). -/
def fregWith (x : FReg) (vs : List Word32) (poison : Bool) : FReg :=
  ⟨Vector.ofFn fun i : Fin 256 => nth vs i.val (vat (k := 8) x.vals (BitVec.ofNat 8 i.val)), poison⟩

/-! ### The checks of tile operands (R18, R115, R116) -/

def needTags (ts : List Tile) (accept : Tag → Bool) : Eff Unit := do
  need (ts.all fun t => t.tag != .empty) .tagEmpty
  need (ts.all fun t => accept t.tag) .tagMismatch

def arithTag (t : Tag) : Bool := isFloatTag t || isIntTag t

/-- Sibling operands carry equal tags, or under `tagany` any floating ones (R18, R114). -/
def needEqualTags (any : Bool) (ts : List Tile) : Eff Unit :=
  match ts with
  | [] => .ok ()
  | x :: rest => need (rest.all fun t => t.tag == x.tag || (any && isFloatTag t.tag && isFloatTag x.tag)) .tagMismatch

def needEqualShapes (ts : List Tile) : Eff Unit :=
  match ts with
  | [] => .ok ()
  | x :: rest => need (rest.all fun t => t.rows == x.rows && t.cols == x.cols) .shapeMismatch

def needUnpoisoned (ts : List Tile) : Eff Unit := need (ts.all fun t => !t.poison) .poisonConsumed
def needFreg (m : Member) (f : FIdx) : Eff Unit := need (!(fregOf m f).poison) .poisonConsumed

/-- A V-queue instruction: registers beyond the reservation are found at decode, the rest by the queue (R293, R368). -/
def runV (s : State) (ok : Bool) (q : Queued) (e : Eff State) : Host.Outcome State Fault Refusal :=
  if ok then runIn q s e else run s (fail .reservedField)

/-! ### Stochastic words (R28, R30) -/

/-- One draw of a generator: 0 vector, 1 matrix drain, 2 shuttle. -/
def drawFrom (c : Fin 3) (m : Member) : Word × Member :=
  let g := xorshift m.gens[c]
  (g, { m with gens := m.gens.set c g })

/-- The word of an instruction: drawn under SR alone. -/
def drawWord (c : Fin 3) (mode : RMode) (s : State) : Word × State :=
  if mode == .sr then
    let r := drawFrom c s.me.m
    (r.1, modM (fun _ => r.2) s)
  else (0, s)

/-- u_L (R30). -/
def srBits (w : Word) (l : Nat) : Nat := (w.rotateRight (l % 64)).toNat % 2 ^ 32

/-! ### Members elsewhere -/

/-- The package and die of a member, by its quad (R296). -/
def memberHome (launch member : Nat) (s : State) : Option (Nat × Nat) :=
  (findLaunch launch s).bind fun l => (l.place[member / 4]?).map fun p => (p.1, p.2.1)

/-- The links from the core in focus to a member. -/
def memberRoute (launch member : Nat) (s : State) : List LinkId :=
  match memberHome launch member s with
  | some (p, d) => routeTo s.me.pkg s.me.die p (some d) s
  | none => []

/-- The narrowest scope whose instance of the caller holds a die (R255). -/
def dieScope (pkg die : Nat) (s : State) : Scope :=
  if pkg != s.me.pkg then .pod else if die == s.me.die then .die else .pkg

def memberScope (launch member : Nat) (s : State) : Scope :=
  match memberHome launch member s with
  | some (p, d) => dieScope p d s
  | none => .sys

def memberOf (launch member : Nat) (s : State) : Option Member :=
  match findCore (fun c => runs c launch member) s with
  | some c => some c.m
  | none => (findLaunch launch s).bind fun l => (l.saved.find? fun v => v.member == member).map (·.m)

/-- An effect taken where it is due, its faults taken there too. -/
def settle (e : State → Eff State) (s : State) : State :=
  match e s with
  | .ok t => t
  | .error (.fault t) => takeFault s.cur (ctx s).pc 0 t s
  | .error .wait => s
  | .error (.reading _ _ _ _ _) => s
  | .error (.hole _) => s

/-- The instruction at pc waits for a reply that a message brings. -/
def awaitReply (s : State) : State := stall (modCtx (fun c => { c with replyDue := true }) s)

/-! ### Capabilities (R349, R350) -/

/-- The fields that a kind does not use, and the reserved bits, are zero (R349, R350). -/
def capFieldsOk (e : BitVec 256) : Bool :=
  let z := fun hi lo => bits e hi lo == 0
  z 95 64 && z 38 8 &&
  (match capKind e with
    | 1 => z 255 192 && z 57 51 && z 44 39
    | 2 => z 111 96 && z 57 39
    | 3 => z 127 96 && z 63 39
    | 4 => z 255 160 && z 111 96 && z 44 39
    | 5 => z 191 160 && z 127 96 && z 63 45
    | _ => false)

/-- The live launch of a context (R350). -/
def launchOfCtx (c : Nat) (s : State) : Option Launch :=
  s.launches.find? fun l => packetField l.packet 0x14 2 == c && l.phase != .ended && l.phase != .waiting

/-- A package that messages can reach: the caller's own, or another of its pod. -/
def inPodWith (pkg : Nat) (s : State) : Bool :=
  let up := fun n => (findPkg n s).any fun p => p.inPod && p.stage == .serving
  pkg == s.me.pkg || (up pkg && up s.me.pkg)

/-- The entry behind an index, or CAP_INVALID (R350). -/
def capEntry (i : BitVec 6) (s : State) : Eff (BitVec 256) :=
  match (myLaunch s).bind fun l => l.caps[i.toNat]? with
  | none => fail .capInvalid
  | some c => do
    need (i.toNat < resCaps s && !c.revoked && capFieldsOk c.entry) .capInvalid
    need (capKind c.entry == 3 || capKind c.entry == 5 || inPodWith (capPkg c.entry) s) .capInvalid
    need (capKind c.entry == 3 || capKind c.entry == 5 || (launchOfCtx (capCtx c.entry) s).isSome) .capInvalid
    .ok c.entry

def modCap (i : BitVec 6) (f : Cap → Cap) (s : State) : State :=
  modMyLaunch (fun l => { l with caps := match l.caps[i.toNat]? with | some c => setNth l.caps i.toNat (f c) | none => l.caps }) s

def withAllowance (e : BitVec 256) (n : Nat) : BitVec 256 := BitVec.ofNat 256 (e.toNat - field (capAllowance e) 128 + field n 128)

/-- One unit of allowance consumed, or CAP_ALLOWANCE (R350). -/
def consumeCap (i : BitVec 6) (s : State) : Eff State := do
  let e ← capEntry i s
  need (capAllowance e != 0) .capAllowance
  .ok (if capAllowance e == 0xFFFFFFFF then s
    else modCap i (fun c => { c with entry := withAllowance c.entry (capAllowance e - 1) }) s)

def capRevoked (i : BitVec 6) (s : State) : Bool :=
  match myLaunch s with
  | some l => (match l.caps[i.toNat]? with | some c => c.revoked | none => false)
  | none => false

/-- What has become of the launch at the far end of an endpoint of kind k, if anything (R377). -/
def peerTrouble (k : BitVec 2) (pkg : Nat) (launch : Option Nat) (cap : Option (BitVec 6)) (s : State) : Option Cause :=
  if (match cap with | some i => capRevoked i s | none => false) then some (.peer k 3)
  else if !inPodWith pkg s then some (.peer k 2)
  else match launch with
    | none => none
    | some n => match findLaunch n s with
      | none => some (.peer k 1)
      | some l => match l.phase, l.cause with
        | .ended, _ => some (.peer k 1)
        | .waiting, _ => none
        | .running, _ => none
        | _, none => none
        | _, some .budgetOverrun => none
        | _, some .hostHalt => none
        | _, some _ => some (.peer k 0)

/-- A wait toward a peer: it holds, goes on waiting, or meets the peer's end. -/
def waitPeer (ok : Bool) (trouble : Option Cause) : Eff Unit :=
  if ok then .ok () else match trouble with
    | some c => fail c
    | none => hold

end Sys2Proof.Machine
end

