-- ==== Sys2Proof/Machine/Sync.lean ====
section
/-! DEFINITION. Fences, rings, buffer handles and barriers (R176 to R187, R239) with the messages they send (R182,
R186, R266). -/
namespace Sys2Proof.Machine

/-! ### The covered set (R176 to R178, R266, R374) -/

/-- The issue age below which a stream's accesses lie in the current stream's covered set: its own all do, those of
another queue up to the mark of the last `qfence` that named it (R176). -/
def coveredAge (s : State) (st : Stream) : Nat := if st == s.cur then s.me.m.age else vat (k := 2) (ctx s).carried (streamIdx st)

def coveredMsg (s : State) (m : Msg) : Bool :=
  m.who.launch == s.me.cur.launch && m.who.member == s.me.cur.member && m.age < coveredAge s m.who.stream

/-- What an acquire waits for. -/
def isReadBody : Body → Bool
  | .load _ _ _ _ _ _ | .atomic _ _ _ _ _ _ | .atomicReply _ _ _ => true
  | .fetch _ _ | .write _ _ _ | .detWrite _ _ _ | .collWrite _ _ _ _ | .copyWrite _ _ _ _ _ | .hostWrite _ _ | .boardPost _ _ _ _ _
  | .boardLook _ _ _ | .boardRead _ _ _ _ | .boardRound _ _ _ | .boardReply _ _ _ | .arrival _ | .release _ _ | .fill _ _ _ _ | .collFill _ _ _ _ _ _ _ | .credit _ _ _ _
  | .collCredit _ _ _ | .mcredit _ _ _ | .token | .bobbin _ _ _ _ | .bind _ _ _ _ _ _ => false

/-- A write of some core of the quad is on its way. -/
def quadWriteFlying (s : State) : Bool :=
  s.inFlight.any fun m => isWriteBody m.body && (allCores s).any fun c =>
    runs c m.who.launch m.who.member && c.pkg == s.me.pkg && c.die == s.me.die && c.quad == s.me.quad

def wide (sc : Scope) : Bool := 2 ≤ sc.code

/-- A write that is not performed at the scope: what a combiner has forwarded is performed at `quad` already (R256). -/
def writeOpen (sc : Scope) (m : Msg) : Bool :=
  isWriteBody m.body && (wide sc || m.ord.isSome || match m.body with
    | .copyWrite _ _ _ _ _ | .hostWrite _ _ => true
    | .load _ _ _ _ _ _ | .fetch _ _ | .write _ _ _ | .detWrite _ _ _ | .collWrite _ _ _ _ | .atomic _ _ _ _ _ _ | .atomicReply _ _ _
    | .boardPost _ _ _ _ _ | .boardLook _ _ _ | .boardRead _ _ _ _ | .boardRound _ _ _ | .boardReply _ _ _ | .arrival _ | .release _ _
    | .fill _ _ _ _ | .collFill _ _ _ _ _ _ _ | .credit _ _ _ _ | .collCredit _ _ _ | .mcredit _ _ _ | .token | .bobbin _ _ _ _ | .bind _ _ _ _ _ _ => false)

/-- How far a synchronising instruction's covered set has come. -/
inductive Cover where
  | done (s : State)
  | waiting (s : State)
  | lost (t : Trouble) (s : State)

/-- A loss of a stream in the covered set whose home the scope's instance holds (R178, R374). -/
def lossCovered (sc : Scope) (s : State) (st : Stream) (l : Loss) : Bool := l.scope.code ≤ sc.code && l.age < coveredAge s st

def coveredLosses (sc : Scope) (s : State) : List Loss :=
  [Stream.s, .m, .v, .c].flatMap fun st => (vat (k := 2) s.me.m.losses (streamIdx st)).filter (lossCovered sc s st)

/-- The covered losses of a cause have been reported. -/
def clearLosses (sc : Scope) (c : Cause) (s : State) : State :=
  [Stream.s, .m, .v, .c].foldl (fun t st => modM (fun m => { m with
    losses := vput (k := 2) m.losses (streamIdx st)
      ((vat (k := 2) m.losses (streamIdx st)).filter fun l => !(l.cause == c && lossCovered sc s st l)) }) t) s

/-- The cause that a fence reports first: that of the lost writes, where one is covered (R178, R374). -/
def lossCause (ls : List Loss) (l : Loss) : Cause := if ls.any fun x => x.cause == .remoteStoreLost then .remoteStoreLost else l.cause

/-- The wait is over: the covered losses of one cause are reported, or the instruction goes on; those of other causes wait for
the next covering fence (R178, R374). -/
def reportLosses (sc : Scope) (s : State) : Cover :=
  match coveredLosses sc s with
  | [] => .done s
  | l :: rest =>
    let c := lossCause (l :: rest) l
    let ls := (l :: rest).filter fun x => x.cause == c
    .lost { cause := c, addr := BitVec.ofNat 64 ((ls.head?.getD l).addr), lost := ls } (clearLosses sc c s)

def homeOfCode (h : Nat) : Nat × Option Nat := (h / 8, if h % 8 == 4 then none else some (h % 8))

/-- The release tokens of a release at `die` or wider: homes behind a held route get a message, the others
acknowledge at once (R177, R266). -/
def sendTokens (s : State) : Bool × State :=
  let busy := (ctx s).written.filter fun h =>
    !routeFree .tc0 (routeTo s.me.pkg s.me.die (homeOfCode h).1 (homeOfCode h).2 s) s
  let t := modCtx (fun c => { c with written := [] }) s
  if busy.isEmpty then (true, t)
  else (false, awaitReply (busy.foldl (fun u h =>
    sendMsg (routeTo s.me.pkg s.me.die (homeOfCode h).1 (homeOfCode h).2 s)
      (match (homeOfCode h).2 with
        | some d => dieScope (homeOfCode h).1 d s
        | none => .sys) .token u) t))

/-- The covered set at a scope: `acq` waits for its reads, a release for its writes; a release at `die` or wider
drains the quad's combiner and sends its tokens (R177, R192, R265). -/
def coverStep (reads writes : Bool) (sc : Scope) (s : State) : Cover :=
  if !queueDone s || behindMark s then .waiting s
  else if s.inFlight.any fun m => coveredMsg s m && ((reads && isReadBody m.body) || (writes && writeOpen sc m)) then .waiting s
  else if writes && wide sc then
    let t := drainMine s
    if quadWriteFlying t then .waiting t
    else
      let r := sendTokens t
      if r.1 then reportLosses sc r.2 else .waiting r.2
  else reportLosses sc s

/-- k once the covered set is performed at the scope. -/
def whenCovered (reads writes : Bool) (sc : Scope) (k : State → Eff State) (s : State) : Eff State :=
  match coverStep reads writes sc s with
  | .done t => k t
  | .waiting t => .ok (stall t)
  | .lost f t => .ok (takeFault t.cur (ctx t).pc 0 f t)

/-- The whole covered set, as every releasing instruction but `fence` waits for it. -/
def whenReleased (sc : Scope) (k : State → Eff State) (s : State) : Eff State := whenCovered true true sc k s

/-- `fence` (R177, R178). -/
def execFence (kind : FenceKind) (scope : Scope) (s : State) : Host.Outcome State Fault Refusal :=
  run s (match kind with
    | .acq => whenCovered true false scope (fun t => .ok (retire 1 (ordered t))) s
    | .rel => whenCovered false true scope (fun t => .ok (retire 1 t)) s
    | .full => whenCovered true true scope (fun t => .ok (retire 1 t)) s)

/-- A die acknowledges the oldest release token; the release goes on when its last token is back (R266). -/
def execReleaseTokenAck (s : State) : Host.Outcome State Fault Refusal :=
  .next (match takeMsg .releaseTokenAck s with
    | none => s
    | some (m, t) =>
      let left := t.inFlight.any fun x => x.who == m.who && x.body == .token
      if left then t else atWho m.who (modCtx fun c => { c with replyDue := false }) t)

/-! ### Rings (R179 to R183, R239) -/

def ringOf (m : Member) (k : KIdx) : Ring := vat (k := 4) m.rings k
def setRing (k : KIdx) (r : Ring) (m : Member) : Member := { m with rings := vput (k := 4) m.rings k r }
def modRing (k : KIdx) (f : Ring → Ring) (m : Member) : Member := setRing k (f (ringOf m k)) m

def ringSet (r : Ring) : Bool := r.cfg != 0
def ringRemote (r : Ring) : Bool := flag r.cfg 47
def ringCap (r : Ring) : BitVec 6 := BitVec.ofNat 6 (bits r.cfg 46 41)
def ringCount (r : Ring) : Nat := bits r.cfg 39 32 + 1
def ringBytes (r : Ring) : Nat := bits r.cfg 20 0
/-- A local ring bound to a proxy. -/
def ringBound (r : Ring) : Bool := ringSet r && !ringRemote r && r.bound.isSome
/-- Slot n's address (R181). -/
def slotAddr (r : Ring) (n : Nat) : Word := BitVec.ofNat 64 ((if ringRemote r then 0 else r.base.toNat) + n * ringBytes r)
/-- `core` for a ring with no proxy bound, `sys` otherwise (R181). -/
def ringScope (r : Ring) : Scope := if ringRemote r || r.bound.isSome then .sys else .core
def slotState (r : Ring) (n : Nat) : SlotState := nth r.slots n .free
def slotCount (r : Ring) (x : SlotState) : Nat := (r.slots.filter (· == x)).length
def allFree (r : Ring) : Bool := r.slots.all (· == .free)

def setSlot (n : Nat) (x : SlotState) (r : Ring) : Ring := { r with slots := setNth r.slots n x }
/-- The slot at the tail is claimed. -/
def claimSlot (r : Ring) : Ring :=
  { setSlot r.tail .claimed r with tail := (r.tail + 1) % ringCount r, claims := r.claims ++ [r.tail] }
/-- A claimed slot turns FILLED. -/
def fillSlot (n : Nat) (r : Ring) : Ring :=
  { setSlot n .filled r with claims := r.claims.filter (· != n), reserved := r.reserved.filter (· != n) }
def holdSlot (r : Ring) : Ring :=
  { setSlot r.head .held r with head := (r.head + 1) % ringCount r, holds := r.holds ++ [r.head] }
def freeSlot (n : Nat) (r : Ring) : Ring :=
  { setSlot n .free r with holds := r.holds.filter (· != n), mfrom := r.mfrom.filter fun e => e.1 != n }

/-- The claimed slot claimed longest ago that no command has reserved (R181, R206). -/
def oldestClaim (r : Ring) : Option Nat := r.claims.find? fun n => !r.reserved.contains n

/-- The number of the ring is below the reserved count, and it is configured (R181). -/
def needRing (k : KIdx) (s : State) : Eff Ring := do
  need (k.toNat < resRings s) .ringConfig
  need (ringSet (ringOf s.me.m k)) .ringConfig
  .ok (ringOf s.me.m k)

/-- What a wait on a proxy's peer meets (R377). -/
def proxyTrouble (r : Ring) (s : State) : Option Cause :=
  match r.bound with
  | some (.proxy l m _) =>
    peerTrouble 0 (match memberHome l m s with | some (p, _) => p | none => s.me.pkg) (some l) (some (ringCap r)) s
  | some (.coll _ _) => none
  | none => none

/-- A message is applied at once over a free route, or sets out. -/
def sendOr (route : List LinkId) (scope : Scope) (body : Body) (apply : State → State) (s : State) : State :=
  if routeFree (bodyClass body) route s then apply s else sendMsg route scope body s

/-- A slot of a member's ring turns FILLED by a message (R182). -/
def applyFill (launch member : Nat) (k : KIdx) (slot : Nat) (s : State) : State :=
  modMember launch member (modRing k (setSlot slot .filled)) s
/-- A proxy slot turns FREE by a credit (R182). -/
def applyCredit (launch member : Nat) (k : KIdx) (slot : Nat) (s : State) : State :=
  modMember launch member (modRing k (setSlot slot .free)) s
/-- A multicast receiver's counter rises (R215). -/
def applyMcredit (launch cap receiver : Nat) (s : State) : State :=
  modLaunch launch (fun l => { l with caps := match l.caps[cap]? with
    | some c => setNth l.caps cap { c with mcast := match c.mcast[receiver]? with
        | some x => setNth c.mcast receiver (x.1 + 1, x.2)
        | none => c.mcast }
    | none => l.caps }) s

/-- Bytes written to the scratchpad in a saved member's section, where its image holds them too (R307). -/
def savedSpadWrite (l : Launch) (member off : Nat) (data : List Byte) (poison : Bool) (s : State) : State :=
  let put : Saved → Saved := fun v => if v.member == member then
    { v with spad := storeWrite v.spad off data, spadPoison := setMarks v.spadPoison off data.length poison } else v
  let t := modLaunch l.number (fun l => { l with saved := l.saved.map put }) s
  if l.image == 0 then t else homeWrite (memKey (imagePkg l) (sectionAddress l member + spadPart l.packet + off)) data false t

/-- Bytes written to a member's scratchpad where the member stands. -/
def memberSpadWrite (launch member off : Nat) (data : List Byte) (poison : Bool) (s : State) : State :=
  if isBound launch member s then updCore (fun c => runs c launch member) (spadWrite off data poison) s
  else match findLaunch launch s with
    | some l => savedSpadWrite l member off data poison s
    | none => s

/-- The member of a collective's rank: its launch, member and ring (R351, R353). -/
def rankMember (c : Coll) (r : Nat) (s : State) : Option (Nat × Nat × KIdx) :=
  (launchOfCtx (groupCtx (collEntry c r)) s).map fun l => (l.number, groupMember (collEntry c r), groupRing (collEntry c r))

/-- A rank's record has filled slot tail; with the last rank's the collective's next round begins. -/
def collFilled (rank : Nat) (q : Rank) (now : Nat) (c : Coll) : Coll :=
  let q' := { q with
    tail := (q.tail + 1) % q.slots.length, slots := setNth q.slots q.tail .filled, waiting := none, round := q.round + 1 }
  let ranks := setNth c.ranks rank q'
  if ranks.all fun x => c.round < x.round then { c with ranks := ranks, round := c.round + 1, since := now }
  else { c with ranks := ranks }

/-- What the weft processor sends to a rank, told apart from every member's messages: no launch has the number 0. -/
def weftWho (collid rank : Nat) : Who := ⟨0, 1 + 64 * collid + rank, .s⟩

/-- The links between a rank's member and the weft processor. -/
def rankRoute (c : Coll) (r : Nat) (s : State) : List LinkId :=
  match (rankMember c r s).bind fun x => memberHome x.1 x.2.1 s with
  | some h => routeTo h.1 h.2 c.pkg none s
  | none => []
/-- With those between its region and the weft processor. -/
def rankRoutes (c : Coll) (r : Nat) (s : State) : List LinkId :=
  weftRoute (memKey (groupPkg (collEntry c r)) (frameNow (groupPkg (collEntry c r)) (collFrame c r) s)) c s ++ rankRoute c r s

/-- Nothing that the weft processor has sent to a rank is on its way, and the route is free. -/
def weftFree (w : Who) (cls : TClass) (route : List LinkId) (s : State) : Bool :=
  routeFreeFor w cls route s && !s.inFlight.any fun m => m.who == w

/-- The weft processor sends: applied at once, or on its way behind what it has sent to the rank (R282, R347, R357). -/
def weftSend (w : Who) (cls : TClass) (route : List LinkId) (body : Body) (apply : State → State) (s : State) : State :=
  if weftFree w cls route s then apply s
  else { s with inFlight := s.inFlight ++
    [{ who := w, pos := 0, route := route, scope := .sys, age := 0, cls := cls, ord := none, delay := 0, body := body }] }

/-- The record and the fill reach the rank's member; the rank's next round begins with it (R353, R357). -/
def applyCollFill (collid rank l m : Nat) (k : KIdx) (slot : Nat) (rec : List Byte) (s : State) : State :=
  match (findColl collid s).bind fun c => c.ranks[rank]?, memberOf l m s with
  | some q, some x => modColl collid (collFilled rank q (sahfinTime s))
      (applyFill l m k slot (memberSpadWrite l m ((slotAddr (ringOf x k) slot).toNat % 2 ^ 56) rec false s))
  | _, _ => s

/-- A record for the rank is on its way. -/
def fillFlying (w : Who) (s : State) : Bool := s.inFlight.any fun m => m.who == w && match m.body with
  | .collFill _ _ _ _ _ _ _ => true
  | _ => false

/-- The weft processor fills the slot at a rank's proxy tail with its waiting record, once that slot is FREE and the rank's bytes
are performed; a member that is stopped gets it at its resume (R306, R353, R357). -/
def collDeliver (collid rank : Nat) (s : State) : State :=
  match findColl collid s with
  | none => s
  | some c => match c.ranks[rank]?, rankMember c rank s with
    | some q, some (l, m, k) => (match q.waiting with
      | some rec =>
        let body := Body.collFill collid rank l m k q.tail rec
        if !(q.bound && nth q.slots q.tail .held == .free) || fillFlying (weftWho collid rank) s then s
        else if isBound l m s then weftSend (weftWho collid rank) .tc0 (rankRoute c rank s) body (applyCollFill collid rank l m k q.tail rec) s
        else { s with inFlight := s.inFlight ++
          [{ who := weftWho collid rank, pos := 0, route := rankRoute c rank s, scope := .sys, age := 0, cls := .tc0, ord := none, delay := 0, body := body }] }
      | none => s)
    | _, _ => s

def applyCollCredit (collid rank slot : Nat) (s : State) : State :=
  collDeliver collid rank (modColl collid (fun c => { c with ranks := match c.ranks[rank]? with
    | some q => setNth c.ranks rank { q with slots := setNth q.slots slot .free }
    | none => c.ranks }) s)

/-- The credit that an `rfree` of a slot sends (R182, R215, R353). -/
def sendCredit (r : Ring) (n : Nat) (s : State) : State :=
  let s := match r.bound with
    | some (.proxy l m k) => sendOr (memberRoute l m s) (memberScope l m s) (.credit l m k n) (applyCredit l m k n) s
    | some (.coll id rank) =>
      let pkg := match findColl id s with | some c => c.pkg | none => s.me.pkg
      sendOr (routeTo s.me.pkg s.me.die pkg none s) (if pkg == s.me.pkg then .pkg else .pod) (.collCredit id rank n)
        (applyCollCredit id rank n) s
    | none => s
  match r.mfrom.find? fun e => e.1 == n with
  | some (_, l, c, v) => sendOr (memberRoute l 0 s) (memberScope l 0 s) (.mcredit l c v) (applyMcredit l c v) s
  | none => s

/-- The fill message of a proxy slot (R182). -/
def sendFill (r : Ring) (n : Nat) (s : State) : State :=
  match r.bound with
  | some (.proxy l m k) => sendOr (memberRoute l m s) (memberScope l m s) (.fill l m k n) (applyFill l m k n) s
  | some (.coll _ _) => s
  | none => s

/-- `rclaim` (R181). -/
def execRclaim (d : Reg) (k : KIdx) (s : State) : Host.Outcome State Fault Refusal :=
  run s (do
    let r ← needRing k s
    need (!ringBound r) .ringConfig
    waitPeer (slotState r r.tail == .free) (if ringRemote r then proxyTrouble r s else none)
    .ok (retire 1 (wr d (slotAddr r r.tail) (ordered (modM (setRing k (claimSlot r)) s)))))

/-- `rfill` (R181, R182). -/
def execRfill (d : Reg) (k : KIdx) (s : State) : Host.Outcome State Fault Refusal :=
  run s (do
    let r ← needRing k s
    need (!ringBound r) .ringConfig
    match oldestClaim r with
    | none => fail .ringConfig
    | some n => whenReleased (ringScope r) (fun t =>
        .ok (retire 1 (wr d (BitVec.ofNat 64 n) (sendFill r n (modM (modRing k (fillSlot n)) t))))) s)

/-- `rwait` (R181). -/
def execRwait (d : Reg) (k : KIdx) (s : State) : Host.Outcome State Fault Refusal :=
  run s (do
    let r ← needRing k s
    need (!ringRemote r) .ringConfig
    waitUntil (slotState r r.head == .filled)
    .ok (retire 1 (wr d (slotAddr r r.head) (ordered (modM (setRing k (holdSlot r)) s)))))

/-- `rfree` (R181, R182). -/
def execRfree (d : Reg) (k : KIdx) (s : State) : Host.Outcome State Fault Refusal :=
  run s (do
    let r ← needRing k s
    need (!ringRemote r) .ringConfig
    match r.holds with
    | [] => fail .ringConfig
    | n :: _ => whenReleased (ringScope r) (fun t =>
        .ok (retire 1 (wr d (BitVec.ofNat 64 n) (sendCredit r n (modM (modRing k (freeSlot n)) t))))) s)

/-- The status word of a ring (R183). -/
def ringStatus (r : Ring) : Nat :=
  if !ringSet r then 0
  else field 1 63 + field (boolNat (ringRemote r)) 62 + field (boolNat (ringBound r)) 61 +
    field (slotCount r .held) 43 + field (slotCount r .filled) 34 + field (slotCount r .claimed) 25 +
    field (slotCount r .free) 16 + field r.tail 8 + r.head

/-- `rstat` (R183). -/
def execRstat (d : Reg) (k : KIdx) (s : State) : Host.Outcome State Fault Refusal :=
  run s (do
    need (k.toNat < resRings s) .ringConfig
    .ok (retire 1 (wr d (BitVec.ofNat 64 (ringStatus (ringOf s.me.m k))) s)))

/-- The configuration word's own form (R179, R180). -/
def ringCfgOk (cfg : Word) : Bool :=
  bits cfg 63 48 == 0 && bits cfg 40 40 == 0 && bits cfg 31 21 == 0 && (flag cfg 47 || bits cfg 46 41 == 0) &&
  bits cfg 20 0 % 64 == 0 && 64 ≤ bits cfg 20 0 && bits cfg 20 0 ≤ 0x100000

def freshRing (cfg base : Word) (bound : Option RingPeer) : Ring :=
  { cfg := cfg, base := base, head := 0, tail := 0, slots := List.replicate (bits cfg 39 32 + 1) .free, claims := [],
    holds := [], reserved := [], bound := bound, mfrom := [] }

/-- A shuttle command that names the register for a fill is outstanding (R180). -/
def ringNamed (k : KIdx) (m : Member) : Bool := m.cq.any fun c => c.comp.fill && c.comp.ring == k

/-- The refusals of `rset` that come before the kinds part (R180). -/
def rsetChecks (cfg : Word) (k : KIdx) (s : State) : Eff Unit :=
  let r := ringOf s.me.m k
  do
    need (k.toNat < resRings s) .ringConfig
    need (cfg == 0 || ringCfgOk cfg) .ringConfig
    need (allFree r && !ringNamed k s.me.m) .ringConfig
    need (!ringBound r) .ringConfig
    need (!(ringSet r && ringRemote r && cfg != 0)) .ringConfig

/-- The rank of a collective that waits for this register of the member (R353). -/
def waitingRank (k : KIdx) (s : State) : Option (Nat × Nat) :=
  s.colls.findSome? fun c =>
    ((upTo (collRankCount c)).find? fun r =>
      let e := collEntry c r
      groupCtx e == s.me.cur.ctx && groupMember e == s.me.cur.member && groupPkg e == s.me.pkg && groupRing e == k &&
        (match c.ranks[r]? with | some q => !q.bound | none => false)).map fun r => (bytesField c.record 0 1, r)

/-- A collective binds a ring: its proxy for the rank takes the ring's count (R353). -/
def bindRank (collid rank : Nat) (launch member : Nat) (k : KIdx) (count : Nat) (s : State) : State :=
  modMember launch member (modRing k fun r => { r with bound := some (.coll collid rank) })
    (modColl collid (fun c => { c with ranks := match c.ranks[rank]? with
      | some q => setNth c.ranks rank { q with bound := true, tail := 0, slots := List.replicate count .free }
      | none => c.ranks }) s)

/-- A remote ring that a proxy may bind: configured, local, not bound, every slot FREE, of equal count and bytes
(R180). -/
def bindable (cfg : Word) (launch member k : Nat) (s : State) : Bool :=
  match memberOf launch member s with
  | none => false
  | some m =>
    let r := ringOf m (BitVec.ofNat 4 k)
    k < 16 && ringSet r && !ringRemote r && r.bound.isNone && allFree r &&
      ringCount r == bits cfg 39 32 + 1 && ringBytes r == bits cfg 20 0

/-- Both ends of a binding set (R180). -/
def bindRings (cfg : Word) (launch member : Nat) (k proxy : KIdx) (s : State) : State :=
  modMember launch member (modRing k fun r => { r with bound := some (.proxy s.me.cur.launch s.me.cur.member proxy) })
    (modM (setRing proxy (freshRing cfg 0 (some (.proxy launch member k)))) s)

/-- The reply of the remote member: bound, or RING_CONFIG (R180). -/
def bindReply (cfg : Word) (launch member : Nat) (k proxy : KIdx) (s : State) : Eff State := do
  need (bindable cfg launch member k.toNat s) .ringConfig
  .ok (retire 1 (bindRings cfg launch member k proxy s))

/-- `rset` of a proxy (R180). -/
def rsetProxy (base cfg : Word) (k : KIdx) (s : State) : Eff State := do
  need (base == 0) .ringConfig
  let cap : BitVec 6 := BitVec.ofNat 6 (bits cfg 46 41)
  let e ← capEntry cap s
  need (capKind e == 1 && capWrite e) .capPermission
  need (capLength e == (bits cfg 39 32 + 1) * bits cfg 20 0 && capIndex e < 16) .ringConfig
  match launchOfCtx (capCtx e) s with
  | none => fail .capInvalid
  | some l =>
    let rk : KIdx := BitVec.ofNat 4 (capIndex e)
    if routeFree .tc0 (memberRoute l.number (capMember e) s) s && isBound l.number (capMember e) s then
      bindReply cfg l.number (capMember e) rk k s
    else match peerTrouble 0 (capPkg e) (some l.number) (some cap) s with
      | some c => fail c
      | none =>
        .ok (awaitReply (sendMsg (memberRoute l.number (capMember e) s) (memberScope l.number (capMember e) s)
          (.bind l.number (capMember e) rk cfg cap k) s))

/-- The release of a register: a proxy unbinds its remote ring (R179, R182). -/
def releaseRing (k : KIdx) (s : State) : State :=
  let t := modM (setRing k Ring.unconfigured) s
  match (ringOf s.me.m k).bound with
  | some (.proxy l m rk) => if ringRemote (ringOf s.me.m k) then modMember l m (modRing rk fun r => { r with bound := none }) t else t
  | some (.coll _ _) => t
  | none => t

/-- `rset` of a local ring (R180, R353). -/
def rsetLocal (base cfg : Word) (k : KIdx) (s : State) : Eff State := do
  let off := base.toNat % 2 ^ 56
  need (base.toNat / 2 ^ 56 == 0xFE && off % 64 == 0 && off + (bits cfg 39 32 + 1) * bits cfg 20 0 ≤ resSpad s) .ringConfig
  let t := modM (setRing k (freshRing cfg base none)) s
  .ok (match waitingRank k s with
    | some (id, rank) =>
      if 64 ≤ bits cfg 20 0 then collDeliver id rank (bindRank id rank s.me.cur.launch s.me.cur.member k (bits cfg 39 32 + 1) t) else t
    | none => t)

/-- `rset` (R179, R180). -/
def execRset (a b : Reg) (k : KIdx) (s : State) : Host.Outcome State Fault Refusal :=
  run s (do
    let base ← rd s a
    let cfg ← rd s b
    rsetChecks cfg k s
    if cfg == 0 then .ok (retire 1 (releaseRing k s))
    else if flag cfg 47 then rsetProxy base cfg k s
    else do
      let t ← rsetLocal base cfg k s
      .ok (retire 1 t))

/-! ### Messages of rings (R182) -/

/-- A fill message arrives. -/
def execFillMessage (s : State) : Host.Outcome State Fault Refusal :=
  .next (match takeMsg .fillMessage s with
    | none => s
    | some (m, t) => match m.body with
      | .fill l n k slot => applyFill l n k slot t
      | .collFill id rank l n k slot rec => applyCollFill id rank l n k slot rec t
      | _ => s)

/-- A credit arrives. -/
def execFreeCredit (s : State) : Host.Outcome State Fault Refusal :=
  .next (match takeMsg .freeCredit s with
    | none => s
    | some (m, t) => match m.body with
      | .credit l n k slot => applyCredit l n k slot t
      | .collCredit id rank slot => applyCollCredit id rank slot t
      | _ => s)

/-- A bind request reaches the remote member, and its reply the requester (R180). -/
def execRemoteRingBind (s : State) : Host.Outcome State Fault Refusal :=
  .next (match takeMsg .remoteRingBind s with
    | none => s
    | some (m, t) => match m.body with
      | .bind l n k cfg cap proxy =>
        atWho m.who (settle fun u =>
          match peerTrouble 0 (match memberHome l n u with | some (p, _) => p | none => u.me.pkg) (some l) (some cap) u with
          | some c => fail c
          | none => bindReply cfg l n k proxy u) t
      | _ => s)

/-! ### Buffer handles (R184, R185) -/

def handleWf (h : Word) : Bool :=
  bits h 63 40 == 0 && 1 ≤ bits h 37 22 && bits h 37 22 ≤ 49152 && bits h 21 0 % 64 == 0

/-- The granules of a buffer as the issuing core reaches them, through either window. -/
def handleFoot (h : Word) : Foot :=
  let l := bytesUnit (0xFD * 2 ^ 56 + handleOwner h * 2 ^ 22 + handleOff h) (handleLen h) ++
    bytesUnit (0xFE * 2 ^ 56 + handleOff h) (handleLen h)
  ⟨l, l⟩

/-- The checks of `hgive`: whether the handle is registered already (R185; log 11, DESIGN CHOICE). -/
def hgiveChecks (h : Word) (target : Nat) (s : State) : Eff Bool := do
  need (handleWf h) .windowRange
  let reg : Option Buffer := match sibling s (handleOwner h) with
    | some c => c.buffers.find? fun (b : Buffer) => b.handle == h
    | none => none
  match reg with
  | some b => need (b.holder == s.me.idx) .handleNotHeld
  | none => do
    need (handleOwner h == s.me.idx) .handleNotHeld
    need (handleOff h + handleLen h ≤ resSpad s &&
      !s.me.buffers.any fun (b : Buffer) => meets (handleOff h) (handleLen h) (handleOff b.handle) (handleLen b.handle)) .windowRange
    need (s.me.buffers.length < 16) .handleTableFull
  match sibling s target with
  | some c => need ((c.cur.state == .active || c.cur.state == .ready) && c.cur.launch == s.me.cur.launch) .windowRange
  | none => fail .windowRange
  .ok reg.isSome

def setHolder (h : Word) (target : Nat) (c : Core) : Core :=
  { c with buffers := c.buffers.map fun (b : Buffer) => if b.handle == h then { b with holder := target } else b }

def atQuad (idx : Nat) (f : Core → Core) (s : State) : State := updCore (fun c => inQuad c s.me.pkg s.me.die s.me.quad idx) f s

/-- A handle that nothing has registered is registered, with the issuer as its holder; the owner's accesses that were issued
before it still reach the bytes (R185, R238). -/
def registered (h : Word) (known : Bool) (s : State) : State :=
  if known then s else modCore (fun c => { c with buffers := c.buffers ++ [⟨h, c.idx, c.m.age⟩] }) s

/-- The target becomes the holder, and finds the handle in its inbox. -/
def handOver (h : Word) (target : Nat) (s : State) : State :=
  atQuad target (fun c => { c with inbox := c.inbox ++ [h] }) (atQuad (handleOwner h) (setHolder h target) s)

/-- The waits of `hgive`: for the core's accesses to the buffer, for room in the target's inbox, and, as a release to the
quad, for the covered set (R185, R263). -/
def hgiveWaits (h : Word) (target : Nat) (s : State) : Eff State := do
  if (notHeld (handleFoot h) s).isOk && (sibling s target).any (fun c => c.inbox.length < 16) then
    whenReleased .quad (fun t => .ok (retire 1 (handOver h target t))) s
  else .ok (stall s)

/-- The owner takes its buffer back once its accesses to it are performed (R185, R238). -/
def deregister (h : Word) (s : State) : Eff State := do
  notHeld (handleFoot h) s
  .ok (retire 1 (modCore (fun c => { c with buffers := c.buffers.filter fun (b : Buffer) => b.handle != h }) s))

/-- `hgive` (R185). -/
def execHgive (a : Reg) (target : BitVec 2) (s : State) : Host.Outcome State Fault Refusal :=
  run s (do
    let h ← rd s a
    let known ← hgiveChecks h target.toNat s
    if target.toNat == s.me.idx then do
      need (handleOwner h == s.me.idx) .reservedField
      deregister h s
    else hgiveWaits h target.toNat (registered h known s))

/-- `htake` (R185). -/
def execHtake (d : Reg) (s : State) : Host.Outcome State Fault Refusal :=
  run s (match s.me.inbox with
    | [] => hold
    | h :: rest => .ok (retire 1 (wr d h (ordered (modCore (fun c => { c with inbox := rest }) s)))))

/-! ### Barriers (R186, R187) -/

/-- The instance of a scope that a member lies in, by ordinals of the launch (R186). -/
def barKey (p : BitVec 1024) (sc : Scope) (member : Nat) : Nat × Nat × Nat :=
  match sc with
  | .core => (0, 0, member + 1)
  | .quad => (0, 0, member / 4)
  | .die => (0, member / (4 * packetQuads p), 0)
  | .pkg => (member / (4 * packetQuads p * packetDies p), 0, 0)
  | .pod | .sys => (0, 0, 0)

def isInstance (sc : Scope) (k : Nat × Nat × Nat) (b : Barrier) : Bool :=
  b.scope == sc && b.pkg == k.1 && b.die == k.2.1 && b.quad == k.2.2

/-- The host takes part in a launch's `sys` barriers (R186, R290). -/
def hostTakesPart (p : BitVec 1024) : Bool := flag (control p) 13

/-- The participants of an instance: members, and the host at `sys`, which counts as the index after the last
member. -/
def participants (p : BitVec 1024) (sc : Scope) (k : Nat × Nat × Nat) : List Nat :=
  ((upTo (packetMembers p)).filter fun m => barKey p sc m == k) ++
    (if sc == .sys && hostTakesPart p then [packetMembers p] else [])

def arrivalCount (b : Barrier) (m : Nat) : Nat := match b.arrivals.find? fun e => e.1 == m with | some e => e.2 | none => 0

/-- Phases complete while every participant has arrived for the next one. -/
def completePhases (ps : List Nat) : Nat → Barrier → Barrier
  | 0, b => b
  | n + 1, b => if ps.all fun m => b.gen < arrivalCount b m then completePhases ps n { b with gen := b.gen + 1 } else b

/-- A member's next arrival counts (R186). -/
def arriveIn (ps : List Nat) (m : Nat) (b : Barrier) : Barrier :=
  let n := arrivalCount b m
  let b' := { b with arrivals := (m, n + 1) :: b.arrivals.filter fun e => e.1 != m }
  completePhases ps (n + 1) b'

def newBarrier (sc : Scope) (k : Nat × Nat × Nat) : Barrier := ⟨sc, k.1, k.2.1, k.2.2, 0, [], [], [], []⟩

def barrierOf (l : Launch) (sc : Scope) (k : Nat × Nat × Nat) : Barrier :=
  (l.barriers.find? (isInstance sc k)).getD (newBarrier sc k)

def putBarrier (b : Barrier) (l : Launch) : Launch :=
  { l with barriers := b :: l.barriers.filter fun x => !isInstance b.scope (b.pkg, b.die, b.quad) x }

/-- The die that holds an instance's state: that of its first member (log 12, DESIGN CHOICE). -/
def barrierHome (l : Launch) (sc : Scope) (k : Nat × Nat × Nat) : Option (Nat × Nat) :=
  match participants l.packet sc k with
  | m :: _ => (l.place[m / 4]?).map fun p => (p.1, p.2.1)
  | [] => none

/-- The links from an instance's home to a member. -/
def releaseRoute (l : Launch) (sc : Scope) (k : Nat × Nat × Nat) (m : Nat) (s : State) : List LinkId :=
  match barrierHome l sc k, l.place[m / 4]? with
  | some h, some p => routeTo h.1 h.2 p.1 (some p.2.1) s
  | _, _ => []

/-- The generation of an instance as a member has been told it. -/
def seenGen (b : Barrier) (m : Nat) : Nat := match b.behind.find? fun e => e.1 == m with | some e => e.2 | none => b.gen

/-- The generation that has reached a member. -/
def tellGen (m gen : Nat) (b : Barrier) : Barrier :=
  let rest := b.behind.filter fun e => e.1 != m
  { b with behind := if gen == b.gen then rest else (m, gen) :: rest }

/-- A member learns that phases have ended: at once over a free route, or by a release message (R186, R282, R347). -/
def releaseTo (l : Launch) (k : Nat × Nat × Nat) (old : Barrier) (b : Barrier) (m : Nat) (s : State) : State :=
  let route := releaseRoute l b.scope k m s
  let w : Who := ⟨l.number, m, .s⟩
  if m == packetMembers l.packet || (routeFreeFor w .tc0 route s && seenGen old m == old.gen) then s
  else
    let t := modLaunch l.number (fun x => putBarrier (tellGen m (seenGen old m) (barrierOf x b.scope k)) x) s
    { t with inFlight := t.inFlight ++
        [{ who := w, pos := 0, route := route, scope := b.scope, age := 0, cls := .tc0, ord := none, delay := 0, body := .release b.scope b.gen }] }

/-- An arrival reaches the instance of its launch; where it ends a phase, the participants are told (R186). -/
def applyArrival (launch member : Nat) (sc : Scope) (s : State) : State :=
  match findLaunch launch s with
  | none => s
  | some l =>
    let k := barKey l.packet sc member
    let ps := participants l.packet sc k
    let old := barrierOf l sc k
    let b := arriveIn ps member old
    let t := modLaunch launch (putBarrier b) s
    if b.gen == old.gen then t else ps.foldl (fun u m => releaseTo l k old b m u) t

/-- A release reaches a member (R186). -/
def applyRelease (launch member : Nat) (sc : Scope) (gen : Nat) (s : State) : State :=
  modLaunch launch (fun l => putBarrier (tellGen member gen (barrierOf l sc (barKey l.packet sc member))) l) s

/-- The current stream's member arrives: the generation of the phase it joins, and the state after (R186, R187). -/
def arrive (sc : Scope) (s : State) : BitVec 32 × State :=
  match myLaunch s with
  | none => (0, s)
  | some l =>
    let k := barKey l.packet sc s.me.cur.member
    let flying := s.inFlight.filter fun m =>
      m.who.launch == l.number && m.who.member == s.me.cur.member && m.body == .arrival sc
    let n := arrivalCount (barrierOf l sc k) s.me.cur.member + flying.length
    let route := match barrierHome l sc k with
      | some (p, d) => routeTo s.me.pkg s.me.die p (some d) s
      | none => []
    (BitVec.ofNat 32 n,
     if flying.isEmpty then sendOr route sc (.arrival sc) (applyArrival l.number s.me.cur.member sc) s
     else sendMsg route sc (.arrival sc) s)

def myBarrier (sc : Scope) (s : State) : Barrier :=
  match myLaunch s with
  | some l => barrierOf l sc (barKey l.packet sc s.me.cur.member)
  | none => newBarrier sc (0, 0, 0)

/-- Passed (R186). -/
def passed (g a : BitVec 32) : Bool := 1 ≤ (g - a).toNat && (g - a).toNat ≤ 2 ^ 31

def needScope (sc : Scope) (s : State) : Eff Unit := need (sc != .sys || hostTakesPart (packet s)) .barrierScope

/-- The phase a generation names, near the completed ones, of which an arrival was lost, or the release to a member. -/
def phaseLost (b : Barrier) (m : Nat) (a : BitVec 32) : Bool :=
  (b.lost.any fun n => BitVec.ofNat 32 n == a) || b.missed.any fun e => e.1 == m && BitVec.ofNat 32 e.2 == a

/-- `bar` after its arrival (R187). -/
def barWait (sc : Scope) (a : BitVec 32) (s : State) : Eff State :=
  let b := myBarrier sc s
  if phaseLost b s.me.cur.member a then fail .barrierLost
  else if passed (BitVec.ofNat 32 (seenGen b s.me.cur.member)) a then .ok (retire 1 s)
  else .ok (stall (modCtx (fun c => { c with arrived := some (sc, a) }) s))

/-- `bar` (R187). -/
def execBar (scope : Scope) (s : State) : Host.Outcome State Fault Refusal :=
  run s (do
    needScope scope s
    match (ctx s).arrived with
    | some (sc, a) => barWait sc a s
    | none => whenReleased scope (fun t => let r := arrive scope t; barWait scope r.1 r.2) s)

/-- `bara` (R187). -/
def execBara (d : Reg) (scope : Scope) (s : State) : Host.Outcome State Fault Refusal :=
  run s (do
    needScope scope s
    whenReleased scope (fun t => let r := arrive scope t; .ok (retire 1 (wr d (r.1.setWidth 64) r.2))) s)

/-- `bart` (R187): a result of 1 is an acquire; a phase that lost an arrival or this member's release faults (R377). -/
def execBart (d a : Reg) (scope : Scope) (s : State) : Host.Outcome State Fault Refusal :=
  run s (do
    needScope scope s
    let x ← rd s a
    let b := myBarrier scope s
    need (!phaseLost b s.me.cur.member (x.setWidth 32)) .barrierLost
    .ok (if passed (BitVec.ofNat 32 (seenGen b s.me.cur.member)) (x.setWidth 32) then retire 1 (wr d 1 (ordered s)) else retire 1 (wr d 0 s)))

/-- An arrival message reaches its barrier instance, or a release its member; the host's arrivals come this way too (R186; log 12,
DESIGN CHOICE). -/
def execBarrierArrival (s : State) : Host.Outcome State Fault Refusal :=
  .next (match takeMsg .barrierArrival s with
    | none => s
    | some (m, t) => match m.body with
      | .arrival sc => applyArrival m.who.launch m.who.member sc t
      | .release sc gen => applyRelease m.who.launch m.who.member sc gen t
      | _ => s)

end Sys2Proof.Machine
end

