-- ==== Sys2Proof/Machine/Atomics.lean ====
section
/-! DEFINITION. Atomics (R188 to R193): the operations at a home, the instructions, and the messages of an atomic that
waited for a link. -/
namespace Sys2Proof.Machine

/-! ### The operations (R188, R189) -/

/-- `fadd32`: the sum, with NV for a NaN operand as well (R188). -/
def fadd32 (m b : Word32) : Word32 × Conds :=
  let x := xadd false (x32 m) (x32 b)
  let r := r32 x
  (r.1, (if xisNan x then condNV else flagConds r.2) ||| resultConds fp32 r.1.toNat)

/-- `fmax32` and `fmin32` (R188). -/
def fpick32 (pick : XVal → XVal → XVal) (m b : Word32) : Word32 × Conds :=
  if isNan32 m || isNan32 b then (nan32, condNV ||| condNaN)
  else
    let r := r32 (pick (x32 m) (x32 b))
    (r.1, resultConds fp32 r.1.toNat)

/-- The new value of an integer operation on n bits (R188). -/
def intOp (o : AtomOp) (n m b : Nat) : Nat :=
  match o with
  | .add => (m + b) % 2 ^ n
  | .max => if signed n m < signed n b then b else m
  | .min => if signed n b < signed n m then b else m
  | .maxn => max m b
  | .minn => min m b
  | .and => m &&& b
  | .or => m ||| b
  | .xor => m ^^^ b
  | .xchg => b
  | .fadd32 | .fmax32 | .fmin32 => b

/-- The new value of an operation on n bits, and its flags. -/
def atomNew (o : AtomOp) (n m b : Nat) : Nat × Conds :=
  match o with
  | .fadd32 => let r := fadd32 (BitVec.ofNat 32 m) (BitVec.ofNat 32 b); (r.1.toNat, r.2)
  | .fmax32 => let r := fpick32 xmax (BitVec.ofNat 32 m) (BitVec.ofNat 32 b); (r.1.toNat, r.2)
  | .fmin32 => let r := fpick32 xmin (BitVec.ofNat 32 m) (BitVec.ofNat 32 b); (r.1.toNat, r.2)
  | .add | .max | .min | .maxn | .minn | .and | .or | .xor | .xchg => (intOp o n m b, 0)

/-- The old value as it returns (R188). -/
def atomOld (k : AtomKind) (n m : Nat) : Word :=
  if n == 64 then BitVec.ofNat 64 m
  else match k with
    | .op o => (match o with
      | .maxn | .minn | .fadd32 | .fmax32 | .fmin32 => BitVec.ofNat 64 m
      | .add | .max | .min | .and | .or | .xor | .xchg => wrap64 (signed 32 m))
    | .cas _ => wrap64 (signed 32 m)

/-- An atomic as its home performs it: the state, the old value, its poison, the flags (R188 to R190, R372). A
poisoned home word is not changed. -/
structure AtomDone where
  state  : State
  old    : Word
  poison : Bool
  conds  : Conds

/-- On a DET page: a contribution, or a read and a store; the read of an `xchg`, and the value that returns, raise the flags of
R56 (R190). -/
def atomDet (k : AtomKind) (leaf : BitVec 64) (key : Nat) (b : Word) (returns : Bool) (s : State) : Eff AtomDone := do
  let d := detAt key s
  let r := detRead (leafDetw leaf) d
  if anyMark s.memPoison key 32 then .ok ⟨s, r.1.setWidth 64, true, 0⟩
  else do
    let d' ← match k with
      | .op .xchg => detStore (leafDetw leaf) (b.setWidth 32)
      | _ => detAdd (leafDetw leaf) (b.setWidth 32) d
    .ok ⟨detPut key d' s, if k == .op .xchg then wrap64 (signed 32 r.1.toNat) else r.1.setWidth 64, false,
      if returns || k == .op .xchg then flagConds r.2 ||| resultConds fp32 r.1.toNat else 0⟩

def atomAt (k : AtomKind) (w : Bool) (leaf : BitVec 64) (key : Nat) (b : Word) (returns : Bool) (s : State) : Eff AtomDone :=
  if leafDet leaf then atomDet k leaf key b returns s
  else
    let n := atomSize k w
    let m := bytesToNat (storeRead s.mem key n)
    let old := atomOld k (8 * n) m
    if anyMark s.memPoison key n then .ok ⟨s, old, true, 0⟩
    else match k with
      | .op o =>
        let r := atomNew o (8 * n) m (b.toNat % 2 ^ (8 * n))
        .ok ⟨homeWrite key (natToBytes n r.1) false s, old, false, r.2⟩
      | .cas cmp =>
        .ok ⟨if m == cmp.toNat % 2 ^ (8 * n) then homeWrite key (natToBytes n (b.toNat % 2 ^ (8 * n))) false s else s, old, false, 0⟩

/-! ### The instructions (R190 to R192) -/

/-- The access of an atomic: a DET page admits `fadd32`, and `xchg` of one word (R190). -/
def atomAcc (k : AtomKind) (w : Bool) : Acc :=
  { dir := .update, det := k == .op .fadd32 || (k == .op .xchg && w), noCxl := true }

/-- The checks of R190, and the place. -/
def atomPlace (k : AtomKind) (w : Bool) (va : Nat) (s : State) : Eff (BitVec 64 × Nat) := do
  let n := atomSize k w
  if va % n != 0 then failAt .misaligned va
  if inWindow va then failAt .windowRange va
  match ← resolve (atomAcc k w) va n s with
  | (.mem leaf key, _) :: _ => .ok (leaf, key)
  | _ => failAt .windowRange va

/-- The value of an atomic returned to its register or its entry of the return queue (R191). -/
def returnAtom (ret : AtomRet) (v : Word) (poison : Bool) (s : State) : State :=
  match ret with
  | .none => s
  | .direct d => retire 2 (wrP d v poison s)
  | .queued n => modM (fun m => { m with returns := m.returns.map fun e => if e.1 == n then (n, some (v, poison)) else e }) s

/-- A poisoned home word under an atomic that returns nothing is reported at the next fence (R372, R374). -/
def reportAtomPoison (ret : AtomRet) (poison : Bool) (l : Loss) (s : State) : State :=
  if poison && ret == .none then modM (addLoss s.cur l) s else s

/-- Where the old value goes: nowhere for `s0`, else by `retmode` (R191). -/
def atomRet (d : Reg) (s : State) : AtomRet :=
  if d == 0 then .none
  else if s.me.m.csrs.retmode == 0 then .queued (match s.me.m.returns.getLast? with | some e => e.1 + 1 | none => 0)
  else .direct d

/-- The return queue takes the entry of a queued return, before its value has arrived. -/
def enqueueReturn (ret : AtomRet) (s : State) : State :=
  match ret with
  | .queued n => modM (fun m => { m with returns := m.returns ++ [(n, none)] }) s
  | .none => s
  | .direct _ => s

/-- The instruction retires, unless it waits for a direct value. -/
def retireAtom (ret : AtomRet) (s : State) : State :=
  match ret with
  | .direct _ => s
  | .none => retire 2 s
  | .queued _ => retire 2 s

/-- An atomic performed at its home at once. -/
def atomNow (k : AtomKind) (w : Bool) (leaf : BitVec 64) (key : Nat) (b : Word) (ret : AtomRet) (va : Nat) (s : State) : Eff State := do
  let n := atomSize k w
  let r ← atomAt k w leaf key b (ret != .none) s
  let scope := homeScope key s
  let t := reportAtomPoison ret r.poison ⟨.poisonConsumed, va, n, (ctx s).pc, scope, accessAge s⟩
    (if r.conds == 0 then r.state else raiseAtom r.conds va n scope r.state)
  .ok (retireAtom ret (returnAtom ret r.old r.poison (enqueueReturn ret t)))

def acquires (order : AOrder) : Bool := order == .acq || order == .ar

/-- An atomic sets out for its home over a route that holds its traffic; a direct return keeps the instruction waiting, and
what follows an acquiring one follows it (R191, R192). -/
def atomSend (k : AtomKind) (w : Bool) (order : AOrder) (leaf : BitVec 64) (key : Nat) (b : Word) (ret : AtomRet) (s : State) : State :=
  let t := enqueueReturn ret (sendAs (some (if leafOrd leaf == 0 then 0 else 1)) 0 .tc0 (keyRoute key s) (homeScope key s)
    (.atomic k w leaf key b ret) s)
  let u := if acquires order then ordered t else t
  match ret with
  | .direct _ => awaitReply u
  | .none => retire 2 u
  | .queued _ => retire 2 u

/-- An atomic after its release part, in its turn among the stream's accesses (R254, R260; log 41, DEDUCED): performed at
its home, or sent there. On a DET page it waits while the route holds its traffic, so that its DET_RANGE is precise (R367).
The quad's own older writes to the word leave the combiner first, and it waits until they have reached the home (R260, R265). -/
def atomIssue (k : AtomKind) (w : Bool) (order : AOrder) (va : Nat) (leaf : BitVec 64) (key : Nat) (b : Word) (d : Reg) (s : State) : Eff State := do
  waitUntil (s.me.m.returns.length < 64 || d == 0)
  let n := atomSize k w
  waitUntil (queueDone s && !behindMark s && inOrder false [(.mem leaf key, n)] s)
  let s := noteWritten key (if (combined s).any fun x => x.key < key + n && key < x.key + x.data.length then drainMine s else s)
  let ret := atomRet d s
  let s := cachePage s va
  if forwardedTo key n s then .ok (stall s)
  else if routeFree .tc0 (keyRoute key s) s then atomNow k w leaf key b ret va (if acquires order then ordered s else s)
  else do
    waitUntil (entryFree s && (!leafDet leaf || routeDead (keyRoute key s) s))
    .ok (atomSend k w order leaf key b ret s)

/-- `aop` and `acas` once their registers are read (R188 to R192). -/
def atomic (k : AtomKind) (w : Bool) (order : AOrder) (scope : Scope) (addr b : Word) (d : Reg) (s : State) : Eff State := do
  let (leaf, key) ← atomPlace k w addr.toNat s
  match order with
  | .rlx => atomIssue k w order addr.toNat leaf key b d s
  | .acq => atomIssue k w order addr.toNat leaf key b d s
  | .rel => whenReleased scope (atomIssue k w order addr.toNat leaf key b d) s
  | .ar => whenReleased scope (atomIssue k w order addr.toNat leaf key b d) s

/-- `aop` (R188). -/
def execAop (d a b : Reg) (op : AtomOp) (order : AOrder) (scope : Scope) (w : Bool) (s : State) : Host.Outcome State Fault Refusal :=
  run s (do
    let x ← rd s a
    let y ← rd s b
    atomic (.op op) w order scope x y d s)

/-- `acas` (R189). -/
def execAcas (d a b cmp : Reg) (order : AOrder) (scope : Scope) (w : Bool) (s : State) : Host.Outcome State Fault Refusal :=
  run s (do
    let x ← rd s a
    let y ← rd s b
    let c ← rd s cmp
    atomic (.cas c) w order scope x y d s)

/-- `apop` (R191). -/
def execApop (d : Reg) (s : State) : Host.Outcome State Fault Refusal :=
  run s (match s.me.m.returns with
    | [] => fail .apopEmpty
    | (_, none) :: _ => hold
    | (_, some (v, poison)) :: rest =>
      .ok (retire 1 (wrP d v poison (modM (fun m => { m with returns := rest }) s))))

/-! ### Messages (R191, R193) -/

/-- The oldest travelling atomic is applied at its home; its value sets out on the way back (R193). -/
def execAtomicHomeApply (s : State) : Host.Outcome State Fault Refusal :=
  .next (match takeMsg .atomicHomeApply s with
    | none => s
    | some (m, t) => match m.body with
      | .atomic k w leaf key b ret =>
        let n := atomSize k w
        (match atomAt k w leaf key b (ret != .none) t with
        | .ok r =>
          let u := atWho m.who (fun x =>
            reportAtomPoison ret r.poison ⟨.poisonConsumed, key, n, m.pos, m.scope, m.age⟩
              (if r.conds == 0 then x else raiseAtomAt m.who.stream r.conds key n m.pos m.scope m.age x)) r.state
          if ret == .none then u
          else { u with inFlight := u.inFlight ++ [{ m with ord := none, delay := 0, body := .atomicReply r.old r.poison ret }] }
        | .error (.fault f) => atWho m.who (takeFault m.who.stream m.pos 1 f) t
        | .error _ => t)
      | _ => s)

/-- The oldest travelling atomic reply arrives (R191). -/
def execAtomicReply (s : State) : Host.Outcome State Fault Refusal :=
  .next (match takeMsg .atomicReply s with
    | none => s
    | some (m, t) => match m.body with
      | .atomicReply v poison ret => atWho m.who (returnAtom ret v poison) t
      | _ => s)

end Sys2Proof.Machine
end

