-- ==== Sys2Proof/Machine/Packed.lean ====
section
/-! DEFINITION. Compressed weight blocks and their decoder (R119, R155, R327 to R331). -/
namespace Sys2Proof.Machine

/-- The 4-bit lengths of the code-length table (R329). -/
def codeLengths (b : List Byte) : List Nat := b.flatMap fun x => [x.toNat % 16, x.toNat / 16]

/-- R329: no length above 8, one at least not zero, and the Kraft inequality. -/
def lengthsOk (l : List Nat) : Bool :=
  l.all (· ≤ 8) && l.any (· != 0) && (l.foldl (fun n x => n + (if x == 0 then 0 else 2 ^ (8 - x))) 0) ≤ 256

/-- The canonical codewords: length, code and symbol (R329). -/
def codewords (l : List Nat) : List (Nat × Nat × Nat) :=
  ((upTo 8).foldl (fun (acc : Nat × List (Nat × Nat × Nat)) k =>
    let r := (upTo 16).foldl (fun (a : Nat × List (Nat × Nat × Nat)) s =>
      if nth l s 0 == k + 1 then (a.1 + 1, a.2 ++ [(k + 1, a.1, s)]) else a) acc
    (2 * r.1, r.2)) (0, [])).2

/-- The bits of a stream, lowest bit of each byte first (R330). -/
def streamBits (b : List Byte) : List Bool := b.flatMap fun x => (upTo 8).map fun k => x.getLsbD k

/-- n symbols read from the stream, latest first, with the bits that remain; none on an overrun or an unknown code
(R330). -/
def readSymbols (cw : List (Nat × Nat × Nat)) : List Bool → Nat → Nat → Nat → List Nat → Option (List Nat × List Bool)
  | bs, _, _, 0, acc => some (acc, bs)
  | [], _, _, _ + 1, _ => none
  | b :: t, c, len, n + 1, acc =>
    let c' := 2 * c + boolNat b
    match cw.find? fun e => e.1 == len + 1 && e.2.1 == c' with
    | some e => readSymbols cw t 0 0 n (e.2.2 :: acc)
    | none => if len + 1 == 8 then none else readSymbols cw t c' (len + 1) (n + 1) acc

/-- The symbols of a whole stream: what follows them is less than a byte of zeros (R330). -/
def streamSymbols (lens : List Nat) (b : List Byte) : Option (List Nat) :=
  match readSymbols (codewords lens) (streamBits b) 0 0 4096 [] with
  | none => none
  | some (syms, rest) => if 8 ≤ rest.length || rest.any id then none else some syms.reverse

/-- The nibbles of bytes, low first (R11). -/
def nibbles (b : List Byte) : List Nat := b.flatMap fun x => [x.toNat % 16, x.toNat / 16]

/-- The elements of a checked block's bytes, in row-major order, or the failure (steps 3 to 7 of R331). -/
def decodeBlock (tag : Tag) (b : List Byte) : Eff (List Word) := do
  let f := fun off n => bytesField b off n
  let fmt := f 4 1
  let mode := f 5 1
  let plen := f 8 4
  need (f 0 4 == 0x42444C47 && (fmt == 3 || fmt == 7) && mode < 2 && f 6 2 == 0 && f 14 2 == 0 && f 12 2 == 4096) .packedMalformed
  need (fmt == tag.code) .tagMismatch
  need (b.length == 16 + 8 * mode + plen && (mode == 1 || plen == (if fmt == 3 then 4096 else 2048))) .packedMalformed
  if mode == 0 then
    let pay := b.drop 16
    .ok (if fmt == 3 then pay.map fun x => BitVec.ofNat 64 x.toNat else (nibbles pay).map fun n => BitVec.ofNat 64 n)
  else
    let lens := codeLengths ((b.drop 16).take 8)
    let pay := b.drop 24
    need (lengthsOk lens) .packedMalformed
    if fmt == 3 then
      need (2048 ≤ pay.length) .packedMalformed
      match streamSymbols lens (pay.drop 2048) with
      | none => fail .packedMalformed
      | some syms => .ok (((nibbles (pay.take 2048)).zip syms).map fun p =>
          BitVec.ofNat 64 (p.1 / 8 * 128 + p.2 * 8 + p.1 % 8))
    else
      match streamSymbols lens pay with
      | none => fail .packedMalformed
      | some syms => .ok (syms.map fun n => BitVec.ofNat 64 n)

/-- The block address of a directory entry (R327). -/
def blockAddr (va : Nat) (entry : BitVec 64) : Nat := va / 2 ^ 16 * 2 ^ 16 + 16 * bits entry 55 16

/-- The block behind the directory entry at va, decoded for a tag (R331). -/
def readBlock (tag : Tag) (va : Nat) (s : State) : Eff (List Word) := do
  let e ← loadBytes { dir := .read } va 8 s
  need (!e.2.1) .poisonConsumed
  let entry : BitVec 64 := BitVec.ofNat 64 (bytesToNat e.1)
  let len := bits entry 12 0
  need (bits entry 63 62 == 1 && bits entry 61 56 == 0 && bits entry 15 13 == 0 && 16 ≤ len && len ≤ 6168) .packedDirectory
  let spots ← resolve { dir := .read } (blockAddr va entry) len s
  need (spots.all fun p => match p.1 with | .mem leaf _ => leafPack leaf | .spad _ _ => false) .packedDirectory
  let r ← loadBytes { dir := .read } (blockAddr va entry) len s
  need (!r.2.1) .poisonConsumed
  decodeBlock tag r.1

/-- A block that is read leaves the leaves of its entry and of its bytes in the caches (R320). -/
def blockCached (va : Nat) (s : State) : State :=
  match loadBytes { dir := .read } va 8 s with
  | .ok e =>
    let entry : BitVec 64 := BitVec.ofNat 64 (bytesToNat e.1)
    cached (blockAddr va entry) (bits entry 12 0) (cached va 8 s)
  | .error _ => s

/-- The address lies in a PACK page. -/
def inPackPage (va : Nat) (s : State) : Bool :=
  if 2 ^ 52 ≤ va then false
  else match translate va s with
    | .ok (e, _) => leafPack e
    | .error _ => false

end Sys2Proof.Machine
end

