-- ==== Sys2Proof/Machine/Bobbins.lean ====
section
/-! DEFINITION. Bobbins (R200 to R203, R242 to R249). -/
namespace Sys2Proof.Machine

def bobbinOf (m : Member) (i : BitVec 6) : Bobbin := vat (k := 6) m.bobbins i
def setBobbin (i : BitVec 6) (b : Bobbin) (m : Member) : Member := { m with bobbins := vput (k := 6) m.bobbins i b }

/-! ### Names (R200, R242) -/

/-- The member's own core field (R242). -/
def coreField (s : State) : Nat := ((myLaunch s).bind fun l => l.fields[s.me.cur.member]?).getD 0

/-- The member of the issuer's launch on the issuer's die whose core field is n. -/
def memberOfField (n : Nat) (s : State) : Option Nat :=
  (myLaunch s).bind fun l => (upTo l.fields.length).find? fun m =>
    nth l.fields m 32 == n && memberHome l.number m s == some (s.me.pkg, s.me.die)

/-- A name's home member and index (R200, R242). -/
def bobbinName (w : Word) (s : State) : Eff (Nat × BitVec 6) := do
  need (bits w 63 11 == 0 && bits w 5 0 < resBobbins s) .bobbinInvalid
  match memberOfField (bits w 10 6) s with
  | some m => .ok (m, BitVec.ofNat 6 (bits w 5 0))
  | none => fail .bobbinInvalid

def homeBobbin (home : Nat) (i : BitVec 6) (s : State) : Bobbin :=
  match memberOf s.me.cur.launch home s with
  | some m => bobbinOf m i
  | none => Bobbin.free

/-- The slots of the member that name a bobbin (R43, R245). -/
def namesBobbin (i : BitVec 6) (d : BitVec 64) : Bool := 2 ≤ bits d 63 62 && bits d 61 56 == i.toNat
def slotsNaming (i : BitVec 6) (x : Slots) : Nat := ([x.rs, x.cs, x.rp, x.cq].filter (namesBobbin i)).length
def liveSlots (i : BitVec 6) (m : Member) : Nat :=
  m.tiles.toList.foldl (fun n t => n + slotsNaming i t.slots) 0 + m.regions.toList.foldl (fun n r => n + slotsNaming i r.slots) 0

/-! ### Contributions (R202, R243, R244) -/

/-- The identity of a kind (R200). -/
def bobIdentity : BobKind → Word32
  | .sum | .sumsq => 0
  | .max => 0xFF800000#32
  | .min => 0x7F800000#32

/-- One element combined; no flag is raised (R202). -/
def bobCombine (k : BobKind) (v c : Word32) : Word32 :=
  match k with
  | .sum | .sumsq => (add32 v c).1
  | .max => if isNan32 v || isNan32 c then nan32 else (r32 (xmax (x32 v) (x32 c))).1
  | .min => if isNan32 v || isNan32 c then nan32 else (r32 (xmin (x32 v) (x32 c))).1

def contributed (vals : List Word32) (b : Bobbin) : Bobbin :=
  let n := b.received + 1
  { b with
    vals := (b.vals.zip (upTo b.vals.length)).map fun p => bobCombine b.kind p.1 (nth vals p.2 (bobIdentity b.kind)),
    received := n,
    state := if n == b.expected then .sealed else .opened }

/-- The home accepts a contribution to an OPEN bobbin; the last one seals it (R202, R243). -/
def acceptAt (i : BitVec 6) (vals : List Word32) (m : Member) : Member :=
  let b := contributed vals (bobbinOf m i)
  let m' := setBobbin i b m
  if b.state == .sealed && b.sreq then raiseAt .sealed i.toNat m' else m'

/-- The bobbin becomes FAULTED: a contribution was lost or arrived poisoned (R244). -/
def faultBobbin (i : BitVec 6) (m : Member) : Member :=
  let b := bobbinOf m i
  if b.state != .opened then m
  else
    let m' := setBobbin i { b with state := .faulted } m
    if b.sreq then raiseAt .sealed i.toNat m' else m'

/-- The checks of a contribution at its home (R202). -/
def needOpen (b : Bobbin) : Eff Unit :=
  match b.state with
  | .opened => .ok ()
  | .sealed => fail .bobbinOverflow
  | .free => fail .bobbinInvalid
  | .faulted => fail .bobbinInvalid

/-- A contribution to a bobbin of the die: accepted at once, or on its way over the die's mesh, whose replays may poison it;
the instruction waits until the home has accepted it (R202, R243, R244; log 44, DESIGN CHOICE). -/
def contribute (home : Nat) (i : BitVec 6) (vals : List Word32) (s : State) : Eff State :=
  let route := [LinkId.mesh s.me.pkg s.me.die]
  if home == s.me.cur.member || routeFree .tc1 route s then .ok (retire 1 (modMember s.me.cur.launch home (acceptAt i vals) s))
  else do
    waitUntil (s.cur == .s || s.me.m.perform.isSome)
    let r := drawFree s
    .ok (awaitReply (sendMsg route .die (.bobbin home i.toNat vals (r.1.getLsbD 0)) r.2))

/-- A contribution that travelled is over, by whatever end: its instruction retires without a fault, its entry leaves its queue
(R202, R244; log 44, DESIGN CHOICE). -/
def contributionOver (m : Msg) (s : State) : State :=
  atWho m.who (fun u =>
    if m.who.stream == .s then (if (ctx u).replyDue then retire 1 u else u)
    else modM (fun x => { x with iq := x.iq.filter fun e => !(e.stream == m.who.stream && e.age == m.age) }) u) s

/-- `bopen` (R201). -/
def execBopen (d a b : Reg) (index : BitVec 6) (kind : BobKind) (s : State) : Host.Outcome State Fault Refusal :=
  runIn { uses := [a, b], dst := d } s (do
    let len ← rd s a
    let x ← rd s b
    need (1 ≤ len.toNat && len.toNat ≤ 256) .shapeLimit
    need (bits x 31 0 != 0 && bits x 63 33 == 0) .bobbinInvalid
    need (index.toNat < resBobbins s && (bobbinOf s.me.m index).state == .free) .bobbinInvalid
    let bob : Bobbin := ⟨.opened, kind, len.toNat, bits x 31 0, 0, flag x 32, List.replicate len.toNat (bobIdentity kind)⟩
    .ok (retire 1 (wr d (BitVec.ofNat 64 (coreField s * 64 + index.toNat)) (modM (setBobbin index bob) s))))

/-- The active elements of a vector, the identity elsewhere (R202). -/
def maskedVector (k : BobKind) (p : BitVec 4096) (len : Nat) (v : Nat → Word32) : List Word32 :=
  (upTo len).map fun n => if p.getLsbD n then v n else bobIdentity k

/-- `bcont` of a factor register (R202). -/
def execBcontFreg (a : Reg) (p : PIdx) (f : FIdx) (s : State) : Host.Outcome State Fault Refusal :=
  runV s (hasFreg f s) { foot := ⟨[.freg f], []⟩, uses := [a] } (do
    let w ← rd s a
    notHeld ⟨[.freg f], []⟩ s
    needFreg s.me.m f
    let (home, i) ← bobbinName w s
    let b := homeBobbin home i s
    needOpen b
    contribute home i (maskedVector b.kind (predOf s p) b.len (fregAt s.me.m f)) s)

/-- One FP32 element of the scratchpad (R202). -/
def bcontElement (va : Nat) (s : State) : Eff Word32 := do
  let spots ← resolve { dir := .read } va 4 s
  let r := readSpots s spots
  need (!r.2.1) .poisonConsumed
  .ok (BitVec.ofNat 32 (bytesToNat r.1))

/-- The elements of a masked vector in memory, in order. -/
def bcontElements (k : BobKind) (p : BitVec 4096) (base : Nat) (s : State) : List Nat → Eff (List Word32)
  | [] => .ok []
  | n :: rest => do
    let x ← if p.getLsbD n then bcontElement (base + 4 * n) s else .ok (bobIdentity k)
    let t ← bcontElements k p base s rest
    .ok (x :: t)

/-- The vector at an address of the scratchpad: alignment, window, then its elements (R202). -/
def bcontVector (k : BobKind) (len : Nat) (p : PIdx) (x : Nat) (s : State) : Eff (List Word32) := do
  if x % 4 != 0 then failAt .misaligned x
  if x / 2 ^ 56 != 0xFE || resSpad s < x % 2 ^ 56 + 4 * len then failAt .windowRange x
  notHeld (accessFoot .read x (4 * len)) s
  bcontElements k (predOf s p) x s (upTo len)

/-- The checks of the source and of the target in their order: the source's come first (R202); in V only its poison does, and
memory faults come after the target's (R116, steps 6 to 8). -/
def bcontChecks {α β : Type} (inS : Bool) (source : Eff α) (target : Eff β) : Eff (α × β) := do
  let poisoned := match source with
    | .error (.fault t) => t.cause == .poisonConsumed
    | .ok _ | .error .wait | .error (.reading _ _ _ _ _) | .error (.hole _) => false
  if inS || poisoned then do
    let v ← source
    let n ← target
    .ok (v, n)
  else do
    let n ← target
    let v ← source
    .ok (v, n)

/-- `bcont` of the scratchpad (R202). A name that names no bobbin has the length 1 for the window's check (log 44, DESIGN CHOICE).
Log 32, DEDUCED. -/
def execBcontMem (a b : Reg) (p : PIdx) (s : State) : Host.Outcome State Fault Refusal :=
  runIn { foot := accessFoot .read (rawReg s b).toNat 1024, uses := [a, b] } s (do
    need (s.cur != .s || p == 0) .reservedField
    let w ← rd s a
    let x ← rd s b
    let named := bobbinName w s
    let bob := match named with
      | .ok n => homeBobbin n.1 n.2 s
      | .error _ => Bobbin.free
    let (vals, n) ← bcontChecks (s.cur == .s) (bcontVector bob.kind bob.len p x.toNat s) (do
      let n ← named
      needOpen bob
      .ok n)
    contribute n.1 n.2 vals s)

/-- `bwait` (R203). -/
def execBwait (d a : Reg) (s : State) : Host.Outcome State Fault Refusal :=
  runIn { uses := [a], dst := d } s (do
    let w ← rd s a
    let (home, i) ← bobbinName w s
    match (homeBobbin home i s).state with
    | .free => fail .bobbinInvalid
    | .opened => hold
    | .sealed => .ok (retire 1 (wr d 2 (ordered s)))
    | .faulted => .ok (retire 1 (wr d 3 (ordered s))))

/-- `bfree` (R203). -/
def execBfree (a : Reg) (s : State) : Host.Outcome State Fault Refusal :=
  runIn { uses := [a] } s (do
    let w ← rd s a
    let (home, i) ← bobbinName w s
    let b := homeBobbin home i s
    need (home == s.me.cur.member && (b.state == .sealed || b.state == .faulted) && liveSlots i s.me.m == 0) .bobbinInvalid
    .ok (retire 1 (modM (setBobbin i Bobbin.free) s)))

/-- A travelling contribution reaches its home: accepted while the bobbin is OPEN, else reported to its issuer; a poisoned
one leaves the bobbin FAULTED (R202, R243, R244). -/
def execBobbinContribution (s : State) : Host.Outcome State Fault Refusal :=
  .next (match takeMsg .bobbinContribution s with
    | none => s
    | some (m, t) => match m.body with
      | .bobbin home idx vals poison =>
        let i : BitVec 6 := BitVec.ofNat 6 idx
        let b := match memberOf m.who.launch home t with
          | some x => bobbinOf x i
          | none => Bobbin.free
        (match needOpen b with
        | .ok () => contributionOver m (modMember m.who.launch home (if poison then faultBobbin i else acceptAt i vals) t)
        | .error (.fault f) => atWho m.who (takeFault m.who.stream m.pos 1 f) (contributionOver m t)
        | .error _ => t)
      | _ => s)

end Sys2Proof.Machine
end

