-- ==== Sys2Proof/Machine/Pending.lean ====
section
/-! DEFINITION. Pending slots: their descriptors and checks (R41 to R43), their evaluation (R44), the fixed resolve order
(R50 to R53), and the writing of a tile (R21, R22, R111, R112). -/
namespace Sys2Proof.Machine

/-! ### Descriptors (R42, R43) -/

def slotKind (d : BitVec 64) : Nat := bits d 63 62
def slotBobbin (d : BitVec 64) : BitVec 6 := BitVec.ofNat 6 (bits d 61 56)
def slotOp (d : BitVec 64) : Nat := bits d 55 53
def slotEexp (d : BitVec 64) : Nat := bits d 52 48
def slotFreg (d : BitVec 64) : FIdx := BitVec.ofNat 4 (bits d 47 44)
def slotM (d : BitVec 64) : Word32 := BitVec.ofNat 32 (bits d 31 0)

/-- A descriptor of kind 0 is held as the all-zero one (R42). -/
def heldSlot (d : BitVec 64) : BitVec 64 := if slotKind d == 0 then 0 else d

/-- Kind 1 naming a factor register, m = 1.0, IDENT, ε = 0 (R46). -/
def fregSlot (f : FIdx) : BitVec 64 := BitVec.ofNat 64 (field 1 62 + field f.toNat 44 + 0x3F800000)

/-- The checks of R43 for a descriptor put into a slot of length len; fits says whether R41 allows it. Log 21, DEDUCED. -/
def needSlot (d : BitVec 64) (len : Nat) (fits : Bool) (s : State) : Eff Unit :=
  if slotKind d == 0 then .ok ()
  else do
    need (bits d 43 32 == 0 && slotOp d < 5) .reservedField
    need fits .pendingShape
    if 2 ≤ slotKind d then do
      let b := bobbinOf s.me.m (slotBobbin d)
      need (b.state != .free) .bobbinInvalid
      need (len ≤ b.len) .pendingShape

/-! ### Evaluation (R44) -/

def slotNeedsFreg (d : BitVec 64) : Bool := slotKind d == 1 || slotKind d == 3

def slotPoisoned (m : Member) (d : BitVec 64) : Bool := slotNeedsFreg d && (fregOf m (slotFreg d)).poison

/-- u, then the op (R44). An infinity times 0 raises NV, and an ε of 0 is added as +0: log 38, DESIGN CHOICE. -/
def slotElem (d : BitVec 64) (x : Word32) : Word32 × Flags :=
  let eps : XVal := if slotEexp d == 0 then xzero else .fin false 1 (-(slotEexp d : Int))
  let v := xadd false (xmul (x32 (slotM d)) (x32 x)) eps
  let u := r32 v
  let f := u.2 ||| invalid v [x32 (slotM d), x32 x]
  let y := x32 u.1
  match slotOp d with
  | 1 => let r := r32 (xdiv xone y); (r.1, f ||| r.2)
  | 2 => let r := r32 (xrsqrt y); (r.1, f ||| r.2 ||| invalid (xrsqrt y) [y])
  | 3 => ((r32 (xneg y)).1, f)
  | 4 => let r := r32 (xexp2 (xneg y)); (r.1, f ||| r.2)
  | _ => (u.1, f)

/-- x of R44: the factor register, the bobbin value, or their product. -/
def slotInput (m : Member) (d : BitVec 64) (n : Nat) : Word32 × Flags :=
  let b := nth (bobbinOf m (slotBobbin d)).vals n 0
  match slotKind d with
  | 1 => (fregAt m (slotFreg d) n, 0)
  | 2 => (b, 0)
  | _ => mul32 b (fregAt m (slotFreg d) n)

/-- A slot evaluated into a vector of its length; none is all ones. It waits on an OPEN bobbin, and a FAULTED one is
BOBBIN_INVALID. -/
def evalSlot (m : Member) (d : BitVec 64) (len : Nat) : Eff (List Word32 × Flags) := do
  if slotKind d == 0 then .ok (List.replicate len one32, 0)
  else do
    if 2 ≤ slotKind d then
      match (bobbinOf m (slotBobbin d)).state with
      | .opened => hold
      | .sealed => .ok ()
      | .free => fail .bobbinInvalid
      | .faulted => fail .bobbinInvalid
    let rs := (upTo len).map fun n =>
      let x := slotInput m d n
      let y := slotElem d x.1
      (y.1, x.2 ||| y.2)
    .ok (rs.map (·.1), rs.foldl (fun f r => f ||| r.2) 0)

/-- The vectors of a register's slots. -/
structure SlotVals where
  rs : Array Word32
  cs : Array Word32
  rp : Array Word32
  cq : Array Word32
  flags : Flags

def slotsPoisoned (m : Member) (x : Slots) : Bool := [x.rs, x.cs, x.rp, x.cq].any (slotPoisoned m)

def evalSlots (m : Member) (x : Slots) (rows cols : Nat) : Eff SlotVals := do
  let rs ← evalSlot m x.rs rows
  let cs ← evalSlot m x.cs cols
  let rp ← evalSlot m x.rp rows
  let cq ← evalSlot m x.cq cols
  .ok ⟨rs.1.toArray, cs.1.toArray, rp.1.toArray, cq.1.toArray, rs.2 ||| cs.2 ||| rp.2 ||| cq.2⟩

/-! ### The resolve steps (R52) -/

/-- The rank-one term, with one fused rounding. -/
def addRankOne (x : Slots) (p q t : Word32) : Word32 × Flags :=
  if rankOne x then
    let v := xadd false (xmul (x32 p) (x32 q)) (x32 t)
    let r := r32 v
    (r.1, r.2 ||| invalid v [x32 p, x32 q, x32 t])
  else (t, 0)

/-- Steps 1 to 4 for element (i, j). -/
def resolveElem (x : Slots) (v : SlotVals) (i j : Nat) (raw : Word32) : Word32 × Flags :=
  let t0 := addRankOne x (v.rp.getD i one32) (v.cq.getD j one32) raw
  let t1 := mul32 t0.1 (v.rs.getD i one32)
  let t2 := mul32 t1.1 (v.cs.getD j one32)
  let t3 := mul32 t2.1 x.cm
  (t3.1, t0.2 ||| t1.2 ||| t2.2 ||| t3.2)

/-! ### Writing a tile (R21, R22, R111, R112) -/

/-- The kind of register a result makes. -/
structure Dest where
  tag   : Tag
  rows  : Nat
  cols  : Nat
  slots : Slots

def destOf (t : Tile) : Dest := ⟨t.tag, t.rows, t.cols, t.slots⟩

/-- The old value of an inactive element survives a merge (R112). -/
def keeps (old : Tile) (d : Dest) : Bool := old.tag == d.tag && old.rows == d.rows && old.cols == d.cols && old.slots == d.slots

/-- What the requantisation of a block raises for those of its elements that count. Log 21, DEDUCED. -/
def blockConds (tag : Tag) (on : Nat → Bool) (r : Byte × List Word × List Flags) : Conds :=
  ((r.2.1.zip r.2.2).zip (upTo r.2.1.length)).foldl (fun g e =>
    if on e.2 then g ||| flagConds e.1.2 ||| (if r.1 == 0xFF then condNaN else resultConds (elemFmt tag) e.1.1.toNat) else g) 0

/-- The blocks of a block tag written from FP32 values; only the given elements raise flags (R21, R112). -/
def writeBlocks (tag : Tag) (mode : RMode) (w : Word) (on : Nat → Bool) (vs : List XVal) : List Word × List Byte × Conds :=
  let bl := blockLen tag
  let cs := (chunks bl vs.length vs).zip (upTo (vs.length / bl + 1))
  let rs := cs.map fun c => requantise tag mode (fun k => srBits w (c.2 * bl + k)) c.1
  (rs.flatMap (·.2.1), rs.map (·.1),
   (rs.zip (upTo rs.length)).foldl (fun f r => f ||| blockConds tag (fun k => on (r.2 * bl + k)) r.1) 0)

/-- A tile of a result over the register as it was before the instruction: put gives the code of an active element, or its FP32 value for the blocks of a block tag. -/
def writeTile (old : Tile) (d : Dest) (p : BitVec 4096) (zero : Bool) (mode : RMode) (w : Word) (put : Nat → Word × Conds) : Tile × Conds :=
  let kept := !zero && keeps old d
  let n := d.rows * d.cols
  let all := (upTo n).all fun i => p.getLsbD i
  let prev := old.elems.toArray
  let poison := old.poison && kept && !all
  if blockLen d.tag != 0 && !pendingSlots d.slots then
    let prevVals := if kept && !all then (tileValues old).toArray else #[]
    let vs := (upTo n).map fun i =>
      if p.getLsbD i then let r := put i; (x32 (r.1.setWidth 32), r.2)
      else if kept then ((prevVals.getD i (xzero, 0)).1, 0)
      else (xzero, 0)
    let b := writeBlocks d.tag mode w (fun i => p.getLsbD i) (vs.map (·.1))
    ({ old with tag := d.tag, rows := d.rows, cols := d.cols, elems := b.1, side := b.2.1, slots := d.slots, poison := poison },
     vs.foldl (fun f v => f ||| v.2) b.2.2)
  else
    let vs := (upTo n).map fun i => if p.getLsbD i then put i else if kept then (prev.getD i 0, 0) else (0, 0)
    ({ old with tag := d.tag, rows := d.rows, cols := d.cols, elems := vs.map (·.1), side := [], slots := d.slots, poison := poison },
     vs.foldl (fun f v => f ||| v.2) 0)

/-- A floating result rounded straight into a tag without blocks, or an integer tag (R24 to R26). -/
def intoTag (tag : Tag) (mode : RMode) (u : Nat) (x : XVal) : Word × Conds :=
  if isIntTag tag then
    let r := roundInt (intRange tag).1 (intRange tag).2 mode u x
    (intCode tag r.1, flagConds r.2)
  else
    let r := roundTo (elemFmt tag) mode u x
    (BitVec.ofNat 64 r.1, flagConds r.2 ||| resultConds (elemFmt tag) r.1)

/-- W(v, mode) of R111 for element n; rawFinite says that every raw operand is finite (R53). -/
def putW (d : Dest) (mode : RMode) (w : Word) (n : Nat) (rawFinite : Bool) (x : XVal) (extra : Flags) : Word × Conds :=
  if pendingSlots d.slots then
    let r := roundTo fp32 mode (srBits w n) x
    let c := BitVec.ofNat 32 r.1
    (c.setWidth 64, flagConds (r.2 ||| extra) ||| resultConds fp32 r.1 |||
      condIf ((isInf32 c && !xisInf x) || (isNan32 c && rawFinite)) condPFOV)
  else if blockLen d.tag != 0 then
    let r := roundTo fp32 mode (srBits w n) x
    (BitVec.ofNat 64 r.1, flagConds (r.2 ||| extra))
  else
    let r := intoTag d.tag mode (srBits w n) x
    (r.1, r.2 ||| flagConds extra)

/-! ### Resolve (R50 to R52) -/

/-- A tile resolved under a mode, with what its roundings raise. -/
def resolvedTile (t : Tile) (v : SlotVals) (mode : RMode) (w : Word) : Tile × Conds :=
  let d : Dest := ⟨t.tag, t.rows, t.cols, Slots.none⟩
  let raw := t.elems.toArray
  let r := writeTile { t with slots := Slots.none } d (BitVec.allOnes 4096) true mode w fun n =>
    let e := resolveElem t.slots v (n / t.cols) (n % t.cols) ((raw.getD n 0).setWidth 32)
    putW d mode w n false (x32 e.1) e.2
  (r.1, r.2 ||| flagConds v.flags)

/-- The strict bit refuses an implicit resolve of any register listed that needs one (R51, R248). -/
def needLax (s : State) (ts : List Reg) : Eff Unit :=
  match ts.find? fun t => pendingSlots (tileOf s t).slots && (tileOf s t).strict with
  | some t => .error (.fault { cause := .pendingConflict, detail := t.toNat })
  | none => .ok ()

/-- The factor registers that slots read are reserved (R293). -/
def slotsReserved (s : State) (x : Slots) : Bool :=
  [x.rs, x.cs, x.rp, x.cq].all fun d => !slotNeedsFreg d || hasFreg (slotFreg d) s

/-- The factor registers of slots about to be evaluated (R113, R293). -/
def needClean (s : State) (xs : List Slots) : Eff Unit := do
  need (xs.all (slotsReserved s)) .reservedField
  need (xs.all fun x => !slotsPoisoned s.me.m x) .poisonConsumed

def needSlotsClean (s : State) (ts : List Reg) : Eff Unit := needClean s (ts.map fun t => (tileOf s t).slots)

/-- The factor registers that slots read. -/
def slotsFoot (x : Slots) : List FootUnit :=
  ([x.rs, x.cs, x.rp, x.cq].filter slotNeedsFreg).map fun d => .freg (slotFreg d)

/-- An older entry of the V queue is still to write a tile register (log 17, DEDUCED). -/
def queuedWrites (t : Reg) (s : State) : Bool := s.me.m.iq.any fun e => e.foot.writes.contains (.tile t)

/-- The tag, rows and columns that a tile register has once the V queue has performed what it holds. -/
def shapeAhead (t : Reg) (s : State) : Tag × Nat × Nat :=
  match (s.me.m.iq.filterMap fun e => e.shape.bind fun x => if x.1 == t then some x.2 else none).getLast? with
  | some x => x
  | none => let x := tileOf s t
    (x.tag, x.rows, x.cols)

/-- A tile register takes the shape of another. -/
def likeTile (td ta : Reg) (s : State) : Option (Reg × Tag × Nat × Nat) := some (td, shapeAhead ta s)

/-- The footprint of an instruction on tile registers: an implicit resolve may write each, and reads the factor
registers its slots name; any, while an older entry is to write the tile (log 17, DEDUCED). -/
def tilesFoot (ts : List Reg) (s : State) : Foot :=
  ⟨ts.flatMap fun t => if queuedWrites t s then (upTo 16).map (fun n => FootUnit.freg (BitVec.ofNat 4 n)) else slotsFoot (tileOf s t).slots,
   ts.map .tile⟩

def footPlus (x y : Foot) : Foot := ⟨x.reads ++ y.reads, x.writes ++ y.writes⟩

/-- A tile register resolved in place, if it carries anything. -/
def resolveReg (t : Reg) (mode : RMode) (w : Word) (s : State) : Eff State :=
  let x := tileOf s t
  if !pendingSlots x.slots then .ok s
  else do
    notHeld ⟨slotsFoot x.slots, [.tile t]⟩ s
    let v ← evalSlots s.me.m x.slots x.rows x.cols
    let r := resolvedTile x v mode w
    let s' ← raiseStatus 0 r.2 s
    .ok (putTile t r.1 s')

/-- Implicit resolves in operand order (R47, R50). -/
def resolveAll : List Reg → State → Eff State
  | [], s => .ok s
  | t :: rest, s => do
    let s' ← resolveReg t .rne 0 s
    resolveAll rest s'

/-- A result tile of the current V instruction of len words is written. -/
def finishTile (len : Nat) (td : Reg) (r : Tile × Conds) (s : State) : Eff State := do
  notHeld ⟨[], [.tile td]⟩ s
  let s' ← raiseStatus 0 r.2 s
  .ok (retire len (putTile td r.1 s'))

end Sys2Proof.Machine
end

