-- ==== Sys2Proof/Machine/TileMem.lean ====
section
/-! DEFINITION. Tile shapes, loads and stores (R117 to R124). -/
namespace Sys2Proof.Machine

/-! ### Rows in memory (R11, R118, R120) -/

/-- Byte runs, latest first; a span that touches the latest run extends it. -/
def addSpan (acc : List (Nat × Nat)) (o n : Nat) : List (Nat × Nat) :=
  match acc with
  | [] => [(o, n)]
  | (a, k) :: rest => if o ≤ a + k then (a, max (a + k) (o + n) - a) :: rest else (o, n) :: (a, k) :: rest

/-- The runs of bytes of row i that its active elements reach. -/
def rowRuns (tag : Tag) (p : BitVec 4096) (cols i : Nat) : List (Nat × Nat) :=
  ((upTo cols).foldl (fun acc j =>
    if p.getLsbD (i * cols + j) then let e := elemSpot tag j; addSpan acc e.1 e.2.1 else acc) []).reverse

/-- The runs that a store of row i writes: the last element takes the bytes of mere padding with it (R11, log 18, DEDUCED). -/
def storeRuns (tag : Tag) (p : BitVec 4096) (cols i : Nat) : List (Nat × Nat) :=
  let runs := rowRuns tag p cols i
  if p.getLsbD (i * cols + cols - 1) then
    let e := elemSpot tag (cols - 1)
    (addSpan runs.reverse e.1 (rowBytes tag cols - e.1)).reverse
  else runs

/-- The bytes of row i that hold both active and inactive elements (R120). -/
def mixedRuns (tag : Tag) (p : BitVec 4096) (cols i : Nat) : List (Nat × Nat) :=
  let touching := fun (b : Nat) (on : Bool) => (upTo cols).any fun j =>
    let e := elemSpot tag j
    e.1 ≤ b && b < e.1 + e.2.1 && p.getLsbD (i * cols + j) == on
  ((upTo (rowBytes tag cols)).foldl (fun acc b => if touching b true && touching b false then addSpan acc b 1 else acc) []).reverse

/-- The blocks of row i with an active element, as runs of sidecar bytes. -/
def sideRuns (tag : Tag) (p : BitVec 4096) (cols i : Nat) : List (Nat × Nat) :=
  ((upTo (rowBlocks tag cols)).foldl (fun acc b =>
    if (upTo (blockLen tag)).any fun k => p.getLsbD (i * cols + b * blockLen tag + k) then addSpan acc b 1 else acc) []).reverse

/-- A row of an access: its address, the runs, where their bytes stand. -/
structure RowAccess where
  va    : Nat
  runs  : List (Nat × Nat)
  spots : List Spot

/-- The checks of the runs of one row (R262, R312, R319). -/
def checkRow (a : Acc) (va : Nat) (runs : List (Nat × Nat)) (s : State) : Eff RowAccess := do
  let spots ← checkParts a s none (runs.flatMap fun r => accessParts (va + r.1) r.2)
  runs.forM fun r => watchCheck (watchDir a spots) (va + r.1) r.2 s
  .ok ⟨va, runs, spots⟩

/-- A list of checks in order. -/
def checkRows (a : Acc) (s : State) : List (Nat × List (Nat × Nat)) → Eff (List RowAccess)
  | [] => .ok []
  | (va, runs) :: rest => do
    let r ← checkRow a va runs s
    let t ← checkRows a s rest
    .ok (r :: t)

/-- The bytes of a row of len bytes, zero where no run reaches. -/
def rowImage (len : Nat) (runs : List (Nat × Nat)) (data : List Byte) : List Byte :=
  (runs.foldl (fun (acc : List Byte × List Byte) r =>
    (acc.1 ++ List.replicate (r.1 - acc.1.length) 0 ++ acc.2.take r.2, acc.2.drop r.2)) ([], data)).1 ++
    List.replicate len 0

/-- The footprint of rows. -/
def rowsFoot (d : Dir) (rows : List RowAccess) : Foot :=
  let l := rows.flatMap fun r => r.runs.flatMap fun x => bytesUnit (r.va + x.1) x.2
  match d with
  | .read => ⟨l, []⟩
  | .write | .update => ⟨[], l⟩

/-- Address of row i: the stride is signed (R118). -/
def rowAddr (base stride : Word) (i : Nat) : Nat := (base + stride * BitVec.ofNat 64 i).toNat

/-- The access of a tile of a tag (R318). -/
def tileAcc (dir : Dir) (tag : Tag) : Acc :=
  { dir := dir, det := tag == .fp32, coll := elemBits tag == 32, noPack := true }

/-- The rows of elements and of sidecar bytes that an access of a tile reaches, checked in order. -/
def tileRows (dir : Dir) (tag : Tag) (p : BitVec 4096) (rows cols : Nat) (base stride side : Word) (s : State) :
    Eff (List RowAccess × List RowAccess) := do
  if isByteTag tag then
    if base.toNat % (elemBits tag / 8) != 0 then failAt .misaligned base.toNat
    if stride.toNat % (elemBits tag / 8) != 0 then failAt .misaligned base.toNat
  let es ← checkRows (tileAcc dir tag) s ((upTo rows).map fun i =>
    (rowAddr base stride i, if dir == .write then storeRuns tag p cols i else rowRuns tag p cols i))
  let _ ← if dir == .write && !isByteTag tag then
      checkRows { dir := .read, noPack := true } s ((upTo rows).map fun i => (rowAddr base stride i, mixedRuns tag p cols i))
    else .ok []
  let ss ← if blockLen tag == 0 then .ok [] else
    checkRows { dir := dir, noPack := true } s ((upTo rows).map fun i =>
      ((side + BitVec.ofNat 64 (i * rowBlocks tag cols)).toNat, sideRuns tag p cols i))
  .ok (es, ss)

def rowsSpots (l : List RowAccess) : List Spot := l.flatMap (·.spots)

/-- Rows are read together. -/
def awaitRows (l : List RowAccess) (s : State) : Eff Bool := awaitRead (rowsSpots l) s

/-- The caches keep the leaves of rows that were accessed, and no read of them is lost any more. -/
def rowsDone (l : List RowAccess) (s : State) : State :=
  let t := l.foldl (fun t r => r.runs.foldl (fun t x => cached (r.va + x.1) x.2 t) t) s
  if readWasLost (rowsSpots l) s then modM (fun m => forgetLost (rowsSpots l) m s.cur) t else t

/-- The bytes of each row. -/
def readRows (s : State) (len : Nat) (l : List RowAccess) : List (List Byte × Bool × Conds) :=
  l.map fun r => let x := readSpots s r.spots; (rowImage len r.runs x.1, x.2.1, x.2.2)

def rowsPoison (l : List (List Byte × Bool × Conds)) : Bool := l.any (·.2.1)
def rowsConds (l : List (List Byte × Bool × Conds)) : Conds := l.foldl (fun c r => c ||| r.2.2) 0

/-- The granules of whole rows, as the queue holds them for an access not yet performed (log 17, DEDUCED). -/
def rowUnits (tag : Tag) (rows cols : Nat) (base stride side : Word) : List FootUnit :=
  (upTo rows).flatMap fun i => bytesUnit (rowAddr base stride i) (rowBytes tag cols) ++
    (if blockLen tag == 0 then [] else bytesUnit (side + BitVec.ofNat 64 (i * rowBlocks tag cols)).toNat (rowBlocks tag cols))

/-! ### `vshape`, `vld`, `vst`, `vzero`, `vmov` -/

/-- `vshape` (R117). -/
def execVshape (td : Reg) (rows cols : BitVec 8) (tag : Tag) (s : State) : Host.Outcome State Fault Refusal :=
  runV s (hasTile td s) { foot := ⟨[], [.tile td]⟩, shape := some (td, tag, rows.toNat + 1, cols.toNat + 1) } (do
    let r := rows.toNat + 1
    let c := cols.toNat + 1
    need (legalShape tag r c) .shapeLimit
    notHeld ⟨[], [.tile td]⟩ s
    .ok (retire 2 (putTile td { tileOf s td with
      tag := tag, rows := r, cols := c, elems := List.replicate (r * c) 0,
      side := List.replicate (r * rowBlocks tag c) 0, slots := Slots.none, poison := false } s)))

/-- The codes of a loaded tile: active elements from the rows, the others as R112 has it; those that a merge keeps in a block
stand with their old codes under the loaded scale (R118; log 39, DESIGN CHOICE). -/
def loadedTile (old : Tile) (d : Dest) (p : BitVec 4096) (zero poison : Bool) (code : Nat → Word) (side : Nat → Byte) : Tile :=
  let kept := !zero && keeps old d
  let n := d.rows * d.cols
  let prev := old.elems.toArray
  let prevSide := old.side.toArray
  let all := (upTo n).all fun i => p.getLsbD i
  { old with
    tag := d.tag, rows := d.rows, cols := d.cols, slots := d.slots,
    elems := (upTo n).map fun i => if p.getLsbD i then code i else if kept then prev.getD i 0 else 0,
    side := (upTo (d.rows * rowBlocks d.tag d.cols)).map fun b =>
      if (upTo (blockLen d.tag)).any fun k => p.getLsbD (b * blockLen d.tag + k) then side b
      else if kept then prevSide.getD b 0 else 0,
    poison := poison || (old.poison && kept && !all) }

/-- A tile is written by a load. -/
def finishLoad (len : Nat) (td : Reg) (t : Tile) (s : State) : Eff State := do
  notHeld ⟨[], [.tile td]⟩ s
  .ok (retire len (putTile td t s))

/-- `vld` of plain rows (R118). -/
def vldRows (td : Reg) (base stride side : Word) (pm : PMod) (tag : Tag) (r c : Nat) (s : State) : Eff State := do
  let p := predOf s pm.p
  let (es, ss) ← tileRows .read tag p r c base stride side s
  let lost ← awaitRows (es ++ ss) s
  notHeld (rowsFoot .read (es ++ ss)) s
  let eb := (readRows s (rowBytes tag c) es).toArray
  let sb := (readRows s (rowBlocks tag c) ss).toArray
  let nb := rowBlocks tag c
  let t := loadedTile (tileOf s td) ⟨tag, r, c, Slots.none⟩ p pm.zero (lost || rowsPoison eb.toList || rowsPoison sb.toList)
    (fun i => rowElem tag (eb.getD (i / c) ([], false, 0)).1 (i % c))
    (fun b => nth (sb.getD (b / nb) ([], false, 0)).1 (b % nb) 0)
  let conds := rowsConds eb.toList
  finishLoad 2 td t (rowsDone (es ++ ss) (if conds == 0 then s else raiseAtom conds base.toNat (rowBytes tag c)
    (spotsScope (rowsSpots es) s) s))

/-- `vld` through the block decoder (R119). -/
def vldBlock (td : Reg) (base : Word) (pm : PMod) (tag : Tag) (r c : Nat) (s : State) : Eff State := do
  need (tag == .e4m3 || tag == .e2m1) .tagMismatch
  need (r == 64 && c == 64) .shapeMismatch
  if base.toNat % 8 != 0 then failAt .misaligned base.toNat
  let codes ← readBlock tag base.toNat s
  let arr := codes.toArray
  finishLoad 2 td (loadedTile (tileOf s td) ⟨tag, r, c, Slots.none⟩ (predOf s pm.p) pm.zero false
    (fun i => arr.getD i 0) (fun _ => 0)) (blockCached base.toNat s)

/-- `vld` (R118, R119). -/
def execVld (td ta tb : Reg) (pm : PMod) (side : Reg) (tag : Tag) (rows cols : BitVec 8) (s : State) : Host.Outcome State Fault Refusal :=
  runV s (hasTile td s)
      { foot := ⟨rowUnits tag (rows.toNat + 1) (cols.toNat + 1) (rawReg s ta) (rawReg s tb) (rawReg s side), [.tile td]⟩,
        uses := [ta, tb, side], shape := some (td, tag, rows.toNat + 1, cols.toNat + 1) } (do
    let r := rows.toNat + 1
    let c := cols.toNat + 1
    let base ← rdBits s ta
    if inPackPage base.toNat s then do
      need (tag == .e4m3 || tag == .e2m1) .tagMismatch
      need (r == 64 && c == 64) .shapeMismatch
      needReg s ta
      vldBlock td base pm tag r c s
    else do
      need (legalShape tag r c) .shapeLimit
      needReg s ta
      let stride ← rd s tb
      let sd ← rd s side
      vldRows td base stride sd pm tag r c s)

/-- The bytes of a row to store: active elements over what stands there (R120). -/
def mergeRow (tag : Tag) (p : BitVec 4096) (cols i : Nat) (codes : Array Word) (old : List Byte) : List Byte :=
  let w := elemBits tag
  natToBytes (rowBytes tag cols) ((upTo cols).foldl (fun v j =>
    let n := i * cols + j
    if p.getLsbD n then
      let o := v / 2 ^ (j * w) % 2 ^ w
      v - o * 2 ^ (j * w) + (codes.getD n 0).toNat % 2 ^ w * 2 ^ (j * w)
    else v) (bytesToNat old) % 2 ^ (cols * w))

/-- The bytes of the runs of a row. -/
def runBytes (runs : List (Nat × Nat)) (row : List Byte) : List Byte := runs.flatMap fun r => (row.drop r.1).take r.2

/-- Rows written in order, each from the bytes that data gives it. -/
def writeRows : List (RowAccess × List Byte) → State → Eff State
  | [], s => .ok s
  | (r, d) :: rest, s => do
    let s' ← writeSpots d false r.spots s
    writeRows rest s'

/-- One row of a tile stored: 4-bit and 6-bit neighbours are kept (R120). -/
def storeRow (tag : Tag) (p : BitVec 4096) (cols i : Nat) (codes : Array Word) (r : RowAccess) (s : State) : Eff State :=
  let old := if isByteTag tag then [] else rowImage (rowBytes tag cols) r.runs (readSpots s r.spots).1
  writeSpots (runBytes r.runs (mergeRow tag p cols i codes (old.take (rowBytes tag cols)))) false r.spots s

def storeRows (tag : Tag) (p : BitVec 4096) (cols : Nat) (codes : Array Word) : List (RowAccess × Nat) → State → Eff State
  | [], s => .ok s
  | (r, i) :: rest, s => do
    let s' ← storeRow tag p cols i codes r s
    storeRows tag p cols codes rest s'

/-- A resolved tile stored (R120). -/
def storeTile (t : Tile) (p : BitVec 4096) (base stride side : Word) (s : State) : Eff State := do
  let (es, ss) ← tileRows .write t.tag p t.rows t.cols base stride side s
  notHeld (rowsFoot .write (es ++ ss)) s
  if isByteTag t.tag then waitUntil (inOrder true (rowsSpots (es ++ ss)) s)
  else
    let _ ← awaitRows (es ++ ss) s
  let s ← storeRows t.tag p t.cols t.elems.toArray (es.zip (upTo t.rows)) s
  let nb := rowBlocks t.tag t.cols
  let s ← writeRows ((ss.zip (upTo t.rows)).map fun x =>
    (x.1, runBytes x.1.runs ((t.side.drop (x.2 * nb)).take nb))) s
  .ok (rowsDone (es ++ ss) s)

/-- `vst` (R120); a tag with no sidecar does not read the sidecar register. -/
def execVst (td ta tb : Reg) (p : PIdx) (side : Reg) (s : State) : Host.Outcome State Fault Refusal :=
  let t := tileOf s td
  let h := shapeAhead td s
  runV s (hasTile td s)
      { foot := footPlus (tilesFoot [td] s) ⟨[], rowUnits h.1 h.2.1 h.2.2 (rawReg s ta) (rawReg s tb) (rawReg s side)⟩,
        uses := [ta, tb, side] } (do
    need (blockLen t.tag != 0 || side == 0) .reservedField
    needTags [t] (fun _ => true)
    needLax s [td]
    needUnpoisoned [t]
    let base ← rd s ta
    let stride ← rd s tb
    let sd ← rd s side
    needSlotsClean s [td]
    let s ← resolveReg td .rne 0 s
    let s ← storeTile (tileOf s td) (predOf s p) base stride sd s
    .ok (retire 1 s))

/-- `vzero.keep` (R121). A block that it zeroes only in part is requantised under RNE (log 39, DESIGN CHOICE). -/
def execVzeroKeep (td : Reg) (pm : PMod) (s : State) : Host.Outcome State Fault Refusal :=
  runV s (hasTile td s) { foot := tilesFoot [td] s } (do
    let t := tileOf s td
    needTags [t] (fun _ => true)
    finishTile 1 td (writeTile t ⟨t.tag, t.rows, t.cols, Slots.none⟩ (predOf s pm.p) pm.zero .rne 0 (fun _ => (0, 0))) s)

/-- `vzero.empty` (R121). -/
def execVzeroEmpty (td : Reg) (s : State) : Host.Outcome State Fault Refusal :=
  runV s (hasTile td s) { foot := ⟨[], [.tile td]⟩, shape := some (td, .empty, 0, 0) } (do
    notHeld ⟨[], [.tile td]⟩ s
    .ok (retire 1 (putTile td { tileOf s td with
      tag := .empty, rows := 0, cols := 0, elems := [], side := [], slots := Slots.none, poison := false } s)))

/-- The blocks of a block tag: verbatim ones, and the rest requantised from values; only the given elements raise flags (R21, R22,
R112, R132). -/
def mixBlocks (tag : Tag) (n : Nat) (on : Nat → Bool) (verbatim : Nat → Option (List Word × Byte)) (val : Nat → XVal × Flags) :
    List Word × List Byte × Conds :=
  let bl := blockLen tag
  let rs : List ((Byte × List Word × List Flags) × Conds) := (upTo (n / bl)).map fun b =>
    match verbatim b with
    | some v => ((v.2, v.1, []), 0)
    | none =>
      let vs := (upTo bl).map fun k => val (b * bl + k)
      let r := requantise tag .rne (fun _ => 0) (vs.map (·.1))
      (r, blockConds tag (fun k => on (b * bl + k)) r ||| flagConds (vs.foldl (fun f v => f ||| v.2) 0))
  (rs.flatMap (·.1.2.1), rs.map (·.1.1), rs.foldl (fun f r => f ||| r.2) 0)

/-- Block b of a tile: its elements and scale. -/
def tileBlock (t : Tile) (b : Nat) : List Word × Byte := ((t.elems.drop (b * blockLen t.tag)).take (blockLen t.tag), nth t.side b 0)

/-- The bits of a tile copied into another register under R112; a block that is not copied whole is requantised under RNE
(R21; log 39, DESIGN CHOICE). -/
def copiedTile (old src : Tile) (p : BitVec 4096) (zero : Bool) : Tile × Conds :=
  let d := destOf src
  if blockLen src.tag == 0 || pendingSlots src.slots then
    let a := src.elems.toArray
    writeTile old d p zero .rne 0 fun n => (a.getD n 0, 0)
  else
    let n := src.rows * src.cols
    let bl := blockLen src.tag
    let kept := !zero && keeps old d
    let all := (upTo n).all fun i => p.getLsbD i
    let sv := if all then #[] else (tileValues src).toArray
    let ov := if kept && !all then (tileValues old).toArray else #[]
    let m := mixBlocks src.tag n (fun i => p.getLsbD i)
      (fun b => if (upTo bl).all fun k => p.getLsbD (b * bl + k) then some (tileBlock src b) else none)
      (fun i => if p.getLsbD i then sv.getD i (xzero, 0) else if kept then ((ov.getD i (xzero, 0)).1, 0) else (xzero, 0))
    ({ old with tag := src.tag, rows := src.rows, cols := src.cols, elems := m.1, side := m.2.1, slots := src.slots,
                poison := old.poison && kept && !all }, m.2.2)

/-- `vmov` (R122). -/
def execVmov (td ta : Reg) (pm : PMod) (s : State) : Host.Outcome State Fault Refusal :=
  runV s (hasTile td s && hasTile ta s) { foot := tilesFoot [td, ta] s, shape := likeTile td ta s } (do
    let t := tileOf s ta
    needTags [t] (fun _ => true)
    needUnpoisoned [t]
    finishTile 1 td (copiedTile (tileOf s td) t (predOf s pm.p) pm.zero) s)

/-! ### `vgather`, `vscat` (R123) -/

/-- The address of an element by its index. -/
def indexAddr (base : Word) (eb : Nat) (idx : Word) : Nat := (base + wrap64 (signed 32 idx.toNat) * BitVec.ofNat 64 eb).toNat

/-- The checks of the active elements, in order. -/
def indexRows (dir : Dir) (tag : Tag) (p : BitVec 4096) (base : Word) (idx : List Word) (s : State) : Eff (List RowAccess) :=
  let eb := elemBits tag / 8
  checkRows (tileAcc dir tag) s (((idx.zip (upTo idx.length)).filter fun x => p.getLsbD x.2).map fun x =>
    (indexAddr base eb x.1, [(0, eb)]))

/-- The checks that both make (R114 to R116). -/
def indexChecks (t i : Tile) : Eff Unit := do
  needTags [t, i] (fun _ => true)
  need (isByteTag t.tag && i.tag == .i32) .tagMismatch
  needEqualShapes [t, i]

/-- The granules of every element that an index tile names. -/
def indexUnits (td ta tb : Reg) (s : State) : List FootUnit :=
  let eb := elemBits (shapeAhead td s).1 / 8
  (tileOf s tb).elems.flatMap fun i => bytesUnit (indexAddr (rawReg s ta) eb i) eb

/-- `vgather` (R123). -/
def execVgather (td ta tb : Reg) (pm : PMod) (s : State) : Host.Outcome State Fault Refusal :=
  runV s (hasTile td s && hasTile tb s)
      { foot := footPlus (tilesFoot [td, tb] s) ⟨indexUnits td ta tb s, []⟩, uses := [ta],
        ready := !queuedWrites tb s } (do
    let t := tileOf s td
    let i := tileOf s tb
    indexChecks t i
    needUnpoisoned [i]
    let base ← rd s ta
    if base.toNat % (elemBits t.tag / 8) != 0 then failAt .misaligned base.toNat
    let p := predOf s pm.p
    let rs ← indexRows .read t.tag p base i.elems s
    let lost ← awaitRows rs s
    notHeld (rowsFoot .read rs) s
    let data := (readRows s (elemBits t.tag / 8) rs).toArray
    let act := (upTo (t.rows * t.cols)).filter fun n => p.getLsbD n
    let codes := (act.zip data.toList).foldl (fun (a : Array Word) x =>
      a.setIfInBounds x.1 (rowElem t.tag x.2.1 0)) (Array.replicate (t.rows * t.cols) 0)
    let conds := rowsConds data.toList
    finishLoad 1 td (loadedTile t ⟨t.tag, t.rows, t.cols, Slots.none⟩ p pm.zero (lost || rowsPoison data.toList)
      (fun n => codes.getD n 0) (fun _ => 0))
      (rowsDone rs (if conds == 0 then s else raiseAtom conds base.toNat 4 (spotsScope (rowsSpots rs) s) s)))

/-- `vscat` (R123). -/
def execVscat (td ta tb : Reg) (p : PIdx) (s : State) : Host.Outcome State Fault Refusal :=
  runV s (hasTile td s && hasTile tb s)
      { foot := footPlus (tilesFoot [td, tb] s) ⟨[], indexUnits td ta tb s⟩, uses := [ta],
        ready := !queuedWrites tb s } (do
    let t := tileOf s td
    let i := tileOf s tb
    indexChecks t i
    needLax s [td]
    needUnpoisoned [t, i]
    let base ← rd s ta
    needSlotsClean s [td]
    let s ← resolveReg td .rne 0 s
    let t := tileOf s td
    let eb := elemBits t.tag / 8
    if base.toNat % eb != 0 then failAt .misaligned base.toNat
    let pr := predOf s p
    let rs ← indexRows .write t.tag pr base i.elems s
    notHeld (rowsFoot .write rs) s
    waitUntil (inOrder true (rowsSpots rs) s)
    let vals := ((t.elems.zip (upTo t.elems.length)).filter fun x => pr.getLsbD x.2).map fun x => natToBytes eb x.1.toNat
    let s ← writeRows (rs.zip vals) s
    .ok (retire 1 (rowsDone rs s)))

/-! ### `vfld`, `vfst` (R124) -/

def fregAcc (dir : Dir) : Acc := { dir := dir, det := true, coll := true, noPack := true }

/-- `vfld` (R124). -/
def execVfld (f : FIdx) (a : Reg) (s : State) : Host.Outcome State Fault Refusal :=
  runV s (hasFreg f s) { foot := ⟨bytesUnit (rawReg s a).toNat 1024, [.freg f]⟩, uses := [a] } (do
    let x ← rd s a
    if x.toNat % 64 != 0 then failAt .misaligned x.toNat
    notHeld ⟨bytesUnit x.toNat 1024, [.freg f]⟩ s
    let r ← loadBytes (fregAcc .read) x.toNat 1024 s
    let ws := (chunks 4 256 r.1).map fun b => BitVec.ofNat 32 (bytesToNat b)
    .ok (retire 1 (putFreg f (fregWith (fregOf s.me.m f) ws r.2.1) r.2.2)))

/-- `vfst` (R124). -/
def execVfst (f : FIdx) (a : Reg) (s : State) : Host.Outcome State Fault Refusal :=
  runV s (hasFreg f s) { foot := ⟨[.freg f], bytesUnit (rawReg s a).toNat 1024⟩, uses := [a] } (do
    let x ← rd s a
    notHeld ⟨[.freg f], bytesUnit x.toNat 1024⟩ s
    needFreg s.me.m f
    if x.toNat % 64 != 0 then failAt .misaligned x.toNat
    let s ← storeBytes (fregAcc .write) x.toNat ((fregOf s.me.m f).vals.toList.flatMap fun w => natToBytes 4 w.toNat) s
    .ok (retire 1 s))

end Sys2Proof.Machine
end

