-- ==== Sys2Proof/Machine/TileArith.lean ====
section
/-! DEFINITION. Element-wise tile arithmetic: R125 to R130, R150, R151, with the slots as R47 treats them. -/
namespace Sys2Proof.Machine

/-! ### Lanes -/

/-- A result element: its exact value, the flags beyond its rounding, and whether every operand was finite. -/
structure Lane where
  x      : XVal
  extra  : Flags
  finite : Bool

/-- A lane from an operation on operand values, each with the flags of its decoding. -/
def laneOf (op : List XVal → XVal) (xs : List (XVal × Flags)) : Lane :=
  let vs := xs.map (·.1)
  let r := op vs
  ⟨r, xs.foldl (fun f x => f ||| x.2) 0 ||| invalid r vs, vs.all fun v => !xisNan v && !xisInf v⟩

def opX (xs : List XVal) (k : Nat) : XVal := nth xs k .nan

/-- The values of a tile register. -/
def valuesOf (s : State) (t : Reg) : Array (XVal × Flags) := (tileValues (tileOf s t)).toArray

/-- The operand values of element n. -/
def lanesAt (vs : List (Array (XVal × Flags))) (n : Nat) : List (XVal × Flags) := vs.map fun a => a.getD n (.nan, 0)

/-- The result of floating lanes, written by W over the register's old contents (R111, R112). -/
def writeLanes (td : Reg) (old : Tile) (d : Dest) (pm : PMod) (mode : RMode) (w : Word) (lane : Nat → Lane) (s : State) : Eff State :=
  finishTile 1 td (writeTile old d (predOf s pm.p) pm.zero mode w fun n =>
    let l := lane n
    putW d mode w n l.finite l.x l.extra) s

/-- A tile holds integers: no raw values of a pending register (R41, R126). -/
def isIntTile (t : Tile) : Bool := isIntTag t.tag && !pendingSlots t.slots

def intAt (t : Tile) : Array Int := (t.elems.map (intValue t.tag)).toArray

/-- The result of integer lanes, wrapping; no flag is raised (R126). -/
def writeInts (td : Reg) (old : Tile) (d : Dest) (pm : PMod) (lane : Nat → Int) (s : State) : Eff State :=
  finishTile 1 td (writeTile old d (predOf s pm.p) pm.zero .rne 0 fun n => (intCode d.tag (lane n), 0)) s

/-! ### Two and three operands (R125, R126) -/

/-- The checks that come before the resolves of R116. -/
def needSiblings (any : Bool) (accept : Tag → Bool) (ts : List Tile) : Eff Unit := do
  needTags ts accept
  needEqualTags any ts
  needEqualShapes ts

/-- What an instruction does with its operands' slots: which it resolves, in order, and what the result carries, read
after that (R47). -/
structure Plan where
  resolve : List Reg
  slots   : State → Slots

def planNone (ts : List Reg) : Plan := ⟨ts, fun _ => Slots.none⟩

/-- `vadd` and `vsub`. -/
def planSum (ta tb : Reg) (s : State) : Plan :=
  let a := (tileOf s ta).slots
  let b := (tileOf s tb).slots
  if a.rs == b.rs && a.cs == b.cs && a.cm == b.cm && !rankOne b then ⟨[], fun t => (tileOf t ta).slots⟩
  else planNone [ta, tb]

/-- The slots of a product: each kind from the operand that has one. -/
def productSlots (a b : Slots) : Slots :=
  { rs := if a.rs != 0 then a.rs else b.rs, cs := if a.cs != 0 then a.cs else b.cs, rp := 0, cq := 0,
    cm := if a.cm != one32 then a.cm else b.cm }

/-- `vmul`. -/
def planProduct (ta tb : Reg) (s : State) : Plan :=
  let a := (tileOf s ta).slots
  let b := (tileOf s tb).slots
  if rankOne a || rankOne b then planNone [ta, tb]
  else ⟨if (a.rs != 0 && b.rs != 0) || (a.cs != 0 && b.cs != 0) || (a.cm != one32 && b.cm != one32) then [tb] else [],
        fun t => productSlots (tileOf t ta).slots (tileOf t tb).slots⟩

/-- `vmuls`, `vscl` and `vneg`. -/
def planScale (ta : Reg) (s : State) : Plan :=
  if rankOne (tileOf s ta).slots then planNone [ta] else ⟨[], fun t => (tileOf t ta).slots⟩

/-- Checks 5 and 6 of R116, then the resolves. -/
def carryOut (p : Plan) (reads : List Reg) (s : State) : Eff State := do
  needLax s p.resolve
  needUnpoisoned (reads.map (tileOf s))
  needSlotsClean s p.resolve
  resolveAll p.resolve s

/-- The instruction's word under SR, and the state after its resolves (R30, R47). -/
def prepared (p : Plan) (reads : List Reg) (mode : RMode) (s : State) : Eff (Word × State) := do
  let r := drawWord 0 mode s
  let s' ← carryOut p reads r.2
  .ok (r.1, s')

/-- A floating or integer operation on sibling tiles; the result takes the first one's tag. -/
def elementwise (td : Reg) (ts : List Reg) (pm : PMod) (mode : RMode) (any ints : Bool) (p : State → Plan)
    (fop : List XVal → XVal) (iop : List Int → Int) (s : State) : Host.Outcome State Fault Refusal :=
  runV s (hasTile td s && ts.all fun t => hasTile t s) { foot := tilesFoot (td :: ts) s, draws := mode == .sr, shape := likeTile td (ts.headD td) s } (do
    needSiblings any (fun g => isFloatTag g || (ints && isIntTag g)) (ts.map (tileOf s))
    let pl := p s
    let old := tileOf s td
    let (w, s) ← prepared pl ts mode s
    match ts with
    | [] => .ok s
    | ta :: _ =>
      let a := tileOf s ta
      let d : Dest := ⟨a.tag, a.rows, a.cols, pl.slots s⟩
      if isIntTile a then
        let vs := ts.map fun t => intAt (tileOf s t)
        writeInts td old d pm (fun n => iop (vs.map fun v => v.getD n 0)) s
      else
        let vs := ts.map (valuesOf s)
        writeLanes td old d pm mode w (fun n => laneOf fop (lanesAt vs n)) s)

def intX (xs : List Int) (k : Nat) : Int := nth xs k 0

/-- The mode whose exact zero sums are −0 (R125). -/
def isRdn (mode : RMode) : Bool := mode == .rdn

def execVadd (td ta tb : Reg) (pm : PMod) (mode : RMode) (any : Bool) (s : State) : Host.Outcome State Fault Refusal :=
  elementwise td [ta, tb] pm mode any true (planSum ta tb) (fun x => xadd (isRdn mode) (opX x 0) (opX x 1))
    (fun x => intX x 0 + intX x 1) s

def execVsub (td ta tb : Reg) (pm : PMod) (mode : RMode) (any : Bool) (s : State) : Host.Outcome State Fault Refusal :=
  elementwise td [ta, tb] pm mode any true (planSum ta tb) (fun x => xadd (isRdn mode) (opX x 0) (xneg (opX x 1)))
    (fun x => intX x 0 - intX x 1) s

def execVmul (td ta tb : Reg) (pm : PMod) (mode : RMode) (any : Bool) (s : State) : Host.Outcome State Fault Refusal :=
  elementwise td [ta, tb] pm mode any false (planProduct ta tb) (fun x => xmul (opX x 0) (opX x 1)) (fun x => intX x 0) s

/-- x · y + z with one rounding; z is td. -/
def execVfma (td ta tb : Reg) (pm : PMod) (mode : RMode) (any : Bool) (s : State) : Host.Outcome State Fault Refusal :=
  elementwise td [ta, tb, td] pm mode any false (fun _ => planNone [td, ta, tb])
    (fun x => xadd (isRdn mode) (xmul (opX x 0) (opX x 1)) (opX x 2)) (fun x => intX x 0) s

def execVmax (td ta tb : Reg) (pm : PMod) (mode : RMode) (any : Bool) (s : State) : Host.Outcome State Fault Refusal :=
  elementwise td [ta, tb] pm mode any true (fun _ => planNone [ta, tb]) (fun x => xmax (opX x 0) (opX x 1))
    (fun x => max (intX x 0) (intX x 1)) s

def execVmin (td ta tb : Reg) (pm : PMod) (mode : RMode) (any : Bool) (s : State) : Host.Outcome State Fault Refusal :=
  elementwise td [ta, tb] pm mode any true (fun _ => planNone [ta, tb]) (fun x => xmin (opX x 0) (opX x 1))
    (fun x => min (intX x 0) (intX x 1)) s

def execVabs (td ta : Reg) (pm : PMod) (mode : RMode) (s : State) : Host.Outcome State Fault Refusal :=
  elementwise td [ta] pm mode false true (fun _ => planNone [ta]) (fun x => xabs (opX x 0)) (fun x => (intX x 0).natAbs) s

def execVneg (td ta : Reg) (pm : PMod) (mode : RMode) (s : State) : Host.Outcome State Fault Refusal :=
  elementwise td [ta] pm mode false true (planScale ta) (fun x => xneg (opX x 0)) (fun x => -intX x 0) s

/-! ### A scalar or a factor register beside a tile (R125, R127, R128) -/

/-- Lanes of one floating tile and a value for each element. -/
def withValue (td ta : Reg) (old : Tile) (pm : PMod) (mode : RMode) (p : Plan) (w : Word) (c : Nat → Nat → XVal)
    (op : XVal → XVal → XVal) (s : State) : Eff State :=
  let a := tileOf s ta
  let vs := valuesOf s ta
  writeLanes td old ⟨a.tag, a.rows, a.cols, p.slots s⟩ pm mode w
    (fun n => laneOf (fun x => op (opX x 0) (opX x 1)) [vs.getD n (.nan, 0), (c (n / a.cols) (n % a.cols), 0)]) s

/-- The FP32 value of a scalar register's low half (R125). -/
def scalar32 (x : Word) : XVal := x32 (x.setWidth 32)

def withScalar (td ta tb : Reg) (pm : PMod) (mode : RMode) (p : State → Plan) (op : XVal → XVal → XVal) (s : State) :
    Host.Outcome State Fault Refusal :=
  runV s (hasTile td s && hasTile ta s) { foot := tilesFoot [td, ta] s, uses := [tb], draws := mode == .sr, shape := likeTile td ta s } (do
    needTags [tileOf s ta] isFloatTag
    let pl := p s
    let old := tileOf s td
    let r := drawWord 0 mode s
    needLax s pl.resolve
    let c ← rd s tb
    let s ← carryOut pl [ta] r.2
    withValue td ta old pm mode pl r.1 (fun _ _ => scalar32 c) op s)

def execVadds (td ta tb : Reg) (pm : PMod) (mode : RMode) (s : State) : Host.Outcome State Fault Refusal :=
  withScalar td ta tb pm mode (fun _ => planNone [ta]) (xadd (isRdn mode)) s

def execVmuls (td ta tb : Reg) (pm : PMod) (mode : RMode) (s : State) : Host.Outcome State Fault Refusal :=
  withScalar td ta tb pm mode (planScale ta) xmul s

/-- `vscl` (R128). -/
def execVscl (td ta : Reg) (f : FIdx) (pm : PMod) (mode : RMode) (cols : Bool) (s : State) : Host.Outcome State Fault Refusal :=
  runV s (hasTile td s && hasTile ta s && hasFreg f s) { foot := footPlus (tilesFoot [td, ta] s) ⟨[.freg f], []⟩, draws := mode == .sr, shape := likeTile td ta s } (do
    needTags [tileOf s ta] isFloatTag
    let pl := planScale ta s
    let old := tileOf s td
    let r := drawWord 0 mode s
    needLax s pl.resolve
    notHeld ⟨[.freg f], []⟩ s
    needFreg s.me.m f
    let s ← carryOut pl [ta] r.2
    withValue td ta old pm mode pl r.1 (fun i j => x32 (fregAt s.me.m f (if cols then j else i))) xmul s)

/-- A factor register broadcast into a shaped tile (R127). -/
def broadcast (td : Reg) (f : FIdx) (pm : PMod) (mode : RMode) (cols : Bool) (s : State) : Host.Outcome State Fault Refusal :=
  runV s (hasTile td s && hasFreg f s) { foot := footPlus (tilesFoot [td] s) ⟨[.freg f], []⟩, draws := mode == .sr } (do
    let t := tileOf s td
    needTags [t] isFloatTag
    notHeld ⟨[.freg f], []⟩ s
    needFreg s.me.m f
    let r := drawWord 0 mode s
    writeLanes td t ⟨t.tag, t.rows, t.cols, Slots.none⟩ pm mode r.1
      (fun n => ⟨x32 (fregAt s.me.m f (if cols then n % t.cols else n / t.cols)), 0, true⟩) r.2)

def execVbcr (td : Reg) (f : FIdx) (pm : PMod) (mode : RMode) (s : State) : Host.Outcome State Fault Refusal :=
  broadcast td f pm mode false s
def execVbcc (td : Reg) (f : FIdx) (pm : PMod) (mode : RMode) (s : State) : Host.Outcome State Fault Refusal :=
  broadcast td f pm mode true s

/-! ### Conversion and functions (R129, R130) -/

/-- An integer taken into another integer format (R26). -/
def intToInt (tag : Tag) (i : Int) : Word × Conds :=
  let r := intRange tag
  if i < r.1 then (intCode tag r.1, condOF) else if r.2 < i then (intCode tag r.2, condOF) else (intCode tag i, 0)

/-- `vcvt` (R129). -/
def execVcvt (td ta : Reg) (tag : Tag) (pm : PMod) (mode : RMode) (s : State) : Host.Outcome State Fault Refusal :=
  runV s (hasTile td s && hasTile ta s) { foot := tilesFoot [td, ta] s, draws := mode == .sr, shape := some (td, tag, (shapeAhead ta s).2) } (do
    let t := tileOf s ta
    needTags [t] arithTag
    need (legalShape tag t.rows t.cols) .shapeLimit
    let old := tileOf s td
    let (w, s) ← prepared (planNone [ta]) [ta] mode s
    let t := tileOf s ta
    let d : Dest := ⟨tag, t.rows, t.cols, Slots.none⟩
    if isIntTag t.tag && isIntTag tag then
      let vs := intAt t
      finishTile 1 td (writeTile old d (predOf s pm.p) pm.zero mode w fun n => intToInt tag (vs.getD n 0)) s
    else
      let vs := valuesOf s ta
      writeLanes td old d pm mode w (fun n => laneOf (fun x => opX x 0) [vs.getD n (.nan, 0)]) s)

/-- A function of each element. -/
def unaryTile (td ta : Reg) (pm : PMod) (mode : RMode) (f : XVal → XVal) (s : State) : Host.Outcome State Fault Refusal :=
  elementwise td [ta] pm mode false false (fun _ => planNone [ta]) (fun x => f (opX x 0)) (fun x => intX x 0) s

def execVexp2 (td ta : Reg) (pm : PMod) (mode : RMode) (s : State) : Host.Outcome State Fault Refusal := unaryTile td ta pm mode xexp2 s
def execVlog2 (td ta : Reg) (pm : PMod) (mode : RMode) (s : State) : Host.Outcome State Fault Refusal := unaryTile td ta pm mode xlog2 s
def execVrcp (td ta : Reg) (pm : PMod) (mode : RMode) (s : State) : Host.Outcome State Fault Refusal := unaryTile td ta pm mode (xdiv xone) s
def execVrsq (td ta : Reg) (pm : PMod) (mode : RMode) (s : State) : Host.Outcome State Fault Refusal := unaryTile td ta pm mode xrsqrt s
def execVsig (td ta : Reg) (pm : PMod) (mode : RMode) (s : State) : Host.Outcome State Fault Refusal := unaryTile td ta pm mode xsig s
def execVtanh (td ta : Reg) (pm : PMod) (mode : RMode) (s : State) : Host.Outcome State Fault Refusal := unaryTile td ta pm mode xtanh s

/-! ### `vrope`, `vsmerge` (R150, R151) -/

/-- The cosine and sine of the angle of row i and pair k, and what their roundings raise. -/
def ropeAngle (m : Member) (f : FIdx) (i k : Nat) : Word32 × Word32 × Flags :=
  let th := mul32 (fregAt m (f + 1) i) (fregAt m f k)
  let c := xcos (x32 th.1)
  let n := xsin (x32 th.1)
  let rc := r32 c
  let rn := r32 n
  let nv := onlyIf (xisNan (x32 th.1) || xisInf (x32 th.1)) flagNV
  (rc.1, rn.1, th.2 ||| rc.2 ||| rn.2 ||| nv)

/-- `vrope` (R150). -/
def execVrope (td ta : Reg) (f : FIdx) (pm : PMod) (mode : RMode) (s : State) : Host.Outcome State Fault Refusal :=
  runV s (hasTile td s && hasTile ta s && hasFreg f s && hasFreg (f + 1) s)
      { foot := footPlus (tilesFoot [td, ta] s) ⟨[.freg f, .freg (f + 1)], []⟩, draws := mode == .sr, shape := likeTile td ta s } (do
    let t := tileOf s ta
    needTags [t] isFloatTag
    need (t.cols % 2 == 0) .shapeMismatch
    let pl := planNone [ta]
    let old := tileOf s td
    let r := drawWord 0 mode s
    needLax s pl.resolve
    notHeld ⟨[.freg f, .freg (f + 1)], []⟩ s
    needFreg s.me.m f
    needFreg s.me.m (f + 1)
    let s ← carryOut pl [ta] r.2
    let t := tileOf s ta
    let vs := valuesOf s ta
    let d : Dest := ⟨t.tag, t.rows, t.cols, Slots.none⟩
    writeLanes td old d pm mode r.1 (fun n =>
      let i := n / t.cols
      let j := n % t.cols
      let a := ropeAngle s.me.m f i (j / 2)
      let x := vs.getD (n - j % 2) (.nan, 0)
      let y := vs.getD (n - j % 2 + 1) (.nan, 0)
      let p := if j % 2 == 0 then xmul x.1 (x32 a.1) else xmul x.1 (x32 a.2.1)
      let q := if j % 2 == 0 then xneg (xmul y.1 (x32 a.2.1)) else xmul y.1 (x32 a.1)
      let v := xadd (isRdn mode) p q
      ⟨v, x.2 ||| y.2 ||| a.2.2 ||| invalid v [x.1, y.1, x32 a.1, x32 a.2.1], true⟩) s)

/-- The weight of one state of a row (R151). -/
def mergeWeight (m1 m : XVal) : Word32 × Flags :=
  let e := r32 (xadd false m1 (xneg m))
  let r := r32 (xexp2 (x32 e.1))
  (r.1, e.2 ||| r.2)

/-- Element j of a merged row: a and b give the elements of the two states. -/
def mergeLane (a b : Nat → XVal) (j : Nat) : Word32 × Flags :=
  let m1 := a 0
  let m2 := b 0
  let m := xmax m1 m2
  if xisNan m || (match m with | .inf neg => !neg | _ => false) then (nan32, 0)
  else
    let w := if xisInf m then ((0, 0), (0, 0)) else (mergeWeight m1 m, mergeWeight m2 m)
    if j == 0 then (r32 m)
    else
      let u := mul32 ((r32 (a j)).1) w.1.1
      let v := mul32 ((r32 (b j)).1) w.2.1
      let t := add32 u.1 v.1
      (t.1, w.1.2 ||| w.2.2 ||| u.2 ||| v.2 ||| t.2)

/-- `vsmerge` (R151). -/
def execVsmerge (td ta tb : Reg) (s : State) : Host.Outcome State Fault Refusal :=
  runV s (hasTile td s && hasTile ta s && hasTile tb s) { foot := tilesFoot [td, ta, tb] s, shape := likeTile td ta s } (do
    let ts := [tileOf s ta, tileOf s tb]
    needTags ts (fun g => g == .fp32)
    needEqualShapes ts
    need ((tileOf s ta).cols != 1) .shapeMismatch
    let s ← carryOut (planNone [ta, tb]) [ta, tb] s
    let t := tileOf s ta
    let va := valuesOf s ta
    let vb := valuesOf s tb
    finishTile 1 td (writeTile (tileOf s td) ⟨.fp32, t.rows, t.cols, Slots.none⟩ (BitVec.allOnes 4096) true .rne 0 fun n =>
      let base := n / t.cols * t.cols
      let r := mergeLane (fun j => (va.getD (base + j) (.nan, 0)).1) (fun j => (vb.getD (base + j) (.nan, 0)).1) (n - base)
      (r.1.setWidth 64, flagConds r.2 ||| resultConds fp32 r.1.toNat)) s)

end Sys2Proof.Machine
end

