-- ==== Sys2Proof/Machine/TileMisc.lean ====
section
/-! DEFINITION. Predicates and selection (R131 to R134), `vtrans` (R139), the accumulator copies (R140, R141), the slot
instructions (R143 to R148) and `vfop` (R149). -/
namespace Sys2Proof.Machine

/-! ### `vcmp`, `vsel`, `vpset`, `vctopk` -/

/-- A predicate of the first n elements: inactive bits follow R112, the bits beyond are 0. -/
def writtenPred (old p : BitVec 4096) (zero : Bool) (n : Nat) (bit : Nat → Bool) : BitVec 4096 :=
  BitVec.ofNat 4096 ((upTo n).foldr (fun i acc =>
    2 * acc + boolNat (if p.getLsbD i then bit i else !zero && old.getLsbD i)) 0)

def finishPred (pd : PIdx) (x : BitVec 4096) (s : State) : Eff State := .ok (retire 1 (putPred pd x s))

/-- The comparison of two values (R69, R131). -/
def compareVals (c : VCmp) (x y : XVal) : Bool :=
  let un := xisNan x || xisNan y
  match c with
  | .eq => xeq x y
  | .ne => un || !xeq x y
  | .lt => xlt x y
  | .le => xle x y
  | .gt => xlt y x
  | .ge => xle y x
  | .un => un

/-- `vcmp` (R131). -/
def execVcmp (pd : PIdx) (ta tb : Reg) (pm : PMod) (cmp : VCmp) (any : Bool) (s : State) : Host.Outcome State Fault Refusal :=
  runV s (hasTile ta s && hasTile tb s) { foot := tilesFoot [ta, tb] s } (do
    needSiblings any arithTag [tileOf s ta, tileOf s tb]
    let s ← carryOut (planNone [ta, tb]) [ta, tb] s
    let x := valuesOf s ta
    let y := valuesOf s tb
    finishPred pd (writtenPred (predOf s pd) (predOf s pm.p) pm.zero ((tileOf s ta).rows * (tileOf s ta).cols) fun n =>
      compareVals cmp (x.getD n (.nan, 0)).1 (y.getD n (.nan, 0)).1) s)

/-- The tile that `vsel` makes of two resolved ones. -/
def selectedTile (old a b : Tile) (p : BitVec 4096) : Tile × Conds :=
  let n := a.rows * a.cols
  let av := if a.tag == b.tag && blockLen a.tag == 0 then #[] else (tileValues a).toArray
  let bv := if a.tag == b.tag && blockLen a.tag == 0 then #[] else (tileValues b).toArray
  if blockLen a.tag == 0 then
    let ac := a.elems.toArray
    let bc := b.elems.toArray
    writeTile old ⟨a.tag, a.rows, a.cols, Slots.none⟩ (BitVec.allOnes 4096) true .rne 0 fun i =>
      if p.getLsbD i then (ac.getD i 0, 0)
      else if a.tag == b.tag then (bc.getD i 0, 0)
      else
        let v := bv.getD i (.nan, 0)
        let r := intoTag a.tag .rne 0 v.1
        (r.1, r.2 ||| flagConds v.2)
  else
    let bl := blockLen a.tag
    let m := mixBlocks a.tag n (fun _ => true)
      (fun k =>
        if (upTo bl).all fun i => p.getLsbD (k * bl + i) then some (tileBlock a k)
        else if b.tag == a.tag && (upTo bl).all fun i => !p.getLsbD (k * bl + i) then some (tileBlock b k)
        else none)
      (fun i => if p.getLsbD i then av.getD i (.nan, 0) else bv.getD i (.nan, 0))
    ({ old with tag := a.tag, rows := a.rows, cols := a.cols, elems := m.1, side := m.2.1, slots := Slots.none,
                poison := false }, m.2.2)

/-- `vsel` (R132). -/
def execVsel (td ta tb : Reg) (p : PIdx) (any : Bool) (s : State) : Host.Outcome State Fault Refusal :=
  runV s (hasTile td s && hasTile ta s && hasTile tb s) { foot := tilesFoot [td, ta, tb] s, shape := likeTile td ta s } (do
    needSiblings any (fun _ => true) [tileOf s ta, tileOf s tb]
    let s ← carryOut (planNone [ta, tb]) [ta, tb] s
    finishTile 1 td (selectedTile (tileOf s td) (tileOf s ta) (tileOf s tb) (predOf s p)) s)

/-- `vpset` (R133): bit 2·a + b of the table for each bit. -/
def execVpset (pd pa pb : PIdx) (tt : BitVec 4) (s : State) : Host.Outcome State Fault Refusal :=
  runV s true { } (
    let a := predOf s pa
    let b := predOf s pb
    let row := fun (n : Nat) (x : BitVec 4096) => if tt.getLsbD n then x else 0
    finishPred pd (row 0 (~~~a &&& ~~~b) ||| row 1 (~~~a &&& b) ||| row 2 (a &&& ~~~b) ||| row 3 (a &&& b)) s)

/-- x ranks above y: NaN first, then larger values, −0 below +0 (R134). -/
def ranksAbove (x y : XVal) : Bool :=
  if xisNan y then false
  else xisNan x || xlt y x || (xisZero x && xisZero y && !xneg? x && xneg? y)

/-- The selected elements of a tile: fewer than k active elements of the column stand before them. -/
def topOfColumn (vs : Array (XVal × Flags)) (p : BitVec 4096) (rows cols k n : Nat) : Bool :=
  let x := (vs.getD n (.nan, 0)).1
  let before := (upTo rows).filter fun r =>
    let o := r * cols + n % cols
    let y := (vs.getD o (.nan, 0)).1
    p.getLsbD o && o != n && (ranksAbove y x || (o < n && !ranksAbove x y))
  before.length < k

/-- `vctopk` (R134). -/
def execVctopk (pd : PIdx) (ta tb : Reg) (pm : PMod) (s : State) : Host.Outcome State Fault Refusal :=
  runV s (hasTile ta s) { foot := tilesFoot [ta] s, uses := [tb] } (do
    needTags [tileOf s ta] isFloatTag
    let k ← rdBits s tb
    need (1 ≤ k.toNat && k.toNat ≤ 256) .shapeLimit
    needLax s [ta]
    needReg s tb
    let s ← carryOut (planNone [ta]) [ta] s
    let t := tileOf s ta
    let vs := valuesOf s ta
    let p := predOf s pm.p
    let fl := (upTo (t.rows * t.cols)).foldl (fun (f : Flags) n => if p.getLsbD n then f ||| (vs.getD n (xzero, 0)).2 else f) 0
    let s ← raiseStatus 0 (flagConds fl) s
    finishPred pd (writtenPred (predOf s pd) p pm.zero (t.rows * t.cols) (topOfColumn vs p t.rows t.cols k.toNat)) s)

/-! ### `vtrans` (R139) -/

def exchanged (x : Slots) : Slots := { rs := x.cs, cs := x.rs, rp := x.cq, cq := x.rp, cm := x.cm }

def execVtrans (td ta : Reg) (pm : PMod) (s : State) : Host.Outcome State Fault Refusal :=
  let h := shapeAhead ta s
  runV s (hasTile td s && hasTile ta s) { foot := tilesFoot [td, ta] s, shape := some (td, h.1, h.2.2, h.2.1) } (do
    let t := tileOf s ta
    needTags [t] (fun _ => true)
    need (legalShape t.tag t.cols t.rows) .shapeLimit
    needUnpoisoned [t]
    let d : Dest := ⟨t.tag, t.cols, t.rows, exchanged t.slots⟩
    let from_ := fun n => n % t.rows * t.cols + n / t.rows
    let codes := t.elems.toArray
    let vs := if blockLen t.tag != 0 && !pendingSlots t.slots then (tileValues t).toArray else #[]
    finishTile 1 td (writeTile (tileOf s td) d (predOf s pm.p) pm.zero .rne 0 fun n =>
      if blockLen t.tag != 0 && !pendingSlots t.slots then
        let v := vs.getD (from_ n) (.nan, 0)
        ((r32 v.1).1.setWidth 64, flagConds v.2)
      else (codes.getD (from_ n) 0, 0)) s)

/-! ### Accumulator regions (R140, R141) -/

/-- The word of element (i, j) of a described region (R153). -/
def regionSpot (d : BitVec 64) (i j : Nat) : Nat := 256 * (dRow0 d + i) + dCol0 d + j

/-- A region word as an FP32 word: an I32 one is converted by RNE (R38). -/
def regionWord (isInt : Bool) (w : Word32) : Word32 × Flags := if isInt then r32 (xofInt w.toInt) else (w, 0)

/-- The elements of a tile as FP32 words (R20, R111, R143). -/
def rawWords (t : Tile) : List (Word32 × Flags) :=
  if pendingSlots t.slots then t.elems.map fun e => (e.setWidth 32, 0)
  else (tileValues t).map fun v => ((r32 v.1).1, v.2)

/-- `vacc` (R140). -/
def execVacc (td : Reg) (a : AIdx) (pm : PMod) (s : State) : Host.Outcome State Fault Refusal :=
  let r := regionOf s.me.m a
  let h := r.desc.map fun d => (td, Tag.fp32, dRows d, dCols d)
  runV s (hasTile td s && hasRegion a s) { foot := ⟨[regionUnit s.me.m a], [.tile td]⟩, shape := h } (
    match r.desc with
    | none => fail .regionRange
    | some d => do
      need (dRows d * dCols d ≤ 2048) .shapeLimit
      notHeld ⟨[regionUnit s.me.m a], []⟩ s
      finishTile 1 td (writeTile (tileOf s td) ⟨.fp32, dRows d, dCols d, r.slots⟩ (predOf s pm.p) pm.zero .rne 0 fun n =>
        let w := regionWord r.isInt (storeGet s.me.m.acc (regionSpot d (n / dCols d) (n % dCols d)))
        (w.1.setWidth 64, flagConds w.2 ||| resultConds fp32 w.1.toNat)) s)

/-- `vtoacc` (R141). -/
def execVtoacc (a : AIdx) (ta : Reg) (p : PIdx) (s : State) : Host.Outcome State Fault Refusal :=
  runV s (hasTile ta s && hasRegion a s) { foot := footPlus (tilesFoot [ta] s) ⟨[], [regionUnit s.me.m a]⟩ } (do
    let t := tileOf s ta
    let r := regionOf s.me.m a
    needTags [t] isFloatTag
    match r.desc with
    | none => fail .regionRange
    | some d => do
      need (t.rows == dRows d && t.cols == dCols d) .shapeMismatch
      needUnpoisoned [t]
      notHeld ⟨[], [regionUnit s.me.m a]⟩ s
      let pr := predOf s p
      let out := ((rawWords t).zip (upTo (t.rows * t.cols))).map fun x =>
        let spot := regionSpot d (x.2 / t.cols) (x.2 % t.cols)
        (spot, if pr.getLsbD x.2 then x.1 else regionWord r.isInt (storeGet s.me.m.acc spot))
      let fl := out.foldl (fun (f : Flags) x => f ||| x.2.2) 0
      let s ← raiseStatus 0 (flagConds fl) s
      .ok (retire 1 (modM (fun m => { m with
        acc := out.foldl (fun q x => storeSet q x.1 x.2.1) m.acc,
        regions := vput (k := 3) m.regions a { r with slots := t.slots, isInt := false, fresh := false } }) s)))

/-! ### Slots (R143 to R146) -/

/-- Slots and cm of a tile written: decoded when it carried none, converted back when it ends with none (R143, R145; log 20,
DEDUCED). A decoding that overflows raises OF and no PFOV (R20, R53; log 38, DESIGN CHOICE). -/
def reslotted (t : Tile) (x : Slots) : Tile × Conds :=
  let raws := rawWords t
  let f := raws.foldl (fun (f : Flags) r => f ||| r.2) 0
  if pendingSlots x then ({ t with elems := raws.map fun r => r.1.setWidth 64, side := [], slots := x }, flagConds f)
  else
    let arr := raws.toArray
    let r := writeTile t ⟨t.tag, t.rows, t.cols, Slots.none⟩ (BitVec.allOnes 4096) true .rne 0 fun n =>
      putW ⟨t.tag, t.rows, t.cols, Slots.none⟩ .rne 0 n false (x32 (arr.getD n (0, 0)).1) 0
    ({ r.1 with poison := t.poison }, r.2 ||| flagConds f)

/-- R41. -/
def slotFits (t : Tile) : Bool := t.rows * t.cols ≤ 2048

/-- A slot instruction's write, with the checks it makes; the poison of its operands comes after those of the tile and of
the descriptor (R43, R116). -/
def putSlots (len : Nat) (td : Reg) (reads : List Reg) (check : Tile → Eff Unit) (x : Slots → Slots) (s : State) : Eff State := do
  let t := tileOf s td
  needTags [t] isFloatTag
  check t
  reads.forM (needReg s)
  finishTile len td (reslotted t (x t.slots)) s

/-- The descriptor of `vsetrs` and `vsetcs`. -/
def setDescriptor (tb : Reg) (desc : BitVec 32) (s : State) : Eff (BitVec 64) := do
  let m ← rdBits s tb
  .ok (BitVec.ofNat 64 (field desc.toNat 32 + if tb == 0 then one32.toNat else bits m 31 0))

def execVsetrs (td tb : Reg) (desc : BitVec 32) (s : State) : Host.Outcome State Fault Refusal :=
  runV s (hasTile td s) { foot := tilesFoot [td] s, uses := [tb] } (do
    let d ← setDescriptor tb desc s
    putSlots 2 td [tb] (fun t => needSlot d t.rows (slotFits t) s) (fun x => { x with rs := heldSlot d }) s)

def execVsetcs (td tb : Reg) (desc : BitVec 32) (s : State) : Host.Outcome State Fault Refusal :=
  runV s (hasTile td s) { foot := tilesFoot [td] s, uses := [tb] } (do
    let d ← setDescriptor tb desc s
    putSlots 2 td [tb] (fun t => needSlot d t.cols (slotFits t) s) (fun x => { x with cs := heldSlot d }) s)

def execVsetrk (td ta tb : Reg) (s : State) : Host.Outcome State Fault Refusal :=
  runV s (hasTile td s) { foot := tilesFoot [td] s, uses := [ta, tb] } (do
    let p ← rdBits s ta
    let q ← rdBits s tb
    putSlots 1 td [ta, tb] (fun t => do
      needSlot p t.rows (slotFits t) s
      needSlot q t.cols (slotFits t) s) (fun x => { x with rp := heldSlot p, cq := heldSlot q }) s)

/-- A slot, or cm, by its name. -/
def slotAt (x : Slots) : SlotSel → Word
  | .rs => x.rs | .cs => x.cs | .rp => x.rp | .cq => x.cq | .cm => x.cm.setWidth 64

def withSlot (x : Slots) (sel : SlotSel) (d : Word) : Slots :=
  match sel with
  | .rs => { x with rs := heldSlot d }
  | .cs => { x with cs := heldSlot d }
  | .rp => { x with rp := heldSlot d }
  | .cq => { x with cq := heldSlot d }
  | .cm => { x with cm := d.setWidth 32 }

/-- The checks of a write to one slot or cm of a register of a shape (R43, R144). -/
def needSlotWrite (sel : SlotSel) (d : Word) (rows cols : Nat) (fits : Bool) (s : State) : Eff Unit :=
  match sel with
  | .rs | .rp => needSlot d rows fits s
  | .cs | .cq => needSlot d cols fits s
  | .cm => do
    need (bits d 63 32 == 0) .reservedField
    need (d.setWidth 32 == one32 || fits) .pendingShape

/-- `vgetslot` (R144): an EMPTY tile has no slots and cm 1.0. Log 20, DEDUCED. -/
def execVgetslot (d ta : Reg) (sel : SlotSel) (s : State) : Host.Outcome State Fault Refusal :=
  runV s (hasTile ta s) { dst := d } (.ok (retire 1 (wr d (slotAt (tileOf s ta).slots sel) s)))

/-- `vputslot` (R144). -/
def execVputslot (td a : Reg) (sel : SlotSel) (s : State) : Host.Outcome State Fault Refusal :=
  runV s (hasTile td s) { foot := tilesFoot [td] s, uses := [a] } (do
    let d ← rdBits s a
    putSlots 1 td [a] (fun t => needSlotWrite sel d t.rows t.cols (slotFits t) s) (fun x => withSlot x sel d) s)

/-- `vresolve` (R146). -/
def execVresolve (td : Reg) (mode : RMode) (s : State) : Host.Outcome State Fault Refusal :=
  runV s (hasTile td s) { foot := tilesFoot [td] s, draws := mode == .sr } (do
    needTags [tileOf s td] isFloatTag
    let (w, s) := drawWord 0 mode s
    needUnpoisoned [tileOf s td]
    needSlotsClean s [td]
    let s ← resolveReg td mode w s
    .ok (retire 1 s))

/-- `vstrict` (R147). -/
def execVstrict (td : Reg) (clr : Bool) (s : State) : Host.Outcome State Fault Refusal :=
  runV s (hasTile td s) { } (.ok (retire 1 (putTile td { tileOf s td with strict := !clr } s)))

/-- The word of `vstat` (R148). -/
def statWord (t : Tile) : Word :=
  let dims := if t.tag == .empty then 0 else field (t.cols - 1) 8 + (t.rows - 1)
  BitVec.ofNat 64 (field (slotKind t.slots.cq) 30 + field (slotKind t.slots.rp) 28 + field (slotKind t.slots.cs) 26 +
    field (slotKind t.slots.rs) 24 + field (boolNat (t.slots.cm != one32)) 23 + field (boolNat t.poison) 22 +
    field (boolNat t.strict) 21 + field t.tag.code 16 + dims)

/-- `vstat` (R148). -/
def execVstat (d ta : Reg) (s : State) : Host.Outcome State Fault Refusal :=
  runV s (hasTile ta s) { dst := d } (.ok (retire 1 (wr d (statWord (tileOf s ta)) s)))

/-! ### `vfop` (R149) -/

/-- The result of one element. -/
def fopElem (op : FOp) (a b : Word32) : Word32 × Flags :=
  let x := x32 a
  let y := x32 b
  let two := fun v => let r := r32 v; (r.1, r.2 ||| invalid v [x, y])
  let one := fun v => let r := r32 v; (r.1, r.2 ||| invalid v [x])
  match op with
  | .add => two (xadd false x y)
  | .sub => two (xadd false x (xneg y))
  | .mul => two (xmul x y)
  | .max => r32 (xmax x y)
  | .min => r32 (xmin x y)
  | .rcp => one (xdiv xone x)
  | .rsqrt => one (xrsqrt x)
  | .mov => (a, 0)
  | .exp2 => one (xexp2 x)
  | .log2 => one (xlog2 x)

def isUnaryOp : FOp → Bool
  | .rcp | .rsqrt | .mov | .exp2 | .log2 => true
  | .add | .sub | .mul | .max | .min => false

/-- `vfop` (R149); a unary op reads one register. -/
def execVfop (fd fa fb : FIdx) (op : FOp) (s : State) : Host.Outcome State Fault Refusal :=
  runV s (hasFreg fd s && hasFreg fa s && (isUnaryOp op || hasFreg fb s)) { foot := ⟨[.freg fa, .freg fb], [.freg fd]⟩ } (do
    need (!isUnaryOp op || fb == 0) .reservedField
    notHeld ⟨.freg fa :: (if isUnaryOp op then [] else [.freg fb]), [.freg fd]⟩ s
    needFreg s.me.m fa
    if !isUnaryOp op then needFreg s.me.m fb
    let rs := (upTo 256).map fun n => fopElem op (fregAt s.me.m fa n) (fregAt s.me.m fb n)
    let conds := if op == .mov then 0 else rs.foldl (fun (c : Conds) r => c ||| flagConds r.2 ||| resultConds fp32 r.1.toNat) 0
    let s ← raiseStatus 0 conds s
    .ok (retire 1 (putFreg fd (fregWith (fregOf s.me.m fd) (rs.map (·.1)) false) s)))

end Sys2Proof.Machine
end

