-- ==== Sys2Proof/Machine/TileReduce.lean ====
section
/-! DEFINITION. Reductions of rows and columns (R48, R49, R135 to R138). -/
namespace Sys2Proof.Machine

/-! ### Lines: the rows of a row reduction, the columns of a column reduction -/

/-- The source of a reduction as its lines see it. -/
structure Lines where
  col  : Bool
  rows : Nat
  cols : Nat
  /-- the slots, those that pass taken out -/
  x    : Slots
  v    : SlotVals
  raw  : Array (Word32 × Flags)
  act  : BitVec 4096

def lineCountOf (l : Lines) : Nat := if l.col then l.cols else l.rows
def alongCount (l : Lines) : Nat := if l.col then l.rows else l.cols
/-- Row and column of the k-th element of a line. -/
def spotIn (l : Lines) (i k : Nat) : Nat × Nat := if l.col then (k, i) else (i, k)
def activeIn (l : Lines) (i k : Nat) : Bool := let p := spotIn l i k; l.act.getLsbD (p.1 * l.cols + p.2)
def rawIn (l : Lines) (i k : Nat) : Word32 × Flags := let p := spotIn l i k; l.raw.getD (p.1 * l.cols + p.2) (0, 0)

/-- The scale and rank-one vectors along a line, and across the lines. -/
def alongScale (l : Lines) (k : Nat) : Word32 := (if l.col then l.v.rs else l.v.cs).getD k one32
def alongRank (l : Lines) (k : Nat) : Word32 := (if l.col then l.v.rp else l.v.cq).getD k one32
def lineScale (l : Lines) (i : Nat) : Word32 := (if l.col then l.v.cs else l.v.rs).getD i one32
def lineRank (l : Lines) (i : Nat) : Word32 := (if l.col then l.v.cq else l.v.rp).getD i one32

/-- A sum in order from its first term, each addition rounded RNE (R48; log 38, DESIGN CHOICE: the start). -/
def orderedSum (ts : List (Word32 × Flags)) : Word32 × Flags :=
  match ts with
  | [] => (0, 0)
  | t :: rest => rest.foldl (fun a x => let r := add32 a.1 x.1; (r.1, a.2 ||| x.2 ||| r.2)) t

/-- c of a line (R48). -/
def lineSum (l : Lines) (i : Nat) : Word32 × Flags :=
  orderedSum ((upTo (alongCount l)).map fun k =>
    if activeIn l i k then let r := rawIn l i k; let m := mul32 (alongScale l k) r.1; (m.1, r.2 ||| m.2) else (0, 0))

/-- Q of a row sum, P of a column sum (R48, R136). -/
def rankSum (l : Lines) : Word32 × Flags :=
  orderedSum ((upTo (alongCount l)).map fun k => mul32 (alongScale l k) (alongRank l k))

/-- No element of a line is active. -/
def lineEmpty (l : Lines) (i : Nat) : Bool := (upTo (alongCount l)).all fun k => !activeIn l i k

/-- cm · RS[i] · (c + p · Q), in the order of R52 (R48). -/
def appliedSum (l : Lines) (q : Word32) (i : Nat) (c : Word32 × Flags) : Word32 × Flags :=
  let t0 := addRankOne l.x (lineRank l i) q c.1
  let t1 := mul32 t0.1 (lineScale l i)
  let t2 := mul32 t1.1 l.x.cm
  (t2.1, c.2 ||| t0.2 ||| t1.2 ||| t2.2)

/-- The in-line value of an element: steps 1 to 4 of R52 but for what passes. -/
def inlineIn (l : Lines) (i k : Nat) : Word32 × Flags :=
  let p := spotIn l i k
  let r := rawIn l i k
  let e := resolveElem l.x l.v p.1 p.2 r.1
  (e.1, e.2 ||| r.2)

/-- The sum of squares of the in-line values (R138). -/
def squareSum (l : Lines) (i : Nat) : Word32 × Flags :=
  orderedSum ((upTo (alongCount l)).map fun k =>
    if activeIn l i k then let v := inlineIn l i k; let m := mul32 v.1 v.1; (m.1, v.2 ||| m.2) else (0, 0))

/-- The maximum of a line and its index, −1 where no element is active (R137). -/
def lineMax (l : Lines) (i : Nat) : Word32 × Int :=
  let vs := ((upTo (alongCount l)).filter (activeIn l i)).map fun k => ((inlineIn l i k).1, (k : Int))
  match vs.find? fun p => isNan32 p.1 with
  | some p => (nan32, p.2)
  | none => vs.foldl (fun best p => if best.2 < 0 || ranksAbove (x32 p.1) (x32 best.1) then p else best) (0xFF800000#32, -1)

/-! ### Destinations (R135, R138) -/

def destTile : RedDest → Option Reg
  | .tile td _ => some td
  | .freg _ _ | .bobbin _ => none

/-- The registers a destination names are reserved; second says that its second one is a register (R293). -/
def destReserved (dest : RedDest) (second : Bool) (s : State) : Bool :=
  match dest with
  | .tile td q => hasTile td s && (!second || hasFreg q s)
  | .freg f x => hasFreg f s && (!second || hasFreg x s)
  | .bobbin _ => true

/-- What a reduction of a tile into a destination touches. -/
def reduceFoot (ta : Reg) (dest : RedDest) (s : State) : Foot :=
  footPlus (tilesFoot [ta] s) ⟨[], match dest with
    | .tile td q => [.tile td, .freg q]
    | .freg f x => [.freg f, .freg x]
    | .bobbin _ => []⟩

/-- The shape of the tile that a reduction writes. -/
def reduceShape (ta : Reg) (dest : RedDest) (col : Bool) (s : State) : Option (Reg × Tag × Nat × Nat) :=
  let h := shapeAhead ta s
  match dest with
  | .tile td _ => some (td, .fp32, if col then 1 else h.2.1, if col then h.2.2 else 1)
  | .freg _ _ | .bobbin _ => none

/-- A bobbin that is in use holds vectors of the given length (R116, R138). -/
def needBobbinShape (dest : RedDest) (len : Nat) (m : Member) : Eff Unit :=
  match dest with
  | .bobbin b => need ((bobbinOf m b).state == .free || (bobbinOf m b).len == len) .shapeMismatch
  | .tile _ _ | .freg _ _ => .ok ()

def namesAny (b : BitVec 6) (x : Slots) : Bool := slotsNaming b x != 0

/-- OPEN, of a kind it accepts, and no source slot names it (R138). -/
def needBobbinOpen (dest : RedDest) (kinds : List BobKind) (x : Slots) (s : State) : Eff Unit :=
  match dest with
  | .bobbin b =>
    let bob := bobbinOf s.me.m b
    need (b.toNat < resBobbins s && bob.state == .opened && kinds.contains bob.kind && !namesAny b x) .bobbinInvalid
  | .tile _ _ | .freg _ _ => .ok ()

/-- The first elements of a factor register are written; its poison goes with the last of the old ones (R113). -/
def putFregHead (f : FIdx) (vs : List Word32) (s : State) : State :=
  let x := fregOf s.me.m f
  putFreg f (fregWith x vs (x.poison && vs.length < 256)) s

/-- A vector goes to its destination; slots are what a tile result carries, extra a factor register written beside it. -/
def deliver (dest : RedDest) (col : Bool) (vec : List (Word32 × Conds)) (slots : Slots) (extra : Option (FIdx × List Word32))
    (conds : Conds) (s : State) : Eff State := do
  notHeld ⟨[], (match dest with | .tile td _ => [.tile td] | .freg f _ => [.freg f] | .bobbin _ => []) ++
    (match extra with | some e => [.freg e.1] | none => [])⟩ s
  let s ← raiseStatus 0 (vec.foldl (fun c v => c ||| v.2 ||| resultConds fp32 v.1.toNat) conds) s
  let vs := vec.map (·.1)
  let s ← match dest with
    | .tile td _ =>
      let n := vec.length
      .ok (putTile td { tileOf s td with tag := .fp32, rows := if col then 1 else n, cols := if col then n else 1,
                                         elems := vs.map fun v => v.setWidth 64, side := [], slots := slots, poison := false } s)
    | .freg f _ => .ok (putFregHead f vs s)
    | .bobbin b => .ok (modM (acceptAt b vs) s)
  .ok (retire 2 (match extra with | some e => putFregHead e.1 e.2 s | none => s))

/-- The checks of a reduction's source, and its lines: pass tells which slots are left out of the evaluation. -/
def linesOf (ta : Reg) (p : PIdx) (col : Bool) (dest : RedDest) (kinds : List BobKind) (pass : Slots → Slots) (s : State) :
    Eff Lines := do
  let t := tileOf s ta
  needTags [t] isFloatTag
  needBobbinShape dest (if col then t.cols else t.rows) s.me.m
  needUnpoisoned [t]
  let x := pass t.slots
  needClean s [x]
  needBobbinOpen dest kinds t.slots s
  notHeld ⟨slotsFoot x, []⟩ s
  let v ← evalSlots s.me.m x t.rows t.cols
  .ok ⟨col, t.rows, t.cols, x, v, (rawWords t).toArray, predOf s p⟩

/-! ### Sums (R136) -/

/-- What passes to a tile of sums: the scale of the lines, cm, and the rank-one vector of the lines. -/
def passedSum (col : Bool) (x : Slots) : Slots :=
  if col then { Slots.none with cs := x.cs, cq := x.cq, cm := x.cm } else { Slots.none with rs := x.rs, rp := x.rp, cm := x.cm }

def withoutPassed (col : Bool) (x : Slots) : Slots :=
  if col then { x with cs := 0, cq := 0, cm := one32 } else { x with rs := 0, rp := 0, cm := one32 }

def isTileDest (d : RedDest) : Bool := (destTile d).isSome

/-- Raw results of a pending tile that overflow, or are NaN from finite operands, raise PFOV (R53, R111). Log 21, DEDUCED. -/
def overflowed (l : Lines) (pending : Bool) (i : Nat) (c : Word32 × Flags) : Conds :=
  let finite := (upTo (alongCount l)).all fun k => !activeIn l i k || !(isNan32 (rawIn l i k).1 || isInf32 (rawIn l i k).1)
  condIf (pending && ((isInf32 c.1 && c.2 &&& flagOF != 0) || (isNan32 c.1 && finite))) condPFOV

/-- The bobbin of the destination squares its contributions. -/
def squares (dest : RedDest) (m : Member) : Bool :=
  match dest with
  | .bobbin b => (bobbinOf m b).kind == .sumsq
  | .tile _ _ | .freg _ _ => false

def sumInto (ta : Reg) (p : PIdx) (col : Bool) (dest : RedDest) (s : State) : Host.Outcome State Fault Refusal :=
  let slots := (tileOf s ta).slots
  let toTile := isTileDest dest
  runV s (hasTile ta s && destReserved dest toTile s) { foot := reduceFoot ta dest s, shape := reduceShape ta dest col s } (do
    let l ← linesOf ta p col dest [.sum, .sumsq] (if toTile then withoutPassed col else id) s
    let evalConds := flagConds l.v.flags
    if squares dest s.me.m then
      deliver dest col ((upTo (lineCountOf l)).map fun i => let r := squareSum l i; (r.1, flagConds r.2)) Slots.none none evalConds s
    else
      let cs := (upTo (lineCountOf l)).map fun i => (i, lineSum l i)
      let q := if rankOne slots then rankSum l else (0, 0)
      match dest with
      | .tile _ f =>
        let out := passedSum col slots
        let out := if rankOne slots then (if col then { out with rp := fregSlot f } else { out with cq := fregSlot f }) else out
        deliver dest col (cs.map fun c => (c.2.1, flagConds c.2.2 ||| overflowed l (pendingSlots out) c.1 c.2)) out
          (if rankOne slots then some (f, [q.1]) else none) (evalConds ||| flagConds q.2) s
      | .freg _ _ =>
        deliver dest col (cs.map fun c => let r := appliedSum l q.1 c.1 c.2; (r.1, flagConds r.2)) Slots.none none
          (evalConds ||| flagConds q.2) s
      | .bobbin _ =>
        deliver dest col (cs.map fun c =>
          if lineEmpty l c.1 then (bobIdentity .sum, 0) else let r := appliedSum l q.1 c.1 c.2; (r.1, flagConds r.2)) Slots.none none
          (evalConds ||| flagConds q.2) s)

def execVrsum (ta : Reg) (p : PIdx) (dest : RedDest) (s : State) : Host.Outcome State Fault Refusal := sumInto ta p false dest s
def execVcsum (ta : Reg) (p : PIdx) (dest : RedDest) (s : State) : Host.Outcome State Fault Refusal := sumInto ta p true dest s

/-! ### Maxima (R49, R137) -/

/-- The bobbins of the core that are SEALED. -/
def sealedSet (m : Member) : BitVec 64 :=
  BitVec.ofNat 64 ((upTo 64).foldr (fun i acc => 2 * acc + boolNat ((bobbinOf m (BitVec.ofNat 6 i)).state == .sealed)) 0)

/-- Materialised when the instruction issued (R49). Log 22, DEDUCED. -/
def materialised (sealed : BitVec 64) (d : BitVec 64) : Bool :=
  slotKind d == 1 || (2 ≤ slotKind d && sealed.getLsbD (slotBobbin d).toNat)

def lineSlot (col : Bool) (x : Slots) : BitVec 64 := if col then x.cs else x.rs

/-- The maxima without the scale and cm that pass; all the slots are evaluated. -/
def withoutScale (l : Lines) (scale cm : Bool) : Lines :=
  { l with
    x := { l.x with cm := if cm then one32 else l.x.cm },
    v := if !scale then l.v else if l.col then { l.v with cs := #[] } else { l.v with rs := #[] } }

/-- A maximum of each line; index tells where the indices go. The evaluation of the slots raises its flags (R44), the maxima
raise none, PFOV among them (R53, R137); cm passes by its sign alone, also where RS is absent or applied in line (R47, R49). Log 38,
DESIGN CHOICE. -/
def maxInto (ta : Reg) (p : PIdx) (col : Bool) (dest : RedDest) (index : Option FIdx) (s : State) : Host.Outcome State Fault Refusal :=
  let slots := (tileOf s ta).slots
  let sealed := (ctx s).sealedAt.getD (sealedSet s.me.m)
  runV s (hasTile ta s && destReserved dest false s && (match index with | some f => hasFreg f s | none => true))
      { foot := reduceFoot ta dest s, shape := reduceShape ta dest col s, sealed := some sealed } (do
    let l ← linesOf ta p col dest [.max] id s
    let d := lineSlot col slots
    let vals := (if col then l.v.cs else l.v.rs).toList
    let scale := isTileDest dest && d != 0 && materialised sealed d && vals.all fun w => !w.getLsbD 31
    let cm := isTileDest dest && !slots.cm.getLsbD 31
    let k := withoutScale l scale cm
    let rs := (upTo (lineCountOf l)).map (lineMax k)
    let kept := if scale then d else 0
    let out : Slots := { rs := if col then 0 else kept, cs := if col then kept else 0, rp := 0, cq := 0,
                         cm := if cm then slots.cm else one32 }
    deliver dest col (rs.map fun r => (r.1, 0)) out
      (index.map fun f => (f, rs.map fun r => (r32 (xofInt r.2)).1)) (flagConds l.v.flags) s)

def execVrmax (ta : Reg) (p : PIdx) (dest : RedDest) (s : State) : Host.Outcome State Fault Refusal := maxInto ta p false dest none s
def execVcmax (ta : Reg) (p : PIdx) (dest : RedDest) (s : State) : Host.Outcome State Fault Refusal := maxInto ta p true dest none s

/-- `vrmaxi` has no form with a bobbin (R135). -/
def execVrmaxi (ta : Reg) (p : PIdx) (dest : RedDest) (s : State) : Host.Outcome State Fault Refusal :=
  match dest with
  | .tile _ x => maxInto ta p false dest (some x) s
  | .freg _ x => maxInto ta p false dest (some x) s
  | .bobbin _ => runV s false { } (.ok s)

end Sys2Proof.Machine
end

