-- ==== Sys2Proof/Machine/Matrix.lean ====
section
/-! DEFINITION. The instructions of the M stream (R152 to R169). -/
namespace Sys2Proof.Machine

/-- A command of the matrix group: its own fields are found first, then it waits for room in the M queue, in which it stands
until it acts (R231; log 9, DEDUCED). -/
def runM (ok : Bool) (origin : BitVec 2) (s : State) (e : Eff State) : Host.Outcome State Fault Refusal :=
  if !ok then run s (fail .reservedField) else if queueRoom .m s then conclude origin s e else .next (stall s)

/-! ### The shadow (R152, R160, R161) -/

def modShadow (f : Nest → Nest) (s : State) : State := modM (fun m => { m with shadow := f m.shadow }) s

/-- `mnest` (R160). -/
def execMnest (a : Reg) (level : BitVec 3) (s : State) : Host.Outcome State Fault Refusal :=
  runM (level.toNat < 6) 0 s (do
    let x ← rd s a
    need (x.toNat < 2 ^ 32) .nestConfig
    .ok (retire 1 (modShadow (fun n => { n with n := n.n.setIfInBounds level.toNat (x.setWidth 32) }) s)))

/-- `mstep` (R160). -/
def execMstep (d a b : Reg) (level : BitVec 3) (s : State) : Host.Outcome State Fault Refusal :=
  runM (level.toNat < 6) 0 s (do
    let c ← rd s d
    let x ← rd s a
    let y ← rd s b
    need (c.toNat < 2 ^ 32) .nestConfig
    .ok (retire 1 (modShadow (fun n => { n with
      sa := n.sa.setIfInBounds level.toNat x, sb := n.sb.setIfInBounds level.toNat y,
      sc := n.sc.setIfInBounds level.toNat c }) s)))

/-- `mscale` (R160). -/
def execMscale (a : Reg) (s : State) : Host.Outcome State Fault Refusal :=
  runM true 0 s (do
    let x ← rd s a
    need (x.toNat < 2 ^ 32) .reservedField
    .ok (retire 1 (modShadow (fun n => { n with s := x.setWidth 32 }) s)))

/-- `mprog` (R160). -/
def execMprog (n : BitVec 4) (s : State) : Host.Outcome State Fault Refusal :=
  runM true 0 s (.ok (retire 1 (modShadow (fun x => { x with prof := some n }) s)))

/-- The operand that `mopnd` names, with its registers read (R161). -/
def operandOf (op : MOperand) (s : State) : Eff NestOp :=
  match op with
  | .tile t src => .ok (.tile t src)
  | .addr a ld tag src table => do
    let x ← rd s a
    let y ← rd s ld
    let z ← rd s table
    .ok (.addr x y tag src (if src == .table then z else 0))

/-- The tile that an operand names is reserved (R293). -/
def operandReserved (op : MOperand) (s : State) : Bool := match op with | .tile t _ => hasTile t s | .addr _ _ _ _ _ => true

/-- `mopnd` (R161). -/
def execMopnd (isB : Bool) (op : MOperand) (s : State) : Host.Outcome State Fault Refusal :=
  runM (operandReserved op s) 0 s (do
    let o ← operandOf op s
    .ok (retire 2 (modShadow (fun n => if isB then { n with opB := o } else { n with opA := o }) s)))

/-! ### The nest record image (R163) -/

/-- An operand of the image: its bytes at an offset. In address form bits [10:6] are to be zero; a tile form does not look at the
address, stride and table, nor an address form at the table without source 1. Log 22, DEDUCED. -/
def imageOperand (b : List Byte) (off : Nat) : Eff NestOp :=
  let w : BitVec 32 := BitVec.ofNat 32 (bytesField b (off + 16) 4)
  match ScaleSrc.ofCode (bits w 12 11), Tag.ofCode (bits w 4 0) with
  | some src, some tag => do
    need (bits w 31 13 == 0 && bytesField b (off + 20) 4 == 0 && tag != .empty) .nestConfig
    if flag w 5 then .ok (.tile (BitVec.ofNat 5 (bits w 10 6)) src)
    else do
      need (bits w 10 6 == 0) .nestConfig
      .ok (.addr (BitVec.ofNat 64 (bytesField b off 8)) (BitVec.ofNat 64 (bytesField b (off + 8) 8)) tag src
        (if src == .table then BitVec.ofNat 64 (bytesField b (off + 24) 8) else 0))
  | _, _ => fail .nestConfig

def imageWords (b : List Byte) (off : Nat) : Vector Word 6 :=
  Vector.ofFn fun i : Fin 6 => BitVec.ofNat 64 (bytesField b (off + 8 * i.val) 8)

/-- The shadow that an image stands for, or NEST_CONFIG. -/
def imageNest (b : List Byte) : Eff Nest := do
  let prof := bytesField b 0xF4 1
  let sc := imageWords b 0x80
  need (bytesField b 0x18 8 == 0 && bytesField b 0xF6 10 == 0 && prof < 32 && bytesField b 0xF5 1 < 8 &&
    sc.all fun c => c.toNat < 2 ^ 32) .nestConfig
  let a ← imageOperand b 0xB0
  let c ← imageOperand b 0xD0
  .ok { n := Vector.ofFn fun i : Fin 6 => BitVec.ofNat 32 (bytesField b (4 * i.val) 4),
        sa := imageWords b 0x20, sb := imageWords b 0x50, sc := sc, opA := a, opB := c,
        s := BitVec.ofNat 32 (bytesField b 0xF0 4), dest := BitVec.ofNat 3 (bytesField b 0xF5 1),
        prof := if 16 ≤ prof then some (BitVec.ofNat 4 prof) else none }

/-- The tiles and the region that a record names are reserved (R293). -/
def nestReserved (n : Nest) (s : State) : Bool :=
  hasRegion n.dest s && [n.opA, n.opB].all fun o => match o with
    | .tile t _ => hasTile t s
    | .unset => true
    | .addr _ _ _ _ _ => true

/-- What `mloadn` checks at its issue, and the address of its image. -/
def imageAddress (a : Reg) (s : State) : Eff Nat := do
  let x ← rd s a
  if x.toNat % 64 != 0 then failAt .misaligned x.toNat
  waitUntil (queueDone s && !behindMark s)
  notHeld (accessFoot .read x.toNat 256) s
  .ok x.toNat

/-- `mloadn` (R163): its memory faults are those of an M-queue access, its other checks the sequencer's (R368). The shadow holds no
poison, and a poisoned image raises nothing (R95, R372; log 22, DEDUCED). -/
def execMloadn (a : Reg) (s : State) : Host.Outcome State Fault Refusal :=
  match imageAddress a s with
  | .error e => runM true 0 s (.error e)
  | .ok x => match loadBytes { dir := .read } x 256 s with
    | .error e => runM true 1 s (.error e)
    | .ok r => runM true 0 s (do
      let n ← imageNest r.1
      need (nestReserved n s) .reservedField
      .ok (retire 1 (modShadow (fun _ => n) r.2.2)))

/-! ### Regions (R153, R162, R166, R167) -/

/-- The checks of a descriptor (R153). -/
def descriptorOk (d : BitVec 64) : Bool :=
  dRow0 d + dRows d ≤ 256 && dCol0 d + dCols d ≤ 256 && dSRows d ≤ dRows d && dSCols d ≤ dCols d && dDepth d != 0

def putRegion (a : AIdx) (r : Region) (s : State) : State := modM (fun m => { m with regions := vput (k := 3) m.regions a r }) s

/-- Every older scalar access of the M stream is performed (R96, R257). -/
def accessesDone (s : State) : Bool := nothingOlder s && s.me.m.iq.all fun e => e.stream != .m

/-- `mregion` (R162). -/
def execMregion (a : Reg) (r : AIdx) (s : State) : Host.Outcome State Fault Refusal :=
  runM (hasRegion r s) 0 s (do
    let d ← rd s a
    need (descriptorOk d) .regionRange
    waitUntil (!behindMark s && accessesDone s)
    regionFree r s
    notHeld ⟨[], [regionRect r d]⟩ s
    .ok (retire 1 (modShadow (fun n => { n with dest := r })
      (putRegion r { regionOf s.me.m r with desc := some d, slots := Slots.none, fresh := true } s))))

/-- The words of a region set to +0. -/
def clearWords (d : BitVec 64) (acc : Store 32) : Store 32 :=
  (upTo (dRows d)).foldl (fun q i => storeClear q (256 * (dRow0 d + i) + dCol0 d) (dCols d)) acc

/-- An M-queue command on a region that no older command uses. -/
def onRegion (r : AIdx) (s : State) (e : BitVec 64 → Eff State) : Host.Outcome State Fault Refusal :=
  runM (hasRegion r s) 1 s (do
    waitUntil (!behindMark s && accessesDone s)
    regionFree r s
    match (regionOf s.me.m r).desc with
    | none => fail .regionRange
    | some d => e d)

/-- `mzero` (R166). Log 9, DEDUCED. -/
def execMzero (r : AIdx) (s : State) : Host.Outcome State Fault Refusal :=
  onRegion r s fun d =>
    .ok (retire 1 (putRegion r ⟨some d, Slots.none, false, true⟩ (modM (fun m => { m with acc := clearWords d m.acc }) s)))

/-- `mslot` (R167). -/
def execMslot (a : Reg) (r : AIdx) (sel : SlotSel) (s : State) : Host.Outcome State Fault Refusal :=
  onRegion r s fun d => do
    let x ← rd s a
    needSlotWrite sel x (dRows d) (dCols d) true s
    let q := regionOf s.me.m r
    .ok (retire 1 (putRegion r { q with slots := withSlot q.slots sel x, fresh := false } s))

/-! ### Profiles and the checks of `mgo` (R34, R35, R155 to R159, R164) -/

/-- The profile that accepts an operand tag (R34, R35). -/
def familyOf : Tag → Option Nat
  | .e4m3 | .e5m2 | .mxe4m3 | .mxe5m2 | .e4m3b16 => some 1
  | .e3m2 | .e2m3 | .e2m1 | .mxe3m2 | .mxe2m3 | .mxe2m1 | .e2m1b16 => some 2
  | .bf16 => some 3
  | .fp16 => some 4
  | .i8 => some 5
  | .fp32 | .i16 | .i32 | .n8 | .i64 | .empty => none

def opTile (op : NestOp) : Option Reg := match op with | .tile t _ => some t | .unset => none | .addr _ _ _ _ _ => none

/-- The tile register behind an operand. -/
def opTileOf (op : NestOp) (s : State) : Option Tile := (opTile op).map (tileOf s)

def opTag (op : NestOp) (s : State) : Tag :=
  match op with
  | .unset => .empty
  | .tile t _ => (tileOf s t).tag
  | .addr _ _ tag _ _ => tag

/-- The slots and cm of an operand: an address carries none (R46). -/
def opSlots (op : NestOp) (s : State) : Slots := match opTileOf op s with | some t => t.slots | none => Slots.none

/-- The extra row is active: A is a tile with a rank-one term (R159). -/
def extraRow (n : Nest) (s : State) : Bool := rankOne (opSlots n.opA s)

/-- What a step gives the region (R46). -/
def nestSlots (n : Nest) (x : Option FIdx) (s : State) : Slots :=
  let a := opSlots n.opA s
  let b := opSlots n.opB s
  { rs := a.rs, cs := b.cs, rp := a.rp,
    cq := if extraRow n s then (match x with | some f => fregSlot f | none => 0) else 0,
    cm := (mul32 (mul32 n.s a.cm).1 b.cm).1 }

def rowStep (c : Word) : Int := signed 16 (bits c 15 0)
def colStep (c : Word) : Int := signed 16 (bits c 31 16)

/-- An operand's own configuration (R155 to R157); nrows is its count of stored rows. -/
def operandOk (isB : Bool) (op : NestOp) (strides : List Word) (nrows sk : Nat) (s : State) : Bool :=
  match op with
  | .unset => false
  | .tile t src =>
    let blk := blockLen (tileOf s t).tag != 0
    strides.all (· == 0) && !(isB && blk) && src == (if blk then .side else .none)
  | .addr a ld tag src _ =>
    if inPackPage a.toNat s then
      (tag == .e4m3 || tag == .e2m1) && sk % 64 == 0 && nrows % 64 == 0 && src == .none
    else
      let blk := blockLen tag
      let bb : Int := blockBytes tag
      (elemBits tag != 6 || sk % 4 == 0) && (elemBits tag != 4 || sk % 2 == 0) &&
      src == (if blk != 0 then .table else .none) &&
      (blk == 0 || (sk % blk == 0 && (ld :: strides).all fun x => x.toInt % bb == 0))

/-- The result slots fit the region (R159). -/
def slotsFit (n : Nest) (d : BitVec 64) (s : State) : Bool :=
  let a := opSlots n.opA s
  let b := opSlots n.opB s
  (a.rs == 0 && a.rp == 0 || (dRows d == dSRows d && n.sc.all fun c => rowStep c == 0)) &&
  (b.cs == 0 || (dCols d == dSCols d && n.sc.all fun c => colStep c == 0))

def tileShapeOk (op : NestOp) (r c : Nat) (s : State) : Bool :=
  match opTileOf op s with
  | some t => t.rows == r && t.cols == c
  | none => true

/-- A region that is not fresh agrees with what a step gives it (R158). -/
def regionAgrees (r : Region) (x : Slots) (isInt : Bool) : Bool := r.fresh || (r.slots == x && r.isInt == isInt)

/-- What a step's slots and result scale raise (R27, R46). -/
def nestSlotConds (n : Nest) (s : State) : Conds :=
  let t := mul32 n.s (opSlots n.opA s).cm
  flagConds (t.2 ||| (mul32 t.1 (opSlots n.opB s).cm).2)

/-- A region that does not agree with a nest is named (R158, R248). -/
def needAgrees (n : Nest) (x : Slots) (isInt : Bool) (s : State) : Eff Unit :=
  if regionAgrees (regionOf s.me.m n.dest) x isInt then .ok ()
  else .error (.fault { cause := .pendingConflict, detail := n.dest.toNat })

/-- The checks of `mgo`, in order; the profile it resolves to (R164). -/
def nestChecks (n : Nest) (x : Option FIdx) (s : State) : Eff Nat := do
  let p := (n.prof.getD s.me.m.csrs.profile).toNat
  need (p < 6) .profileUnknown
  match (regionOf s.me.m n.dest).desc with
  | none => fail .regionRange
  | some d => do
    need (n.opA != .unset && n.opB != .unset) .nestConfig
    need ([n.opA, n.opB].all fun o => opTag o s != .empty) .tagEmpty
    let fa := familyOf (opTag n.opA s)
    let fb := familyOf (opTag n.opB s)
    let q := if p == 0 then fa.getD 6 else p
    need (fa == some q && fb == some q) .tagMismatch
    need (tileShapeOk n.opA (dSRows d) (dDepth d) s && tileShapeOk n.opB (dDepth d) (dSCols d) s) .shapeMismatch
    need (operandOk false n.opA n.sa.toList (dSRows d) (dDepth d) s && operandOk true n.opB n.sb.toList (dSCols d) (dDepth d) s &&
      slotsFit n d s && (!extraRow n s || x.isSome)) .nestConfig
    needAgrees n (nestSlots n x s) (q == 5) s
    need ([n.opA, n.opB].all fun o => match opTileOf o s with | some t => !t.poison | none => true) .poisonConsumed
    need (!extraRow n s || (match x with | some f => !(fregOf s.me.m f).poison | none => true)) .poisonConsumed
    .ok q

/-- Steps of the whole walk (R154). -/
def nestTotal (n : Nest) : Nat := n.n.toList.foldl (fun t x => t * x.toNat) 1

/-- The engine holds a nest whose steps are unfinished. -/
def nestBusy (m : Member) : Bool := match m.active with | some w => !w.finished | none => false

/-- `mgo` (R164). -/
def execMgo (extra : Option FIdx) (s : State) : Host.Outcome State Fault Refusal :=
  runM (match extra with | some f => hasFreg f s | none => true) 0 s (do
    let n := s.me.m.shadow
    let w : Walk := ⟨n, extra, 0, 0, nestTotal n == 0, (ctx s).pc⟩
    waitUntil (!nestBusy s.me.m)
    notHeld (nestFoot w s.me.m) s
    let q ← nestChecks n extra s
    .ok (retire 1 (modM (fun m => { m with
      active := some { w with profile := BitVec.ofNat 4 q }, copied := some n, age := m.age + 1,
      mq := if w.finished then m.mq else m.mq ++ [.nest m.age] }) s)))

/-! ### Waiting and status (R165, R168) -/

/-- `mwait` (R165): what the M queue holds, and what has left it and is on its way, is performed. -/
def execMwait (s : State) : Host.Outcome State Fault Refusal :=
  runM true 0 s (do
    waitUntil (ownEmpty .m s)
    .ok (retire 1 s))

/-- The limiter withholds slots of an engine that has steps to issue (R174). -/
def rampHolds (s : State) : Bool :=
  nestBusy s.me.m && (match findDie s.me.pkg s.me.die s with | some d => d.ramp < 8 | none => false)

def isDrain : MEntry → Bool
  | .drain _ => true
  | .nest _ => false

/-- A drain is queued, or its writes are on their way (R168, R256). -/
def drainOpen (s : State) : Bool :=
  s.me.m.mq.any isDrain || s.inFlight.any fun m => unperformed (mine .m s) m && m.bulk

/-- The word of `mstat` (R168). -/
def engineStatus (s : State) : Word :=
  let m := s.me.m
  let w := match m.active with
    | some w => field (min w.done 0xFFFFFFFF) 16 + field w.profile.toNat 12 + field w.nest.dest.toNat 8
    | none => 0
  BitVec.ofNat 64 (w + field (boolNat (rampHolds s)) 3 + field (boolNat (drainOpen s)) 2 +
    field (boolNat (match m.copied with | some c => c != m.shadow | none => false)) 1 + boolNat (nestBusy m))

/-- `mstat` (R168). -/
def execMstat (d : Reg) (s : State) : Host.Outcome State Fault Refusal :=
  runM true 0 s (.ok (retire 1 (wr d (engineStatus s) s)))

/-! ### `mdrain` at execution (R169) -/

/-- The checks of the instruction, in order. -/
def drainChecks (a b : Word) (r : AIdx) (tag : Tag) (mode : DrainMode) (s : State) : Eff Unit :=
  match (regionOf s.me.m r).desc with
  | none => fail .regionRange
  | some d => do
    need (!(mode == .add && tag != .fp32) && !(mode == .kv && tag != .e4m3)) .tagMismatch
    need (blockLen tag == 0 || dCols d % blockLen tag == 0) .shapeLimit
    if b.toNat % 32 != 0 then failAt .misaligned b.toNat
    if mode == .kv && a.toNat % 32 != 0 then failAt .misaligned a.toNat

/-- `mdrain` (R169). -/
def execMdrain (a b : Reg) (r : AIdx) (tag : Tag) (rmode : RMode) (mode : DrainMode) (s : State) : Host.Outcome State Fault Refusal :=
  runM (hasRegion r s) 0 s (do
    let x ← rd s a
    let y ← rd s b
    drainChecks x y r tag mode s
    .ok (retire 2 (modM (fun m => { m with age := m.age + 1, mq := m.mq ++
      [.drain ⟨m.age, r, x, y, tag, rmode, mode, false, 0, 0, (ctx s).pc⟩] }) s)))

end Sys2Proof.Machine
end

