-- ==== Sys2Proof/Machine/Walks.lean ====
section
/-! DEFINITION. How an engine performs a command of a queue: as its stream and at its position, element after element,
with what it has done kept when it stops (R172, R222). -/
namespace Sys2Proof.Machine

/-- An effect of a command: its accesses, losses and flags carry the command's position. -/
def asCommand (st : Stream) (pos : CodePos) (e : State → Eff State) (s : State) : Eff State := do
  let pc := (ctx { s with cur := st }).pc
  let t ← e (modCtx (fun c => { c with pc := pos }) { s with cur := st })
  .ok (modCtx (fun c => { c with pc := pc }) t)

/-- Where a walk of elements came to, and why it stopped short. -/
structure WalkEnd where
  state : State
  done  : Nat
  stop  : Option Stop

/-- Elements from n on, at most fuel of them. -/
def walkElems (f : Nat → State → Eff State) : Nat → Nat → State → WalkEnd
  | 0, n, s => ⟨s, n, none⟩
  | fuel + 1, n, s =>
    match f n s with
    | .ok t => walkElems f fuel (n + 1) t
    | .error e => ⟨s, n, some e⟩

/-- What an engine's turn comes to: a fault is the command's, with its progress. -/
def engineEnd (st : Stream) (pos : CodePos) (progress : List Nat) (s : State) : Option Stop → Host.Outcome State Fault Refusal
  | none => .next s
  | some .wait => .next s
  | some (.reading route scope cls key n) => .next (sendFetch route scope cls key n s)
  | some (.fault t) => .next (takeFault st pos 1 { t with progress := progress } s)
  | some (.hole pa) => .fault (.noSuchPhysicalAddress pa)

/-- The page parts of one row or run, where they must not straddle a DET or COLL page (R319). Log 23, DEDUCED. -/
def needNoStraddle (a : Acc) (va n : Nat) (s : State) : Eff Unit :=
  if n == 0 || inWindow va || va / 2 ^ 16 == (va + n - 1) / 2 ^ 16 then .ok ()
  else match checkParts a s none (pageParts va (n / 2 ^ 16 + 2) n) with
    | .error (.fault t) => if t.cause == .straddleAtomic then .error (.fault t) else .ok ()
    | .ok _ => .ok ()
    | .error .wait => .ok ()
    | .error (.reading _ _ _ _ _) => .ok ()
    | .error (.hole _) => .ok ()

/-- An FP32 atomic add or an integer add of a command at an address (R170, R214): the flags are the member's, a
poisoned home word is reported at the next fence. It travels in the class of its command or drain (R282). -/
def commandAdd (o : AtomOp) (w : Bool) (va : Nat) (v : Word) (s : State) : Eff State := do
  let (leaf, key) ← atomPlace (.op o) w va s
  let n := atomSize (.op o) w
  let s := noteWritten key (if (combined s).any fun x => x.key < key + n && key < x.key + x.data.length then drainMine s else s)
  let scope := homeScope key s
  let s := cachePage s va
  let cls : TClass := if bulkNow s then .tc2 else .tc0
  if routeDead (keyRoute key s) s then do
    waitUntil (entryFree s)
    .ok (sendAs (some 1) 0 cls (keyRoute key s) scope (.atomic (.op o) w leaf key v .none) s)
  else do
    waitUntil (inOrder false [(.mem leaf key, n)] s && routeFree cls (keyRoute key s) s && !forwardedTo key n s)
    let r ← atomAt (.op o) w leaf key v false s
    .ok (reportAtomPoison .none r.poison ⟨.poisonConsumed, va, n, (ctx s).pc, scope, accessAge s⟩
      (if r.conds == 0 then r.state else raiseAtom r.conds va n scope r.state))

end Sys2Proof.Machine
end

