-- ==== Sys2Proof/Machine/KvTables.lean ====
section
/-! DEFINITION. KV block tables and pages (R171, R333 to R335). -/
namespace Sys2Proof.Machine

/-! ### Headers (R333) -/

def kvPartner (h : BitVec 256) : Nat := bits h 255 192
def kvTokens (h : BitVec 256) : Nat := bits h 191 128
def kvEntries (h : BitVec 256) : Nat := bits h 63 48
/-- Head dimension d. -/
def kvDim (h : BitVec 256) : Nat := bits h 47 32
def kvIsValue (h : BitVec 256) : Bool := flag h 16
def kvLt (h : BitVec 256) : Nat := bits h 3 0
/-- Tokens per page. -/
def kvT (h : BitVec 256) : Nat := 2 ^ kvLt h
/-- Bytes of a page (R335). -/
def kvPageBytes (h : BitVec 256) : Nat := kvT h * (kvDim h + 4)

/-- The form of a header by itself. -/
def kvHeaderOk (h : BitVec 256) : Bool :=
  bits h 127 64 == 0 && bits h 31 24 == 0 && bits h 18 17 == 0 && bits h 15 4 == 0 && bits h 23 19 == 3 &&
  2 ≤ kvLt h && kvLt h ≤ 8 && 16 ≤ kvDim h && kvDim h ≤ 256 && kvDim h % 16 == 0 && kvEntries h != 0 &&
  (!kvIsValue h || kvPartner h == 0)

/-- A key table and its value table. -/
def kvPairOk (k v : BitVec 256) : Bool :=
  kvIsValue v && kvDim v == kvDim k && kvLt v == kvLt k && kvEntries v == kvEntries k

/-- n bytes of a table as a number, with their poison; they are read as the current stream's access. -/
def readWord (va n : Nat) (s : State) : Eff (Nat × Bool) := do
  let spots ← resolve { dir := .read } va n s
  let lost ← awaitRead spots s
  let r := readSpots s spots
  .ok (bytesToNat r.1, r.2.1 || lost)

/-- A header at an address, its own form checked; a table address must be a multiple of 32. -/
def readHeader (va : Nat) (s : State) : Eff (BitVec 256 × Bool) := do
  if va % 32 != 0 then failAt .misaligned va
  let r ← readWord va 32 s
  need (kvHeaderOk (BitVec.ofNat 256 r.1)) .shapeRecord
  .ok (BitVec.ofNat 256 r.1, r.2)

/-- A table and, for a key table, its value table; whether a word of theirs is poisoned. -/
structure KvTable where
  addr   : Nat
  head   : BitVec 256
  value  : Option (BitVec 256)
  poison : Bool

def readTable (va : Nat) (s : State) : Eff KvTable := do
  let h ← readHeader va s
  if kvIsValue h.1 then .ok ⟨va, h.1, none, h.2⟩
  else do
    let v ← readHeader (kvPartner h.1) s
    need (kvPairOk h.1 v.1) .shapeRecord
    .ok ⟨va, h.1, some v.1, h.2 || v.2⟩

/-- What `readTable` reads: the table's header, and its partner's. -/
def tableReads (tab : KvTable) : List (Nat × Nat) :=
  (tab.addr, 32) :: (match tab.value with | some _ => [(kvPartner tab.head, 32)] | none => [])

/-! ### Page entries (R334) -/

def entryTier (e : BitVec 64) : Nat := bits e 63 62
def entryScale (e : BitVec 64) : Nat := bits e 59 52
def entryFrame (e : BitVec 64) : Nat := bits e 51 6 * 64
def entryOk (e : BitVec 64) : Bool := entryTier e != 3 && bits e 61 60 == 0 && bits e 5 0 == 0
def entryAddr (table n : Nat) : Nat := (table + 32 + 8 * n) % 2 ^ 64

/-- Entry n of the table at an address. -/
def readEntry (table n : Nat) (s : State) : Eff (BitVec 64 × Bool) := do
  let r ← readWord (entryAddr table n) 8 s
  .ok (BitVec.ofNat 64 r.1, r.2)

/-! ### Appending a row (R171, R335) -/

/-- The scale and elements of a row of FP32 values; u gives the stochastic word of element j. -/
def kvRow (vs : List Word32) (mode : RMode) (u : Nat → Nat) : Word32 × List Byte × Conds :=
  let xs := vs.map x32
  let a := xs.foldl (fun a v => xmax a (xabs v)) xzero
  if xs.any fun v => xisNan v || xisInf v then (nan32, vs.map fun _ => 0x7F, 0)
  else if xisZero a then (one32, xs.map fun v => if xneg? v then 0x80 else 0x00, 0)
  else
    let sc : Word32 := BitVec.ofNat 32 (roundTo fp32 .rup 0 (xdiv a (xofInt 448))).1
    let rs := (xs.zip (upTo xs.length)).map fun p => roundTo e4m3 mode (u p.2) (xdiv p.1 (x32 sc))
    (sc, rs.map fun r => BitVec.ofNat 8 r.1,
     rs.foldl (fun c r => c ||| flagConds r.2 ||| resultConds e4m3 r.1) 0)

/-- Bytes written at a place of the package's HBM, as an RC write that enters the combiner (R256). -/
def writeFrame (pa : Nat) (data : List Byte) (s : State) : Eff State := do
  let key := memKey s.me.pkg pa
  match findPkg s.me.pkg s with
  | some p => if !inHbm p pa data.length then .error (.hole pa)
  | none => .error (.hole pa)
  waitUntil (inOrder true [(.mem 4 key, data.length)] s)
  .ok (noteWritten key (addToCombiner ⟨me s, (ctx s).pc, key, data, false, accessAge s, .tc2⟩ s))

/-- Bytes written at a physical address, where its page stands now (R384). -/
def writePhysical (pa : Nat) (data : List Byte) (s : State) : Eff State := do
  let r ← (physParts s.me.pkg pa data.length s).foldlM (fun (a : List Byte × State) p => do
    let t ← writeFrame p.1 (a.1.take p.2) a.2
    .ok (a.1.drop p.2, t)) (data, s)
  .ok r.2

/-- A word read as `readWord` reads it leaves its leaves in the caches (R320). -/
def wordCached (reads : List (Nat × Nat)) (s : State) : State := reads.foldl (fun t r => cached r.1 r.2 t) s

/-- A row and its scale written to token t through a table. -/
def appendRow (tab : KvTable) (t : Nat) (sc : Word32) (es : List Byte) (s : State) : Eff State := do
  let h := tab.head
  if kvEntries h ≤ t / kvT h then failAt .notPresent (entryAddr tab.addr (t / kvT h))
  let e ← readEntry tab.addr (t / kvT h) s
  need (!e.2) .poisonConsumed
  need (entryOk e.1) .shapeRecord
  need (entryTier e.1 == 0) .tierFault
  let r := t % kvT h
  let s ← writePhysical (entryFrame e.1 + r * kvDim h) es (wordCached [(entryAddr tab.addr (t / kvT h), 8)] s)
  writePhysical (entryFrame e.1 + kvT h * kvDim h + 4 * r) (natToBytes 4 sc.toNat) s

end Sys2Proof.Machine
end

