-- ==== Sys2Proof/Machine/ShuttleIssue.lean ====
section
/-! DEFINITION. The shuttle's instructions: their checks at issue, the entries they put into the C queue, and the
waits and status of that queue (R204 to R221). -/
namespace Sys2Proof.Machine

/-! ### Entering the queue (R204, R206, R209, R221) -/

def shapeOf (n : BitVec 4) (s : State) : BitVec 256 := vat (k := 4) s.me.m.shapes n

/-- The command enters the queue, with a slot reserved for its fill. -/
def enqueue (kind : CmdKind) (a b : Word) (shape : BitVec 256) (comp : Completion) (slot : Option Nat) (s : State) : State :=
  modM (fun m =>
    let c : Cmd := { age := m.age, kind := kind, a := a, b := b, shape := shape, comp := comp, slot := slot, progress := 0,
                     walked := false, read := [], jobs := [], lost := [], pos := (ctx s).pc }
    let m := match slot with
      | some n => modRing comp.ring (fun r => { r with reserved := r.reserved ++ [n] }) m
      | none => m
    { m with age := m.age + 1, cq := m.cq ++ [c] }) s

/-- The slot that a fill will take: the oldest claimed one that no command has reserved; a proxy belongs to the
command's capability (R206). Log 23, DEDUCED. -/
def fillTarget (comp : Completion) (s : State) : Eff (Option Nat) :=
  if !comp.fill then .ok none
  else do
    let r ← needRing comp.ring s
    need (!ringBound r && (!ringRemote r || ringCap r == comp.cap)) .ringConfig
    match oldestClaim r with
    | some n => .ok (some n)
    | none => fail .ringConfig

/-- An arrival at `sys` needs the host among the participants (R186). -/
def needArrival (comp : Completion) (s : State) : Eff Unit := if comp.barr then needScope comp.bscope s else .ok ()

/-- Some base address or non-zero stride is no multiple of e. -/
def oddWalk (e : Nat) (bases : List Word) (strides : List Int) : Option Word :=
  match bases.find? fun x => x.toNat % e != 0 with
  | some x => some x
  | none => if strides.any fun i => i % (e : Int) != 0 then bases.head? else none

def needAligned (e : Nat) (bases : List Word) (strides : List Int) : Eff Unit :=
  match oddWalk e bases strides with
  | some x => failAt .misaligned x.toNat
  | none => .ok ()

def strides (h : BitVec 256) : List Int := [shSst1 h, shSst2 h, shDst1 h, shDst2 h]

/-- A command enters the queue once fewer than 64 entries stand there; its capability gives one unit (R204, R350). BARRIER_SCOPE
comes after every other fault of its issue (R221; log 23, DESIGN CHOICE). -/
def issueWith (kind : CmdKind) (a b : Word) (shape : BitVec 256) (comp : Completion) (slot : Option Nat)
    (cap : Option (BitVec 6)) (s : State) : Eff State := do
  needArrival comp s
  waitUntil (queueRoom .c s)
  let t ← match cap with
    | some i => consumeCap i s
    | none => .ok s
  .ok (retire 2 (enqueue kind a b shape comp slot t))

/-! ### `ccopy`, `cred`, `cpage` (R212, R214, R216) -/

/-- `ccopy` (R212). -/
def execCcopy (a b : Reg) (comp : Completion) (s : State) : Host.Outcome State Fault Refusal :=
  run s (do
    let x ← rd s a
    let y ← rd s b
    let h := shapeOf comp.shape s
    let slot ← fillTarget comp s
    if shCount h != 0 then needAligned (shE h) [x, y] (strides h)
    issueWith .copy x y h comp slot none s)

/-- Element bytes of a `cred` (R214). -/
def credBytes : CredOp → Nat
  | .fadd32 => 4 | .add32 => 4 | .add64 => 8

/-- `cred` (R214). -/
def execCred (a b : Reg) (op : CredOp) (comp : Completion) (s : State) : Host.Outcome State Fault Refusal :=
  run s (do
    let x ← rd s a
    let y ← rd s b
    let h := shapeOf comp.shape s
    let slot ← fillTarget comp s
    if shCount h != 0 then needAligned (shE h) [x, y] (strides h)
    need (shE h == credBytes op) .shapeRecord
    issueWith (.red op) x y h comp slot none s)

/-- The strides of a `cpage` that are read (R216). Log 23, DEDUCED. -/
def pageStrides (h : BitVec 256) : List Int :=
  (if 1 < shExt1 h then [shSst1 h, shDst1 h] else []) ++ (if 1 < shExt2 h then [shSst2 h, shDst2 h] else [])

/-- The contiguous record of a `cpage` (R216). -/
def pageShapeOk (h : BitVec 256) : Bool :=
  let row : Int := shExt0 h * shE h
  (shExt1 h ≤ 1 || (shSst1 h == row && shDst1 h == row)) &&
  (shExt2 h ≤ 1 || (shSst2 h == row * shExt1 h && shDst2 h == row * shExt1 h)) &&
  shBnd0 h == 0 && shBnd1 h == 0 && shOrg0 h == 0 && shOrg1 h == 0

/-- `cpage` (R216). -/
def execCpage (a b : Reg) (comp : Completion) (s : State) : Host.Outcome State Fault Refusal :=
  run s (do
    let x ← rd s a
    let y ← rd s b
    let h := shapeOf comp.shape s
    let slot ← fillTarget comp s
    if shCount h != 0 then do
      if x.toNat % 64 != 0 then failAt .misaligned x.toNat
      if y.toNat % 8 != 0 then failAt .misaligned y.toNat
      needAligned (shE h) [x] (pageStrides h)
    need (pageShapeOk h) .shapeRecord
    issueWith .page x y h comp slot none s)

/-! ### `cpush`, `cpull` (R213) -/

/-- The capability of a `cpush` or `cpull`: a remote ring, a package endpoint or a host queue, with the permission. -/
def transferCap (i : BitVec 6) (perm : BitVec 256 → Bool) (s : State) : Eff (BitVec 256) := do
  let e ← capEntry i s
  need ((capKind e == 1 || capKind e == 2 || capKind e == 3) && perm e) .capPermission
  need (capAllowance e != 0) .capAllowance
  .ok e

/-- Every offset that a walk can reach lies within a length. -/
def spanWithin (base : Int) (len : Nat) : Option (Int × Int) → Bool
  | none => true
  | some (lo, hi) => 0 ≤ base + lo && base + hi < len

/-- `cpush` (R213). -/
def execCpush (a b : Reg) (comp : Completion) (s : State) : Host.Outcome State Fault Refusal :=
  run s (do
    let x ← rd s a
    let y ← rd s b
    let h := shapeOf comp.shape s
    let e ← transferCap comp.cap capWrite s
    let slot ← fillTarget comp s
    if shCount h != 0 then do
      needAligned (shE h) [x, y] (strides h)
      need (spanWithin y.toNat (capLength e) (dstSpan h)) .windowRange
    issueWith (.push comp.cap.toNat) x y h comp slot (some comp.cap) s)

/-- `cpull` (R213). -/
def execCpull (a b : Reg) (comp : Completion) (s : State) : Host.Outcome State Fault Refusal :=
  run s (do
    let x ← rd s a
    let y ← rd s b
    let h := shapeOf comp.shape s
    let e ← transferCap comp.cap capRead s
    let slot ← fillTarget comp s
    if shCount h != 0 then do
      needAligned (shE h) [x, y] (strides h)
      need (spanWithin x.toNat (capLength e) (srcSpan h)) .windowRange
    issueWith (.pull comp.cap.toNat) x y h comp slot (some comp.cap) s)

/-! ### `cmcast` (R215, R351) -/

def capAt (i : Nat) (s : State) : Option Cap := (myLaunch s).bind fun l => l.caps[i]?

/-- The receivers of a group: launch, member and ring register; none where no live launch has the context. -/
def receiverOf (g : BitVec 64) (s : State) : Option (Nat × Nat × KIdx) :=
  (launchOfCtx (groupCtx g) s).map fun l => (l.number, groupMember g, groupRing g)

def receiverRing (g : BitVec 64) (s : State) : Ring :=
  match receiverOf g s with
  | some (l, m, k) => (match memberOf l m s with | some x => ringOf x k | none => Ring.unconfigured)
  | none => Ring.unconfigured

/-- The counters and tails of a group: as its first use sets them, or as they stand. -/
def mcastState (c : Cap) (s : State) : List (Nat × Nat) :=
  if c.mcast.isEmpty then c.group.map fun g => (ringCount (receiverRing g s), 0) else c.mcast

/-- The receivers that a mask names. -/
def maskBits (mask : Word) : List Nat := (upTo 64).filter fun n => mask.getLsbD n

/-- One slot of a receiver taken. -/
def takeCredit (c : Cap) (st : List (Nat × Nat)) (r : Nat) (s : State) : List (Nat × Nat) :=
  match st[r]? with
  | some (n, t) => setNth st r (n - 1, (t + 1) % ringCount (receiverRing (nth c.group r 0) s))
  | none => st

/-- What a wait on a receiver meets (R377). -/
def receiverTrouble (i : BitVec 6) (g : BitVec 64) (s : State) : Option Cause :=
  match receiverOf g s with
  | some (l, _, _) => peerTrouble 0 (groupPkg g) (some l) (some i) s
  | none => some (.peer 0 1)

/-- wait_until(counter[r] > 0 for every r in the mask). -/
def waitCredits (i : BitVec 6) (c : Cap) (st : List (Nat × Nat)) (s : State) : List Nat → Eff Unit
  | [] => .ok ()
  | r :: rest => do
    waitPeer (match st[r]? with | some (n, _) => 0 < n | none => false) (receiverTrouble i (nth c.group r 0) s)
    waitCredits i c st s rest

/-- The slot bases of the receivers keep the walk inside their rings (R213, R215). -/
def mcastFits (c : Cap) (st : List (Nat × Nat)) (h : BitVec 256) (s : State) (rs : List Nat) : Bool :=
  rs.all fun r =>
    let ring := receiverRing (nth c.group r 0) s
    spanWithin ((nth st r (0, 0)).2 * ringBytes ring : Nat) (ringCount ring * ringBytes ring) (dstSpan h)

/-- `cmcast` (R215). -/
def execCmcast (a b : Reg) (comp : Completion) (s : State) : Host.Outcome State Fault Refusal :=
  run s (do
    let x ← rd s a
    let mask ← rd s b
    let h := shapeOf comp.shape s
    let e ← capEntry comp.cap s
    need (capKind e == 5 && capMcast e) .capPermission
    need (capAllowance e != 0) .capAllowance
    if shCount h != 0 then needAligned (shE h) [x] (strides h)
    need (mask != 0) .reservedField
    let rs := maskBits mask
    need (rs.all fun r => r < capGroup e) .capPermission
    match capAt comp.cap.toNat s with
    | none => fail .capInvalid
    | some c => do
      let st := mcastState c s
      need (mcastFits c st h s rs) .windowRange
      needArrival comp s
      waitCredits comp.cap c st s rs
      let slots := rs.map fun r => (r, (nth st r (0, 0)).2)
      let t := modCap comp.cap (fun c => { c with mcast := rs.foldl (fun q r => takeCredit c q r s) st }) s
      if !queueRoom .c s then hold
      issueWith (.mcast comp.cap.toNat slots) x mask h comp none (some comp.cap) t)

/-! ### `ccode`, `cattn` (R217, R218) -/

/-- The lines lie wholly in instruction memory, or wholly in the code store. -/
def linesPresent (l n : Nat) : Bool := l + n ≤ 4096 || (4096 ≤ l && l + n ≤ 135168)

/-- `ccode` (R217). -/
def execCcode (d a b : Reg) (comp : Completion) (s : State) : Host.Outcome State Fault Refusal :=
  run s (do
    let x ← rd s a
    let l ← rd s b
    let n ← rd s d
    let slot ← fillTarget comp s
    if n != 0 then do
      if x.toNat % 64 != 0 then failAt .misaligned x.toNat
      need (linesPresent l.toNat n.toNat) .notPresent
      need (inRanges l.toNat s && inRanges (l.toNat + n.toNat - 1) s) .permission
    issueWith (.code n.toNat) x l 0 comp slot none s)

/-- The ring of a `cattn` holds the records of a head dimension (R338). -/
def recordFits (r : Ring) (d : Nat) : Bool := 64 + 4 * (d + 2) ≤ ringBytes r

/-- The slot size against the key table's header, where the header reads well (R218, R336). -/
def needRecordFits (r : Ring) (table : Nat) (s : State) : Eff Unit :=
  if table % 32 != 0 then .ok ()
  else match readHeader table s with
    | .ok h => if h.2 then .ok () else need (recordFits r (kvDim h.1)) .ringConfig
    | .error .wait => hold
    | .error (.reading route scope cls key n) => .error (.reading route scope cls key n)
    | .error (.fault _) => .ok ()
    | .error (.hole _) => .ok ()

/-- `cattn` (R218). -/
def execCattn (d a b : Reg) (comp : Completion) (s : State) : Host.Outcome State Fault Refusal :=
  run s (do
    let x ← rd s a
    let range ← rd s b
    let table ← rd s d
    let r ← needRing comp.ring s
    need (!ringRemote r && !ringBound r) .ringConfig
    if range.toNat / 2 ^ 32 != 0 then do
      needRecordFits r table.toNat s
      if x.toNat % 64 != 0 then failAt .misaligned x.toNat
      if table.toNat % 32 != 0 then failAt .misaligned table.toNat
      if !(x.toNat / 2 ^ 56 == 0xFE && x.toNat % 2 ^ 56 < resSpad s) then failAt .windowRange x.toNat
    issueWith (.attn table) x range 0 comp none none s)

/-! ### `cshape`, `cwait`, `cstat` (R209, R219, R220) -/

/-- The C-queue read of a record. -/
def readRecord (va : Nat) (s : State) : Eff (BitVec 256 × State) := do
  accessReady (accessFoot .read va 32) s
  let r ← loadBytes { dir := .read } va 32 s
  .ok (BitVec.ofNat 256 (bytesToNat r.1), r.2.2)

/-- `cshape` (R209): the record's read is an entry of the queue. -/
def execCshape (a : Reg) (entry : BitVec 4) (s : State) : Host.Outcome State Fault Refusal :=
  match rd s a with
  | .error e => run s (.error e)
  | .ok x =>
    if x.toNat % 32 != 0 then run s (failAt .misaligned x.toNat)
    else match readRecord x.toNat s with
      | .error e => conclude 1 s (.error e)
      | .ok (h, t) => run s (do
          need (shWf h) .shapeRecord
          .ok (retire 1 (modM (fun m => { m with shapes := vput (k := 4) m.shapes entry h }) t)))

/-- `cwait` (R219). -/
def execCwait (s : State) : Host.Outcome State Fault Refusal :=
  run s (do
    waitUntil (queueQuiet s.cur s)
    .ok (retire 1 s))

/-- The oldest command is a `cattn` that waits for a FREE slot. -/
def slotWaits (m : Member) : Bool :=
  match m.cq with
  | [] => false
  | c :: _ => match c.kind with
    | .attn _ =>
      let r := ringOf m c.comp.ring
      c.read != [] && c.progress < attnCount c && slotState r r.tail != .free
    | .copy | .push _ | .pull _ | .mcast _ _ | .red _ | .page | .code _ => false

/-- The status word (R204, R220): the C stream's own accesses are entries too. A `cmcast` that waits on a counter holds the
C stream itself, so [2] reads 0. -/
def shuttleStatus (s : State) : Nat :=
  let n := queueLength .c s
  field s.me.m.cDone.toNat 16 + field n 8 + field (boolNat (slotWaits s.me.m)) 1 + boolNat (n != 0)

/-- `cstat` (R220). -/
def execCstat (d : Reg) (s : State) : Host.Outcome State Fault Refusal :=
  run s (.ok (retire 1 (wr d (BitVec.ofNat 64 (shuttleStatus s)) s)))

end Sys2Proof.Machine
end

