-- ==== Sys2Proof/Machine/ShuttleWalk.lean ====
section
/-! DEFINITION. How the shuttle performs its commands: the walk of a shape record, the far ends of copies, page moves,
code lines, and the completion of a command (R204, R205, R210 to R217, R222, R223, R352). -/
namespace Sys2Proof.Machine

/-! ### The far ends (R213, R352) -/

/-- The oldest command as it stands. -/
def modCmd (f : Cmd → Cmd) (s : State) : State :=
  modM (fun m => { m with cq := match m.cq with | c :: rest => f c :: rest | [] => [] }) s

/-- The far end of a copy: a member's ring with its scratchpad offset, memory of a context at a package, or host
memory. -/
inductive Far where
  | ring (launch member : Nat) (base : Nat)
  | endpoint (pkg : Nat) (root : Nat) (base : Nat)
  | host (base : Nat)
deriving DecidableEq, Repr

/-- The launch that last had a context. -/
def lastOfCtx (c : Nat) (s : State) : Option Launch := s.launches.reverse.find? fun l => packetField l.packet 0x14 2 == c

/-- A receiver or ring target, unless its launch is over (R377). -/
def needPeer (t : Option Cause) : Eff Unit := match t with | some c => fail c | none => .ok ()

def farRing (launch member : Nat) (k : KIdx) (off : Nat) (s : State) : Eff Far :=
  match memberOf launch member s with
  | none => hold
  | some m => do
    need (ringSet (ringOf m k)) .ringConfig
    .ok (.ring launch member ((ringOf m k).base.toNat % 2 ^ 56 + off))

/-- The far end that a capability names, at a byte offset. -/
def farOf (cap : BitVec 6) (off : Nat) (s : State) : Eff Far :=
  match capAt cap.toNat s with
  | none => fail .capInvalid
  | some c =>
    let e := c.entry
    if capKind e == 3 then do
      needPeer (peerTrouble 2 s.me.pkg none (some cap) s)
      .ok (.host (capBase e + off))
    else match lastOfCtx (capCtx e) s with
      | none => fail (.peer (if capKind e == 1 then 0 else 1) 1)
      | some l => do
        needPeer (peerTrouble (if capKind e == 1 then 0 else 1) (capPkg e) (some l.number) (some cap) s)
        if capKind e == 1 then farRing l.number (capMember e) (BitVec.ofNat 4 (capIndex e)) off s
        else .ok (.endpoint (capPkg e) (packetRoot l.packet) (capBase e + off))

/-- The links to the host (R342). -/
def hostRoute (s : State) : List LinkId := hubRoute s.me.pkg s.me.die s ++ [.host s.me.pkg]

/-- One page part of an endpoint access: its leaf and key; no fault there is a demand fault (R352). -/
def endpointPart (a : Acc) (pkg root va n : Nat) (s : State) : Eff (BitVec 64 × Nat) :=
  if inWindow va then failAt .windowRange va
  else if 2 ^ 52 ≤ va then failAt .noncanonical va
  else match walkFor pkg root va s with
    | .error (.fault t) => .error (.fault { t with absent := false })
    | .error e => .error e
    | .ok (e, lvl) => do
      if leafTier e == 2 then failAt .tierFault va
      if !(permitted a e && detAligned e va n) then failAt .permission va
      let o := va % pageSize lvl
      .ok (e, memKey pkg (if leafDet e then leafFrame e + 8 * (o / 4 * 4) else leafFrame e + o))

/-- The parts of an endpoint access, after one whose leaf is given (R312, R319, R352). -/
def endpointSpots (a : Acc) (pkg root : Nat) (s : State) : Option (BitVec 64) → List (Nat × Nat) → Eff (List Spot)
  | _, [] => .ok []
  | prev, (va, n) :: rest => do
    let (e, key) ← endpointPart a pkg root va n s
    if (match prev with | some x => straddles x e | none => false) then failAt .straddleAtomic va
    let t ← endpointSpots a pkg root s (some e) rest
    .ok ((.mem e key, n) :: t)

/-- The parts of n bytes at an endpoint. -/
def endpointAccess (a : Acc) (pkg root va n : Nat) (s : State) : Eff (List Spot) :=
  endpointSpots a pkg root s none (pageParts va (n / 2 ^ 16 + 2) n)

/-- An endpoint's bytes are written past every combiner: at `sys` (R352). -/
def endpointPut (data : List Byte) (poison : Bool) (s : State) : List Spot → Eff State
  | [] => .ok s
  | (.mem leaf key, n) :: rest => do
    let t ← if leafDet leaf || leafColl leaf then writeSpot (data.take n) poison s (.mem leaf key, n)
      else if cxlDead key s then .ok (forwardWrite s.me.pkg s.me.die ⟨me s, (ctx s).pc, key, data.take n, poison, accessAge s, .tc2⟩ s)
      else putAccess leaf 0 n key (.write key (data.take n) poison) (homeWrite key (data.take n) poison) (noteWritten key s)
    endpointPut (data.drop n) poison t rest
  | (.spad _ _, n) :: rest => endpointPut (data.drop n) poison s rest

def memberSpad (launch member off n : Nat) (s : State) : List Byte × Bool :=
  match findCore (fun c => runs c launch member) s with
  | some c => (storeRead c.spad off n, anyMark c.spadPoison off n)
  | none => match (findLaunch launch s).bind fun l => l.saved.find? fun v => v.member == member with
    | some v => (storeRead v.spad off n, anyMark v.spadPoison off n)
    | none => (List.replicate n 0, false)

/-- The access of an element's write and read (R212, R318). -/
def putAcc (e : Nat) : Acc := { dir := .write, det := e == 4, coll := e == 4 }
def getAcc (e : Nat) : Acc := { dir := .read, det := e == 4 }

/-- Bytes for a ring or the host, once every older entry is performed and a request entry is free (R204, R232). -/
def putOver (route : List LinkId) (scope : Scope) (body : Body) (apply : State → State) (s : State) : Eff State := do
  waitUntil (nothingOlder s && (entryFree s || routeFree (bodyClass body) route s))
  .ok (sendOr route scope body apply s)

/-- One element written at a far end. -/
def farPut (f : Far) (data : List Byte) (poison : Bool) (s : State) : Eff State :=
  match f with
  | .ring l m off => putOver (memberRoute l m s) (memberScope l m s) (.copyWrite l m off data poison)
      (memberSpadWrite l m off data poison) s
  | .host a => putOver (hostRoute s) .sys (.hostWrite a data) (fun t => { t with hostMem := storeWrite t.hostMem a data }) s
  | .endpoint pkg root va => do
    let spots ← endpointAccess (putAcc data.length) pkg root va data.length s
    waitUntil (inOrder true spots s)
    endpointPut data poison s spots

/-- What names the outstanding read of a ring's or the host's bytes, apart from every key of memory. -/
def ringReadKey (off : Nat) : Nat := 2 ^ 62 + off
def hostReadKey (a : Nat) : Nat := 2 ^ 63 + a

/-- A read over a route that holds no page: it waits for older entries and the route, and is poisoned where a link has lost it
(R204, R223, R347). -/
def overRoute (route : List LinkId) (scope : Scope) (key n : Nat) (data : List Byte × Bool) (s : State) : Eff (List Byte × Bool × State) :=
  if !nothingOlder s then hold
  else if s.me.m.readLost.contains (s.cur, key) then
    let r := drawBytes n s
    .ok (r.1, true, modM (fun m => { m with readLost := m.readLost.filter (· != (s.cur, key)) }) r.2)
  else if routeFree .tc2 route s then .ok (data.1, data.2, s)
  else outstanding route scope .tc2 key n s

/-- n bytes read at a far end: data, poison, the state after. -/
def farGet (f : Far) (n : Nat) (s : State) : Eff (List Byte × Bool × State) :=
  match f with
  | .ring l m off => overRoute (memberRoute l m s) (memberScope l m s) (ringReadKey off) n (memberSpad l m off n s) s
  | .host a => overRoute (hostRoute s) .sys (hostReadKey a) n (storeRead s.hostMem a n, false) s
  | .endpoint pkg root va => do
    let spots ← endpointAccess (getAcc n) pkg root va n s
    if (← awaitRead spots s) then
      let r := drawBytes n s
      .ok (r.1, true, modM (fun m => forgetLost spots m s.cur) r.2)
    else
      let r := readSpots s spots
      .ok (r.1, r.2.1, if r.2.2 == 0 then s else raiseAtom r.2.2 va n (spotsScope spots s) s)

/-! ### Elements (R210) -/

/-- Element n of a walk: its source and destination, and whether it lies inside the tensor. -/
structure ElemAt where
  src : Word
  dst : Word
  inside : Bool

def elemIndex (h : BitVec 256) (n : Nat) : Nat × Nat × Nat :=
  (n % shExt0 h, n / shExt0 h % shExt1 h, n / (shExt0 h * shExt1 h))

def elemAt (h : BitVec 256) (a b : Word) (n : Nat) : ElemAt :=
  let (i0, i1, i2) := elemIndex h n
  let c0 := shOrg0 h + i0
  let c1 := shOrg1 h + i1
  let e : Int := shE h
  let inside := (shBnd0 h == 0 || (0 ≤ c0 && c0 < shBnd0 h)) && (shBnd1 h == 0 || (0 ≤ c1 && c1 < shBnd1 h))
  if shSrcSide h then
    ⟨wrap64 (a.toNat + c0 * e + c1 * shSst1 h + i2 * shSst2 h), wrap64 (b.toNat + i0 * e + i1 * shDst1 h + i2 * shDst2 h), inside⟩
  else
    ⟨wrap64 (a.toNat + i0 * e + i1 * shSst1 h + i2 * shSst2 h), wrap64 (b.toNat + c0 * e + c1 * shDst1 h + i2 * shDst2 h), inside⟩

/-- What a run of dimension 0 from element n on touches: its first inside element and how many are inside. -/
def runInside (h : BitVec 256) (n : Nat) : Nat × Nat :=
  let (i0, i1, _) := elemIndex h n
  let r0 := shRange0 h
  let r1 := shRange1 h
  let lo := (max r0.1 i0).toNat
  if r1.1 ≤ i1 && (i1 : Int) < r1.2 then (n - i0 + lo, r0.2.toNat - lo) else (n, 0)

/-- Neither side of a run straddles DET or COLL pages (R319). -/
def needRunWhole (local1 local2 : Bool) (dst : Acc) (skipOutside : Bool) (c : Cmd) (n : Nat) (s : State) : Eff Unit := do
  let h := c.shape
  let (first, k) := runInside h n
  let e := shE h
  if local1 then needNoStraddle (getAcc e) (elemAt h c.a c.b first).src.toNat (k * e) s
  if local2 then
    if shSrcSide h && !skipOutside then
      needNoStraddle dst (elemAt h c.a c.b n).dst.toNat ((shExt0 h - (elemIndex h n).1) * e) s
    else needNoStraddle dst (elemAt h c.a c.b first).dst.toNat (k * e) s

/-- Nor does a run at a package endpoint (R319, R352). -/
def needFarWhole (a : Acc) (f : Far) (n : Nat) (s : State) : Eff Unit :=
  match f with
  | .ring _ _ _ | .host _ => .ok ()
  | .endpoint pkg root va => if n == 0 then .ok () else match endpointAccess a pkg root va n s with
    | .error (.fault t) => if t.cause == .straddleAtomic then .error (.fault t) else .ok ()
    | .ok _ => .ok ()
    | .error .wait => .ok ()
    | .error (.reading _ _ _ _ _) => .ok ()
    | .error (.hole _) => .ok ()

/-- The far side of the run from element n on, a source where reads says so. -/
def needFarRun (cap : Nat) (reads : Bool) (c : Cmd) (n : Nat) (s : State) : Eff Unit := do
  let h := c.shape
  let (first, k) := runInside h n
  let whole := shSrcSide h && !reads
  let from' := elemAt h c.a c.b (if whole then n else first)
  let count := if whole then shExt0 h - (elemIndex h n).1 else k
  if count != 0 then do
    let f ← farOf (BitVec.ofNat 6 cap) (if reads then from'.src else from'.dst).toNat s
    needFarWhole (if reads then getAcc (shE h) else putAcc (shE h)) f (count * shE h) s

/-- An element read locally: its poison goes with it (R371). -/
def localGet (va n : Nat) (s : State) : Eff (List Byte × Bool × State) := loadBytes (getAcc n) va n s

def localPut (va : Nat) (data : List Byte) (poison : Bool) (s : State) : Eff State := do
  let spots ← resolve (putAcc data.length) va data.length s
  waitUntil (inOrder true spots s)
  let t ← writeSpots data poison spots s
  .ok (cached va data.length t)

/-- A read of a far end (R213, R223). -/
def pullGet (cap off n : Nat) (s : State) : Eff (List Byte × Bool × State) := do
  let f ← farOf (BitVec.ofNat 6 cap) off s
  farGet f n s

/-- The element, or the zeros that pad the destination. -/
def readElem (get : Nat → Nat → State → Eff (List Byte × Bool × State)) (x : ElemAt) (e : Nat) (s : State) :
    Eff (List Byte × Bool × State) :=
  if x.inside then get x.src.toNat e s else .ok (List.replicate e 0, false, s)

/-- One element into the slots of every receiver: its offset counts from the slot's base, and may be negative (R215). -/
def mcastPut (cap : Nat) (off : Nat) (data : List Byte) (poison : Bool) : List (Nat × Nat) → State → Eff State
  | [], s => .ok s
  | (r, slot) :: rest, s => do
    let g := match capAt cap s with | some c => nth c.group r 0 | none => 0
    needPeer (receiverTrouble (BitVec.ofNat 6 cap) g s)
    match receiverOf g s with
    | none => fail (.peer 0 1)
    | some (l, m, k) => do
      let f ← farRing l m k ((slot * ringBytes (receiverRing g s) + off) % 2 ^ 64) s
      let t ← farPut f data poison s
      mcastPut cap off data poison rest t

/-- A source element added at its destination (R214). -/
def redElem (op : CredOp) (x : ElemAt) (e : Nat) (s : State) : Eff State := do
  let r ← localGet x.src.toNat e s
  if r.2.1 then failAt .poisonConsumed x.src.toNat
  let v := BitVec.ofNat 64 (bytesToNat r.1)
  match op with
  | .fadd32 => commandAdd .fadd32 true x.dst.toNat v r.2.2
  | .add32 => commandAdd .add true x.dst.toNat v r.2.2
  | .add64 => commandAdd .add false x.dst.toNat v r.2.2

/-- The destination's offset in a slot: the walk with the slot's base as b. -/
def elemOffset (x : ElemAt) : Nat := x.dst.toNat

/-- Element n of a copy-type command. -/
def copyElem (c : Cmd) (n : Nat) (s : State) : Eff State := do
  let h := c.shape
  let e := shE h
  let x := elemAt h c.a (match c.kind with | .mcast _ _ => 0 | _ => c.b) n
  let skipped := !x.inside && !shSrcSide h
  match c.kind with
    | .copy => do
      if (elemIndex h n).1 == 0 then needRunWhole true true (putAcc e) false c n s
      if skipped then return s
      let r ← readElem localGet x e s
      localPut x.dst.toNat r.1 r.2.1 r.2.2
    | .push cap => do
      if (elemIndex h n).1 == 0 then do
        needRunWhole true false (putAcc e) false c n s
        needFarRun cap false c n s
      if skipped then return s
      let r ← readElem localGet x e s
      let f ← farOf (BitVec.ofNat 6 cap) x.dst.toNat r.2.2
      farPut f r.1 r.2.1 r.2.2
    | .pull cap => do
      if (elemIndex h n).1 == 0 then do
        needRunWhole false true (putAcc e) false c n s
        needFarRun cap true c n s
      if skipped then return s
      let r ← readElem (pullGet cap) x e s
      localPut x.dst.toNat r.1 r.2.1 r.2.2
    | .mcast cap dests => do
      if (elemIndex h n).1 == 0 then needRunWhole true false (putAcc e) false c n s
      if skipped then return s
      let r ← readElem localGet x e s
      mcastPut cap (elemOffset x) r.1 r.2.1 dests r.2.2
    | .red op => do
      if (elemIndex h n).1 == 0 then needRunWhole true true { dir := .update, det := op == .fadd32, noCxl := true } true c n s
      if x.inside then redElem op x e s else .ok s
    | .page => .ok s
    | .code _ => .ok s
    | .attn _ => .ok s

/-! ### Code lines (R217) -/

/-- A line written to instruction memory or the die's code store, with its poison. -/
def putLine (line : Nat) (data : List Byte) (poison : Bool) (s : State) : State :=
  let mark := fun (l : List Nat) => if poison then (if l.contains line then l else l ++ [line]) else l.filter (· != line)
  if line < 4096 then modCore (fun c => { c with imem := storeWrite c.imem (64 * line) data, imemPoison := mark c.imemPoison }) s
  else modDie s.me.pkg s.me.die (fun d =>
    { d with code := storeWrite d.code (64 * (line - 4096)) data, codePoison := mark d.codePoison }) s

/-- Log 23, DEDUCED. -/
def codeLine (c : Cmd) (n : Nat) (s : State) : Eff State := do
  waitUntil (nothingOlder s)
  let r ← loadBytes { dir := .read } (c.a.toNat + 64 * n) 64 s
  .ok (putLine (c.b.toNat + n) r.1 r.2.1 r.2.2)

/-! ### Page moves (R216) -/

def pageLength (c : Cmd) : Nat := shCount c.shape * shE c.shape

/-- The destination of a page move: HBM pages alone. Log 23, DEDUCED. -/
def pageDest (c : Cmd) (s : State) : Eff (List Spot) := do
  if inWindow c.a.toNat then failAt .tierFault c.a.toNat
  resolve { dir := .write, noCxl := true } c.a.toNat (pageLength c) s

/-- 32 bytes of the CXL page, or its tail, with their mark (R371). -/
def pageChunk (c : Cmd) (frame n : Nat) (s : State) : Eff State := do
  let len := min 32 (pageLength c - 32 * n)
  let pa := frameNow s.me.pkg (frame + 32 * n) s
  match findPkg s.me.pkg s with
  | some p => if !(inCxl p pa len || inHbm p pa len) then .error (.hole pa)
  | none => .error (.hole pa)
  let leaf : BitVec 64 := if pa < 2 ^ 39 then 4 else BitVec.ofNat 64 (field 1 52 + 4)
  let src : List Spot := [(.mem leaf (memKey s.me.pkg pa), len)]
  let lost ← awaitRead src s
  let r := quadRead (memKey s.me.pkg pa) len s
  let spots ← resolve { dir := .write, noCxl := true } (c.a.toNat + 32 * n) len s
  let t ← writeSpots r.1 (r.2 || lost) spots s
  .ok (cached (c.a.toNat + 32 * n) len (modM (fun m => forgetLost src m t.cur) t))

/-- The entry is read once and acted upon: HBM ends the walk, CXL starts the copy, and only then is the destination looked at
(log 23, DEDUCED). -/
def pageStart (c : Cmd) (s : State) : Eff State := do
  let r ← readWord c.b.toNat 8 s
  if r.2 then failAt .poisonConsumed c.b.toNat
  let e : BitVec 64 := BitVec.ofNat 64 r.1
  need (entryOk e) .shapeRecord
  if entryTier e == 2 then failAt .tierFault c.b.toNat
  let t := wordCached [(c.b.toNat, 8)] s
  if entryTier e == 0 then .ok (modCmd (fun c => { c with walked := true }) t)
  else do
    let _ ← pageDest c s
    .ok (modCmd (fun c => { c with read := [e] }) t)

/-- The entry is replaced by an atomic compare at its home (R216). -/
def replaceEntry (c : Cmd) (old : BitVec 64) (s : State) : Eff State := do
  let dest ← pageDest c s
  let spots ← resolve { dir := .update, noCxl := true } c.b.toNat 8 s
  waitUntil (nothingOlder s)
  let t := drainMine (cached c.b.toNat 8 s)
  waitUntil ((spotsFree spots t || routeDead (spots.flatMap (spotRoute t)) t) && !quadWriteFlying t)
  let frame := match dest with
    | (.mem _ key, _) :: _ => key % 2 ^ 52
    | _ => 0
  let new := natToBytes 8 (field (bits old 59 52) 52 + field (frame / 64) 6)
  let done := modCmd (fun c => { c with read := [] })
  match spots with
  | (.mem leaf key, _) :: _ =>
    if routeDead (keyRoute key t) t then
      .ok (done (sendAs (some 1) 0 .tc0 (keyRoute key t) (homeScope key t)
        (.atomic (.cas (BitVec.ofNat 64 old.toNat)) false leaf key (BitVec.ofNat 64 (bytesToNat new)) .none) t))
    else .ok (done (if bytesToNat (storeRead t.mem key 8) == old.toNat then homeWrite key new false (noteWritten key t) else t))
  | (.spad _ _, _) :: _ =>
    if bytesToNat (readSpots t spots).1 == old.toNat then do
      let u ← writeSpots new false spots t
      .ok (done u)
    else .ok (done t)
  | [] => .ok (done t)

/-- The oldest command's block-table entry is replaced (R216). -/
def execCpageEntryReplace (s : State) : Host.Outcome State Fault Refusal :=
  match s.me.m.cq with
  | [] => .next s
  | c :: _ => match c.kind, c.read with
    | .page, e :: _ => if !c.walked then .next s else
      (match asCommand .c c.pos (replaceEntry c e) s with
      | .ok t => .next t
      | .error x => engineEnd .c c.pos [pageLength c] s (some x))
    | _, _ => .next s

/-! ### The walk (R210, R222) -/

/-- Older M-queue entries hold a command back while their footprints conflict (R207, R234). -/
def cmdFree (c : Cmd) (s : State) : Eff Unit := waitUntil (!heldEntry (cmdFoot c) .c c.age s)

/-- Units of progress of a command: elements, lines, or 32-byte words of a page. -/
def cmdUnits (c : Cmd) : Nat :=
  match c.kind with
  | .code n => n
  | .page => (pageLength c + 31) / 32
  | .attn _ => 0
  | .copy | .push _ | .pull _ | .mcast _ _ | .red _ => shCount c.shape

/-- Unit n of the oldest command. -/
def cmdUnit (n : Nat) (s : State) : Eff State :=
  match s.me.m.cq with
  | [] => .ok s
  | c :: _ => asCommand .c c.pos (fun t => do
      let u ← match c.kind with
        | .code _ => codeLine c n t
        | .page => pageChunk c (match c.read with | e :: _ => entryFrame e | [] => 0) n t
        | .attn _ => .ok t
        | .copy | .push _ | .pull _ | .mcast _ _ | .red _ => copyElem c n t
      .ok (modCmd (fun c => { c with progress := n + 1 }) u)) s

/-- Progress as the fault record counts it: bytes, or lines of a `ccode` (R210, R217). -/
def cmdBytes (c : Cmd) (n : Nat) : Nat :=
  match c.kind with
  | .code _ => n
  | .page => 32 * n
  | .attn _ => n
  | .copy | .push _ | .pull _ | .mcast _ _ | .red _ => n * shE c.shape

/-- What a command does before its first unit. -/
def cmdStart (c : Cmd) (s : State) : Eff State := do
  cmdFree c s
  match c.kind with
  | .page => if c.read == [] && cmdUnits c != 0 then pageStart c s else .ok s
  | .copy | .push _ | .pull _ | .mcast _ _ | .red _ | .code _ | .attn _ => .ok s

def isAttn (c : Cmd) : Bool := match c.kind with
  | .attn _ => true
  | .copy | .push _ | .pull _ | .mcast _ _ | .red _ | .page | .code _ => false

/-- The shuttle performs the oldest command's units from its progress on (R210). -/
def execShuttleWalk (s : State) : Host.Outcome State Fault Refusal :=
  match s.me.m.cq with
  | [] => .next s
  | c :: _ =>
    if c.walked || isAttn c then .next s
    else match asCommand .c c.pos (cmdStart c) s with
      | .error e => engineEnd .c c.pos [cmdBytes c c.progress] s (some e)
      | .ok t => match t.me.m.cq with
        | [] => .next t
        | q :: _ =>
          if q.walked then .next t
          else
            let w := walkElems cmdUnit (cmdUnits q - q.progress) q.progress t
            match w.stop with
            | none => .next (modCmd (fun c => { c with walked := true }) w.state)
            | some e => engineEnd .c q.pos [cmdBytes q w.done] w.state (some e)

/-! ### Completion (R204, R205, R215, R223) -/

/-- A write of the C queue is still on its way. -/
def shuttleWriteFlying (s : State) : Bool := s.inFlight.any fun m => isWriteBody m.body && m.who == mine .c s

/-- The receiver's slot turns FILLED, and remembers whom its credit goes to; a receiver that lost bytes gets no fill
message. -/
def mcastFill (cap : Nat) (c : Cmd) (r slot : Nat) (s : State) : State :=
  let g := match capAt cap s with | some x => nth x.group r 0 | none => 0
  match receiverOf g s with
  | none => s
  | some (l, m, k) =>
    if c.lost.contains (l, m) then s
    else
      let t := modMember l m (modRing k fun q => { q with mfrom := (slot, s.me.cur.launch, cap, r) :: q.mfrom.filter fun e => e.1 != slot }) s
      sendOr (memberRoute l m s) (memberScope l m s) (.fill l m k slot) (applyFill l m k slot) t

/-- The fills of a multicast, each after its receiver's bytes; none while bytes are on their way. -/
def finishMcast (c : Cmd) (s : State) : State :=
  match c.kind with
  | .mcast cap dests => modCmd (fun q => { q with kind := .mcast cap [] }) (dests.foldl (fun t d => mcastFill cap c d.1 d.2 t) s)
  | .copy | .push _ | .pull _ | .red _ | .page | .code _ | .attn _ => s

/-- Every receiver's slot is FILLED. -/
def fillsLanded (c : Cmd) (s : State) : Bool :=
  match c.kind with
  | .mcast _ _ => !s.inFlight.any fun m => m.who == mine .c s && (match m.body with | .fill _ _ _ _ => true | _ => false)
  | .copy | .push _ | .pull _ | .red _ | .page | .code _ | .attn _ => true

/-- Step 1 of R205: the reserved slot turns FILLED. -/
def fillAction (c : Cmd) (s : State) : State :=
  match c.slot with
  | none => s
  | some n =>
    let r := ringOf s.me.m c.comp.ring
    let t := modM (modRing c.comp.ring (fillSlot n)) s
    if c.lost.isEmpty then sendFill r n t else t

/-- The actions of a performed command, in order, and its departure (R205, R220). Log 24, DESIGN CHOICE. -/
def completeCmd (c : Cmd) (s : State) : State :=
  let s := fillAction c s
  let s := if c.comp.barr then (arrive c.comp.bscope s).2 else s
  let s := if c.comp.notify then raiseEvent .notify (c.comp.ring.toNat + field c.comp.shape.toNat 4) s else s
  modM (fun m => { dropPassed .c c.pos m with cq := m.cq.drop 1, cDone := m.cDone + 1 }) s

/-- Every unit is done, and every page has filled its slot. -/
def cmdWalked (c : Cmd) : Bool :=
  match c.kind with
  | .attn _ => attnCount c ≤ c.progress && c.jobs.isEmpty
  | .page => c.walked && c.read == []
  | .copy | .push _ | .pull _ | .mcast _ _ | .red _ | .code _ => c.walked

/-- The oldest command is performed: its writes have left the combiner and landed (R204, R205). -/
def performCmd (c : Cmd) (s : State) : Eff State := do
  let t := drainMine s
  waitUntil (nothingOlder t && !shuttleWriteFlying t && !(c.comp.barr && wide c.comp.bscope && quadWriteFlying t))
  let u := finishMcast c t
  .ok (if fillsLanded c u then completeCmd c u else u)

/-- A command that is done takes its completion actions (R205). -/
def execCommandPerformed (s : State) : Host.Outcome State Fault Refusal :=
  match s.me.m.cq with
  | [] => .next s
  | c :: _ => if !cmdWalked c then .next s else
    match asCommand .c c.pos (performCmd c) s with
    | .ok t => .next t
    | .error e => engineEnd .c c.pos [cmdBytes c c.progress] s (some e)

/-- A multicast credit arrives (R215). -/
def execCmcastCredit (s : State) : Host.Outcome State Fault Refusal :=
  .next (match takeMsg .cmcastCredit s with
    | none => s
    | some (m, t) => match m.body with
      | .mcredit l c r => applyMcredit l c r t
      | _ => s)

end Sys2Proof.Machine
end

