-- ==== Sys2Proof/Machine/Attention.lean ====
section
/-! DEFINITION. `cattn` on the drupelets (R335 to R341): the checks before any request, the sending of pages, and the
state that a drupelet computes. -/
namespace Sys2Proof.Machine

/-! ### What a started command has read (R336) -/

/-- The values kept in the queue entry: d, lt, tokens, the value table, then the query, the key entries and the value entries. -/
structure AttnRead where
  d : Nat
  lt : Nat
  tokens : Nat
  values : Nat
  query : List Word32
  keys : List (BitVec 64)
  vals : List (BitVec 64)

def attnPack (r : AttnRead) : List (BitVec 64) :=
  [BitVec.ofNat 64 r.d, BitVec.ofNat 64 r.lt, BitVec.ofNat 64 r.tokens, BitVec.ofNat 64 r.values] ++ r.query.map (·.setWidth 64) ++ r.keys ++ r.vals

def attnUnpack (count : Nat) (l : List (BitVec 64)) : AttnRead :=
  let d := (nth l 0 0).toNat
  { d := d, lt := (nth l 1 0).toNat, tokens := (nth l 2 0).toNat, values := (nth l 3 0).toNat, query := ((l.drop 4).take d).map (·.setWidth 32),
    keys := (l.drop (4 + d)).take count, vals := (l.drop (4 + d + count)).take count }

def attnFirst (c : Cmd) : Nat := c.b.toNat % 2 ^ 32
def attnTable (c : Cmd) : Nat := match c.kind with
  | .attn t => t.toNat
  | .copy | .push _ | .pull _ | .mcast _ _ | .red _ | .page | .code _ => 0

/-- Both entries of the pages of a range, and whether one is poisoned. -/
def readEntries (key val : Nat) (s : State) : List Nat → Eff (List (BitVec 64 × BitVec 64) × Bool)
  | [] => .ok ([], false)
  | n :: rest => do
    let k ← readEntry key n s
    let v ← readEntry val n s
    need (entryOk k.1 && entryOk v.1) .shapeRecord
    let t ← readEntries key val s rest
    .ok ((k.1, v.1) :: t.1, k.2 || v.2 || t.2)

/-- The bytes of an HBM page lie within one stack (R336, R390). -/
def inOneStack (e : BitVec 64) (len : Nat) : Bool :=
  entryTier e != 0 || (entryFrame e / 2 ^ 36 == (entryFrame e + len - 1) / 2 ^ 36 && entryFrame e < 2 ^ 39)

/-- DRUPELET_FAULT names the page (R340). Log 25, DEDUCED. -/
def drupeletFault {α : Type} (page : Nat) : Eff α := .error (.fault { cause := .drupeletFault, detail := page })

/-- The first page of a range that does not lie within one stack. -/
def badPage (first len : Nat) (es : List (BitVec 64 × BitVec 64)) : Option Nat :=
  ((es.zip (upTo es.length)).find? fun p => !(inOneStack p.1.1 len && inOneStack p.1.2 len)).map fun p => first + p.2

/-- The reads and checks before the first request (R336). -/
def attnStart (c : Cmd) (s : State) : Eff State := do
  cmdFree c s
  let first := attnFirst c
  let count := attnCount c
  let tab ← readTable (attnTable c) s
  match tab.value with
  | none => fail .shapeRecord
  | some _ => do
    let n := kvEntries tab.head
    let es ← readEntries tab.addr (kvPartner tab.head) s ((upTo (min (first + count) n - first)).map (first + ·))
    if n < first + count then failAt .notPresent tab.addr
    let d := kvDim tab.head
    need (recordFits (ringOf s.me.m c.comp.ring) d) .ringConfig
    let q ← readWord c.a.toNat (4 * d) s
    need (!(q.2 || tab.poison || es.2)) .poisonConsumed
    need (es.1.all fun e => entryTier e.1 != 2 && entryTier e.2 != 2) .tierFault
    match badPage first (kvPageBytes tab.head) es.1 with
    | some p => drupeletFault p
    | none =>
      .ok (modCmd (fun c => { c with read := attnPack ⟨d, kvLt tab.head, kvTokens tab.head, kvPartner tab.head,
        (upTo d).map fun k => BitVec.ofNat 32 (q.1 / 2 ^ (32 * k)), es.1.map (·.1), es.1.map (·.2)⟩ })
        (wordCached (tableReads tab ++ ((upTo count).flatMap fun i =>
          [(entryAddr tab.addr (first + i), 8), (entryAddr (kvPartner tab.head) (first + i), 8)]) ++ [(c.a.toNat, 4 * d)]) s))

/-! ### Records (R338) -/

/-- The empty state (R337). -/
def emptyState (d : Nat) : List Word32 := 0xFF800000#32 :: List.replicate (d + 1) 0

/-- A record: page, whether it is a tier miss and of which entries, the entries' addresses, the state. -/
def recordBytes (page kind cxl keyAddr valAddr : Nat) (st : List Word32) : List Byte :=
  natToBytes 8 page ++ [BitVec.ofNat 8 kind, BitVec.ofNat 8 cxl] ++ List.replicate 6 0 ++ natToBytes 8 keyAddr ++
    natToBytes 8 valAddr ++ List.replicate 32 0 ++ st.flatMap fun w => natToBytes 4 w.toNat

/-- A record's bytes, then its fill (R338). -/
def postRecord (k : KIdx) (slot : Nat) (rec : List Byte) (s : State) : State :=
  let off := (slotAddr (ringOf s.me.m k) slot).toNat % 2 ^ 56
  modM (modRing k (fillSlot slot)) (modCore (spadWrite off rec false) s)

/-- The addresses of a page's entries. -/
def attnEntryAddrs (c : Cmd) (r : AttnRead) (page : Nat) : Nat × Nat :=
  (entryAddr (attnTable c) page, entryAddr r.values page)

/-- The slot at the tail is claimed for a page (R218). -/
def claimFor (k : KIdx) (m : Member) : Nat × Member :=
  let r := ringOf m k
  (r.tail, setRing k { claimSlot r with reserved := r.reserved ++ [r.tail] } m)

/-- The next page is sent, or gets its tier-miss record and event (R336, R339). -/
def sendPage (c : Cmd) (s : State) : Eff State := do
  let r := attnUnpack (attnCount c) c.read
  let k := c.comp.ring
  waitUntil (slotState (ringOf s.me.m k) (ringOf s.me.m k).tail == .free)
  let page := attnFirst c + c.progress
  let ke := nth r.keys c.progress 0
  let ve := nth r.vals c.progress 0
  let (slot, m) := claimFor k s.me.m
  let t := modCmd (fun c => { c with progress := c.progress + 1 }) (modM (fun _ => m) s)
  let cxl := boolNat (entryTier ke == 1) + 2 * boolNat (entryTier ve == 1)
  if cxl == 0 then .ok (modCmd (fun c => { c with jobs := c.jobs ++ [⟨page, slot, ke, ve⟩] }) t)
  else
    let as := attnEntryAddrs c r page
    .ok (raiseEvent .tier (slot + field k.toNat 8) (postRecord k slot (recordBytes page 1 cxl as.1 as.2 (emptyState r.d)) t))

/-- The shuttle begins the oldest command, or sends one page of it (R336). -/
def execCattnPageSend (s : State) : Host.Outcome State Fault Refusal :=
  match s.me.m.cq with
  | [] => .next s
  | c :: _ =>
    if !isAttn c || attnCount c ≤ c.progress then .next s
    else match asCommand .c c.pos (if c.read == [] then attnStart c else sendPage c) s with
      | .ok t => .next t
      | .error e => engineEnd .c c.pos [c.progress] s (some e)

/-! ### The drupelet (R335, R337) -/

/-- The value of an element of a page (R335). -/
def kvElem (e rs : XVal) (pscale : Nat) : XVal :=
  if pscale == 0xFF || xisNan e || xisNan rs then .nan else xmul (xmul e rs) (.fin false 1 ((pscale : Int) - 127))

/-- The values of token row r of a page. -/
def kvTokenRow (page : List Byte) (e : BitVec 64) (t d r : Nat) : List XVal :=
  let rs := x32 (BitVec.ofNat 32 (bytesToNat ((page.drop (t * d + 4 * r)).take 4)))
  ((page.drop (r * d)).take d).map fun b => kvElem (decodeFmt e4m3 b.toNat) rs (entryScale e)

/-- The exact dot product, rounded once. -/
def kvScore (q : List XVal) (row : List XVal) : Word32 :=
  (r32 ((q.zip row).foldl (fun acc p => xadd false acc (xmul p.1 p.2)) xzero)).1

/-- The running sum and accumulators after a token of score sc under the maximum m. -/
def kvToken (m : Word32) (st : Word32 × List Word32) (sc : Word32) (row : List XVal) : Word32 × List Word32 :=
  let d := (r32 (xadd false (x32 sc) (xneg (x32 m)))).1
  let w := (r32 (xexp2 (x32 d))).1
  ((add32 st.1 w).1, (st.2.zip row).map fun p => (add32 p.1 (mul32 w (r32 p.2).1).1).1)

/-- The state of a page (R337). -/
def pageState (r : AttnRead) (n : Nat) (ke ve : BitVec 64) (kb vb : List Byte) : List Word32 :=
  let t := 2 ^ r.lt
  let live := min (n * t + t) r.tokens - n * t
  let q := r.query.map x32
  let scores := (upTo live).map fun i => kvScore q (kvTokenRow kb ke t r.d i)
  let m := if scores.any isNan32 then nan32 else (scores.foldl (fun a w => xmax a (x32 w)) (.inf true) |> r32).1
  if live == 0 then emptyState r.d
  else if isNan32 m || m == 0x7F800000#32 then List.replicate (r.d + 2) nan32
  else if m == 0xFF800000#32 then emptyState r.d
  else
    let st := (scores.zip (upTo live)).foldl (fun st p => kvToken m st p.1 (kvTokenRow vb ve t r.d p.2))
      (0, List.replicate r.d 0)
    m :: st.1 :: st.2

/-- Bytes of a page as its stack holds them; the command's own quad's older writes to them are there (R260, R341). -/
def pagePart (page pa len : Nat) (s : State) : Eff (List Byte × State) := do
  let key := memKey s.me.pkg pa
  match findPkg s.me.pkg s with
  | some p => if !inHbm p pa len then drupeletFault page
  | none => drupeletFault page
  let s := if (combined s).any fun x => x.key < key + len && key < x.key + x.data.length then drainMine s else s
  if (← awaitRead [(.mem 4 key, len)] s) then drupeletFault page
  if anyMark s.memPoison key len then drupeletFault page
  .ok (storeRead s.mem key len, s)

/-- A page's bytes, where it stands now (R384). -/
def pageBytesAt (page : Nat) (e : BitVec 64) (len : Nat) (s : State) : Eff (List Byte × State) :=
  (physParts s.me.pkg (entryFrame e) len s).foldlM (fun (a : List Byte × State) p => do
    let r ← pagePart page p.1 p.2 a.2
    .ok (a.1 ++ r.1, r.2)) ([], s)

/-- A page in flight is computed and its record fills its slot. Log 25, DEDUCED. -/
def finishPage (c : Cmd) (j : PageJob) (s : State) : Eff State := do
  let r := attnUnpack (attnCount c) c.read
  let len := 2 ^ r.lt * (r.d + 4)
  let (kb, s) ← pageBytesAt j.page j.keyEntry len s
  let (vb, s) ← pageBytesAt j.page j.valEntry len s
  let as := attnEntryAddrs c r j.page
  .ok (postRecord c.comp.ring j.slot (recordBytes j.page 0 0 as.1 as.2 (pageState r j.page j.keyEntry j.valEntry kb vb))
    (modCmd (fun c => { c with jobs := c.jobs.filter fun x => x.slot != j.slot }) s))

/-- A fault of the oldest command has named a page; no later record fills (R340). -/
def pageFaulted (c : Cmd) (s : State) : Bool :=
  (myLaunch s).any fun l => l.records.any fun r =>
    r.who.member == s.me.cur.member && r.who.stream == .c && r.cause == .drupeletFault && r.pos == c.pos

/-- A drupelet finishes the index-th page in flight of the oldest command (R337, R338). -/
def execDrupeletPageState (index : Nat) (s : State) : Host.Outcome State Fault Refusal :=
  match s.me.m.cq with
  | [] => .next s
  | c :: _ => match c.jobs[index]? with
    | none => .next s
    | some j => if pageFaulted c s then .next s else match asCommand .c c.pos (finishPage c j) s with
      | .ok t => .next t
      | .error e => engineEnd .c c.pos [c.progress] s (some e)

end Sys2Proof.Machine
end

