-- ==== Sys2Proof/Machine/Boards.lean ====
section
/-! DEFINITION. Notice boards (R194 to R197, R270 to R277). -/
namespace Sys2Proof.Machine

/-! ### Reaching a board (R194, R270, R293, R350) -/

def boardLevel (b : Board) : Nat := ((upTo 64).filter fun i => b.mask.getLsbD i).length

/-- The scope a post waits at (R195). -/
def boardScope (r : BoardRef) : Scope := if r.viaCap then .pod else .pkg

/-- The board that a reference names, as its home serves it (R270). -/
def boardAt (r : BoardRef) (s : State) : Eff Board :=
  if r.viaCap then do
    let e ← capEntry r.index s
    match s.podBoards.find? fun p => p.1 == boardHomeOf e with
    | some p => .ok p.2
    | none => fail .capInvalid
  else match (myLaunch s).bind fun l => l.boards[r.index.toNat]? with
    | some b => if b.pod then fail .boardNotParticipant else .ok b
    | none => fail .boardNotParticipant

/-- The board behind a reference at its use; a capability is checked first (R194, R350). -/
def findBoard (r : BoardRef) (s : State) : Eff Board := do
  if r.viaCap then
    let e ← capEntry r.index s
    need (capKind e == 4 && capBoard e) .capPermission
    need (capAllowance e != 0) .capAllowance
    boardAt r s
  else
    need (r.index.toNat < resBoards s) .boardNotParticipant
    boardAt r s

def putBoard (r : BoardRef) (b : Board) (s : State) : State :=
  if r.viaCap then
    match capEntry r.index s with
    | .ok e => { s with podBoards := s.podBoards.map fun p => if p.1 == boardHomeOf e then (p.1, b) else p }
    | .error _ => s
  else modMyLaunch (fun l => { l with boards := setNth l.boards r.index.toNat b }) s

/-- The links to a board's home. -/
def boardRoute (r : BoardRef) (s : State) : List LinkId :=
  if r.viaCap then
    match capEntry r.index s with
    | .ok e => routeTo s.me.pkg s.me.die (capPkg e) (some (capDie e)) s
    | .error _ => []
  else memberRoute s.me.cur.launch 0 s

/-- A use through a capability consumes one unit (R350). -/
def useBoard (r : BoardRef) (s : State) : Eff State := if r.viaCap then consumeCap r.index s else .ok s

/-! ### Steps at the home (R195 to R197, R273) -/

def setView (vm : BitVec 3) (v : Option View) (s : State) : State :=
  modM (fun m => { m with views := vput (k := 3) m.views vm v }) s

/-- The home that a capability of the launch names for a pod board (R270, R349). -/
def boardHome (r : BoardRef) (s : State) : Option BoardHome :=
  if r.viaCap then (myLaunch s).bind fun l => (l.caps[r.index.toNat]?).map fun c => boardHomeOf c.entry else none

/-- Two references name one board: they are equal, or are capabilities for the board of one home (R197, R270). -/
def sameBoard (x y : BoardRef) (s : State) : Bool := x == y || ((boardHome x s).isSome && boardHome x s == boardHome y s)

/-- The member records, per board, the round a reply reports (R197). -/
def noteRound (r : BoardRef) (n : Word32) (s : State) : State :=
  modM (fun m => { m with rounds := (r, n) :: m.rounds.filter fun e => !sameBoard e.1 r s }) s
def lastRound (r : BoardRef) (s : State) : Word32 :=
  match s.me.m.rounds.find? fun e => sameBoard e.1 r s with | some e => e.2 | none => 0

def viewOfBoard (r : BoardRef) (b : Board) : View := ⟨b.mask, b.round, r⟩

/-- d of a post or a look (R195). -/
def boardWord (b : Board) (repost : Bool) : Word :=
  BitVec.ofNat 64 (field b.round.toNat 32 + field (boolNat repost) 31 + boardLevel b)

/-- The reply of a post or look: view, register and recorded round. -/
def boardAnswer (r : BoardRef) (b : Board) (repost : Bool) (vm : BitVec 3) : BoardAnswer :=
  ⟨r, boardWord b repost, some b.round, some (vm, viewOfBoard r b)⟩

/-- A reply reaches its instruction. A post, a look and a read are acquires (R195, R196, R263); a round advance, which
brings a round and no view, is none. -/
def takeAnswer (a : BoardAnswer) (d : Reg) (s : State) : State :=
  let s := if a.round.isSome && a.view.isNone then s else ordered s
  let s := match a.view with
    | some v => setView v.1 (some v.2) s
    | none => s
  retire 2 (wr d a.word (match a.round with
    | some n => noteRound a.board n s
    | none => s))

def postedBoard (member slot : Nat) (value : Word) (b : Board) : Board :=
  let i := BitVec.ofNat 6 slot
  { b with mask := setBit b.mask slot true, owners := vput (k := 6) b.owners i (some member), cur := vput (k := 6) b.cur i value }

/-- A post at the home (R195). -/
def boardPostStep (r : BoardRef) (value slot : Word) (vm : BitVec 3) (s : State) : Eff (BoardAnswer × State) := do
  let b ← boardAt r s
  need (slot.toNat < b.p) .boardNotParticipant
  need (match vat (k := 6) b.owners (BitVec.ofNat 6 slot.toNat) with
    | some m => m == s.me.cur.member
    | none => true) .boardNotParticipant
  if b.mask.getLsbD slot.toNat then .ok (boardAnswer r b true vm, s)
  else
    let b' := postedBoard s.me.cur.member slot.toNat value b
    .ok (boardAnswer r b' false vm, putBoard r b' s)

/-- A look at the home (R195). -/
def boardLookStep (r : BoardRef) (vm : BitVec 3) (s : State) : Eff (BoardAnswer × State) := do
  let b ← boardAt r s
  .ok (boardAnswer r b false vm, s)

/-- The word that a read of a slot through a view returns (R196). -/
def boardValue (b : Board) (v : View) (slot : Nat) : Word :=
  let i := BitVec.ofNat 6 slot
  if slot == 64 then v.mask
  else if slot == 65 then boardWord { b with mask := v.mask, round := v.round } false
  else if !v.mask.getLsbD slot then 0
  else if v.round == b.round then vat (k := 6) b.cur i else vat (k := 6) b.prev i

/-- A read through a view (R196). -/
def boardReadStep (r : BoardRef) (slot : Word) (vm : BitVec 3) (s : State) : Eff (BoardAnswer × State) := do
  let b ← boardAt r s
  need (slot.toNat ≤ 65) .boardNotParticipant
  match vat (k := 3) s.me.m.views vm with
  | none => fail .boardRound
  | some v => do
    need (sameBoard v.board r s && (v.round == b.round || v.round + 1 == b.round)) .boardRound
    .ok (⟨r, boardValue b v slot.toNat, none, none⟩, s)

def advancedBoard (b : Board) : Board :=
  { b with round := b.round + 1, mask := 0, prev := b.cur, cur := Vector.replicate 64 0 }

/-- A round advance at the home; r is the recorded round that was sent (R197). -/
def boardRoundStep (ref : BoardRef) (r : Word32) (s : State) : Eff (BoardAnswer × State) := do
  let b ← boardAt ref s
  need ((b.round == r && boardLevel b == b.p) || b.round == r + 1) .boardRound
  .ok (⟨ref, (r + 1).setWidth 64, some (r + 1), none⟩, if b.round == r then putBoard ref (advancedBoard b) s else s)

/-- What a board's request does at its home, seen from its issuer. -/
def boardStep (b : Body) (s : State) : Eff (BoardAnswer × State) :=
  match b with
  | .boardPost r value slot vm _ => boardPostStep r value slot vm s
  | .boardLook r vm _ => boardLookStep r vm s
  | .boardRead r slot vm _ => boardReadStep r slot vm s
  | .boardRound r n _ => boardRoundStep r n s
  | _ => fail .capInvalid

/-- The message reaches its home at once, or sets out and the instruction waits for the reply. The unit of a capability is
consumed with its sending (R350). -/
def boardSend (r : BoardRef) (b : Body) (d : Reg) (s : State) : Eff State := do
  let _ ← findBoard r s
  let s ← useBoard r s
  let route := boardRoute r s
  if routeFree .tc0 route s then do
    let (a, t) ← boardStep b s
    .ok (takeAnswer a d t)
  else .ok (awaitReply (sendMsg route (boardScope r) b s))

/-- `bpost` (R195). -/
def execBpost (d a b : Reg) (board : BoardRef) (vm : BitVec 3) (s : State) : Host.Outcome State Fault Refusal :=
  run s (do
    let value ← rd s a
    let slot ← rd s b
    let _ ← findBoard board s
    whenReleased (boardScope board) (boardSend board (.boardPost board value slot vm d) d) s)

/-- `blook` (R195). -/
def execBlook (d : Reg) (board : BoardRef) (vm : BitVec 3) (s : State) : Host.Outcome State Fault Refusal :=
  run s (boardSend board (.boardLook board vm d) d s)

/-- `bread` (R196). -/
def execBread (d b : Reg) (board : BoardRef) (vm : BitVec 3) (s : State) : Host.Outcome State Fault Refusal :=
  run s (do
    let slot ← rd s b
    boardSend board (.boardRead board slot vm d) d s)

/-- `bround` (R197). -/
def execBround (d : Reg) (board : BoardRef) (s : State) : Host.Outcome State Fault Refusal :=
  run s (boardSend board (.boardRound board (lastRound board s) d) d s)

/-- The board of a request, with its view register and result register. -/
def boardRequest : Body → Option (BoardRef × Option (BitVec 3) × Reg)
  | .boardPost r _ _ vm d => some (r, some vm, d)
  | .boardLook r vm d => some (r, some vm, d)
  | .boardRead r _ vm d => some (r, some vm, d)
  | .boardRound r _ d => some (r, none, d)
  | _ => none

/-- The home's answer to a request, or the refusal that it or a revoked capability gives (R273, R377). -/
def boardResult (r : BoardRef) (b : Body) (s : State) : BoardResult × State :=
  if r.viaCap && capRevoked r.index s then (.refused (.peer 3 3), s)
  else match boardStep b s with
    | .ok (a, t) => (.answer a, t)
    | .error (.fault t) => (.refused t.cause, s)
    | .error _ => (.refused .capInvalid, s)

/-- A reply, or a refusal, reaches the instruction that waits for it. -/
def takeBoardReply (r : BoardResult) (d : Reg) (s : State) : State :=
  let s := modCtx (fun c => { c with replyDue := false }) s
  match r with
  | .answer a => takeAnswer a d s
  | .refused c => takeFault s.cur (ctx s).pc 0 { cause := c } s

/-- The oldest travelling board message comes to its end: a request is applied at its home, and its reply sets out; a reply
reaches its instruction (R273, R276, R277). -/
def execBoardHomeStep (s : State) : Host.Outcome State Fault Refusal :=
  .next (match takeMsg .boardHomeStep s with
    | none => s
    | some (m, t) => match m.body with
      | .boardReply r _ d => atWho m.who (takeBoardReply r d) t
      | b => match boardRequest b with
        | none => s
        | some (r, vm, d) => atWho m.who (fun u =>
            let x := boardResult r b { u with cur := m.who.stream }
            { x.2 with inFlight := x.2.inFlight ++ [{ m with body := .boardReply x.1 vm d }] }) t)

end Sys2Proof.Machine
end

