-- ==== Sys2Proof/Machine/Branch.lean ====
section
/-! DEFINITION. Transfers of control, loops and the entry of code lines (R59 to R64, R90 to R93). -/
namespace Sys2Proof.Machine

/-- `b` (R90). -/
def execB (target : CodePos) (s : State) : Host.Outcome State Fault Refusal := run s (transfer true target s)

/-- `jal` (R90): s31 takes the return position when the target has passed its checks (R63). -/
def execJal (target : CodePos) (s : State) : Host.Outcome State Fault Refusal :=
  run s (do
    let _ ← targetLine target s
    transfer true target (wr 31 (BitVec.ofNat 64 (nextPos 1 s).toNat) s))

/-- `jr` (R91). -/
def execJr (a : Reg) (s : State) : Host.Outcome State Fault Refusal :=
  run s (do
    let x ← rd s a
    need (x.toNat < 2 ^ 24) .reservedField
    transfer true (BitVec.ofNat 24 x.toNat) s)

/-- The conditions of R92. -/
def condHolds (c : Cond) (a b : Word) : Bool :=
  match c with
  | .eq => a == b | .ne => a != b
  | .lt => a.toInt < b.toInt | .ge => b.toInt ≤ a.toInt
  | .ltn => a.toNat < b.toNat | .gen => b.toNat ≤ a.toNat

/-- A long branch: the target is checked only when it is taken (R92). -/
def branchIf (taken : Bool) (target : CodePos) (s : State) : Eff State :=
  if taken then transfer true target s else .ok (retire 2 s)

/-- `bc` (R92). -/
def execBc (cond : Cond) (a b : Reg) (target : CodePos) (s : State) : Host.Outcome State Fault Refusal :=
  run s (do
    let x ← rd s a
    let y ← rd s b
    branchIf (condHolds cond x y) target s)

/-- `bci` (R92). -/
def execBci (cond : Cond) (a : Reg) (imm : BitVec 14) (target : CodePos) (s : State) : Host.Outcome State Fault Refusal :=
  run s (do
    let x ← rd s a
    branchIf (condHolds cond x (imm.signExtend 64)) target s)

/-- The position X that follows the instruction at e, in the line that holds it (R90, R93). -/
def exitFollowing (l : Vector Word32 16) (e : CodePos) : Following :=
  let w := vat (k := 4) l (BitVec.ofNat 4 (slotOf e))
  following l (lineOf e) (slotOf e + if longOpcode (w.toNat / 2 ^ 24) then 1 else 0)

/-- A stream whose control passes as if the instruction at e had completed in sequence. Where a long opcode in the line's last slot
leaves no position X, a line that is no TERM line gives CHAIN_END too (R63, R93; log 37, DESIGN CHOICE). -/
def passExit (l : Vector Word32 16) (e : CodePos) (c : StreamCtx) : StreamCtx :=
  let c := { c with state := .running, arrived := none, mark := none, replyDue := false, pastStop := [] }
  match exitFollowing l e with
  | .here p => { c with pc := p, pend := if lineOf e == lineOf c.pc then .run else .enter }
  | .entering p => { c with pc := p, pend := .enter }
  | .term => { c with pc := position (lineOf e) (lineCount l), pend := .chainEnd }

/-- `loop` (R93): the count register is read before the end position is checked. -/
def execLoop (a : Reg) (last : CodePos) (s : State) : Host.Outcome State Fault Refusal :=
  run s (do
    let n ← rd s a
    let l ← targetLine last s
    if n == 0 then .ok (stepStop (ctx s).pc (modCtx (passExit l last) s))
    else do
      need ((ctx s).loops.length < 4) .loopDepth
      let r : LoopRec := ⟨nextPos 2 s, last, followingPos (exitFollowing l last), n⟩
      let c := ctx s
      .ok (stepStop c.pc (modCtx (fun c =>
        continueAt { c with state := .running, arrived := none, mark := none, replyDue := false, pastStop := [],
                            loops := r :: c.loops }
          (following c.line (lineOf c.pc) (slotOf c.pc + 1))) s)))

/-- A stream enters the line it continues in, or finds no line to continue in (R59, R63). -/
def execLineFetch (s : State) : Host.Outcome State Fault Refusal :=
  run s (match (ctx s).pend with
    | .run => .ok s
    | .enter => do
        let l ← fetchLine s.cur (ctx s).pc s
        .ok (modCtx (fun c => { c with line := l, pend := .run }) s)
    | .chainEnd => fail .chainEnd
    | .again => do
        let n := lineOf (ctx s).pc
        need (!linePoisoned n s) .fetchPoison
        need (!lineTerm (readLine n s)) .chainEnd
        .ok (modCtx (fun c => { c with pc := position (lineNext (readLine n s)) 1, pend := .enter }) s))

end Sys2Proof.Machine
end

