-- ==== Sys2Proof/Machine/Links.lean ====
section
/-! DEFINITION. Link errors and what a failed link loses (R346, R347, R374, R377). -/
namespace Sys2Proof.Machine

/-- A flit fails its CRC and is replayed (R346, R347). -/
def execFlitReplay (link : LinkId) (s : State) : Host.Outcome State Fault Refusal :=
  .next (match linkOf link s with
    | .up => setLink link (.replaying 1) s
    | .replaying n => setLink link (.replaying (min (n + 1) (replayLimit (linkPkg link) s))) s
    | .retraining => s
    | .failed => s)

/-- At the replay limit the link retrains onto its spare lane (R347). -/
def execLinkRetrain (link : LinkId) (s : State) : Host.Outcome State Fault Refusal :=
  .next (match linkOf link s with
    | .replaying n => if replayLimit (linkPkg link) s ≤ n then setLink link .retraining s else s
    | .up => s
    | .retraining => s
    | .failed => s)

/-- The retrain completes within the recovery timeout; what waits for the link goes on (R347). -/
def execRetrainRecovery (link : LinkId) (s : State) : Host.Outcome State Fault Refusal :=
  .next (if linkOf link s == .retraining then setLink link .up s else s)

/-! ### What is lost (R347, R374) -/

def logLoss (m : Msg) (cause : Cause) (addr size : Nat) (s : State) : State :=
  modMember m.who.launch m.who.member (addLoss m.who.stream ⟨cause, addr, size, m.pos, m.scope, m.age⟩) s

/-- The shuttle command that made a lost write remembers the receiver (R223). -/
def markLost (m : Msg) (receiver : Nat × Nat) (s : State) : State :=
  if m.who.stream != .c then s
  else modMember m.who.launch m.who.member (fun x => { x with cq := match x.cq with
    | c :: rest => if c.age == m.age then { c with lost := c.lost ++ [receiver] } :: rest else c :: rest
    | [] => [] }) s

/-- A lost store is logged: one that travelled under the physical address it was to reach, with its package above (R178; log 24,
DESIGN CHOICE). -/
def logWrite (m : Msg) (receiver : Nat × Nat) (addr size : Nat) (s : State) : State :=
  markLost m receiver (logLoss m .remoteStoreLost addr size s)

/-- A lost board message: the instruction retires with d poisoned and its view invalid (R276). -/
def boardLost (d : Reg) (vm : Option (BitVec 3)) (s : State) : State :=
  let (v, s) := drawFree s
  let s := match vm with | some i => modM (fun m => { m with views := vput (k := 3) m.views i none }) s | none => s
  retire 2 (wrP d v true s)

/-- The phase that an arrival joined loses it (R377). -/
def loseArrival (l : Launch) (sc : Scope) (member : Nat) : Launch :=
  let k := barKey l.packet sc member
  let b := barrierOf l sc k
  putBarrier { b with lost := b.lost ++ [arrivalCount b member] } l

/-- A member's release is lost: of the phases that it told of, the member is never told otherwise (R377). -/
def loseRelease (l : Launch) (sc : Scope) (member gen : Nat) : Launch :=
  let b := barrierOf l sc (barKey l.packet sc member)
  putBarrier { tellGen member gen b with missed := b.missed ++ (upTo (gen - seenGen b member)).map fun i => (member, seenGen b member + i) } l

/-- The instruction or entry that waits for a read finds it lost, and its data poisoned (R347). -/
def loseRead (m : Msg) (key : Nat) (s : State) : State :=
  modMember m.who.launch m.who.member (fun x => { x with readLost := x.readLost ++ [(m.who.stream, key)] }) s

/-- A message that was on a failed link. -/
def loseMsg (m : Msg) (s : State) : State :=
  match m.body with
  | .load d shadow _ _ _ _ => (let (v, s) := drawFree s; deliverReg m.who d shadow v true s)
  | .fetch key _ => loseRead m key s
  | .write key data _ => logWrite m (0, 0) key data.length s
  | .detWrite _ key _ => logWrite m (0, 0) key 4 s
  | .collWrite id rank word _ => logWrite m (0, 0) (collKey id rank word s) 4 s
  | .copyWrite l n off data _ => logWrite m (l, n) off data.length s
  | .hostWrite a data => logWrite m (0, 0) a data.length s
  | .atomic k w _ key _ ret =>
    (match ret with
      | .none => logLoss m .remoteStoreLost key (atomSize k w) s
      | .direct _ => (let (v, s) := drawFree s; atWho m.who (returnAtom ret v true) s)
      | .queued _ => (let (v, s) := drawFree s; atWho m.who (returnAtom ret v true) s))
  | .atomicReply _ _ ret => (let (v, s) := drawFree s; atWho m.who (returnAtom ret v true) s)
  | .boardPost _ _ _ vm d => atWho m.who (boardLost d (some vm)) s
  | .boardLook _ vm d => atWho m.who (boardLost d (some vm)) s
  | .boardRead _ _ vm d => atWho m.who (boardLost d (some vm)) s
  | .boardRound _ _ d => atWho m.who (boardLost d none) s
  | .boardReply _ vm d => atWho m.who (boardLost d vm) s
  | .arrival sc => modLaunch m.who.launch (fun l => loseArrival l sc m.who.member) s
  | .release sc gen => modLaunch m.who.launch (fun l => loseRelease l sc m.who.member gen) s
  | .fill _ _ _ _ => logLoss m .fillLost 0 0 s
  | .collFill _ _ _ _ _ _ _ => s
  | .credit _ _ _ _ => logLoss m .creditLost 0 0 s
  | .collCredit _ _ _ => logLoss m .creditLost 0 0 s
  | .mcredit _ _ _ => logLoss m .creditLost 0 0 s
  | .token => atWho m.who (fun t => takeFault m.who.stream m.pos 0 { cause := .tokenLost } (modCtx (fun c => { c with replyDue := false }) t)) s
  | .bobbin home i _ _ => contributionOver m (modMember m.who.launch home (faultBobbin (BitVec.ofNat 6 i)) s)
  | .bind _ _ _ _ _ _ => atWho m.who (modCtx fun c => { c with replyDue := false }) s

/-- The cause a failed link is logged under; the fabric of a die has none of its own (R377; log 44, DESIGN CHOICE). -/
def linkCause : LinkId → Cause
  | .dlink _ n => .dlink (BitVec.ofNat 2 n)
  | .hlink _ d => .hlink (BitVec.ofNat 2 d)
  | .mesh _ _ => .linkDown
  | .weft _ _ => .linkDown
  | .host _ => .linkDown

def hubTime (pkg : Nat) (s : State) : Nat :=
  match s.dies.find? fun d => d.pkg == pkg && d.on with
  | some d => d.count / 65536
  | none => 0

/-- A record of the machine log: it charges no stream; launch is the one whose traffic it concerns, or 0 (R368, R374). -/
def machineRecord (c : Cause) (launch pkg : Nat) (s : State) : FaultRecord :=
  { cause := c, who := ⟨launch, 0, .s⟩, ctx := 0, pos := 0, origin := 3, addr := 0, progress := [], time := hubTime pkg s, malformed := false,
    level := 0, lost := [], detail := 0 }

/-- A cause logged for the host; no stream stops (R377). -/
def logMachine (c : Cause) (pkg : Nat) (s : State) : State :=
  { s with hostLog := s.hostLog ++ [.machine c pkg (hubTime pkg s), .fault (machineRecord c 0 pkg s)] }

/-- The same cause is logged for the launches whose messages a link has lost (R374). -/
def logForLaunches (c : Cause) (pkg : Nat) (gone : List Msg) (s : State) : State :=
  (s.launches.filter fun l => gone.any fun m => m.who.launch == l.number).foldl (fun t l => logRecord (machineRecord c l.number pkg s) t) s

/-- The collectives with a rank whose routes to the weft processor a failed link cuts: Sahfin aborts them (R358). -/
def cutColls (link : LinkId) (s : State) : List Instr :=
  (s.colls.filter fun c => !c.aborted && (upTo (collRankCount c)).any fun r => (rankRoutes c r s).contains link).map
    fun c => .collAbort (bytesField c.record 0 1)

/-- The order in which losses found together are recorded: by launch and member, then S, M, V, C (R369). -/
def lossBefore (x y : Msg) : Bool :=
  x.who.launch < y.who.launch || (x.who.launch == y.who.launch && (x.who.member < y.who.member ||
    (x.who.member == y.who.member && x.who.stream.code ≤ y.who.stream.code)))

/-- What is outstanding on a link is lost. -/
def loseTraffic (link : LinkId) (s : State) : State :=
  ((s.inFlight.filter fun m => m.route.contains link).foldr (insertBy lossBefore) []).foldl (fun t m => loseMsg m t)
    { s with inFlight := s.inFlight.filter fun m => !m.route.contains link }

/-- The retrain has not recovered within 100 µs: what is outstanding on the link is lost, and the link is out of the
routes; so is what sets out over a link that has failed (R347, R377). -/
def execLinkRecoveryTimeout (link : LinkId) (s : State) : Host.Outcome State Fault Refusal :=
  .next (if linkOf link s == .failed then loseTraffic link s
    else if linkOf link s != .retraining then s
    else
      let u := writeRoutes (setLink link .failed (loseTraffic link s))
      let v := logForLaunches (linkCause link) (linkPkg link) (s.inFlight.filter fun m => m.route.contains link) u
      { logMachine (linkCause link) (linkPkg link) v with agenda := v.agenda ++ cutColls link s })

end Sys2Proof.Machine
end

