-- ==== Sys2Proof/Machine/MemorySystem.lean ====
section
/-! DEFINITION. The translation caches and their invalidation (R317, R320 to R324), demand faults (R325) and the host's
window onto HBM (R342). -/
namespace Sys2Proof.Machine

/-! ### Walks (R317, R320) -/

/-- A walker fills the die's cache; only valid leaves are cached (R317, R320). -/
def execPageWalk (pkg die c va : Nat) (s : State) : Host.Outcome State Fault Refusal :=
  match launchOfCtx c s with
  | none => .next s
  | some l => match walkIn pkg (packetRoot l.packet) va s with
    | .ok (e, lvl) => .next (fillDie pkg die ⟨c, va / pageSize lvl * pageSize lvl, lvl, e⟩ s)
    | .error (.hole pa) => .fault (.noSuchPhysicalAddress pa)
    | .error _ => .next s

/-! ### Invalidation (R322 to R324) -/

def invalCount (r : BitVec 128) : Nat := bits r 115 100
def invalPage (r : BitVec 128) : Nat := pageSize (bits r 99 98)
def invalCtx (r : BitVec 128) : Nat := bits r 79 64
def invalVa (r : BitVec 128) : Nat := bits r 51 0
def invalOk (r : BitVec 128) : Bool :=
  bits r 127 116 == 0 && bits r 97 80 == 0 && bits r 63 52 == 0 && bits r 99 98 != 3 && invalVa r % invalPage r == 0

/-- A cached leaf that a request names. -/
def invalHits (r : BitVec 128) (l : Leaf) : Bool :=
  l.ctx == invalCtx r && (invalCount r == 0 || meets l.va (pageSize l.level) (invalVa r) (invalCount r * invalPage r))

/-- A directory record of a page that a request names. -/
def recordHits (r : BitVec 128) (d : DirEntry) : Bool := invalHits r ⟨d.ctx, d.va, d.level, 0⟩

/-- Every page of a request has a directory record (R323). -/
def allRecorded (p : Package) (r : BitVec 128) : Bool :=
  (upTo (invalCount r)).all fun i => p.directory.any fun d =>
    d.ctx == invalCtx r && within (invalVa r + i * invalPage r) (invalPage r) d.va (pageSize d.level)

/-- The dies a request goes to: those that the records name, or all for a whole context, more than 64 pages, or a page
without a record (R323). -/
def invalDies (pkg : Nat) (r : BitVec 128) (s : State) : List Nat :=
  let on := (s.dies.filter fun d => d.pkg == pkg && d.on).map (·.die)
  match findPkg pkg s with
  | none => []
  | some p =>
    if invalCount r == 0 || 64 < invalCount r || !allRecorded p r then on
    else on.filter fun d => p.directory.any fun x => recordHits r x && x.dies.contains d

/-- The directory takes a request (R322, R323). -/
def requestInval (pkg : Nat) (r : BitVec 128) (s : State) : State :=
  match invalDies pkg r s with
  | [] => { s with hostLog := s.hostLog ++ [.invalidated pkg] }
  | ds => { s with inval := s.inval ++ [⟨pkg, r, ds⟩] }

/-- Sahfin issues an invalidation request (R322). -/
def execTlbInvalidate (pkg : Nat) (rec : BitVec 128) (s : State) : Host.Outcome State Fault Refusal :=
  .next (if invalOk rec then requestInval pkg rec s else s)

/-- A die holds no leaf of a request's pages any more, nor does its record say so. -/
def dropInval (pkg die : Nat) (r : BitVec 128) (s : State) : State :=
  let less := fun (d : DirEntry) => if recordHits r d then { d with dies := d.dies.filter (· != die) } else d
  modPkg pkg (fun p => { p with directory := (p.directory.map less).filter fun d => !d.dies.isEmpty }) (dropLeaves pkg die (invalHits r) s)

/-- The message belongs to a member that runs on a die, or to one that runs nowhere now. -/
def fromDie (pkg die : Nat) (s : State) (m : Msg) : Bool :=
  match findCore (fun c => runs c m.who.launch m.who.member) s with
  | some c => c.pkg == pkg && c.die == die
  | none => true

/-- The message of a member of another package goes to bytes of this one, through a translation of this one (R352). -/
def fromAbroad (pkg : Nat) (s : State) (m : Msg) : Bool :=
  (bodyRange m.body).any (fun r => r.1 / 2 ^ 52 == pkg) &&
    (findCore (fun c => runs c m.who.launch m.who.member) s).any fun c => c.pkg != pkg

/-- Accesses of a die, or from another package, are still on their way (R323, R324). -/
def dieBusy (pkg die : Nat) (s : State) : Bool :=
  s.inFlight.any fun m => (isWriteBody m.body || isReadBody m.body) && (fromDie pkg die s m || fromAbroad pkg s m)

/-- The combiners of every quad of a die are drained, and those of other packages that hold writes to this one. -/
def drainDie (pkg die : Nat) (s : State) : State :=
  (s.combiners.filter fun c => (c.pkg == pkg && c.die == die) || (c.pkg != pkg && c.writes.any fun w => w.key / 2 ^ 52 == pkg)).foldl
    (fun t c => drainCombiner c.pkg c.die c.quad t) s

/-- The first request of a package that a die has not acknowledged loses that die; with its last die it is over. -/
def ackInval (pkg die : Nat) (s : State) : State :=
  let mine : Inval → Bool := fun r => r.pkg == pkg && r.dies.contains die
  match s.inval.find? mine with
  | none => s
  | some r =>
    if r.dies == [die] then { s with inval := dropFirst mine s.inval, hostLog := s.hostLog ++ [.invalidated pkg] }
    else { s with inval := mapFirst mine (fun r => { r with dies := r.dies.filter (· != die) }) s.inval }

/-! ### Demand faults (R325) -/

/-- The host registers a range of a context as on demand (R325). -/
def execOnDemandRegister (c lo hi : Nat) (s : State) : Host.Outcome State Fault Refusal :=
  .next { s with onDemand := s.onDemand ++ [(c, lo, hi)] }

/-- The streams of a member go on from where they stopped (R325). -/
def resumeStreams (m : Member) : Member := { m with streams := m.streams.map fun c => { c with stopped := false } }

/-- A core whose member waits for a page. -/
def waitsForPage (c : Core) : Bool := c.cur.state == .active && c.m.demand.isSome

/-- The member of the core in focus resumes if its page is mapped now. -/
def resolveHere (s : State) : State :=
  match s.me.m.demand with
  | none => s
  | some r => match translate r.addr.toNat s with
    | .ok (e, _) => if leafTier e == 2 then s else modM (fun m => { resumeStreams m with demand := none }) s
    | .error _ => s

/-- Every member whose page is mapped now resumes. -/
def resumeMapped (s : State) : State :=
  (allCores s).foldl (fun t c => if waitsForPage c then atCore (sameCore c) resolveHere t else t) s

/-- A die drops the entries of the oldest request and acknowledges once its accesses are performed (R323); a member that a leaf
which is no more kept waiting resumes (R325). -/
def execInvalidationAck (pkg die : Nat) (s : State) : Host.Outcome State Fault Refusal :=
  .next (match s.inval.find? fun r => r.pkg == pkg && r.dies.contains die with
    | none => s
    | some r =>
      let t := drainDie pkg die (dropInval pkg die r.record s)
      resumeMapped (if dieBusy pkg die t then t else ackInval pkg die t))

/-- A saved member resumes with its launch instead (R370). -/
def resolveSaved (l : Launch) : Launch := { l with saved := l.saved.map fun v => { v with m := { v.m with demand := none } } }

/-- The request for the 64 KiB at an address of a context (R322). -/
def pageInval (c va : Nat) : BitVec 128 := BitVec.ofNat 128 (field 1 100 + field c 64 + va / 2 ^ 16 * 2 ^ 16)

/-- Sahfin writes an entry of a package's page table for the page of a record, and where a valid leaf stood there asks for its
invalidation (R320, R322). -/
def mapPage (pkg entryAddr : Nat) (entry : BitVec 64) (r : FaultRecord) (s : State) : State :=
  let old : BitVec 64 := BitVec.ofNat 64 (bytesToNat (storeRead s.mem (memKey pkg entryAddr) 8))
  let t := homeWrite (memKey pkg entryAddr) (natToBytes 8 entry.toNat) false s
  if leafType old == 2 then requestInval pkg (pageInval r.ctx r.addr.toNat) t else t

/-- Sahfin maps the page of the waiting member, in its package, and that member resumes (R325). -/
def execDemandFaultResolve (entryAddr : Nat) (entry : BitVec 64) (s : State) : Host.Outcome State Fault Refusal :=
  .next (match findCore waitsForPage s with
    | some c => (match c.m.demand with
      | some r => atCore (sameCore c) resolveHere (mapPage c.pkg entryAddr entry r s)
      | none => s)
    | none => match s.launches.find? fun l => l.saved.any fun v => v.m.demand.isSome with
      | some l => (match l.saved.findSome? (·.m.demand) with
        | some r => modLaunch l.number resolveSaved (mapPage (match l.place with | p :: _ => p.1 | [] => 0) entryAddr entry r s)
        | none => s)
      | none => s)

/-! ### BAR2 (R342) -/

/-- The host reads or writes 8 bytes of HBM. -/
def execBar2Access (pkg addr : Nat) (write : Option (BitVec 64)) (s : State) : Host.Outcome State Fault Refusal :=
  match findPkg pkg s with
  | none => .next s
  | some p =>
    if !inHbm p addr 8 then .fault (.noSuchPhysicalAddress addr)
    else match write with
      | some v => .next (homeWrite (memKey pkg addr) (natToBytes 8 v.toNat) false s)
      | none => .next { s with hostLog := s.hostLog ++ [.data (BitVec.ofNat 64 (bytesToNat (storeRead s.mem (memKey pkg addr) 8)))] }

end Sys2Proof.Machine
end

