-- ==== Sys2Proof/Machine/Images.lean ====
section
/-! DEFINITION. The context image: its bobbins (R249), its boards (R271), its bytes (R307), and what Sahfin refuses an image for
(R19, R251, R271, R308). -/
namespace Sys2Proof.Machine

/-! ### Bobbins (R249, R251) -/

def BobState.code : BobState → Nat
  | .free => 0 | .opened => 1 | .sealed => 2 | .faulted => 3
def BobState.ofCode (n : Nat) : BobState :=
  match n with
  | 0 => .free | 1 => .opened | 2 => .sealed | _ => .faulted

/-- The 32-byte header and the 1,024 bytes of values, +0 from the length on. -/
def bobbinImage (live : Nat) (b : Bobbin) : List Byte :=
  natToBytes 32 (field b.received 96 + field b.expected 64 + field live 48 + field (b.len - 1) 8 + field (boolNat b.sreq) 7 +
    field b.kind.code 2 + b.state.code) ++
  (upTo 256).flatMap fun n => natToBytes 4 (if n < b.len then nth b.vals n 0 else 0).toNat

def imageHead (img : List Byte) : BitVec 256 := BitVec.ofNat 256 (bytesToNat (img.take 32))

/-- The bobbin that an image holds. -/
def imageBobbin (img : List Byte) : Bobbin :=
  let h := imageHead img
  let len := bits h 15 8 + 1
  let st := BobState.ofCode (bits h 1 0)
  { state := st, kind := BobKind.ofCode (bits h 3 2), len := len, expected := bits h 95 64, received := bits h 127 96, sreq := flag h 7,
    vals := (upTo len).map fun n => BitVec.ofNat 32 (bytesToNat ((img.drop (32 + 4 * n)).take 4)) }

/-- The header of a bobbin that so many saved slots name (R251). -/
def bobbinImageOk (live : Nat) (img : List Byte) : Bool :=
  let h := imageHead img
  bits h 255 128 == 0 && bits h 47 16 == 0 && bits h 6 4 == 0 && bits h 63 48 == live &&
    (bits h 1 0 != 1 || bits h 127 96 < bits h 95 64) && (bits h 1 0 != 0 || (bits h 127 96 == 0 && bits h 95 64 == 0 && live == 0))

/-! ### Boards (R271) -/

def boardHead (b : Board) : Nat :=
  field b.mask.toNat 64 + field b.round.toNat 32 + field (boardLevel b) 16 + field (boolNat b.pod) 15 + b.p

/-- The 1,296-byte record of a board. -/
def boardImage (b : Board) : List Byte :=
  natToBytes 16 (boardHead b) ++
  b.owners.toList.flatMap (fun o => natToBytes 4 (match o with | some m => m | none => 0xFFFFFFFF)) ++
  b.cur.toList.flatMap (fun w => natToBytes 8 w.toNat) ++ b.prev.toList.flatMap (fun w => natToBytes 8 w.toNat)

def recordHead (img : List Byte) : BitVec 128 := BitVec.ofNat 128 (bytesToNat (img.take 16))

/-- The board that a record holds. -/
def imageBoard (img : List Byte) : Board :=
  let h := recordHead img
  let at' := fun (off size n : Nat) => bytesToNat ((img.drop (off + size * n)).take size)
  { p := bits h 6 0, pod := flag h 15, mask := BitVec.ofNat 64 (bits h 127 64), round := BitVec.ofNat 32 (bits h 63 32),
    owners := Vector.ofFn fun i => let w := at' 16 4 i.val; if w == 0xFFFFFFFF then none else some w,
    cur := Vector.ofFn fun i => BitVec.ofNat 64 (at' 272 8 i.val),
    prev := Vector.ofFn fun i => BitVec.ofNat 64 (at' 784 8 i.val) }

def boardImageOk (img : List Byte) : Bool :=
  let h := recordHead img
  let mask : BitVec 64 := BitVec.ofNat 64 (bits h 127 64)
  bits h 31 23 == 0 && bits h 14 7 == 0 && bits h 22 16 == ((upTo 64).filter fun i => mask.getLsbD i).length &&
    (upTo 64).all fun i => !mask.getLsbD i || i < bits h 6 0

/-! ### What Sahfin refuses (R19, R308) -/

/-- A tile register as an image may hold it, under its tag's code; pending elements are FP32 (R16, R19, R41). -/
def savedTileOk (code : Nat) (t : Tile) : Bool :=
  code == 31 || match Tag.ofCode code with
    | some tag => legalShape tag t.rows t.cols && (!pendingSlots t.slots || legalShape .fp32 t.rows t.cols)
    | none => false

/-- A region descriptor as `mregion` may have left it (R153). -/
def savedRegionOk (r : Region) : Bool :=
  match r.desc with
  | some d => dRow0 d + dRows d ≤ 256 && dCol0 d + dCols d ≤ 256 && dSRows d ≤ dRows d && dSCols d ≤ dCols d && dDepth d != 0
  | none => true

/-- A command as its instruction leaves it in the queue: its shape record, the alignment of its walk, its capability, and the slot
that is reserved for its fill (R204 to R218). -/
def savedCmdOk (p : BitVec 1024) (m : Member) (c : Cmd) : Bool :=
  let r := vat (k := 4) m.rings c.comp.ring
  let known := fun (cap : Nat) => cap < bits (reservation p) 29 23
  let walk := fun (xs : List Word) => shCount c.shape == 0 || (oddWalk (shE c.shape) xs (strides c.shape)).isNone
  shWf c.shape && (!c.comp.barr || c.comp.bscope != .sys || hostTakesPart p) &&
  (match c.slot with
    | some n => c.comp.fill && c.comp.ring.toNat < bits (reservation p) 41 37 && n < ringCount r && r.reserved.contains n && slotState r n == .claimed
    | none => true) &&
  match c.kind with
  | .copy => walk [c.a, c.b]
  | .push cap | .pull cap => known cap && walk [c.a, c.b]
  | .mcast cap ds => known cap && walk [c.a] && c.b != 0 && ds.all fun d => d.1 < 64
  | .red op => walk [c.a, c.b] && shE c.shape == credBytes op
  | .page => pageShapeOk c.shape && (shCount c.shape == 0 || (c.a.toNat % 64 == 0 && c.b.toNat % 8 == 0))
  | .code n => n == 0 || (c.a.toNat % 64 == 0 && linesPresent c.b.toNat n)
  | .attn t => attnCount c == 0 || (c.a.toNat % 64 == 0 && t.toNat % 32 == 0 && ringSet r && !ringRemote r)

/-- Ages that rise. -/
def rising : List Nat → Bool
  | a :: b :: l => a < b && rising (b :: l)
  | _ => true

/-- A queue holds no more than it can, in age order (R231). -/
def savedQueueOk (st : Stream) (room : Nat) (m : Member) : Bool :=
  (queuedAges st m).length ≤ room && rising ((m.iq.filter fun e => e.stream == st).map (·.age))

/-- A queued instruction that its stream could have issued. -/
def queuedOk (m : Member) (e : QEntry) : Bool :=
  e.stream != .s && e.age < m.age && match decodeSlot e.stream e.ctx with
    | .instr _ => true
    | .trouble _ _ => false
    | .found => false
    | .idle => false

/-- The queue images hold what instructions could have issued (R308). -/
def savedQueuesOk (p : BitVec 1024) (m : Member) : Bool :=
  m.iq.all (queuedOk m) && savedQueueOk .m 16 m && savedQueueOk .v 32 m && savedQueueOk .c 64 m &&
    rising (m.mq.map entryAge) && rising (m.cq.map (·.age)) && (m.cq.all fun c => c.age < m.age && savedCmdOk p m c) &&
    m.mq.all fun e => entryAge e < m.age && match e with
      | .nest _ => m.active.isSome
      | .drain d => (vat (k := 3) m.regions d.region).desc.isSome

/-- A section that gives RESERVED_FIELD. -/
def sectionOk (p : BitVec 1024) (v : Saved) : Bool :=
  v.length == sectionLength p && ((v.tags.zip v.m.tiles.toList).all fun x => savedTileOk x.1 x.2) && v.m.regions.toList.all savedRegionOk &&
    savedQueuesOk p v.m

/-- A section whose bobbins Sahfin takes. -/
def sectionBobbinsOk (v : Saved) : Bool :=
  (v.bobbins.zip (upTo v.bobbins.length)).all fun x => bobbinImageOk (liveSlots (BitVec.ofNat 6 x.2) v.m) x.1

/-- What Sahfin refuses an image for: the cause, and the member it is charged to. -/
def imageFault (l : Launch) : Option (Cause × Nat) :=
  match l.saved.find? fun v => !sectionOk l.packet v with
  | some v => some (.reservedField, v.member)
  | none => match l.saved.find? fun v => !sectionBobbinsOk v with
    | some v => some (.bobbinInvalid, v.member)
    | none => if l.boardImages.all boardImageOk && l.podImages.all (fun b => boardImageOk b.2) then none else some (.boardRound, 0)

/-! ### The bytes of an image (R307; log 28, DESIGN CHOICE: parts whose form the manual does not give take none) -/

/-- A view-mask register (R272). -/
def viewImage : Option View → List Byte
  | some v => natToBytes 16 (field v.mask.toNat 64 + field v.round.toNat 32 + field 1 7 + field (boolNat v.board.viaCap) 6 + v.board.index.toNat)
  | none => natToBytes 16 0

/-- The parts of a section that are bytes as they stand, by offset: view masks, predicates, shape table, bobbins. -/
def sectionParts (p : BitVec 1024) (v : Saved) : List (Nat × List Byte) :=
  [(viewsPart p, v.m.views.toList.flatMap viewImage),
   (predsPart p, (v.m.preds.toList.drop 1).flatMap fun x => natToBytes 512 x.toNat),
   (shapesPart p, v.m.shapes.toList.flatMap fun x => natToBytes 32 x.toNat),
   (bobbinsPart p, v.bobbins.flatten)]

/-- Bytes of a store put where another has none. -/
def putStore (base : Nat) (x : Store 8) (m : Store 8) : Store 8 := x.foldl (fun m e => storeSet m (base + e.1) e.2) m

/-- The scratchpad and the lines of a section, over what stood there. -/
def sectionStores (p : BitVec 1024) (base : Nat) (v : Saved) (m : Store 8) : Store 8 :=
  let clear := storeClear (storeClear m (base + spadPart p) (spadOf p)) (base + linesPart p) (64 * imemCount p)
  (v.imem.filter fun e => 64 * imemFirst p ≤ e.1).foldl (fun m e => storeSet m (base + linesPart p + (e.1 - 64 * imemFirst p)) e.2)
    (putStore (base + spadPart p) v.spad clear)

/-- A member section is written. -/
def writeSection (l : Launch) (v : Saved) (s : State) : State :=
  let base := memKey (imagePkg l) (sectionAddress l v.member)
  let t := (sectionParts l.packet v).foldl (fun t x => homeWrite (base + x.1) x.2 false t) s
  { t with mem := sectionStores l.packet base v t.mem }

/-- The launch header: the packet, the budget used, the board records. -/
def writeHeader (l : Launch) (s : State) : State :=
  let base := memKey (imagePkg l) l.image
  homeWrite (base + boardsPart) l.boardImages.flatten false
    (homeWrite base (natToBytes 128 l.packet.toNat ++ natToBytes 8 l.used) false s)

/-- The image of a launch is written (R307). -/
def writeImage (l : Launch) (s : State) : State := l.saved.foldl (fun t v => writeSection l v t) (writeHeader l s)

/-- The part of a store that stands at a place, from offset 0 on. -/
def takeStore (base n : Nat) (m : Store 8) : Store 8 := (m.filter fun e => base ≤ e.1 && e.1 < base + n).map fun e => (e.1 - base, e.2)

/-- A section as its bytes now stand. -/
def readSection (l : Launch) (s : State) (v : Saved) : Saved :=
  let p := l.packet
  let base := memKey (imagePkg l) (sectionAddress l v.member)
  let word := fun (off n : Nat) => bytesToNat (storeRead s.mem (base + off) n)
  { v with
    bobbins := (upTo v.bobbins.length).map fun i => storeRead s.mem (base + bobbinsPart p + 1056 * i) 1056,
    m := { v.m with
      preds := Vector.ofFn fun (i : Fin 8) => if i.val == 0 then vat (k := 3) v.m.preds 0 else BitVec.ofNat 4096 (word (predsPart p + 512 * (i.val - 1)) 512),
      shapes := Vector.ofFn fun (i : Fin 16) => BitVec.ofNat 256 (word (shapesPart p + 32 * i.val) 32) },
    spad := takeStore (base + spadPart p) (spadOf p) s.mem,
    imem := (takeStore (base + linesPart p) (64 * imemCount p) s.mem).map fun e => (64 * imemFirst p + e.1, e.2) }

/-- A launch as the bytes of its image now stand; one that has none is as it is. -/
def readImage (l : Launch) (s : State) : Launch :=
  if l.image == 0 then l
  else
    let base := memKey (imagePkg l) (l.image + boardsPart)
    { l with
      saved := l.saved.map (readSection l s),
      boardImages := (upTo l.boardImages.length).map fun i => storeRead s.mem (base + 1296 * i) 1296 }

/-! ### What the HBM of a package holds (R384) -/

/-- The entries of a table that hold a byte: every other one is zero, and invalid. -/
def listedEntries (pkg table n : Nat) (s : State) : List Nat :=
  let base := memKey pkg table
  (s.mem.filter fun e => base ≤ e.1 && e.1 < base + 8 * n).foldl (fun acc e =>
    let i := (e.1 - base) / 8
    if acc.contains i then acc else acc ++ [i]) []

/-- The leaves of HBM under a table at a level, as pages that could move. -/
def leavesUnder (pkg c root : Nat) (s : State) : Nat → Nat → Nat → List Moving
  | lvl, table, va =>
    (listedEntries pkg table (match lvl with | 0 => 32 | 1 => 512 | 2 => 512 | _ => 8192) s).flatMap fun i =>
      let addr := table + 8 * i
      let e : BitVec 64 := BitVec.ofNat 64 (bytesToNat (storeRead s.mem (memKey pkg addr) 8))
      let va := va + i * 2 ^ levelShift lvl
      if leafType e == 2 then (if leafTier e == 0 then [⟨pkg, c, root, va, lvl, addr, e, 0, 0⟩] else [])
      else if leafType e == 1 then (match lvl with | 0 => [] | n + 1 => leavesUnder pkg c root s n (bits e 51 8 * 2 ^ 8) va)
      else []

/-- The HBM leaves of every launch that has pages on a package, or may have. -/
def launchLeaves (pkg : Nat) (s : State) : List Moving :=
  (s.launches.filter fun l => l.phase != .ended && (l.keeps.isEmpty || l.keeps.any fun d => d.1 == pkg)).flatMap fun l =>
    leavesUnder pkg (packetField l.packet 0x14 2) (packetRoot l.packet) s 3 (packetRoot l.packet) 0

/-- The pages that share bytes with a range of the package. -/
def pagesIn (lo n pkg : Nat) (ls : List Moving) : List Moving :=
  ls.filter fun x => let r := movingSpan x; meets r.1 r.2 (memKey pkg lo) n

/-- The tables under a table at a level, each with its bytes. -/
def tablesUnder (pkg : Nat) (s : State) : Nat → Nat → List (Nat × Nat)
  | lvl, table =>
    let n := match lvl with | 0 => 32 | 1 => 512 | 2 => 512 | _ => 8192
    (table, 8 * n) :: (listedEntries pkg table n s).flatMap fun i =>
      let e : BitVec 64 := BitVec.ofNat 64 (bytesToNat (storeRead s.mem (memKey pkg (table + 8 * i)) 8))
      if leafType e == 1 then (match lvl with | 0 => [] | k + 1 => tablesUnder pkg s k (bits e 51 8 * 2 ^ 8)) else []

/-- What a moving page takes: where it was, and where it goes. -/
def movingSpans (x : Moving) : List (Nat × Nat) := let r := movingSpan x; [(r.1 % 2 ^ 52, r.2), (x.toPA, r.2)]

/-- The ranges of a package's HBM that hold something: pages and tables of launches, pages on the move, frames that a moved page
has left, images, and the regions of collectives (log 7, DESIGN CHOICE). -/
def usedSpans (p : Package) (s : State) : List (Nat × Nat) :=
  (launchLeaves p.pkg s).map (fun x => let r := movingSpan x; (r.1 % 2 ^ 52, r.2)) ++
  (s.launches.filter fun l => l.phase != .ended).flatMap (fun l => tablesUnder p.pkg s 3 (packetRoot l.packet)) ++
  p.moving.flatMap movingSpans ++ p.moved.map (fun x => (x.1, x.2.1)) ++
  ((s.launches.filter fun l => l.image != 0 && imagePkg l == p.pkg).map fun l => (l.image, imageBytes l)) ++
  s.colls.flatMap fun c => (upTo (collRankCount c)).flatMap fun r => if groupPkg (collEntry c r) == p.pkg then rankParts c r s else []

/-- The rows of a package that are out of use. -/
def rowsOut (p : Package) : List (Nat × Nat) :=
  ((p.outOfUse ++ (upTo 512).map (retireEntry (retireList p))).filter fun e => e / 2 ^ 62 == 1).map fun e => (e % 2 ^ 62, 2 ^ 16)

/-- Frames that can take n bytes: whole, of stacks that are up, in no retired row, and holding nothing (R384). -/
def frameFree (p : Package) (align toPA n : Nat) (s : State) : Bool :=
  n != 0 && toPA % align == 0 && inHbm p toPA n && !rowRetired p toPA n && (usedSpans p s).all fun r => !meets toPA n r.1 r.2

/-- Where a free frame is to be looked for: at the start of each stack, and behind everything that is not free. -/
def frameTries (p : Package) (align : Nat) (s : State) : List Nat :=
  (upTo 8).map (2 ^ 36 * ·) ++ (usedSpans p s ++ rowsOut p).map fun r => (r.1 + r.2 + align - 1) / align * align

/-! ### What a restore reinstates -/

/-- The tiles and bobbins of a member as its section holds them (R19, R249). -/
def reinstated (v : Saved) : Member :=
  let tiles := v.m.tiles.mapIdx fun i t => match (v.tags[i]?).bind Tag.ofCode with
    | some tag => { t with tag := tag }
    | none => t
  let bobs := v.m.bobbins.mapIdx fun i b => match v.bobbins[i]? with
    | some img => imageBobbin img
    | none => b
  { v.m with tiles := tiles, bobbins := bobs }

end Sys2Proof.Machine
end

