-- ==== Sys2Proof/Machine/Launches.lean ====
section
/-! DEFINITION. The submission and admission of launches, and what Sahfin does for the host beside them (R289 to R293,
R299, R301, R349 to R351, R376, R377). -/
namespace Sys2Proof.Machine

/-! ### The packet (R289 to R292, R301, R314) -/

def distRecord (p : BitVec 1024) : BitVec 256 := BitVec.ofNat 256 (packetField p 0x48 32)
def distCount (r : BitVec 256) (n : Nat) : Nat := bits r (16 * n + 15) (16 * n)
def distSlice (r : BitVec 256) : Nat := bits r 111 88
/-- The levels from outermost to innermost. -/
def distOrder (r : BitVec 256) : List Nat := [bits r 119 118, bits r 117 116, bits r 115 114, bits r 113 112]
def distOk (p : BitVec 1024) : Bool :=
  let r := distRecord p
  bits r 255 120 == 0 && bits r 87 64 == 0 && ((upTo 4).all fun n => distCount r n != 0 && (distOrder r).contains n) &&
    distSlice r % 64 == 0 && distSlice r + 64 ≤ spadOf p

def hasDist (p : BitVec 1024) : Bool := flag (control p) 12

def reservationOk (r : BitVec 64) : Bool :=
  bits r 63 58 ≤ 32 && bits r 57 53 ≤ 16 && bits r 52 49 ≤ 8 && bits r 48 42 ≤ 64 && bits r 41 37 ≤ 16 && bits r 36 30 ≤ 64 &&
    bits r 29 23 ≤ 64 && !flag r 22 && bits r 21 0 % 64 == 0 && bits r 21 0 ≤ 0x300000

def linesOk (p : BitVec 1024) : Bool :=
  imemFirst p + imemCount p ≤ 4096 &&
    (if codeCount p == 0 then codeFirst p == 0 else 4096 ≤ codeFirst p && codeFirst p + codeCount p ≤ 135168)

/-- R292, but for the placement. -/
def packetOk (p : BitVec 1024) : Bool :=
  packetField p 3 1 == 1 && bits (control p) 31 26 == 0 && bits (control p) 2 0 == 0 &&
  1 ≤ packetDies p && packetDies p ≤ 4 && 1 ≤ packetQuads p && packetQuads p ≤ 6 && reservationOk (reservation p) &&
  packetField p 0x10 4 != 0 && packetField p 0x14 2 != 0 && packetField p 0x16 2 == 0 && packetField p 0x24 4 == 0 &&
  packetField p 0x70 16 == 0 && linesOk p && packetField p 0x30 8 % 64 == 0 &&
  (let root : BitVec 64 := BitVec.ofNat 64 (packetField p 0x28 8); flag root 0 && bits root 63 52 == 0 && bits root 15 1 == 0) &&
  (!hasDist p || distOk p)

def newLaunch (p : BitVec 1024) (s : State) : Launch :=
  { number := s.nextLaunch, packet := p, phase := .waiting, cause := none, order := s.nextLaunch, submitted := sahfinTime s,
    used := 0, budget := packetField p 0x10 4, startedAt := 0, place := [], keeps := [], fields := [], codeHash := 0, caps := [],
    barriers := [], boards := [], saved := [], image := 0, boardImages := [], podImages := [], records := [], armed := none, debug := none,
    heldDep := none }

/-! ### What the admission reads (R270, R289, R295, R349, R351) -/

/-- The machine as a core at a place would see it, bound to a launch. -/
def viewAs (l : Launch) (pkg die : Nat) (s : State) : State :=
  let b : Bind := { Bind.empty with launch := l.number, ctx := packetField l.packet 0x14 2, state := .active }
  { s with
    me := { s.me with pkg := pkg, die := die, cur := b, leavesM := [], leavesS := [], leavesC := [] },
    launches := { l with debug := none } :: s.launches.filter fun x => x.number != l.number }

/-- n bytes at a virtual address of the launch, in its pages and in no window, with their poison (R295, R351). -/
def readAs (va n : Nat) (s : State) : Eff (List Byte × Bool) := do
  if inWindow va then failAt .noncanonical va
  let spots ← checkParts { dir := .read } s none (pageParts va (n / 2 ^ 16 + 2) n)
  let r := readSpots s spots
  .ok (r.1, r.2.1)

/-- Entry n of a table of so many bytes each. -/
def tableEntries (size : Nat) (l : List Byte) (count : Nat) : List Nat :=
  (upTo count).map fun n => bytesToNat ((l.drop (size * n)).take size)

def groupEntryOk (g : BitVec 64) : Bool := bits g 21 0 == 0

/-- The receivers' rings agree in count and bytes (R351). -/
def groupAgrees (gs : List (BitVec 64)) (s : State) : Bool :=
  match gs with
  | [] => true
  | g :: rest =>
    let r := receiverRing g s
    rest.all fun x => ringCount (receiverRing x s) == ringCount r && ringBytes (receiverRing x s) == ringBytes r

/-- A capability as admitted; the group record of a multicast one is checked (R351). Log 24, DESIGN CHOICE. -/
def admitCap (v : State) (e : BitVec 256) : Eff Cap :=
  if capKind e != 5 then .ok ⟨e, false, [], []⟩
  else match readAs (capBase e) (8 * capGroup e) v with
    | .ok r =>
      let gs := (tableEntries 8 r.1 (capGroup e)).map (BitVec.ofNat 64)
      if gs.all groupEntryOk && groupAgrees gs v then .ok ⟨e, false, gs, []⟩ else fail .capInvalid
    | .error .wait => hold
    | .error _ => fail .capInvalid

def admitCaps (l : Launch) (v : State) : Eff (List Cap) :=
  let n := bits (reservation l.packet) 29 23
  if n == 0 then .ok []
  else do
    let r ← readAs (packetField l.packet 0x30 8) (32 * n) v
    (tableEntries 32 r.1 n).mapM fun e => admitCap v (BitVec.ofNat 256 e)

def freshBoard (p : Nat) (pod : Bool) : Board :=
  ⟨p, pod, 0, 0, Vector.replicate 64 none, Vector.replicate 64 0, Vector.replicate 64 0⟩

/-- The boards of the board list (R270). -/
def admitBoards (l : Launch) (v : State) : Eff (List Board) :=
  let n := bits (reservation l.packet) 36 30
  if n == 0 then .ok []
  else do
    let r ← readAs (packetField l.packet 0x68 8) n v
    (r.1.take n).mapM fun b =>
      if 1 ≤ b.toNat % 128 && b.toNat % 128 ≤ 64 then .ok (freshBoard (b.toNat % 128) (flag b 7)) else fail .reservedField

/-! ### Submission (R292, R299) -/

/-- The machine when it is idle: nothing is bound, no repair is under way and the dies have their time. -/
def idleView (s : State) : State :=
  let idle := fun (c : Core) => { c with cur := Bind.empty, next := Bind.empty }
  let empty := fun (x : Launch) => { x with place := [] }
  { s with
    me := idle s.me, others := s.others.map idle, launches := s.launches.map empty,
    pkgs := s.pkgs.map fun p => { p with moving := [], leaving := false },
    dies := s.dies.map fun d => { d with time := .locked } }

/-- Where the shape stands on the machine when it is idle. -/
def idlePlace (l : Launch) (s : State) : Option (List (Nat × Nat × Nat)) := placeFresh l [] (idleView s)

/-- The shape fits, and the board list keeps to the range of participants. -/
def fitsIdle (l : Launch) (s : State) : Bool :=
  match idlePlace l s with
  | some (p :: _) => (match admitBoards l (viewAs l p.1 p.2.1 s) with
    | .error (.fault t) => t.cause != .reservedField
    | .error _ => true
    | .ok _ => true)
  | some [] => false
  | none => false

/-- Sahfin takes a packet from the host: refused, or queued (R292, R299). -/
def execLaunchSubmit (packet : BitVec 1024) (s : State) : Host.Outcome State Fault Refusal :=
  .next (let l := newLaunch packet s
    if packetOk packet && fitsIdle l s then { s with launches := s.launches ++ [l], nextLaunch := s.nextLaunch + 1, agenda := s.agenda ++ [.launchAdmit l.number] }
    else { s with hostLog := s.hostLog ++ [.refused packet .reservedField] })

/-! ### The staging list (R295) -/

/-- An entry of the staging list. -/
structure StageEntry where
  src : Nat
  mstride : Int
  target : Nat
  bytes : Nat
  kind : Nat
  malformed : Bool

def stageEntry (e : BitVec 256) : StageEntry :=
  { src := bits e 255 192, mstride := signed 64 (bits e 191 128), target := bits e 127 96, bytes := bits e 95 64, kind := bits e 1 0,
    malformed := bits e 63 2 != 0 || bits e 255 192 % 64 != 0 || bits e 95 64 % 64 != 0 ||
      (bits e 1 0 == 3 && bits e 191 128 != 0) }

/-- The entries up to the first of kind 0, which 2^47 of them, all that the address space holds, do not outrun. -/
def stageEntries (v : State) : Nat → Nat → Eff (List StageEntry)
  | 0, _ => .ok []
  | fuel + 1, va => do
    let r ← readAs va 32 v
    let e := stageEntry (BitVec.ofNat 256 (bytesToNat r.1))
    if e.kind == 0 then .ok []
    else do
      let t ← stageEntries v fuel (va + 32)
      .ok (e :: t)

def stagingList (p : BitVec 1024) (v : State) : Eff (List StageEntry) :=
  if packetField p 0x40 8 == 0 then .ok [] else stageEntries v (2 ^ 47) (packetField p 0x40 8)

/-- The target lies in the reservation or the line ranges. -/
def stageFits (p : BitVec 1024) (e : StageEntry) : Bool :=
  match e.kind with
  | 1 => e.target + e.bytes ≤ spadOf p
  | 2 => within e.target (e.bytes / 64) (imemFirst p) (imemCount p)
  | _ => within e.target (e.bytes / 64) (codeFirst p) (codeCount p)

/-- The lines that the staging list gives a launch, by 64 times the line, before any member runs; those of member 0 stand
for every member's (R295, R383). -/
def stagedCode (v : State) : List StageEntry → Store 8 → Store 8
  | [], m => m
  | e :: rest, m => stagedCode v rest (match e.kind with
    | 1 => m
    | _ => match readAs e.src e.bytes v with
      | .ok r => storeWrite m (64 * e.target) r.1
      | .error _ => m)

/-- SHA-384 of the code ranges at admission (R383). -/
def codeHashOf (p : BitVec 1024) (v : State) : BitVec 384 :=
  match stagingList p v with
  | .ok es =>
    let m := stagedCode v es []
    Config.sha384 (storeRead m (64 * imemFirst p) (64 * imemCount p) ++ storeRead m (64 * codeFirst p) (64 * codeCount p))
  | .error _ => Config.sha384 (List.replicate (64 * imemCount p + 64 * codeCount p) 0)

/-- What Sahfin refuses a staging list for; a list it cannot read faults at the members' start. -/
def stagingAllowed (p : BitVec 1024) (v : State) : Eff Unit :=
  match stagingList p v with
  | .error .wait => hold
  | .error _ => .ok ()
  | .ok es => do
    need (!es.any (·.malformed)) .reservedField
    need (es.all (stageFits p)) .windowRange

/-! ### Binding (R296, R297) -/

/-- The core at a position, as member of its quad. -/
def atPosition (pkg die quad idx : Nat) (c : Core) : Bool :=
  c.pkg == pkg && c.die == die && c.quad == quad && c.idx == idx && !c.retired

/-- The member that a position of a place holds. -/
def memberAt (place : List (Nat × Nat × Nat)) (c : Core) : Option Nat :=
  ((place.zip (upTo place.length)).find? fun p => p.1 == (c.pkg, c.die, c.quad)).map fun p => 4 * p.2 + c.idx

/-- The record of a member's current slot: a resume names the member's section. -/
def bindRecord (l : Launch) (member : Nat) (resumed : Bool) : Bind :=
  { image := if resumed && l.saved.any (fun v => v.member == member) then sectionAddress l member else 0, launch := l.number, member := member, ctx := packetField l.packet 0x14 2, spbase := 0, dep := false,
    prio := BitVec.ofNat 3 (prioOf l), state := .ready, staged := false }

def coreField5 (c : Core) : Nat := match c.spare with | some k => 24 + k | none => 4 * c.quad + c.idx

/-- The core fields of the members at admission (R242). -/
def fieldsOf (place : List (Nat × Nat × Nat)) (s : State) : List Nat :=
  (upTo (4 * place.length)).map fun m =>
    match (allCores s).find? fun c => !c.retired && memberAt place c == some m with
    | some c => coreField5 c
    | none => 0

/-! ### Preloads (R297, R303) -/

/-- Instruction lines of a packet cleared on a core. -/
def clearLines (p : BitVec 1024) (c : Core) : Core :=
  { c with imem := storeClear c.imem (64 * imemFirst p) (64 * imemCount p),
           imemPoison := c.imemPoison.filter fun n => !(imemFirst p ≤ n && n < imemFirst p + imemCount p) }

/-- The code-store lines of a launch cleared on the dies of its place. -/
def clearCode (l : Launch) (s : State) : State :=
  let clear := fun (d : Die) => if l.place.any fun p => p.1 == d.pkg && p.2.1 == d.die then
      { d with
        code := storeClear d.code (64 * (codeFirst l.packet - 4096)) (64 * codeCount l.packet),
        codePoison := d.codePoison.filter fun n => !(codeFirst l.packet ≤ n && n < codeFirst l.packet + codeCount l.packet) }
    else d
  { s with dies := s.dies.map clear }

/-- A preloaded launch leaves every slot without a trace and returns to the queue, where it may be held for the launch that
it depended on (R303). -/
def discardPreload (n : Nat) (hold : Option Nat) (s : State) : State :=
  match findLaunch n s with
  | none => s
  | some l =>
    let next := fun (c : Core) => if c.next.state != .empty && c.next.launch == n then
        { clearLines l.packet c with next := Bind.empty, nextSpad := [], nextSpadPoison := [] } else c
    let cur := fun (c : Core) => if c.cur.state == .ready && c.cur.launch == n && l.phase == .waiting then
        { clearLines l.packet c with cur := Bind.empty, spad := [], spadPoison := [] } else c
    modLaunch n (fun l => { l with place := [], fields := [], caps := [], boards := [], heldDep := hold })
      (dropPodBoards l (clearCode l (updCores (fun _ => true) (fun c => cur (next c)) s)))

/-- The preloads on the cores of a launch: those that depend on it, or all. -/
def preloadsOver (n : Nat) (depOnly : Bool) (s : State) : List Nat :=
  ((allCores s).filter fun c => c.cur.launch == n && c.cur.state != .empty && c.next.state != .empty && (!depOnly || c.next.dep)).foldl
    (fun acc c => if acc.contains c.next.launch then acc else acc ++ [c.next.launch]) []

def discardAll (ns : List Nat) (hold : Option Nat) (s : State) : State := ns.foldl (fun t n => discardPreload n hold t) s

/-- The lines of two launches are disjoint (R303). -/
def linesApart (p q : BitVec 1024) : Bool :=
  !rangesMeet (imemFirst p) (imemCount p) (imemFirst q) (imemCount q) && !rangesMeet (codeFirst p) (codeCount p) (codeFirst q) (codeCount q)

/-- Where a launch's scratchpad begins in the current slot of a core: at 0, or above a preload that stands there, if it has room
beside the preload (R297, R303). -/
def curBase (l : Launch) (c : Core) (s : State) : Option Nat :=
  if c.next.state == .empty then some 0
  else match findLaunch c.next.launch s with
    | none => none
    | some x =>
      let b := (c.next.spbase + spadOf x.packet + 6143) / 6144 * 6144
      if !linesApart x.packet l.packet then none
      else if spadOf l.packet ≤ c.next.spbase then some 0
      else if b + spadOf l.packet ≤ 0x300000 then some b
      else none

/-- A preload stays beside a launch that takes the core's current slot. -/
def preloadStays (l : Launch) (c : Core) (s : State) : Bool := (curBase l c s).isSome

/-- Preloads that stand in the way of a launch on the cores of its place (R299, R303). -/
def preloadsAt (l : Launch) (s : State) : List Nat :=
  ((allCores s).filter fun c => (memberAt l.place c).isSome && !c.retired && c.next.state != .empty && !preloadStays l c s).foldl
    (fun acc c => if acc.contains c.next.launch then acc else acc ++ [c.next.launch]) []

/-- Where a preload's scratchpad begins beside the running one, if it has room (R297, R303). -/
def nextBase (l cur : Launch) (c : Core) : Option Nat :=
  let b := (c.cur.spbase + spadOf cur.packet + 6143) / 6144 * 6144
  if spadOf l.packet ≤ c.cur.spbase then some 0 else if b + spadOf l.packet ≤ 0x300000 then some b else none

/-- A next slot can take a member of a launch beside the one that runs (R303). -/
def preloadFits (l cur : Launch) (c : Core) : Bool :=
  !c.retired && c.cur.state == .active && c.cur.launch == cur.number && c.next.state == .empty && (nextBase l cur c).isSome &&
    linesApart l.packet cur.packet

/-- Quads of one running launch whose next slots can take the launch: a place for a preload of the same shape. Log 27, DESIGN CHOICE. -/
def preloadPlace (l cur : Launch) (s : State) : Option (List (Nat × Nat × Nat)) :=
  if cur.phase == .running && ((placeDies cur.place).all fun d => (findPkg d.1 s).any fun p => serves p s) &&
     packetPkgs cur.packet == packetPkgs l.packet && packetDies cur.packet == packetDies l.packet &&
     packetQuads cur.packet == packetQuads l.packet &&
     ((allCores s).filter fun c => (memberAt cur.place c).isSome && preloadFits l cur c).length == packetMembers l.packet &&
     (placeDies cur.place).all (fun d => codeFree l d.1 d.2 s) && (l.keeps.isEmpty || l.keeps == placeDies cur.place)
  then some cur.place else none

/-- The record of a next slot; dep says whether the launch depends on the one that runs. -/
def preloadBind (l cur : Launch) (dep : Bool) (c : Core) (member : Nat) : Bind :=
  { bindRecord l member false with spbase := (nextBase l cur c).getD 0, dep := dep, state := .staging }

/-! ### Admission (R299) -/

/-- The launch with what its admission reads, or the cause of a refusal, or a wait for the tables. -/
def admitted (l : Launch) (place : List (Nat × Nat × Nat)) (s : State) : Eff Launch :=
  match place with
  | [] => fail .reservedField
  | p :: _ => do
    let v := viewAs l p.1 p.2.1 s
    stagingAllowed l.packet v
    let caps ← admitCaps l v
    let boards ← admitBoards l v
    .ok { l with place := place, fields := fieldsOf place s, codeHash := codeHashOf l.packet v, caps := caps, boards := boards }

/-- Why an admission does not go on: it waits, or it is refused. -/
def refusal : Stop → Option Cause
  | .fault t => some t.cause
  | .wait | .reading _ _ _ _ _ => none
  | .hole _ => some .notPresent

def addPodBoards (bs : List (BoardHome × Board)) (s : State) : State :=
  { s with podBoards := s.podBoards.filter (fun x => !bs.any fun b => b.1 == x.1) ++ bs }

/-- A launch refused at admission leaves the queue. -/
def refuseLaunch (l : Launch) (c : Cause) (s : State) : State :=
  { modLaunch l.number (fun l => { l with phase := .ended, cause := some c }) s with hostLog := s.hostLog ++ [.refused l.packet c] }

/-- The current slots of a place take a launch, READY all at once; preloads in the way go back to the queue (R298, R299). -/
def bindLaunch (l : Launch) (resumed : Bool) (s : State) : State :=
  let t := discardAll (preloadsAt l s) none s
  let u := updCores (fun c => !c.retired && (memberAt l.place c).isSome)
    (fun c => { c with cur := { bindRecord l ((memberAt l.place c).getD 0) resumed with spbase := (curBase l c t).getD 0 } }) t
  let debug := match l.armed with | some r => some r | none => l.debug
  modLaunch l.number (fun _ => { l with phase := .running, cause := none, keeps := placeDies l.place, startedAt := sahfinTime s, debug := debug, armed := none }) u

/-- A launch is admitted at a place, unless the tables that its admission reads or the room of a pod board have to be waited for
(R299, R384). -/
def admitAt (l : Launch) (place : List (Nat × Nat × Nat)) (s : State) : State :=
  match admitted l place s with
  | .error e => (match refusal e with
    | some c => refuseLaunch l c s
    | none => modLaunch l.number (fun _ => { l with phase := .waiting, place := [] }) s)
  | .ok l' =>
    if podFree l' [] s then addPodBoards (podBoardsOf l') (bindLaunch l' false s)
    else modLaunch l.number (fun _ => { l with phase := .waiting, place := [], caps := l'.caps, boards := l'.boards }) s

/-- A launch of the same shape runs: the launch is preloaded over it (R303); a free bit says whether it depends on that launch
(log 43, DESIGN CHOICE). -/
def preloadOver (l : Launch) (s : State) : State :=
  match s.launches.find? fun cur => (preloadPlace l cur s).isSome with
  | none => s
  | some cur => match admitted l cur.place s with
    | .error e => (match refusal e with
      | some c => refuseLaunch l c s
      | none => s)
    | .ok l' =>
      if !podFree l' [] s then modLaunch l.number (fun l => { l with caps := l'.caps, boards := l'.boards }) s
      else
        let r := drawFree s
        addPodBoards (podBoardsOf l')
          (modLaunch l.number (fun _ => l') (updCores (fun c => !c.retired && (memberAt cur.place c).isSome)
            (fun c => { c with next := preloadBind l' cur (flag r.1 0) c ((memberAt cur.place c).getD 0) }) r.2))

/-- Sahfin admits a waiting launch, where none of a higher class can be placed: on free cores, after pre-empting lower classes, or as
a preload (R299, R303). -/
def execLaunchAdmit (launch : Nat) (s : State) : Host.Outcome State Fault Refusal :=
  .next (match findLaunch launch s with
    | none => s
    | some l =>
      if !(waits l && l.phase == .waiting && atClassHead l s) || outranked l s then s
      else match victimsFor l s with
        | some [] => (match placeFor l [] s with
          | some place => admitAt l place s
          | none => s)
        | some vs => { s with agenda := vs.map Instr.gangPreemption ++ [.launchAdmit launch] ++ s.agenda }
        | none => if s.launches.any fun x => x.phase == .stopping then s else preloadOver l s)

/-! ### Capabilities and the debug record (R350, R376, R377) -/

/-- The allowance after the host adds an amount; an unlimited one stays so, and no other becomes it. Log 26, DESIGN CHOICE. -/
def raised (e : BitVec 256) (amount : Nat) : BitVec 256 :=
  if capAllowance e == 0xFFFFFFFF then e else withAllowance e (min (capAllowance e + amount) 0xFFFFFFFE)

/-- The host raises an allowance (R350). -/
def execAllowanceRaise (launch cap amount : Nat) (s : State) : Host.Outcome State Fault Refusal :=
  .next (modLaunch launch (fun l => match l.caps[cap]? with
    | some c => { l with caps := setNth l.caps cap { c with entry := raised c.entry amount } }
    | none => l) s)

/-- The host removes a capability (R377). -/
def execCapabilityRevoke (launch cap : Nat) (s : State) : Host.Outcome State Fault Refusal :=
  .next (modLaunch launch (fun l => match l.caps[cap]? with
    | some c => { l with caps := setNth l.caps cap { c with revoked := true } }
    | none => l) s)

/-- The form of a debug record (R376). -/
def debugOk (r : List Byte) : Bool :=
  r.length == 0xC0 &&
  ((upTo 8).all fun n => bytesField r (4 * n) 4 / 2 ^ 28 % 8 == 0) &&
  ((upTo 8).all fun n =>
    let c := bytesField r (0x20 + 16 * n + 12) 4
    c / 8 % 2 ^ 28 == 0 && (c / 2 ^ 31 == 0 || 1 ≤ bytesField r (0x20 + 16 * n + 8) 4)) &&
  bytesField r 0xA3 1 == 0 && bytesField r 0xA5 1 / 16 == 0 && bytesField r 0xA6 26 == 0

/-- The host arms a debug record for the launch's next start or resume (R376). -/
def execDebugRecordArm (launch : Nat) (rec : List (BitVec 8)) (s : State) : Host.Outcome State Fault Refusal :=
  .next (if debugOk rec then modLaunch launch (fun l => { l with armed := some rec }) s
    else { s with hostLog := s.hostLog ++ [.recordRefused .reservedField] })

end Sys2Proof.Machine
end

