-- ==== Sys2Proof/Machine/Scheduling.lean ====
section
/-! DEFINITION. The dispatch hardware (R294, R295, R298, R302), the gang stop (R306, R307, R340, R367, R375), the resume
(R308, R309, R370) and the ends that the host gives a launch (R377). -/
namespace Sys2Proof.Machine

/-- The collectives that have a rank in a launch are aborted when it faults or ends (R358). -/
def collsOf (c : Nat) (s : State) : List Instr :=
  (s.colls.filter fun x => !x.aborted && (upTo (collRankCount x)).any fun r => groupCtx (collEntry x r) == c).map
    fun x => .collAbort (bytesField x.record 0 1)

/-- The launch stopped on a fault, not for its budget or at the host's word. -/
def stopsOnFault (l : Launch) : Bool :=
  match l.cause with
  | none => false
  | some .budgetOverrun => false
  | some .hostHalt => false
  | some _ => true

/-! ### Member start (R294, R302) -/

/-- The level indices of walk position w, by level (R302). -/
def walkIndex (r : BitVec 256) (w : Nat) : List (Nat × Nat) :=
  ((distOrder r).reverse.foldl (fun (acc : List (Nat × Nat) × Nat) lvl =>
    (acc.1 ++ [(lvl, acc.2 % distCount r lvl)], acc.2 / distCount r lvl)) ([], w)).1

def levelIndexOf (l : List (Nat × Nat)) (lvl : Nat) : Nat := match l.find? fun p => p.1 == lvl with | some p => p.2 | none => 0

/-- The slice record of member m of M (R302). -/
def sliceRecord (r : BitVec 256) (m members : Nat) : List Byte :=
  let total := (upTo 4).foldl (fun acc n => acc * distCount r n) 1
  let start := m * total / members
  let count := (m + 1) * total / members - start
  let ix := if count == 0 then [] else walkIndex r start
  natToBytes 2 (levelIndexOf ix 0) ++ natToBytes 2 (levelIndexOf ix 1) ++ natToBytes 2 (levelIndexOf ix 2) ++
    natToBytes 2 (levelIndexOf ix 3) ++ natToBytes 8 members ++ natToBytes 8 count ++ natToBytes 8 start ++ natToBytes 8 total ++
    List.replicate 24 0

/-- S at the entry, its line still to be fetched. -/
def entryStream (entry : CodePos) : StreamCtx := { StreamCtx.start with state := .running, pc := entry }

/-- A member at its start (R29, R294). -/
def startedMember (p : BitVec 1024) (member : Nat) : Member :=
  let seed : Word := BitVec.ofNat 64 (packetField p 0x38 8)
  let csrs := { Csrs.start with srseed := seed, profile := BitVec.ofNat 4 (bits (control p) 6 3) }
  seedAll seed member (memberSetCtx { Member.start with csrs := csrs } .s (entryStream (BitVec.ofNat 24 (packetField p 0 3))))

/-! ### Staging (R295) -/

/-- Bytes of a piece of an entry, which carries its own mark: a word of the scratchpad, or a line (R371). -/
def stagePiece (e : StageEntry) : Nat := match e.kind with
  | 1 => 32
  | _ => 64

/-- Piece n put where the entry names it: scratchpad, instruction memory, or code store. -/
def stagePut (e : StageEntry) (n : Nat) (data : List Byte) (poison : Bool) (s : State) : State :=
  match e.kind with
  | 1 => modCore (spadWrite (e.target + 32 * n) data poison) s
  | _ => putLine (e.target + n) data poison s

/-- An entry, piece by piece. -/
def stageEach (e : StageEntry) (member : Nat) (s : State) : Eff State :=
  (upTo (e.bytes / stagePiece e)).foldlM (fun t (n : Nat) => do
    let r ← readAs (wrap64 ((e.src : Int) + e.mstride * member + (stagePiece e : Int) * n)).toNat (stagePiece e) t
    .ok (stagePut e n r.1 r.2 t)) s

/-- The entries in order; kind 3 only for the first member on its die. Log 27, DESIGN CHOICE. -/
def stageAll (member : Nat) (first : Bool) : List StageEntry → State → Eff State
  | [], s => .ok s
  | e :: rest, s => do
    if e.kind == 3 && !first then stageAll member first rest s
    else do
      let t ← stageEach e member s
      stageAll member first rest t

/-- No member of the launch on the die has started. -/
def firstOnDie (l : Launch) (s : State) : Bool :=
  !(allCores s).any fun c => c.pkg == s.me.pkg && c.die == s.me.die && c.cur.launch == l.number && c.cur.state == .active

/-- The lines of a launch's ranges made zero: instruction memory, and the code store with the die's first member. -/
def zeroLines (l : Launch) (first : Bool) (s : State) : State :=
  let t := modCore (clearLines l.packet) s
  if !first then t
  else modDie s.me.pkg s.me.die (fun d =>
    { d with
      code := storeClear d.code (64 * (codeFirst l.packet - 4096)) (64 * codeCount l.packet),
      codePoison := d.codePoison.filter fun n => !(codeFirst l.packet ≤ n && n < codeFirst l.packet + codeCount l.packet) }) t

/-- The staging list of a bind record performed on the core in focus, into its current scratchpad. -/
def stageMember (l : Launch) (b : Bind) (s : State) : Eff State := do
  let first := firstOnDie l s
  let v := { s with me := { s.me with cur := { b with state := .active } } }
  let es ← stagingList l.packet v
  let t ← stageAll b.member first es (zeroLines l first v)
  .ok { t with me := { t.me with cur := s.me.cur } }

/-- A staging read faulted: a fault of the member at its entry position (R295); detail holds its cause. -/
def stagingFault (l : Launch) (b : Bind) (t : Trouble) (s : State) : State :=
  let r : FaultRecord :=
    { cause := .staging, who := ⟨l.number, b.member, .s⟩, ctx := b.ctx, pos := BitVec.ofNat 24 (packetField l.packet 0 3), origin := 0,
      addr := t.addr, progress := [], time := timeNs s, malformed := t.malformed, level := t.level, lost := [], detail := t.cause.code }
  logRecord r s

/-! ### The dispatch hardware (R298) -/

def setPhase (n : Nat) (p : LaunchPhase) (s : State) : State := modLaunch n (fun l => { l with phase := p }) s

/-- A launch's first start, or its resume, once a member becomes ACTIVE. -/
def noteRunning (l : Launch) (s : State) : State :=
  if l.phase != .waiting then s
  else
    let debug := match l.armed with | some r => some r | none => l.debug
    modLaunch l.number (fun l => { l with phase := .running, keeps := placeDies l.place, startedAt := sahfinTime s, debug := debug, armed := none }) s

def activate (f : Core → Core) (s : State) : State := modCore (fun c => let d := f c; { d with cur := { d.cur with state := .active } }) s

/-- A fresh start of the member of a READY record (R294). -/
def startFresh (l : Launch) (s : State) : State :=
  let b := s.me.cur
  let m := startedMember l.packet b.member
  let spad := if b.staged then s.me.spad else []
  let spadPoison := if b.staged then s.me.spadPoison else []
  let blank := modCore (fun c => { c with m := m, spad := spad, spadPoison := spadPoison }) s
  let staged := if b.staged then .ok blank else stageMember l b blank
  match staged with
  | .ok t =>
    let t := if hasDist l.packet then
        modCore (spadWrite (distSlice (distRecord l.packet)) (sliceRecord (distRecord l.packet) b.member (packetMembers l.packet)) false) t
      else t
    noteRunning l (activate id t)
  | .error (.fault f) => beginStop l.number .staging (stagingFault l b f (noteRunning l s))
  | .error _ => s

/-- The saved member of a READY record takes its core (R309). -/
def restoreCore (v : Saved) (c : Core) : Core :=
  let imem := v.imem.foldl (fun m p => storeSet m p.1 p.2) c.imem
  { c with
    m := resumeStreams (reinstated v), spad := v.spad, spadPoison := v.spadPoison, imem := imem, imemPoison := c.imemPoison ++ v.imemPoison,
    buffers := v.buffers ++ c.buffers, inbox := v.inbox ++ c.inbox }

def dropSaved (member : Nat) (l : Launch) : Launch := { l with saved := l.saved.filter fun v => v.member != member }

/-- A READY current slot becomes ACTIVE: its member starts or is restored, unless the launch has ended meanwhile (R298). -/
def execDispatchStart (s : State) : Host.Outcome State Fault Refusal :=
  .next (if s.me.cur.state != .ready then s
    else match findLaunch s.me.cur.launch s with
      | none => s
      | some l => if l.phase == .ended then activate id s else match l.saved.find? fun v => v.member == s.me.cur.member with
        | some v => modLaunch l.number (dropSaved v.member) (activate (restoreCore v) (modCore (clearLines l.packet) s))
        | none => startFresh l s)

/-- Bytes and lines staged for a next slot, seen from a core whose current slot is another launch's (R298, R303). -/
def stageNext (l : Launch) (s : State) : Eff State := do
  let b := s.me.next
  let first := !(allCores s).any fun c => c.pkg == s.me.pkg && c.die == s.me.die && c.next.launch == l.number && c.next.state == .ready
  let v := { s with me := { s.me with cur := { b with state := .active }, spad := s.me.nextSpad, spadPoison := s.me.nextSpadPoison } }
  let es ← stagingList l.packet v
  let t ← stageAll b.member first es (zeroLines l first v)
  let me := { t.me with cur := s.me.cur, spad := s.me.spad, spadPoison := s.me.spadPoison, nextSpad := t.me.spad, nextSpadPoison := t.me.spadPoison }
  .ok { t with me := { me with next := { b with state := .ready, staged := true } } }

/-- A STAGING next slot has its list performed and becomes READY (R298). -/
def execDispatchStage (s : State) : Host.Outcome State Fault Refusal :=
  .next (if s.me.next.state != .staging then s
    else match findLaunch s.me.next.launch s with
      | none => s
      | some l => match stageNext l s with
        | .ok t => t
        | .error (.fault f) =>
          let t := modLaunch l.number (fun l => { l with phase := .saved, cause := some .staging })
            (discardPreload l.number none (stagingFault l s.me.next f s))
          { t with agenda := t.agenda ++ collsOf (packetField l.packet 0x14 2) s }
        | .error _ => s)

/-- A READY next slot's record moves into the EMPTY current slot (R298). -/
def execDispatchPromote (s : State) : Host.Outcome State Fault Refusal :=
  .next (if s.me.next.state == .ready && s.me.cur.state == .empty then
      modCore (fun c => { c with cur := c.next, next := Bind.empty, spad := c.nextSpad, spadPoison := c.nextSpadPoison, nextSpad := [],
                                 nextSpadPoison := [] }) s
    else s)

/-- What a member leaves behind on its core (R102). -/
def vacate (p : BitVec 1024) (c : Core) : Core :=
  { clearLines p c with cur := Bind.empty, m := Member.start, spad := [], spadPoison := [], buffers := [], inbox := [] }

/-- An ACTIVE current slot becomes EMPTY when its launch has ended (R298). -/
def execDispatchRelease (s : State) : Host.Outcome State Fault Refusal :=
  .next (if s.me.cur.state == .active && (findLaunch s.me.cur.launch s).any fun l => l.phase == .ended then
      let gone := collsOf s.me.cur.ctx s
      let t := modCore (vacate (packet s)) s
      { t with agenda := t.agenda ++ (gone.filter fun i => !t.agenda.contains i) }
    else s)

/-! ### The gang stop (R306, R307, R340) -/

/-- The next page of the oldest command that must fill its slot before the member can be saved: none once a page has faulted
(R340). -/
def openJob (s : State) : Option (Cmd × PageJob) :=
  match s.me.m.cq with
  | [] => none
  | c :: _ => match c.jobs with
    | [] => none
    | j :: _ => if pageFaulted c s then none else some (c, j)

/-- Requests sent to drupelets complete and fill their slots before the save, at most so many of them; one whose home is out of
reach waits (R340, R347). -/
def finishJobs : Nat → State → State
  | 0, s => s
  | n + 1, s => match openJob s with
    | none => s
    | some (c, j) => match asCommand .c c.pos (finishPage c j) s with
      | .ok t => finishJobs n { t with cur := s.cur }
      | .error (.fault f) => logRecord (recordOf s .c c.pos 1 { f with progress := [c.progress] }) s
      | .error (.reading route scope cls key n) => { sendFetch route scope cls key n { s with cur := .c } with cur := s.cur }
      | .error .wait => s
      | .error (.hole _) => s

/-- The stream whose turn it is, as the issue rotation stands (R229). -/
def rotationOf (s : State) : Stream := match s.turn with
  | .stream st => st
  | .queue _ | .nest | .drain | .shuttle | .memory | .events | .mgmt | .next => .s

/-- The member section of the core in focus (R307). Log 42, DESIGN CHOICE. -/
def saveOf (p : BitVec 1024) (s : State) : Saved :=
  let c := s.me
  { member := c.cur.member, length := sectionLength p, coreid := BitVec.ofNat 64 (coreid c s), rotation := rotationOf s, unreadable := false,
    tags := (c.m.tiles.toList.take (bits (reservation p) 63 58)).map fun t => t.tag.code,
    bobbins := (upTo (bits (reservation p) 48 42)).map fun i =>
      bobbinImage (liveSlots (BitVec.ofNat 6 i) c.m) (bobbinOf c.m (BitVec.ofNat 6 i)),
    m := { stopStreams c.m with readLost := [] }, spad := c.spad, spadPoison := c.spadPoison,
    imem := c.imem.filter fun e => 64 * imemFirst p ≤ e.1 && e.1 < 64 * (imemFirst p + imemCount p),
    imemPoison := c.imemPoison.filter fun n => imemFirst p ≤ n && n < imemFirst p + imemCount p,
    buffers := c.buffers, inbox := c.inbox }

/-- The member of the core in focus is saved and its slot EMPTY; one that has not started needs no section. -/
def saveHere (l : Launch) (s : State) : State :=
  if s.me.cur.launch != l.number || s.me.cur.state == .empty then s
  else if s.me.cur.state == .active then
    let t := logFound s
    modLaunch l.number (fun x => { x with saved := x.saved ++ [saveOf l.packet t] }) (modCore (vacate l.packet) t)
  else modCore (vacate l.packet) s

/-- A next slot that still waits to be promoted is EMPTY too (R306). -/
def unbindNext (l : Launch) (c : Core) : Core :=
  if c.next.state != .empty && c.next.launch == l.number then { clearLines l.packet c with next := Bind.empty, nextSpad := [], nextSpadPoison := [] }
  else c

def ofLaunch (n : Nat) (c : Core) : Bool := c.cur.state != .empty && c.cur.launch == n
def nextOf (n : Nat) (c : Core) : Bool := c.next.state != .empty && c.next.launch == n

/-- k with each core of a launch in focus in turn. -/
def eachMember (n : Nat) (k : State → State) (s : State) : State :=
  (allCores s).foldl (fun t c => if ofLaunch n c then atCore (sameCore c) k t else t) s

/-- Every member of a launch is saved, on every core together. -/
def saveAll (l : Launch) (s : State) : State :=
  updCores (nextOf l.number) (unbindNext l) (eachMember l.number (saveHere l) s)

/-- The preloads on a stopped launch's cores: those that depend on it are discarded, and held after a fault (R303). -/
def stopPreloads (l : Launch) (s : State) : State :=
  discardAll (preloadsOver l.number true s) (l.cause.map fun _ => l.number) s

/-- The boards of a launch as its image holds them; the home slices give its pod boards up (R271). -/
def saveBoards (n : Nat) (s : State) : State :=
  match findLaunch n s with
  | none => s
  | some l =>
    let homes := (podBoardsOf l).map (·.1)
    let pods := s.podBoards.filter fun b => homes.contains b.1
    dropPodBoards l (modLaunch n (fun l => { l with boardImages := l.boards.map boardImage, podImages := pods.map fun b => (b.1, boardImage b.2) }) s)

/-- The order of records: by time, then by member and stream (R369). -/
def recordBefore (x y : FaultRecord) : Bool :=
  x.time < y.time || (x.time == y.time && (x.who.member < y.who.member || (x.who.member == y.who.member && x.who.stream.code ≤ y.who.stream.code)))

/-- The first cause of a launch: that of its first record, or what Sahfin stopped it for (R369). -/
def firstCause (l : Launch) : Option Cause :=
  match (l.records.filter fun r => r.origin != 3).foldr (insertBy recordBefore) [] with
  | r :: _ => some r.cause
  | [] => l.cause

/-- Where the image is written: 4 KiB pages of HBM that hold nothing. A free value says which; if that place is taken, the first
free one (log 42, DESIGN CHOICE). -/
def imageSpot (l : Launch) (s : State) : Option Nat × State :=
  match findPkg (imagePkg l) s with
  | none => (none, s)
  | some p =>
    let (v, t) := drawFree s
    let some' := v.toNat % 8 * 2 ^ 36 + 4096 * (v.toNat / 8 % 2 ^ 24)
    ((some' :: frameTries p 4096 s).find? fun a => a != 0 && frameFree p 4096 a (imageBytes l) s, t)

/-- The stop of a launch goes on: streams stop, the quads' combiners drain, and drupelets finish what was sent to them. -/
def stopMembers (l : Launch) (s : State) : State :=
  eachMember l.number (fun t => finishJobs 256 (drainMine t)) (updCores (ofLaunch l.number) (fun c => { c with m := stopStreams c.m }) s)

/-- Contributions of the launch's members are on their way: they are applied, or lost, before the save (R203, R250). -/
def contributing (n : Nat) (s : State) : Bool :=
  s.inFlight.any fun m => m.who.launch == n && match m.body with
    | .bobbin _ _ _ _ => true
    | _ => false

/-- A member of the launch waits for a drupelet. -/
def jobsOpen (n : Nat) (s : State) : Bool := (allCores s).any fun c => ofLaunch n c && (openJob { s with me := c }).isSome

/-- What the detail of a charged record says: the unit's number (R368). -/
def causeDetail : Cause → Nat
  | .unitParity u => u
  | .unitStall u => u
  | _ => 0

/-- A record charged by Sahfin to a stream of a member, at its position. -/
def chargedRecord (cause : Cause) (launch member ctx time : Nat) (m : Member) (st : Stream) : FaultRecord :=
  { cause := cause, who := ⟨launch, member, st⟩, ctx := ctx, pos := (memberCtx m st).pc, origin := 2, addr := 0, progress := [], time := time,
    malformed := false, level := 0, lost := [], detail := causeDetail cause }

/-- The same for the member of a core. -/
def chargeAt (cause : Cause) (c : Core) (st : Stream) (s : State) : State :=
  logRecord (chargedRecord cause c.cur.launch c.cur.member c.cur.ctx (match findDie c.pkg c.die s with | some d => d.count / 65536 | none => 0) c.m st) s

/-- A launch cause is charged to S and to every stream that runs, waits or has unperformed work (R377, column L). -/
def chargedStreams (launch member : Nat) (m : Member) (s : State) : List Stream :=
  [.s] ++ [Stream.m, .v, .c].filter fun st => !idleStream m st || !queueEmpty st m || s.inFlight.any (unperformed ⟨launch, member, st⟩)

def chargeCore (cause : Cause) (c : Core) (s : State) : State :=
  (chargedStreams c.cur.launch c.cur.member c.m s).foldl (fun t st => chargeAt cause c st t) s

/-- A record at Sahfin's time against a stream of a member that no core runs. -/
def chargeIdle (cause : Cause) (l : Launch) (member : Nat) (m : Member) (s : State) (st : Stream) : State :=
  logRecord (chargedRecord cause l.number member (packetField l.packet 0x14 2) (sahfinTime s / 65536) m st) s

/-- A member that no core runs: as it is saved, or at its entry, where it has not started. -/
def idleMember (l : Launch) (member : Nat) : Member :=
  match l.saved.find? fun v => v.member == member with
  | some v => v.m
  | none => memberSetCtx Member.start .s (entryStream (BitVec.ofNat 24 (packetField l.packet 0 3)))

/-- One member of a launch is charged, if it has not ended, where it runs or stands (R377, column L). -/
def chargeMember (l : Launch) (cause : Cause) (s : State) (member : Nat) : State :=
  match findCore (fun c => runs c l.number member) s with
  | some c => if c.m.ended then s else chargeCore cause c s
  | none =>
    let m := idleMember l member
    if m.ended then s else (chargedStreams l.number member m s).foldl (chargeIdle cause l member m) s

/-- A cause that Sahfin charges to a launch: records for each member that has not ended, in member order (R369). -/
def chargeLaunch (n : Nat) (cause : Cause) (s : State) : State :=
  match findLaunch n s with
  | some l => (upTo (packetMembers l.packet)).foldl (chargeMember l cause) s
  | none => s

/-- A launch stops for a cause that Sahfin charges, one that stops already gets the records, and one that has taken its cores is
stopped before it starts (R306, R375, R377). -/
def stopLaunch (n : Nat) (cause : Cause) (s : State) : State :=
  match findLaunch n s with
  | some l =>
    if l.phase == .running || l.phase == .stopping || (l.phase == .waiting && (allCores s).any (ofLaunch n)) then
      beginStop n cause (chargeLaunch n cause (noteRunning l s))
    else s
  | none => s

/-- The launch is over: its slots follow, and what the host is told (R102, R377). -/
def endLaunch (n : Nat) (s : State) : State :=
  let again := fun (l : Launch) => let place := if l.saved.isEmpty then l.place else []
    { l with phase := .ended, saved := [], place := place, image := 0, boardImages := [], podImages := [] }
  match findLaunch n s with
  | none => s
  | some l =>
    let t := dropPodBoards l (modLaunch n again s)
    { t with hostLog := t.hostLog ++ [.ended n], agenda := t.agenda ++ collsOf (packetField l.packet 0x14 2) s }

/-- The preloads that depended on a launch whose stop held them wait again (R303). -/
def unholdPreloads (n : Nat) (s : State) : State :=
  let free := fun (l : Launch) => if l.heldDep == some n then { l with heldDep := none } else l
  { s with launches := s.launches.map free }

/-- A launch ends for a cause of the machine: charged, then over. -/
def endFor (n : Nat) (c : Cause) (s : State) : State :=
  unholdPreloads n (endLaunch n (discardAll (preloadsOver n true s) none (chargeLaunch n c s)))

/-- BUDGET_OVERRUN against the S stream of every member, in member order (R300). -/
def chargeBudget (n : Nat) (s : State) : State :=
  match findLaunch n s with
  | some l => (upTo (packetMembers l.packet)).foldl (fun t i => match findCore (fun c => runs c n i) t with
    | some c => chargeAt .budgetOverrun c .s t
    | none => chargeIdle .budgetOverrun l i (idleMember l i) t .s) s
  | none => s

/-- Everything detected before the images are written is recorded: what the streams have found, and a budget that is spent (R375). -/
def recordStop (n : Nat) (s : State) : State :=
  let t := eachMember n logFound s
  if (findLaunch n t).any fun l => budgetSpent l t then chargeBudget n t else t

/-- The members are saved under the first cause of the stop, and the image is written at an address (R306, R307, R369). One that
was only pre-empted waits from now on. -/
def saveLaunch (n a : Nat) (s : State) : State :=
  match findLaunch n s with
  | none => s
  | some l =>
    let cause := firstCause l
    let done := fun (x : Launch) =>
      { x with phase := .saved, cause := cause, image := a, submitted := if cause.isNone then sahfinTime s else x.submitted }
    let t := modLaunch n done (saveBoards n (saveAll l (stopPreloads { l with cause := cause } s)))
    let u := match findLaunch n t with
      | some x => writeImage x t
      | none => t
    if stopsOnFault { l with cause := cause } then { u with agenda := u.agenda ++ collsOf (packetField l.packet 0x14 2) s } else u

/-- Sahfin stops every member of a launch together and writes its image; where the image cannot be written, the launch ends
with SAVE_ABORT (R306, R340, R377). -/
def execGangPreemption (launch : Nat) (s : State) : Host.Outcome State Fault Refusal :=
  .next (match findLaunch launch s with
    | none => s
    | some l =>
      if l.phase == .running || l.phase == .stopping then
        let t := setPhase launch .stopping (stopMembers l s)
        if jobsOpen launch t || contributing launch t then t
        else
          let u := recordStop launch t
          match imageSpot l u with
          | (none, v) => endFor launch .saveAbort v
          | (some a, v) => saveLaunch launch a v
      else s)

/-- The budget is spent (R300, R375). -/
def execBudgetExpiry (launch : Nat) (s : State) : Host.Outcome State Fault Refusal :=
  .next (match findLaunch launch s with
    | none => s
    | some l => if budgetSpent l s then beginStop launch .budgetOverrun (chargeBudget launch s) else s)

/-! ### Resume (R308, R309, R370) -/

/-- The stops of the debug record, after which the stopped instruction runs once without the stop (R370). -/
def debugCause : Cause → Bool
  | .brk _ | .watch _ _ | .forkBreak | .exitBreak | .csrwBreak => true
  | _ => false

/-- A record's stream goes on at its resume: past a debug stop, or by attempting a TERM line's continuation again; what it
waited for and faulted on it waits for no more (R370). -/
def pass (r : FaultRecord) (m : Member) : Member :=
  if r.origin == 1 then
    if debugCause r.cause then { m with passed := m.passed ++ [(r.who.stream, r.pos, r.cause)] } else m
  else if r.origin == 0 then
    let c := memberCtx m r.who.stream
    memberSetCtx m r.who.stream { c with
      pastStop := if debugCause r.cause then c.pastStop ++ [r.cause] else c.pastStop,
      pend := if r.cause == .chainEnd && c.pend == .chainEnd then .again else c.pend,
      replyDue := false }
  else m

/-- A saved member passes what stopped it. -/
def passStops (rs : List FaultRecord) (v : Saved) : Saved :=
  { v with m := (rs.filter fun r => r.who.member == v.member).foldl (fun m r => pass r m) v.m }

/-- A record against a member of a saved launch (R308). -/
def chargeSaved (l : Launch) (cause : Cause) (member : Nat) (s : State) : State :=
  logRecord { cause := cause, who := ⟨l.number, member, .s⟩, ctx := packetField l.packet 0x14 2,
              pos := (match l.saved.find? fun v => v.member == member with | some v => (memberCtx v.m .s).pc | none => 0), origin := 2,
              addr := 0, progress := [], time := sahfinTime s / 65536, malformed := false, level := 0, lost := [], detail := 0 } s

/-- Sahfin restores a saved launch on free quads of its dies; one that a staging fault stopped before it was bound is
admitted again (R295, R309). -/
def resumeAt (l : Launch) (place : List (Nat × Nat × Nat)) (budget : Option Nat) (s : State) : State :=
  let used := match budget with | some _ => 0 | none => l.used
  let l' := { l with place := place, saved := l.saved.map (passStops l.records), records := [], used := used, budget := budget.getD l.budget }
  if l.fields.isEmpty then admitAt l' place (unholdPreloads l.number s)
  else
    let boards := if l.boardImages.isEmpty then l.boards else l.boardImages.map imageBoard
    let back := { l' with boards := boards, boardImages := [], podImages := [], image := l.image }
    unholdPreloads l.number (addPodBoards (l.podImages.map fun b => (b.1, imageBoard b.2)) (bindLaunch back true s))

/-- A launch that the host orders to resume and that finds no place waits for one like any other (R299, R300). -/
def waitAgain (budget : Option Nat) (now : Nat) (l : Launch) : Launch :=
  { l with
    cause := none, submitted := if l.cause.isSome then now else l.submitted, budget := budget.getD l.budget,
    used := match budget with | some _ => 0 | none => l.used }

/-- Sahfin resumes a launch, at the host's word where a fault or a budget stopped it, from the bytes of its image; it overtakes no
launch of its class, and none of a higher one that can be placed (R299, R300, R309, R370). -/
def execLaunchResume (launch : Nat) (budget : Option Nat) (s : State) : Host.Outcome State Fault Refusal :=
  .next (match findLaunch launch s with
    | none => s
    | some l =>
      let x := readImage l s
      let later := unholdPreloads launch (modLaunch launch (waitAgain budget (sahfinTime s)) s)
      if l.phase != .saved || l.saved.any fun v => v.m.demand.isSome then s
      else if l.saved.any (·.unreadable) then endFor launch .imageEcc s
      else match imageFault x with
        | some (c, m) => unholdPreloads launch (endLaunch launch (chargeSaved l c m s))
        | none =>
          if !atClassHead l s || outranked l s then later
          else match victimsFor l s with
            | some [] => (match placeFor l [] s with
              | some place => resumeAt x place budget s
              | none => later)
            | some vs => { s with agenda := vs.map Instr.gangPreemption ++ [.launchResume launch budget] ++ s.agenda }
            | none => later)

/-! ### The host ends, halts or reruns (R370, R377) -/

/-- The host ends a launch: charged, then over; its messages are dropped as they find no member (R306). -/
def execHostStop (launch : Nat) (s : State) : Host.Outcome State Fault Refusal :=
  .next (match findLaunch launch s with
    | none => s
    | some l => match l.phase with
      | .ended => s
      | .waiting => endLaunch launch (discardPreload launch none (if l.place.isEmpty then s else chargeLaunch launch .hostStop s))
      | .running | .stopping | .saved => endFor launch .hostStop s)

/-- The host halts a launch for inspection (R377). -/
def execHostHalt (launch : Nat) (s : State) : Host.Outcome State Fault Refusal := .next (stopLaunch launch .hostHalt s)

/-- A message from or for a launch. -/
def touches (n : Nat) (m : Msg) : Bool :=
  m.who.launch == n || match m.body with
    | .fill l _ _ _ => l == n
    | .collFill _ _ l _ _ _ _ => l == n
    | .credit l _ _ _ => l == n
    | .mcredit l _ _ => l == n
    | .copyWrite l _ _ _ _ => l == n
    | .bind l _ _ _ _ _ => l == n
    | _ => false

/-- What is left of a message at a rerun: accesses that have left a core are performed, for no member; the rest is discarded
(R306). -/
def rerunMsg (n : Nat) (m : Msg) : Option Msg :=
  if !touches n m then some m
  else match m.body with
    | .write _ _ _ | .detWrite _ _ _ | .collWrite _ _ _ _ | .hostWrite _ _ => some { m with who := ⟨0, 0, m.who.stream⟩ }
    | .atomic k w leaf key b _ => some { m with who := ⟨0, 0, m.who.stream⟩, body := .atomic k w leaf key b .none }
    | .copyWrite l _ _ _ _ => if l == n then none else some { m with who := ⟨0, 0, m.who.stream⟩ }
    | _ => none

/-- The host reruns a stopped launch from its entry: nothing of its image is kept, the dies are (R296, R303, R370). Log 29, DESIGN CHOICE. -/
def execLaunchRerun (launch : Nat) (s : State) : Host.Outcome State Fault Refusal :=
  .next (match findLaunch launch s with
    | none => s
    | some l =>
      if l.phase != .saved then s
      else
        let u := discardAll (preloadsOver launch true s) none { s with inFlight := s.inFlight.filterMap (rerunMsg launch) }
        let t := unholdPreloads launch u
        let l' := { l with saved := [], barriers := [], records := [], used := 0, cause := none, image := 0, boardImages := [], podImages := [],
                           caps := [], boards := [], submitted := sahfinTime s }
        match placeFor l' [] t with
        | none => modLaunch launch (fun _ => { l' with phase := .waiting, place := [] }) t
        | some place => admitAt l' place t)

end Sys2Proof.Machine
end

