-- ==== Sys2Proof/Machine/Coll.lean ====
section
/-! DEFINITION. Collectives (R353 to R358). -/
namespace Sys2Proof.Machine

/-! ### The record (R353) -/

def collId (c : Coll) : Nat := bytesField c.record 0 1
def collOp (c : Coll) : Nat := bytesField c.record 1 1 % 4
def collFixed (c : Coll) : Bool := flag (BitVec.ofNat 8 (bytesField c.record 1 1)) 2
def collNskip (c : Coll) : Bool := flag (BitVec.ofNat 8 (bytesField c.record 1 1)) 3

/-- The form of a collective record. -/
def collOk (r : List Byte) : Bool :=
  bytesField r 1 1 / 16 == 0 && bytesField r 2 1 < 64 && bytesField r 3 1 == 0 && bytesField r 8 4 % 32 == 0 &&
  32 ≤ bytesField r 8 4 && bytesField r 8 4 ≤ 2 ^ 24 && bytesField r 0x0C 4 == 0 && bytesField r 0x18 8 == 0 &&
  r.length == 0x20 + 16 * (bytesField r 2 1 + 1) &&
  (upTo (bytesField r 2 1 + 1)).all fun n => groupEntryOk (BitVec.ofNat 64 (bytesField r (0x20 + 16 * n) 8))

/-! ### Creation and destruction (R353) -/

/-- The bindings of a collective end. -/
def unbindRank (c : Coll) (r : Nat) (s : State) : State :=
  match rankMember c r s with
  | some (l, m, k) => modMember l m (modRing k fun x => if x.bound == some (.coll (collId c) r) then { x with bound := none } else x) s
  | none => s

/-- The records of a collective that are on their way are gone. -/
def dropFills (collid : Nat) (s : State) : State :=
  { s with inFlight := s.inFlight.filter fun m => match m.body with
    | .collFill id _ _ _ _ _ _ => id != collid
    | _ => true }

def dropColl (collid : Nat) (s : State) : State :=
  match findColl collid s with
  | none => s
  | some c =>
    let t := (upTo (collRankCount c)).foldl (fun t r => unbindRank c r t) (dropFills collid s)
    { t with colls := t.colls.filter fun x => collId x != collid }

/-- The rank's ring register, if it can be bound now: a configured local ring, not bound, every slot FREE. -/
def bindRankNow (c : Coll) (s : State) (r : Nat) : State :=
  match rankMember c r s with
  | none => s
  | some (l, m, k) => match memberOf l m s with
    | none => s
    | some x =>
      let ring := ringOf x k
      if ringSet ring && !ringRemote ring && ring.bound.isNone && allFree ring && 64 ≤ ringBytes ring then
        bindRank (collId c) r l m k (ringCount ring) s
      else s

def newColl (pkg : Nat) (rec : List Byte) (now : Nat) : Coll :=
  let rank : Rank := { bound := false, tail := 0, slots := [], waiting := none, round := 0 }
  { pkg := pkg, record := rec, round := 0, since := now, contribs := [], dup := false,
    ranks := List.replicate (bytesField rec 2 1 + 1) rank, aborted := false }

/-- The host creates a collective, or creates it again; Sahfin binds the rings it can (R353). -/
def execCollectiveCreate (pkg : Nat) (rec : List (BitVec 8)) (s : State) : Host.Outcome State Fault Refusal :=
  .next (if !collOk rec then { s with hostLog := s.hostLog ++ [.recordRefused .reservedField] }
    else
      let c := newColl pkg rec (sahfinTime s)
      let t := dropColl (collId c) s
      (upTo (collRankCount c)).foldl (bindRankNow c) { t with colls := t.colls ++ [c] })

/-- The host destroys a collective (R353). -/
def execCollectiveDestroy (collid : Nat) (s : State) : Host.Outcome State Fault Refusal := .next (dropColl collid s)

/-! ### Contributions (R354) -/

/-- The DUP flag of a record that has not been written yet. -/
def markDup (rec : List Byte) : List Byte := setNth rec 0x18 (nth rec 0x18 0 ||| 0x10#8)

/-- A rank's value for a word of its round; a second one is dropped. Log 30, DESIGN CHOICE. -/
def contributeWord (r w : Nat) (v : Word32) (c : Coll) : Coll :=
  match c.ranks[r]? with
  | none => c
  | some q => match q.waiting with
    | some rec => { c with ranks := setNth c.ranks r { q with waiting := some (markDup rec) } }
    | none =>
      if c.contribs.any fun e => e.1 == r && e.2.1 == w then { c with dup := true }
      else { c with contribs := c.contribs ++ [(r, w, v)] }

/-- Every rank has contributed every word. -/
def collFull (c : Coll) : Bool := c.contribs.length == collRankCount c * collLen c

/-- A contribution arrives at the weft processor (R354). -/
def execCollContribution (collid rank word : Nat) (value : BitVec 32) (s : State) : Host.Outcome State Fault Refusal :=
  .next (match findColl collid s with
    | none => s
    | some c =>
      if c.aborted then s
      else
        let c' := contributeWord rank word value c
        let t := modColl collid (fun _ => c') s
        if collFull c' && !collFull c then { t with agenda := t.agenda ++ [.collComplete collid] } else t)

/-! ### The reduction (R355, R356) -/

/-- Two contributions combined, and the conditions raised. -/
def collPair (op : Nat) (a b : Word32) : Word32 × Conds :=
  match op with
  | 0 => fadd32 a b
  | 1 => (a + b, 0)
  | 2 => fpick32 xmax a b
  | _ => fpick32 xmin a b

/-- In order, from the first. -/
def foldPairs (op : Nat) : List Word32 → Word32 × Conds
  | [] => (0, 0)
  | v :: rest => rest.foldl (fun acc x => let r := collPair op acc.1 x; (r.1, acc.2 ||| r.2)) (v, 0)

/-- Some tree of the contributions: each time, two of those left meet, and free values say which (log 2, DESIGN CHOICE). -/
def someTree (op : Nat) : Nat → List Word32 → Nat → (Word32 × Conds) × Nat
  | 0, l, fresh => ((l.headD 0, 0), fresh)
  | fuel + 1, l, fresh =>
    match l with
    | [] => ((0, 0), fresh)
    | [v] => ((v, 0), fresh)
    | _ :: _ :: _ =>
      let i := (Config.freeWord fresh).toNat % l.length
      let rest := l.eraseIdx i
      let j := (Config.freeWord (fresh + 1)).toNat % rest.length
      let p := collPair op (nth l i 0) (nth rest j 0)
      let t := someTree op fuel (p.1 :: rest.eraseIdx j) (fresh + 2)
      ((t.1.1, t.1.2 ||| p.2), t.2)

/-- One word from its contributions in rank order. -/
def reduceWord (c : Coll) (vs : List Word32) (fresh : Nat) : (Word32 × Conds) × Nat :=
  if collOp c == 0 && !collFixed c then someTree 0 vs.length vs fresh else (foldPairs (collOp c) vs, fresh)

def contribOf (c : Coll) (r w : Nat) : Option Word32 := (c.contribs.find? fun e => e.1 == r && e.2.1 == w).map fun e => e.2.2

/-- A rank's block with a NaN is skipped whole under NSKIP; the words of an integer operation are no NaNs. Log 30, DESIGN CHOICE. -/
def skipsBlock (c : Coll) (b r : Nat) : Bool :=
  collNskip c && collOp c != 1 && (upTo 32).any fun i => (contribOf c r (32 * b + i)).any isNan32

/-- The ranks whose block b takes part. -/
def blockRanks (c : Coll) (b : Nat) : List Nat := (upTo (collRankCount c)).filter fun r => !skipsBlock c b r

/-- What a reduction has come to: words, counts, conditions, free values drawn. -/
structure Reduced where
  words  : List Word32
  counts : List Nat
  conds  : Conds
  fresh  : Nat

def reduceBlock (c : Coll) (acc : Reduced) (b : Nat) : Reduced :=
  let rs := blockRanks c b
  (upTo 32).foldl (fun (acc : Reduced) i =>
      let r := reduceWord c (rs.map fun r => (contribOf c r (32 * b + i)).getD 0) acc.fresh
      { acc with words := acc.words ++ [r.1.1], conds := acc.conds ||| r.1.2, fresh := r.2 })
    { acc with counts := acc.counts ++ [rs.length] }

/-- Every rank has contributed block b. -/
def blockFull (c : Coll) (b : Nat) : Bool :=
  (upTo (collRankCount c)).all fun r => (upTo 32).all fun i => (contribOf c r (32 * b + i)).isSome

/-- The blocks that every rank has contributed. -/
def reduceRound (c : Coll) (fresh : Nat) : Reduced :=
  ((upTo (collLen c / 32)).filter (blockFull c)).foldl (reduceBlock c) ⟨[], [], 0, fresh⟩

/-! ### Completion and abort (R357, R358) -/

/-- The flags word of a record (R357). -/
def collFlags (c : Coll) (f : Conds) : Nat := (condFlags f).toNat % 16 + field (boolNat c.dup) 4

/-- A completion or abort record. -/
def collRecord (c : Coll) (kind mask flags : Nat) : List Byte :=
  natToBytes 8 (collId c + field (c.round % 2 ^ 32) 8) ++ [BitVec.ofNat 8 kind] ++ List.replicate 7 0 ++ natToBytes 8 mask ++
    natToBytes 8 flags ++ List.replicate 32 0

/-- The bytes of a result as every region takes them. -/
def collImage (c : Coll) (r : Reduced) : List Byte :=
  r.words.flatMap (fun w => natToBytes 4 w.toNat) ++ (if collNskip c then r.counts.flatMap (natToBytes 4) else [])

/-- Bytes for a rank's region, by the keys they go to. -/
def regionData (c : Coll) (r : Nat) (data : List Byte) (s : State) : List (Nat × List Byte) :=
  ((physParts (groupPkg (collEntry c r)) (collFrame c r) data.length s).foldl (fun (acc : List (Nat × List Byte) × List Byte) p =>
    (acc.1 ++ [(memKey (groupPkg (collEntry c r)) p.1, acc.2.take p.2)], acc.2.drop p.2)) ([], data)).1

/-- The result is written into every rank's region, over the links from the weft processor (R357). -/
def writeRegions (c : Coll) (data : List Byte) (s : State) : State :=
  (upTo (collRankCount c)).foldl (fun t r => (regionData c r data s).foldl (fun t p =>
    weftSend (weftWho (collId c) r) .tc1 (weftRoute p.1 c t) (.write p.1 p.2 false) (homeWrite p.1 p.2 false) t) t) s

/-- Records stand to be filled at the ranks that p names, and those whose proxy has a FREE slot are. -/
def offerRecords (collid : Nat) (rec : List Byte) (p : Nat → Bool) (s : State) : State :=
  match findColl collid s with
  | none => s
  | some c =>
    let ranks := (c.ranks.zip (upTo c.ranks.length)).map fun x => if p x.2 then { x.1 with waiting := some rec } else x.1
    (upTo (collRankCount c)).foldl (fun t r => collDeliver collid r t) (modColl collid (fun c => { c with ranks := ranks }) s)

/-- The result is written to every rank, and then each rank's record is filled (R357). -/
def execCollComplete (collid : Nat) (s : State) : Host.Outcome State Fault Refusal :=
  .next (match findColl collid s with
    | none => s
    | some c =>
      if c.aborted || !collFull c then s
      else
        let r := reduceRound c s.fresh
        let t := writeRegions c (collImage c r) { s with fresh := r.fresh }
        offerRecords collid (collRecord c 0 0 (collFlags c r.conds)) (fun _ => true)
          (modColl collid (fun c => { c with contribs := [], dup := false }) t))

/-- The rank was sent its complete record of the round. -/
def collSent (c : Coll) (r : Nat) : Bool := match c.ranks[r]? with | some q => c.round < q.round | none => false

def collMask (c : Coll) : Nat := (upTo (collRankCount c)).foldl (fun m r => m + field (boolNat (collSent c r)) r) 0

/-- Any of the words may land at any rank before the abort reaches the result: free values say which (log 2, R358). -/
def mixWords (key : Nat) : List (List Byte) → Nat → State → State
  | [], _, s => s
  | w :: rest, i, s =>
    let (v, t) := drawFree s
    mixWords key rest (i + 1) (if flag v 0 then homeWrite (key + 4 * i) w false t else t)

/-- Into the regions whose route is free; the others keep what they hold. -/
def mixRegions (c : Coll) (data : List Byte) (s : State) : State :=
  (upTo (collRankCount c)).foldl (fun t r => (regionData c r data s).foldl (fun t p =>
    if weftFree (weftWho (collId c) r) .tc1 (weftRoute p.1 c t) t then mixWords p.1 (chunks 4 (p.2.length / 4) p.2) 0 t
    else t) t) s

/-- The flags of a round that is aborted: those of its complete record where one waits for a slot, else what the blocks
reduced so far have raised (R355, R358). -/
def abortFlags (c : Coll) (f : Conds) : Nat :=
  match c.ranks.findSome? (·.waiting) with
  | some rec => bytesField rec 0x18 8
  | none => collFlags c f

/-- The rank's ring can be reached: its launch lives, and so do the links to the weft processor (R358). -/
def rankReached (c : Coll) (r : Nat) (s : State) : Bool :=
  (rankMember c r s).isSome && !routeDead (rankRoutes c r s) s

/-- The host's report: the abort record at the address that the collective's record gives (R358). Log 30, DESIGN CHOICE. -/
def reportOutcome (c : Coll) (rec : List Byte) (mask : Nat) (s : State) : State :=
  { s with hostMem := storeWrite s.hostMem (bytesField c.record 0x10 8) rec, hostLog := s.hostLog ++ [.outcome (collId c) c.round mask] }

/-- Sahfin ends a round: a complete record on its way is no more; abort records to the ranks that have no complete one and can be reached, and the host's report
(R358). -/
def abortColl (c : Coll) (s : State) : State :=
  let mask := collMask c
  let r := reduceRound c s.fresh
  let s := dropFills (collId c) { s with fresh := r.fresh }
  let s := if collFull c then mixRegions c (collImage c r) s else s
  let out := collRecord c 1 mask (abortFlags c r.conds)
  let drop : Rank → Rank := fun q => { q with waiting := none }
  let t := modColl (collId c) (fun c => { c with aborted := true, ranks := c.ranks.map drop }) s
  reportOutcome c out mask (offerRecords (collId c) out (fun r => !collSent c r && rankReached c r s) t)

/-- A round is aborted (R358). -/
def execCollAbort (collid : Nat) (s : State) : Host.Outcome State Fault Refusal :=
  .next (match findColl collid s with
    | none => s
    | some c => if c.aborted then s else abortColl c s)

/-- A round has lasted its timeout (R358). -/
def execCollTimeout (collid : Nat) (s : State) : Host.Outcome State Fault Refusal :=
  .next (match findColl collid s with
    | none => s
    | some c => if collLate (sahfinTime s) c then abortColl c s else s)

end Sys2Proof.Machine
end

