-- ==== Sys2Proof/Machine/Drains.lean ====
section
/-! DEFINITION. The performance of a drain (R169 to R172, R208). -/
namespace Sys2Proof.Machine

/-! ### Taking the region (R38, R52, R169) -/

/-- The resolved words of a region, by place, and what the resolve raises. -/
def resolvedWords (r : Region) (d : BitVec 64) (v : SlotVals) (acc : Store 32) : List (Nat × Word32) × Conds :=
  let ws := (upTo (dRows d * dCols d)).map fun n =>
    let spot := regionSpot d (n / dCols d) (n % dCols d)
    let w := regionWord r.isInt (storeGet acc spot)
    let e := resolveElem r.slots v (n / dCols d) (n % dCols d) w.1
    (spot, e.1, w.2 ||| e.2)
  (ws.map fun w => (w.1, w.2.1), ws.foldl (fun c w => c ||| flagConds w.2.2 ||| resultConds fp32 w.2.1.toNat) (flagConds v.flags))

/-- The converter a drain draws from: the shuttle's for a KV append (R169). -/
def drainConverter (m : DrainMode) : Fin 3 := match m with | .st => 1 | .add => 1 | .kv => 2

/-- The drain as it stands at the head of the queue. -/
def modDrain (f : Drain → Drain) (s : State) : State :=
  modM (fun m => { m with mq := match m.mq with
    | .drain d :: rest => .drain (f d) :: rest
    | .nest a :: rest => .nest a :: rest
    | [] => [] }) s

/-- The region is resolved and written back; under SR the drain's word is drawn. -/
def takeRegion (dr : Drain) (d : BitVec 64) (s : State) : Eff State := do
  let r := regionOf s.me.m dr.region
  needClean s [r.slots]
  let v ← evalSlots s.me.m r.slots (dRows d) (dCols d)
  let x := resolvedWords r d v s.me.m.acc
  let s ← raiseStatus 1 x.2 s
  let (w, s) := drawWord (drainConverter dr.mode) dr.rmode s
  .ok (modDrain (fun q => { q with taken := true, word := w }) (putRegion dr.region ⟨some d, Slots.none, false, false⟩
    (modM (fun m => { m with acc := x.1.foldl (fun q p => storeSet q p.1 p.2) m.acc }) s)))

/-! ### Stores and adds through a shape record (R170, R208, R210) -/

/-- The record's checks for a region and a stored tag. A zero extent cannot match the region and faults here (R170, R208; log 22,
DESIGN CHOICE). -/
def drainRecordOk (h : BitVec 256) (d : BitVec 64) (tag : Tag) : Bool :=
  shExt0 h == dCols d && shExt1 h == dRows d && shExt2 h == 1 && shEsz h == 0 && !shSrcSide h && bits h 139 128 == 0 &&
  (blockLen tag == 0 || (shOrg0 h % (blockLen tag : Int) == 0 && shBnd0 h % blockLen tag == 0))

/-- The value of region element n, resolved. -/
def drainValue (d : BitVec 64) (n : Nat) (s : State) : Word32 := storeGet s.me.m.acc (regionSpot d (n / dCols d) (n % dCols d))

/-- The code of element n under a tag without blocks. -/
def drainCode (dr : Drain) (d : BitVec 64) (n : Nat) (s : State) : Word × Conds :=
  intoTag dr.tag dr.rmode (srBits dr.word n) (x32 (drainValue d n s))

/-- Block b of row i: its scale and codes. -/
def drainBlock (dr : Drain) (d : BitVec 64) (i b : Nat) (s : State) : Byte × List Word × Conds :=
  let bl := blockLen dr.tag
  let base := i * dCols d + b * bl
  let r := requantise dr.tag dr.rmode (fun k => srBits dr.word (base + k)) ((upTo bl).map fun k => x32 (drainValue d (base + k) s))
  (r.1, r.2.1, blockConds dr.tag (fun _ => true) r)

/-- The access of a drain's stores (R318). -/
def drainAcc (dr : Drain) : Acc :=
  { dir := if dr.mode == .add then .update else .write, det := dr.tag == .fp32, coll := elemBits dr.tag == 32 && dr.mode == .st }

/-- The tensor row of region row i, and the address of its first byte (R208). -/
def drainRowBase (dr : Drain) (h : BitVec 256) (i : Nat) : Int := (dr.a.toNat : Int) + (shOrg1 h + i) * shDst1 h

/-- The columns of a row that lie inside the tensor. -/
def drainCols (h : BitVec 256) (i : Nat) : List Nat :=
  let r0 := shRange0 h
  let r1 := shRange1 h
  if r1.1 ≤ i && (i : Int) < r1.2 then (upTo (shExt0 h)).filter fun j => r0.1 ≤ j && (j : Int) < r0.2 else []

/-- One whole-byte element written or added. Log 22, DEDUCED. -/
def drainElement (dr : Drain) (h : BitVec 256) (i j : Nat) (c : Word) (s : State) : Eff State :=
  let eb := elemBits dr.tag / 8
  let va := (wrap64 (drainRowBase dr h i + (shOrg0 h + j) * eb)).toNat
  if dr.mode == .add then do
    if va % 4 != 0 then failAt .misaligned va
    commandAdd .fadd32 true va c s
  else storeBytes (drainAcc dr) va (natToBytes eb c.toNat) s

/-- Bytes that a row of c narrow elements takes (R11); c may be negative, for a window before the tensor. -/
def narrowBytes (w : Nat) (c : Int) : Int := if w == 4 then (c + 1) / 2 else 3 * ((c + 3) / 4)

/-- The last column that is written ends the row, so that the row's padding is written too; without a bound the region's
last column does (R11, R208; log 22, DEDUCED: no bound). -/
def endsRow (h : BitVec 256) (j : Nat) : Bool :=
  if shBnd0 h == 0 then j + 1 == shExt0 h else shOrg0 h + j + 1 == shBnd0 h

/-- A row of 4-bit or 6-bit elements: bytes shared with elements that are not written keep their bits, and padding is
written as zero (R11). -/
def drainNarrow (dr : Drain) (h : BitVec 256) (i : Nat) (js : List Nat) (code : Nat → Word) (s : State) : Eff State :=
  match js.head?, js.getLast? with
  | some j0, some j1 => do
    let w := elemBits dr.tag
    let lo : Int := (shOrg0 h + j0) * w / 8
    let padded := endsRow h j1
    let hi : Int := if padded then narrowBytes w (shOrg0 h + j1 + 1) - 1 else ((shOrg0 h + j1) * w + w - 1) / 8
    let n := (hi - lo + 1).toNat
    let va := (wrap64 (drainRowBase dr h i + lo)).toNat
    let spots ← resolve (drainAcc dr) va n s
    let low := ((shOrg0 h + j0) * w - 8 * lo).toNat
    let high := ((shOrg0 h + j1 + 1) * w - 8 * lo).toNat
    let shared := low != 0 || (high % 8 != 0 && !padded)
    let lost ← if shared then awaitRead spots s else waitUntil (inOrder true spots s) >>= fun _ => .ok false
    let old := bytesToNat (readSpots s spots).1
    let body := js.foldr (fun j acc => (code j).toNat % 2 ^ w + 2 ^ w * acc) 0
    let top := if padded then 0 else old / 2 ^ high * 2 ^ high
    let t ← writeSpots (natToBytes n (old % 2 ^ low + body * 2 ^ low + top)) lost spots s
    .ok (cached va n (modM (fun m => forgetLost spots m t.cur) t))
  | _, _ => .ok s

/-- The scales of a row's blocks (R208). -/
def drainScales (dr : Drain) (d : BitVec 64) (h : BitVec 256) (i : Nat) : List Nat → State → Eff State
  | [], s => .ok s
  | b :: rest, s => do
    let bl : Int := blockLen dr.tag
    let va := (wrap64 ((dr.a.toNat : Int) + shDst2 h + (shOrg1 h + i) * shSst1 h + (shOrg0 h / bl + b))).toNat
    let s' ← storeBytes { dir := .write } va [(drainBlock dr d i b s).1] s
    drainScales dr d h i rest s'

/-- The n-th element of the drain: a narrow row and a row's scales are written with its first and last element. -/
def drainAt (dr : Drain) (d : BitVec 64) (h : BitVec 256) (n : Nat) (s : State) : Eff State := do
  let i := n / dCols d
  let j := n % dCols d
  let js := drainCols h i
  let bl := blockLen dr.tag
  let narrow := elemBits dr.tag % 8 != 0
  if j == 0 && !narrow then
    match js.head?, js.getLast? with
    | some j0, some j1 =>
      let eb : Int := (elemBits dr.tag / 8 : Nat)
      needNoStraddle (drainAcc dr) (wrap64 (drainRowBase dr h i + (shOrg0 h + j0) * eb)).toNat ((j1 - j0 + 1) * (elemBits dr.tag / 8)) s
    | _, _ => .ok ()
  let here := if narrow then (if j == 0 then js else []) else js.filter (· == j)
  let codeOf : Nat → Word × Conds := fun k =>
    if bl == 0 then drainCode dr d (i * dCols d + k) s
    else let b := drainBlock dr d i (k / bl) s; (nth b.2.1 (k % bl) 0, b.2.2)
  let s ← if dr.mode == .add then .ok s else raiseStatus 1 (here.foldl (fun c k => c ||| (codeOf k).2) 0) s
  let s ← if narrow then drainNarrow dr h i here (fun k => (codeOf k).1) s
    else match here with
      | k :: _ => drainElement dr h i k (codeOf k).1 s
      | [] => .ok s
  if bl != 0 && j + 1 == dCols d then
    drainScales dr d h i ((upTo (dCols d / bl)).filter fun b => js.contains (b * bl)) s
  else .ok s

/-! ### The KV append (R171) -/

/-- The append record: pairs, angles, position. -/
def kvPairs (h : BitVec 256) : Nat := bits h 143 128
def kvAngles (h : BitVec 256) : Nat := bits h 127 64
def kvPos (h : BitVec 256) : Nat := bits h 63 0

/-- What an append reads before its first row: the table and the angles. -/
def readAppend (dr : Drain) (d : BitVec 64) (h : BitVec 256) (s : State) : Eff (KvTable × List Word32) := do
  need (bits h 255 144 == 0 && kvPairs h ≤ dCols d / 2) .shapeRecord
  let tab ← readTable dr.a.toNat s
  need (!tab.poison) .poisonConsumed
  need (kvDim tab.head == dCols d && (kvPairs h == 0 || kvAngles h % 64 == 0)) .shapeRecord
  if kvPairs h == 0 then .ok (tab, [])
  else do
    let r ← readWord (kvAngles h) (4 * kvPairs h) s
    need (!r.2) .poisonConsumed
    .ok (tab, (upTo (kvPairs h)).map fun k => BitVec.ofNat 32 (r.1 / 2 ^ (32 * k)))

/-- Row i after its rotation, and what that raises. -/
def rotatedRow (d : BitVec 64) (angles : List Word32) (t i : Nat) (s : State) : List Word32 × Conds :=
  let vs := (upTo (dCols d)).map fun j => drainValue d (i * dCols d + j) s
  let tp := r32 (xofInt t)
  let rs := (angles.zip (upTo angles.length)).map fun p =>
    let th := mul32 tp.1 p.1
    let c := r32 (xcos (x32 th.1))
    let n := r32 (xsin (x32 th.1))
    let x := x32 (nth vs (2 * p.2) 0)
    let y := x32 (nth vs (2 * p.2 + 1) 0)
    let u := xadd false (xmul x (x32 c.1)) (xneg (xmul y (x32 n.1)))
    let v := xadd false (xmul x (x32 n.1)) (xmul y (x32 c.1))
    let f := th.2 ||| c.2 ||| n.2 ||| onlyIf (xisNan (x32 th.1) || xisInf (x32 th.1)) flagNV |||
      invalid u [x, y, x32 c.1, x32 n.1] ||| invalid v [x, y, x32 c.1, x32 n.1] ||| (r32 u).2 ||| (r32 v).2
    ([(r32 u).1, (r32 v).1], f)
  (rs.flatMap (·.1) ++ vs.drop (2 * angles.length),
   flagConds (rs.foldl (fun f r => f ||| r.2) (if angles.isEmpty then 0 else tp.2)))

/-- Row i appended as token pos + i; its roundings are the shuttle converter's (R28, R377). -/
def appendAt (dr : Drain) (d : BitVec 64) (h : BitVec 256) (tab : KvTable) (angles : List Word32) (i : Nat) (s : State) : Eff State := do
  let t := kvPos h + i
  let v := rotatedRow d angles t i s
  let r := kvRow v.1 dr.rmode (fun j => srBits dr.word (i * dCols d + j))
  let s ← raiseStatus 2 (v.2 ||| r.2.2) s
  appendRow tab t r.1 r.2.1 s

/-! ### The drain -/

/-- The record's 32 bytes. -/
def drainRecord (dr : Drain) (s : State) : Eff (BitVec 256) := do
  let r ← readWord dr.b.toNat 32 s
  .ok (BitVec.ofNat 256 r.1)

/-- What a drain does before its first write: its record is checked and its region taken. -/
def startDrain (dr : Drain) (d : BitVec 64) (s : State) : Eff State := do
  waitUntil (!heldEntry (drainFoot dr s) .m dr.age s)
  let h ← drainRecord dr s
  let s := wordCached [(dr.b.toNat, 32)] s
  match dr.mode with
  | .kv => do
    let a ← readAppend dr d h s
    let s := wordCached (tableReads a.1 ++ if kvPairs h == 0 then [] else [(kvAngles h, 4 * kvPairs h)]) s
    if dr.taken then .ok s else takeRegion dr d s
  | .st | .add => do
    need (drainRecordOk h d dr.tag) .shapeRecord
    if dr.taken then .ok s else takeRegion dr d s

/-- Every element or row from the drain's progress on. -/
def drainWalk (dr : Drain) (d : BitVec 64) (s : State) : WalkEnd :=
  match drainRecord dr s with
  | .error e => ⟨s, dr.done, some e⟩
  | .ok h => match dr.mode with
    | .kv => (match readAppend dr d h s with
      | .error e => ⟨s, dr.done, some e⟩
      | .ok (tab, angles) => walkElems (fun i t => asCommand .m dr.pos (appendAt dr d h tab angles i) t) (dRows d - dr.done) dr.done s)
    | .st | .add => walkElems (fun n t => asCommand .m dr.pos (drainAt dr d h n) t) (dRows d * dCols d - dr.done) dr.done s

/-- Bytes of a drain's progress (R172). -/
def drainBytes (dr : Drain) (d : BitVec 64) (done : Nat) : Nat :=
  match dr.mode with
  | .kv => done * (dCols d + 4)
  | .st | .add => done * elemBits dr.tag / 8

def currentDrain (s : State) : Option Drain :=
  match s.me.m.mq with
  | .drain d :: _ => some d
  | .nest _ :: _ => none
  | [] => none

/-- The drain at the head of the M queue is performed (R169, R170). -/
def execDrainRegion (s : State) : Host.Outcome State Fault Refusal :=
  match currentDrain s with
  | none => .next s
  | some dr => match (regionOf s.me.m dr.region).desc with
    | none => .next s
    | some d => match asCommand .m dr.pos (startDrain dr d) s with
      | .error e => engineEnd .m dr.pos [drainBytes dr d dr.done] s (some e)
      | .ok t => match currentDrain t with
        | none => .next t
        | some q =>
          let w := drainWalk q d t
          match w.stop with
          | none => .next (modM (fun m => { dropPassed .m dr.pos m with mq := m.mq.drop 1 }) w.state)
          | some e => engineEnd .m q.pos [drainBytes q d w.done] (modDrain (fun q => { q with done := w.done }) w.state) (some e)

end Sys2Proof.Machine
end

