-- ==== Sys2Proof/Machine/NestWalk.lean ====
section
/-! DEFINITION. The matrix engine: the dot-product trees (R34 to R39), the loads of operands (R46, R155 to R157) and
one step of a nest (R154, R158, R172). -/
namespace Sys2Proof.Machine

/-! ### The trees (R34, R36 to R38) -/

/-- Terms of a group. -/
def groupSize : Nat → Nat
  | 1 => 16 | 2 => 32 | 5 => 16 | _ => 8

/-- W (R34). -/
def alignWidth : Nat → Int
  | 1 => 25 | 2 => 16 | 3 => 36 | _ => 44

/-- An operand as the tree takes it: bare elements by stored row, and the scales of its blocks. -/
structure OpBlock where
  tag    : Tag
  rows   : Array (Array XVal)
  scales : Array (Array XVal)

def opElem (b : OpBlock) (i k : Nat) : XVal := (b.rows.getD i #[]).getD k xzero
/-- The scale of element k of a stored row, 1 where the format has none. -/
def opScale (b : OpBlock) (i k : Nat) : XVal :=
  if blockLen b.tag == 0 then xone else (b.scales.getD i #[]).getD (k / blockLen b.tag) xone
def opMant (b : OpBlock) : Int := (elemFmt b.tag).mbits

/-- Magnitude bits of a product aligned to the largest exponent, truncated (R36). -/
def alignedTerm (shift : Int) : XVal → Int
  | .fin neg m e =>
    let k := e + shift
    let v : Nat := if 0 ≤ k then m * 2 ^ k.toNat else m / 2 ^ (-k).toNat
    if neg then -(v : Int) else v
  | .inf _ => 0
  | .nan => 0

def xexp : XVal → Option Int
  | .fin _ m e => if m == 0 then none else some e
  | .inf _ => none
  | .nan => none

/-- The exact aligned sum of products whose elements carry mb mantissa bits together; zero where all are zero. -/
def alignedSum (w mb : Int) (ps : List XVal) : XVal :=
  match (ps.filterMap xexp).max? with
  | none => xzero
  | some top =>
    let e := top + mb
    let t := ps.foldl (fun acc p => acc + alignedTerm (w - 3 - e) p) 0
    .fin (t < 0) t.natAbs (e - w + 3)

/-- S of one group; parts are its sub-groups, each with its products and its scale (R36, R37). -/
def groupSum (w mb : Int) (parts : List (List XVal × XVal)) : XVal :=
  let ps := parts.flatMap (·.1)
  let infs := ps.filter xisInf
  if ps.any xisNan || parts.any (fun p => xisNan p.2) then .nan
  else match infs with
    | x :: rest => if rest.all fun y => y == x then x else .nan
    | [] => parts.foldl (fun acc p => xadd false acc (xmul (alignedSum w mb p.1) p.2)) xzero

/-- An accumulator word after a group, with PFOV for an overflow of its rounding (R36, R39). -/
def accumulate (acc : Word32) (x : XVal) : Word32 × Conds :=
  if xisNan x then (nan32, condNaN)
  else if xisZero x then (acc, 0)
  else
    let r := r32 (xadd false (x32 acc) x)
    (r.1, condIf (r.2.getLsbD 2) condPFOV ||| resultConds fp32 r.1.toNat)

/-- The contraction ranges of the groups, split where a half-group carries its own scale: where either operand has blocks of 16
(R37, R154; log 22, DESIGN CHOICE, where the other one has blocks of 32). -/
def groupRanges (profile sk : Nat) (a b : OpBlock) : List (List (Nat × Nat)) :=
  let k := groupSize profile
  let split := profile == 2 && (blockLen a.tag == 16 || blockLen b.tag == 16)
  (upTo ((sk + k - 1) / k)).map fun g =>
    let lo := g * k
    let hi := min (lo + k) sk
    if split && lo + 16 < hi then [(lo, lo + 16), (lo + 16, hi)] else [(lo, hi)]

/-- Row i of A against column j of B over the whole contraction (R154). -/
def dotWord (profile : Nat) (groups : List (List (Nat × Nat))) (a b : OpBlock) (i j : Nat) (acc : Word32) : Word32 × Conds :=
  if profile == 5 then
    let t := groups.foldl (fun (t : Int) g => g.foldl (fun t r => (upTo (r.2 - r.1)).foldl (fun t k =>
      match xmul (opElem a i (r.1 + k)) (opElem b j (r.1 + k)) with
      | .fin neg m e => t + (if neg then -1 else 1) * ((m * 2 ^ e.toNat : Nat) : Int)
      | _ => t) t) t) 0
    (acc + BitVec.ofInt 32 t, 0)
  else
    groups.foldl (fun (acc : Word32 × Conds) g =>
      let parts := g.map fun r =>
        ((upTo (r.2 - r.1)).map fun k => xmul (opElem a i (r.1 + k)) (opElem b j (r.1 + k)),
         xmul (opScale a i r.1) (opScale b j r.1))
      let n := accumulate acc.1 (groupSum (alignWidth profile) (opMant a + opMant b) parts)
      (n.1, acc.2 ||| n.2)) (acc, 0)

/-! ### Operands (R46, R155 to R157) -/

def bareElems (tag : Tag) (codes : List Word) : Array XVal :=
  (codes.map fun c => if isIntTag tag then xofInt (intValue tag c) else decodeFmt (elemFmt tag) c.toNat).toArray

def bareScales (tag : Tag) (bs : List Byte) : Array XVal := (bs.map (scaleValue tag)).toArray

/-- Stored rows from codes and scale bytes. -/
def opBlock (tag : Tag) (codes : List (List Word)) (scales : List (List Byte)) : OpBlock :=
  ⟨tag, (codes.map (bareElems tag)).toArray, (scales.map (bareScales tag)).toArray⟩

/-- Rows of values that enter a tree only as elements of a format (R46): RNE, blocks requantised along k. -/
def enterRows (tag : Tag) (rows : List (List XVal)) : OpBlock × Conds :=
  if blockLen tag == 0 then
    let rs := rows.map fun r => r.map fun v => intoTag tag .rne 0 v
    (opBlock tag (rs.map fun r => r.map (·.1)) [], rs.foldl (fun f r => r.foldl (fun f x => f ||| x.2) f) 0)
  else
    let rs := rows.map fun r =>
      let fs := r.map r32
      let b := writeBlocks tag .rne 0 (fun _ => true) (fs.map fun x => x32 x.1)
      (b, fs.foldl (fun f x => f ||| flagConds x.2) b.2.2)
    (opBlock tag (rs.map (·.1.1)) (rs.map (·.1.2.1)), rs.foldl (fun f r => f ||| r.2) 0)

/-- One packed 64 × 64 sub-block of an operand (R155). -/
def packedRows (tag : Tag) (base : Int) (ld : Int) (r64 c64 : Nat) (s : State) : Eff (List (List Word)) := do
  let blocks ← (upTo c64).mapM fun (c : Nat) => readBlock tag (wrap64 (base + (r64 : Int) * ld + 8 * c)).toNat s
  .ok ((upTo 64).map fun i => blocks.flatMap fun b => (b.drop (64 * i)).take 64)

/-- An operand given by address, off bytes into its walk. -/
def loadAddr (a : Word) (ld : Int) (tag : Tag) (src : ScaleSrc) (table : Word) (off : Int) (nrows sk : Nat) (s : State) : Eff OpBlock :=
  if inPackPage a.toNat s then do
    need ((tag == .e4m3 || tag == .e2m1) && sk % 64 == 0 && nrows % 64 == 0) .nestConfig
    let rows ← (upTo (nrows / 64)).mapM fun r => packedRows tag (a.toNat + off) ld r (sk / 64) s
    .ok (opBlock tag rows.flatten [])
  else do
    let n := rowBytes tag sk
    let es ← checkRows (tileAcc .read tag) s ((upTo nrows).map fun (i : Nat) =>
      ((wrap64 (a.toNat + off + ld * i)).toNat, [(0, n)]))
    let nb := rowBlocks tag sk
    let ss ← if src == .table && nb != 0 then
        checkRows { dir := .read, noPack := true } s ((upTo nrows).map fun (i : Nat) =>
          ((wrap64 (table.toNat + (off + ld * i) / (blockBytes tag : Int))).toNat, [(0, nb)]))
      else .ok []
    let lost ← awaitRows (es ++ ss) s
    let eb := readRows s n es
    let sb := readRows s nb ss
    need (!lost && !rowsPoison eb && !rowsPoison sb) .poisonConsumed
    .ok (opBlock tag (eb.map fun r => rowCodes tag sk (r.1.take n)) (sb.map fun r => r.1.take nb))

/-- The rows of a tile, its own codes. -/
def tileRowCodes (t : Tile) : List (List Word) := chunks t.cols t.rows t.elems
/-- The columns of a tile. -/
def tileColCodes (t : Tile) : List (List Word) :=
  let a := t.elems.toArray
  (upTo t.cols).map fun j => (upTo t.rows).map fun k => a.getD (k * t.cols + j) 0

def exactMul (a b : Word32) : XVal := xmul (x32 a) (x32 b)
/-- NV of the products of a row (R27). -/
def mulInvalid (a b : Word32) : Conds := flagConds (invalid (exactMul a b) [x32 a, x32 b])

/-- Tile A: raw values are scaled by A.CS and enter as elements of A's format (R46). -/
def loadTileA (t : Tile) (s : State) : Eff (OpBlock × Conds) :=
  if !pendingSlots t.slots then
    .ok (opBlock t.tag (tileRowCodes t) (chunks (rowBlocks t.tag t.cols) t.rows t.side), 0)
  else do
    let x : Slots := { Slots.none with cs := t.slots.cs }
    needClean s [x]
    let v ← evalSlots s.me.m x t.rows t.cols
    let rows := (tileRowCodes t).map fun r => (r.zip (upTo t.cols)).map fun e => (v.cs.getD e.2 one32, e.1.setWidth 32)
    let b := enterRows t.tag (rows.map fun r => r.map fun e => exactMul e.1 e.2)
    .ok (b.1, b.2 ||| flagConds v.flags ||| rows.foldl (fun f r => r.foldl (fun f e => f ||| mulInvalid e.1 e.2) f) 0)

/-- Tile B, by its columns: its rank-one term and B.RS are applied (R46). -/
def loadTileB (t : Tile) (s : State) : Eff (OpBlock × Conds) :=
  if !pendingSlots t.slots then .ok (opBlock t.tag (tileColCodes t) [], 0)
  else do
    let x : Slots := { t.slots with cs := 0, cm := one32 }
    needClean s [x]
    let v ← evalSlots s.me.m x t.rows t.cols
    let cols := (tileColCodes t).zip (upTo t.cols) |>.map fun c => (c.1.zip (upTo t.rows)).map fun e =>
      let r := addRankOne x (v.rp.getD e.2 one32) (v.cq.getD c.2 one32) (e.1.setWidth 32)
      let k := v.rs.getD e.2 one32
      (exactMul k r.1, flagConds r.2 ||| mulInvalid k r.1)
    let b := enterRows t.tag (cols.map fun c => c.map (·.1))
    .ok (b.1, b.2 ||| flagConds v.flags ||| cols.foldl (fun f c => c.foldl (fun f e => f ||| e.2) f) 0)

/-- q′ as a row of A's elements (R46, R159). -/
def loadExtra (t : Tile) (s : State) : Eff (OpBlock × Conds) := do
  let x : Slots := { Slots.none with cs := t.slots.cs, cq := t.slots.cq }
  needClean s [x]
  let v ← evalSlots s.me.m x t.rows t.cols
  let qs := (upTo t.cols).map fun k => mul32 (v.cs.getD k one32) (v.cq.getD k one32)
  let b := enterRows t.tag [qs.map fun q => x32 q.1]
  .ok (b.1, qs.foldl (fun f q => f ||| flagConds q.2) b.2)

def loadOperand (isB : Bool) (op : NestOp) (off : Int) (nrows sk : Nat) (s : State) : Eff (OpBlock × Conds) :=
  match op with
  | .unset => fail .nestConfig
  | .tile t _ => if isB then loadTileB (tileOf s t) s else loadTileA (tileOf s t) s
  | .addr a ld tag src table => do
    let b ← loadAddr a ld.toInt tag src table off nrows sk s
    .ok (b, 0)

/-- What an operand's loads leave in the load pipes' cache (R320). -/
def operandCached (op : NestOp) (off : Int) (nrows sk : Nat) (s : State) : State :=
  match op with
  | .addr a ld tag src table =>
    if inPackPage a.toNat s then
      (upTo (nrows / 64)).foldl (fun t (r : Nat) => (upTo (sk / 64)).foldl (fun t (c : Nat) =>
        blockCached (wrap64 (a.toNat + off + (r : Int) * ld.toInt + 8 * c)).toNat t) t) s
    else
      (upTo nrows).foldl (fun t (i : Nat) =>
        let u := cached (wrap64 (a.toNat + off + ld.toInt * i)).toNat (rowBytes tag sk) t
        if src == .table then
          cached (wrap64 (table.toNat + (off + ld.toInt * i) / (blockBytes tag : Int))).toNat (rowBlocks tag sk) u
        else u) s
  | .unset => s
  | .tile _ _ => s

/-! ### One step (R154, R158) -/

/-- The level indices of the n-th step, l0 first. -/
def stepDigits (n : Nat) : List Word32 → List Nat
  | [] => []
  | c :: rest => n % c.toNat :: stepDigits (n / c.toNat) rest

def walkDigits (w : Walk) : List Nat := stepDigits w.done w.nest.n.toList

def dotDigits (l : List Nat) (s : List Int) : Int := (l.zip s).foldl (fun acc p => acc + (p.1 : Int) * p.2) 0

/-- The words that a step writes. -/
def stepWords (profile : Nat) (groups : List (List (Nat × Nat))) (a b : OpBlock) (d : BitVec 64) (ro co : Nat) (m : Member) :
    List (Nat × Word32 × Conds) :=
  (upTo (dSRows d)).flatMap fun i => (upTo (dSCols d)).map fun j =>
    let spot := regionSpot d (ro + i) (co + j)
    (spot, dotWord profile groups a b i j (storeGet m.acc spot))

/-- The extra row's register after a step (R154, R158). -/
def extraWords (profile : Nat) (groups : List (List (Nat × Nat))) (q b : OpBlock) (d : BitVec 64) (co : Nat) (fresh : Bool)
    (f : FReg) : List (Word32 × Conds) :=
  (upTo 256).map fun n =>
    let old : Word32 := if fresh && n < dCols d then 0 else vat (k := 8) f.vals (BitVec.ofNat 8 n)
    if co ≤ n && n < co + dSCols d then dotWord profile groups q b 0 (n - co) old else (old, 0)

/-- The step a walk is at: every operand is read before any word is written. -/
def performStep (w : Walk) (s : State) : Eff State :=
  let n := w.nest
  let r := regionOf s.me.m n.dest
  match r.desc with
  | none => fail .regionRange
  | some d => do
    let l := walkDigits w
    let p := w.profile.toNat
    let x := nestSlots n w.x s
    needAgrees n x (p == 5) s
    let ro := dotDigits l (n.sc.toList.map rowStep)
    let co := dotDigits l (n.sc.toList.map colStep)
    need (0 ≤ ro && 0 ≤ co && ro + dSRows d ≤ dRows d && co + dSCols d ≤ dCols d) .regionRange
    let (a, fa) ← loadOperand false n.opA (dotDigits l (n.sa.toList.map (·.toInt))) (dSRows d) (dDepth d) s
    let (b, fb) ← loadOperand true n.opB (dotDigits l (n.sb.toList.map (·.toInt))) (dSCols d) (dDepth d) s
    let groups := groupRanges p (dDepth d) a b
    let ws := stepWords p groups a b d ro.toNat co.toNat s.me.m
    let (fs, fq) ← match (if extraRow n s then opTileOf n.opA s else none), w.x with
      | some t, some f => do
        let (q, g) ← loadExtra t s
        let vs := extraWords p groups q b d co.toNat r.fresh (fregOf s.me.m f)
        .ok (some (f, vs.map (·.1)), vs.foldl (fun c v => c ||| v.2) g)
      | _, _ => .ok (none, 0)
    let s := operandCached n.opB (dotDigits l (n.sb.toList.map (·.toInt))) (dSCols d) (dDepth d)
      (operandCached n.opA (dotDigits l (n.sa.toList.map (·.toInt))) (dSRows d) (dDepth d) s)
    let s ← raiseStatus 1 (ws.foldl (fun c v => c ||| v.2.2) (fa ||| fb ||| fq ||| nestSlotConds n s)) s
    let s := modM (fun m => { m with
      acc := ws.foldl (fun q v => storeSet q v.1 v.2.1) m.acc,
      regions := vput (k := 3) m.regions n.dest { r with slots := x, isInt := p == 5, fresh := false } }) s
    .ok (match fs with
      | some (f, vs) => putFreg f (fregWith (fregOf s.me.m f) vs (fregOf s.me.m f).poison) s
      | none => s)

/-- A step counts; the last one frees the engine (R164, R370). -/
def stepDone (w : Walk) (s : State) : State :=
  let w' := { w with done := w.done + 1, finished := nestTotal w.nest ≤ w.done + 1 }
  let left := fun (m : Member) => if w'.finished then { dropPassed .m w.pos m with mq := m.mq.drop 1 } else m
  modM (fun m => { left m with active := some w' }) s

/-- One step of the active nest, at the head of the M queue (R154, R172). -/
def execNestStep (s : State) : Host.Outcome State Fault Refusal :=
  match s.me.m.mq, s.me.m.active with
  | .nest _ :: _, some w =>
    match asCommand .m w.pos (performStep w) s with
    | .ok t => .next (stepDone w t)
    | .error e => engineEnd .m w.pos (walkDigits w) s (some e)
  | _, _ => .next s

end Sys2Proof.Machine
end

