-- ==== Sys2Proof/Machine/Scalar.lean ====
section
/-! DEFINITION. Scalar instructions of the common group (R70, R72, R84 to R89). -/
namespace Sys2Proof.Machine

/-- d := f a b for two source registers; every source is checked before anything is written (R84). -/
def binary (d a b : Reg) (f : Word → Word → Eff Word) (s : State) : Eff State := do
  let x ← rd s a
  let y ← rd s b
  let v ← f x y
  .ok (retire 1 (wr d v s))

/-- d := f a for one source register. -/
def unary (d a : Reg) (f : Word → Word) (s : State) : Eff State := do
  let x ← rd s a
  .ok (retire 1 (wr d (f x) s))

/-! ### The operations of R85 and R86 -/

def aluAdd (a b : Word) : Word := a + b
def aluSub (a b : Word) : Word := a - b
def aluAnd (a b : Word) : Word := a &&& b
def aluOr (a b : Word) : Word := a ||| b
def aluXor (a b : Word) : Word := a ^^^ b
def aluShl (a b : Word) : Word := a <<< (b.toNat % 64)
def aluShr (a b : Word) : Word := a >>> (b.toNat % 64)
def aluSra (a b : Word) : Word := a.sshiftRight (b.toNat % 64)
def aluMul (a b : Word) : Word := a * b
def aluMulh (a b : Word) : Word := wrap64 (a.toInt * b.toInt / 2 ^ 64)
def aluMulhn (a b : Word) : Word := BitVec.ofNat 64 (a.toNat * b.toNat / 2 ^ 64)
def aluMin (a b : Word) : Word := if a.toInt ≤ b.toInt then a else b
def aluMax (a b : Word) : Word := if a.toInt ≤ b.toInt then b else a
def aluMinn (a b : Word) : Word := if a.toNat ≤ b.toNat then a else b
def aluMaxn (a b : Word) : Word := if a.toNat ≤ b.toNat then b else a
def aluSlt (a b : Word) : Word := if a.toInt < b.toInt then 1 else 0
def aluSltn (a b : Word) : Word := if a.toNat < b.toNat then 1 else 0
def aluSeq (a b : Word) : Word := if a = b then 1 else 0

/-- A quotient or remainder: b = 0 faults DIVIDE_BY_ZERO (R86). -/
def unlessZero (f : Word → Word → Word) (a b : Word) : Eff Word := if b = 0 then fail .divideByZero else .ok (f a b)
def aluDiv (a b : Word) : Word := wrap64 (Int.tdiv a.toInt b.toInt)
def aluDivn (a b : Word) : Word := BitVec.ofNat 64 (a.toNat / b.toNat)
def aluRem (a b : Word) : Word := wrap64 (Int.tmod a.toInt b.toInt)
def aluRemn (a b : Word) : Word := BitVec.ofNat 64 (a.toNat % b.toNat)

/-- The ones among the lowest n bits. -/
def countOnes (a : Word) : Nat → Nat
  | 0 => 0
  | n + 1 => countOnes a n + boolNat (a.getLsbD n)
/-- The zeros above the highest one among the lowest n bits. -/
def leadingZeros (a : Word) : Nat → Nat
  | 0 => 0
  | n + 1 => if a.getLsbD n then 0 else 1 + leadingZeros a n
/-- The zeros below the lowest one, from bit 64 − n up. -/
def trailingZeros (a : Word) : Nat → Nat
  | 0 => 0
  | n + 1 => if a.getLsbD (63 - n) then 0 else 1 + trailingZeros a n

def aluPopc (a : Word) : Word := BitVec.ofNat 64 (countOnes a 64)
def aluClz (a : Word) : Word := BitVec.ofNat 64 (leadingZeros a 64)
def aluCtz (a : Word) : Word := BitVec.ofNat 64 (trailingZeros a 64)

/-! ### The instructions -/

/-- `nop` (R72). -/
def execNop (s : State) : Host.Outcome State Fault Refusal := run s (.ok (retire 1 s))
/-- `add` (R85). -/
def execAdd (d a b : Reg) (s : State) : Host.Outcome State Fault Refusal := run s (binary d a b (fun x y => .ok (aluAdd x y)) s)
/-- `sub` (R85). -/
def execSub (d a b : Reg) (s : State) : Host.Outcome State Fault Refusal := run s (binary d a b (fun x y => .ok (aluSub x y)) s)
/-- `and` (R85). -/
def execAnd (d a b : Reg) (s : State) : Host.Outcome State Fault Refusal := run s (binary d a b (fun x y => .ok (aluAnd x y)) s)
/-- `or` (R85). -/
def execOr (d a b : Reg) (s : State) : Host.Outcome State Fault Refusal := run s (binary d a b (fun x y => .ok (aluOr x y)) s)
/-- `xor` (R85). -/
def execXor (d a b : Reg) (s : State) : Host.Outcome State Fault Refusal := run s (binary d a b (fun x y => .ok (aluXor x y)) s)
/-- `shl` (R85). -/
def execShl (d a b : Reg) (s : State) : Host.Outcome State Fault Refusal := run s (binary d a b (fun x y => .ok (aluShl x y)) s)
/-- `shr` (R85). -/
def execShr (d a b : Reg) (s : State) : Host.Outcome State Fault Refusal := run s (binary d a b (fun x y => .ok (aluShr x y)) s)
/-- `sra` (R85). -/
def execSra (d a b : Reg) (s : State) : Host.Outcome State Fault Refusal := run s (binary d a b (fun x y => .ok (aluSra x y)) s)
/-- `mul` (R85). -/
def execMul (d a b : Reg) (s : State) : Host.Outcome State Fault Refusal := run s (binary d a b (fun x y => .ok (aluMul x y)) s)
/-- `mulh` (R85). -/
def execMulh (d a b : Reg) (s : State) : Host.Outcome State Fault Refusal := run s (binary d a b (fun x y => .ok (aluMulh x y)) s)
/-- `mulhn` (R85). -/
def execMulhn (d a b : Reg) (s : State) : Host.Outcome State Fault Refusal := run s (binary d a b (fun x y => .ok (aluMulhn x y)) s)
/-- `min` (R85). -/
def execMin (d a b : Reg) (s : State) : Host.Outcome State Fault Refusal := run s (binary d a b (fun x y => .ok (aluMin x y)) s)
/-- `max` (R85). -/
def execMax (d a b : Reg) (s : State) : Host.Outcome State Fault Refusal := run s (binary d a b (fun x y => .ok (aluMax x y)) s)
/-- `minn` (R85). -/
def execMinn (d a b : Reg) (s : State) : Host.Outcome State Fault Refusal := run s (binary d a b (fun x y => .ok (aluMinn x y)) s)
/-- `maxn` (R85). -/
def execMaxn (d a b : Reg) (s : State) : Host.Outcome State Fault Refusal := run s (binary d a b (fun x y => .ok (aluMaxn x y)) s)
/-- `slt` (R85). -/
def execSlt (d a b : Reg) (s : State) : Host.Outcome State Fault Refusal := run s (binary d a b (fun x y => .ok (aluSlt x y)) s)
/-- `sltn` (R85). -/
def execSltn (d a b : Reg) (s : State) : Host.Outcome State Fault Refusal := run s (binary d a b (fun x y => .ok (aluSltn x y)) s)
/-- `seq` (R85). -/
def execSeq (d a b : Reg) (s : State) : Host.Outcome State Fault Refusal := run s (binary d a b (fun x y => .ok (aluSeq x y)) s)
/-- `div` (R85, R86). -/
def execDiv (d a b : Reg) (s : State) : Host.Outcome State Fault Refusal := run s (binary d a b (unlessZero aluDiv) s)
/-- `divn` (R85, R86). -/
def execDivn (d a b : Reg) (s : State) : Host.Outcome State Fault Refusal := run s (binary d a b (unlessZero aluDivn) s)
/-- `rem` (R85, R86). -/
def execRem (d a b : Reg) (s : State) : Host.Outcome State Fault Refusal := run s (binary d a b (unlessZero aluRem) s)
/-- `remn` (R85, R86). -/
def execRemn (d a b : Reg) (s : State) : Host.Outcome State Fault Refusal := run s (binary d a b (unlessZero aluRemn) s)
/-- `addx` (R85). -/
def execAddx (d a b : Reg) (sh : BitVec 3) (s : State) : Host.Outcome State Fault Refusal :=
  run s (binary d a b (fun x y => .ok (x + y <<< sh.toNat)) s)
/-- `popc` (R85). -/
def execPopc (d a : Reg) (s : State) : Host.Outcome State Fault Refusal := run s (unary d a aluPopc s)
/-- `clz` (R85). -/
def execClz (d a : Reg) (s : State) : Host.Outcome State Fault Refusal := run s (unary d a aluClz s)
/-- `ctz` (R85). -/
def execCtz (d a : Reg) (s : State) : Host.Outcome State Fault Refusal := run s (unary d a aluCtz s)
/-- `addi` (R87). -/
def execAddi (d a : Reg) (imm : BitVec 14) (s : State) : Host.Outcome State Fault Refusal :=
  run s (unary d a (fun x => aluAdd x (imm.signExtend 64)) s)
/-- `andi` (R87). -/
def execAndi (d a : Reg) (imm : BitVec 14) (s : State) : Host.Outcome State Fault Refusal :=
  run s (unary d a (fun x => aluAnd x (imm.signExtend 64)) s)
/-- `ori` (R87). -/
def execOri (d a : Reg) (imm : BitVec 14) (s : State) : Host.Outcome State Fault Refusal :=
  run s (unary d a (fun x => aluOr x (imm.signExtend 64)) s)
/-- `xori` (R87). -/
def execXori (d a : Reg) (imm : BitVec 14) (s : State) : Host.Outcome State Fault Refusal :=
  run s (unary d a (fun x => aluXor x (imm.signExtend 64)) s)
/-- `slti` (R87). -/
def execSlti (d a : Reg) (imm : BitVec 14) (s : State) : Host.Outcome State Fault Refusal :=
  run s (unary d a (fun x => aluSlt x (imm.signExtend 64)) s)
/-- `shli` (R87). -/
def execShli (d a : Reg) (sh : BitVec 6) (s : State) : Host.Outcome State Fault Refusal :=
  run s (unary d a (fun x => aluShl x (sh.setWidth 64)) s)
/-- `shri` (R87). -/
def execShri (d a : Reg) (sh : BitVec 6) (s : State) : Host.Outcome State Fault Refusal :=
  run s (unary d a (fun x => aluShr x (sh.setWidth 64)) s)
/-- `srai` (R87). -/
def execSrai (d a : Reg) (sh : BitVec 6) (s : State) : Host.Outcome State Fault Refusal :=
  run s (unary d a (fun x => aluSra x (sh.setWidth 64)) s)
/-- `li` (R88). -/
def execLi (d : Reg) (imm : BitVec 32) (s : State) : Host.Outcome State Fault Refusal :=
  run s (.ok (retire 2 (wr d (imm.signExtend 64) s)))

/-- `lih` (R88); it reads d. -/
def execLih (d : Reg) (imm : BitVec 32) (s : State) : Host.Outcome State Fault Refusal :=
  run s (do
    let x ← rd s d
    .ok (retire 2 (wr d (BitVec.ofNat 64 (imm.toNat * 2 ^ 32 + x.toNat % 2 ^ 32)) s)))

/-- `bext` (R89); lengths and positions out of range are RESERVED_FIELD. -/
def execBext (d a : Reg) (len : BitVec 7) (pos : BitVec 6) (s : State) : Host.Outcome State Fault Refusal :=
  run s (do
    need (1 ≤ len.toNat && pos.toNat + len.toNat ≤ 64) .reservedField
    let x ← rd s a
    .ok (retire 2 (wr d (BitVec.ofNat 64 (x.toNat / 2 ^ pos.toNat % 2 ^ len.toNat)) s)))

/-- x with the len bits from pos replaced by the low bits of v. -/
def insertBits (x v : Word) (len pos : Nat) : Word :=
  BitVec.ofNat 64 (x.toNat / 2 ^ (pos + len) * 2 ^ (pos + len) + v.toNat % 2 ^ len * 2 ^ pos + x.toNat % 2 ^ pos)

/-- `bins` (R89); it reads d. -/
def execBins (d a : Reg) (len : BitVec 7) (pos : BitVec 6) (s : State) : Host.Outcome State Fault Refusal :=
  run s (do
    need (1 ≤ len.toNat && pos.toNat + len.toNat ≤ 64) .reservedField
    let v ← rd s a
    let x ← rd s d
    .ok (retire 2 (wr d (insertBits x v len.toNat pos.toNat) s)))

/-- A word that names no instruction faults ILLEGAL_OPCODE (R70). -/
def execIllegalOpcode (_word : BitVec 32) (s : State) : Host.Outcome State Fault Refusal := run s (fail .illegalOpcode)

/-- Opcodes 0xE0 to 0xEF fault PRIVILEGED_OPCODE at user privilege (R70). -/
def execPrivilegedOpcode (_word : BitVec 32) (s : State) : Host.Outcome State Fault Refusal := run s (fail .privilegedOpcode)

end Sys2Proof.Machine
end

