-- ==== Sys2Proof/Machine/Service.lean ====
section
/-! DEFINITION. Boot, the records in flash, identity, repair, supply and cooling (R373, R377 to R387). -/
namespace Sys2Proof.Machine

/-! ### The configuration record (R379, R380) -/

/-- The byte of physical core p of a die. -/
def coreByte (config : List Byte) (die p : Nat) : Nat := bytesField config (0x018 + 32 * die + p) 1
def byteSpare (b : Nat) : Bool := b / 128 == 1
def bytePlace (b : Nat) : Nat × Nat := (b / 4 % 8, b % 4)

/-- Two spares, numbered in order, and every position of the six quads once. -/
def dieMapOk (config : List Byte) (die : Nat) : Bool :=
  let bs := (upTo 26).map (coreByte config die)
  (bs.filter byteSpare).map bytePlace == [(6, 0), (6, 1)] &&
  ((upTo 24).all fun n => ((bs.filter fun b => !byteSpare b).filter fun b => bytePlace b == (n / 4, n % 4)).length == 1) &&
  bytesField config (0x018 + 32 * die + 26) 6 == 0

/-- Used ranges lie in CXL space, and no two overlap. -/
def cxlRangesOk (config : List Byte) : Bool :=
  let base := fun n => bytesField config (0x0A0 + 16 * n) 8
  let len := fun n => bytesField config (0x0A8 + 16 * n) 8
  (upTo 16).all fun n => len n == 0 ||
    (2 ^ 39 ≤ base n && base n + len n ≤ 2 ^ 52 && (upTo 16).all fun k => k == n || len k == 0 || !meets (base n) (len n) (base k) (len k))

/-- The signed bytes, the retirement list read as zero (R380). -/
def signedPart (config : List Byte) : List Byte :=
  config.take 0x41A0 ++ List.replicate 4096 0 ++ (config.take 0x53C0).drop 0x51A0

/-- A configuration record is accepted (R380); the key of number 0 signs it. -/
def recordOk (p : Package) : Bool :=
  let c := p.config
  bytesField c 0 4 == 0x43444C47 && bytesField c 4 4 == 1 && bytesField c 8 4 == c.length && c.length % 64 == 0 && 0x5420 ≤ c.length &&
  ((upTo 4).all (dieMapOk c)) && 4 ≤ bytesField c 0x098 1 && bytesField c 0x098 1 ≤ 64 && bytesField c 0x099 3 == 0 && cxlRangesOk c &&
  Config.ecdsaVerifies 0 (Config.sha384 (signedPart c)) ((c.drop 0x53C0).take 96) && p.keyHash == p.bootKeyHash

/-! ### The firmware image (R381; log 4, DESIGN CHOICE: the header's form) -/

def imageVersion (i : List Byte) : Nat := bytesField i 0 4
def imageOk (p : Package) (i : List Byte) : Bool :=
  bytesField i 4 4 == i.length && 104 ≤ i.length && bytesField p.config 0x00C 4 ≤ imageVersion i &&
  Config.ecdsaVerifies 1 (Config.sha384 (i.take 8 ++ i.drop 104)) ((i.drop 8).take 96)

/-! ### Boot (R378) -/

/-- A core as the record places it. -/
def coreOf (config : List Byte) (pkg die p : Nat) : Core :=
  let b := coreByte config die p
  Core.idle pkg die p (bytePlace b).1 (bytePlace b).2 (if byteSpare b then some (bytePlace b).2 else none)

/-- The lowest spare of a die that is free. -/
def spareFor (die : Nat) (cs : List Core) : Option Core :=
  cs.find? fun c => c.die == die && c.spare.isSome && c.quad == 6 && !c.retired
/-- A core goes out of use; the lowest free spare stands in its place (R296, R384). Log 40, DESIGN CHOICE: at once, also where no
member stands there. -/
def retireIn (die phys : Nat) (cs : List Core) : List Core :=
  match cs.find? fun c => c.die == die && c.phys == phys && !c.retired with
  | none => cs
  | some c =>
    let out := cs.map fun x => if x.die == die && x.phys == phys then { x with retired := true } else x
    if c.quad == 6 then out
    else match spareFor die out with
      | none => out
      | some sp => out.map fun x => if sameCore x sp then { x with quad := c.quad, idx := c.idx } else x

/-- The cores of the dies that came up, the listed ones out of use (log 40, DESIGN CHOICE: with spares in their places). -/
def bootCores (p : Package) (dies : List Nat) : List Core :=
  let all := dies.flatMap fun d => (upTo 26).map (coreOf p.config p.pkg d)
  let l := retireList p
  ((dies.flatMap fun d => (upTo 26).map fun n => (d, n)).filter fun x =>
      (upTo 512).any fun n => retireEntry l n == retiredCoreEntry x.1 x.2).foldl (fun cs x => retireIn x.1 x.2 cs) all

/-- The cores of a package replaced. -/
def replaceCores (pkg : Nat) (cs : List Core) (s : State) : State :=
  let others := s.others.filter fun c => c.pkg != pkg
  if s.me.pkg == pkg then
    match cs with
    | c :: rest => { s with me := c, others := rest ++ others }
    | [] => { s with me := Core.idle pkg 0 0 0 0 none, others := others }
  else { s with others := others ++ cs }

/-- A die that comes up; its oscillator is off by up to 20 parts per million (log 13, DESIGN CHOICE). -/
def bootDie (pkg die : Nat) (v : Word) : Die :=
  { Die.off pkg die with on := true, mhz := 3000, mv := 600, drift := (v.toNat / 64 ^ die % 41 : Nat) - 20 }

/-- Stage 4 (R378): the dies that come up, and their cores. Free values say which die fails (log 2, DESIGN CHOICE). -/
def bootDies (p : Package) (dies : List Nat) (v : Word) (s : State) : State :=
  let up := (upTo 4).map fun d => if dies.contains d then bootDie p.pkg d v else Die.off p.pkg d
  let down := (upTo 4).filter fun d => !dies.contains d
  replaceCores p.pkg (bootCores p dies)
    { s with dies := s.dies.filter (fun d => d.pkg != p.pkg) ++ up, hostLog := s.hostLog ++ down.map (HostEvent.dieOff p.pkg) }

/-- Stage 5: the links, of which free values say which stay down (log 2, DESIGN CHOICE). -/
def bootLinks (pkg : Nat) (down : List LinkId) (s : State) : State :=
  down.foldl (fun t l => logMachine .linkDown pkg (setLink l .failed t)) { s with links := s.links.filter fun l => linkPkg l.id != pkg }

def stacksOf (dies : List Nat) : BitVec 8 := dies.foldl (fun (acc : BitVec 8) d => acc ||| BitVec.ofNat 8 (3 * 4 ^ d)) 0

/-- The links that stay down at stages 4 and 5, as bits of two free values say. -/
def downLinks (pkg : Nat) (v w : Word) : List LinkId :=
  (if flag v 5 then [LinkId.host pkg] else []) ++ ((upTo 18).filter fun n => flag v (8 + n)).map (LinkId.weft pkg) ++
    ((upTo 4).filter fun n => flag w (20 + n)).map (LinkId.dlink pkg) ++ ((upTo 4).filter fun n => flag w (24 + n)).map (LinkId.hlink pkg)

/-- The expanders and Ethernet ports that stay down are reported (R378). -/
def reportPorts (p : Package) (s : State) : State :=
  let cxl := (upTo 16).filter fun n => (cxlRange p n).2 != 0 && !p.cxlUp.getLsbD n
  let eth := (upTo 2).filter fun n => !p.ethUp.getLsbD n
  eth.foldl (fun t _ => logMachine .linkDown p.pkg t) (cxl.foldl (fun t _ => logMachine .cxlDown p.pkg t) s)

/-- What a package holds once it serves: its hub runs at 2.0 GHz (R1, R348, R378, R379). Free values say whether it joins a pod
and which of its ports are up (log 2, DESIGN CHOICE); its number in the model is its ID there (log 6, DESIGN CHOICE). -/
def servingPkg (p : Package) (dies : List Nat) (w : Word) : Package :=
  let pod := p.joins || flag w 28
  { p with
    stage := .serving, running := p.image, stackUp := stacksOf dies, cxlUp := w.setWidth 16, mgmtUp := 0xF#4, ethUp := BitVec.ofNat 2 (bits w 17 16),
    corrected := [], limits := (p.config.drop 0x51A0).take 32, certificate := (p.config.drop 0x51C0).take 512, inPod := pod, joins := pod,
    id := if pod then p.pkg % 64 else 0, gmTime := 0, gmBound := if pod then 2 ^ 32 else 0, hubMhz := 2000, directory := [],
    moving := [], leaving := false }

/-- Stages 2 to 6. The rows that the retirement list names are out of use from then on (R378; `rowRetired`). -/
def boot (p : Package) (s : State) : State :=
  if !recordOk p then modPkg p.pkg (fun p => { p with stage := .recovery }) s
  else if !imageOk p p.image then modPkg p.pkg (fun p => { p with stage := .recovery }) s
  else
    let (v, s) := drawFree s
    let (w, s) := drawFree s
    let (g, s) := drawFree s
    let dies := (upTo 4).filter fun d => !flag v d
    let up := servingPkg p dies w
    writeRoutes (reportPorts up (modPkg p.pkg (fun _ => up) (bootLinks p.pkg (downLinks p.pkg v w) (bootDies p dies g s))))

/-- Power is applied to a package, or it reboots (R378). A free value says whether stage 1 fails, and the part then stays in
reset (log 2, DESIGN CHOICE). -/
def powerUp (p : Package) (s : State) : State :=
  let (v, t) := drawFree s
  if flag v 0 then modPkg p.pkg (fun p => { p with stage := .stuck }) t else boot p t

/-- Power is applied (R378). -/
def execPowerOn (pkg : Nat) (s : State) : Host.Outcome State Fault Refusal :=
  .next (match findPkg pkg s with
    | none => s
    | some p => if p.stage != .off then s else powerUp p s)

/-- A package in RECOVERY takes a streamed image: checked, written to flash, and the package reboots (R381). -/
def execRecoveryImage (pkg : Nat) (image : List (BitVec 8)) (s : State) : Host.Outcome State Fault Refusal :=
  .next (match findPkg pkg s with
    | none => s
    | some p =>
      if p.stage == .recovery && imageOk p image then
        let q := { p with image := image }
        powerUp q (modPkg pkg (fun _ => q) s)
      else s)

/-! ### Attestation (R383) -/

def hashBytes (h : BitVec 384) : List Byte := natToBytes 48 h.toNat

def quoteBody (p : Package) (nonce code : BitVec 384) : List Byte :=
  hashBytes nonce ++ hashBytes (Config.sha384 p.running) ++ hashBytes (Config.sha384 (signedPart p.config)) ++
    hashBytes (Config.sha384 (retireList p)) ++ (p.config.drop 0x010).take 8 ++ natToBytes 4 (imageVersion p.running) ++
    natToBytes 4 p.id ++ hashBytes code

/-- Sahfin returns a quote, signed by the identity key of the package in the socket (R382, R383). -/
def execQuoteRequest (pkg : Nat) (nonce : BitVec 384) (launch : Option Nat) (s : State) : Host.Outcome State Fault Refusal :=
  .next (match findPkg pkg s with
    | none => s
    | some p =>
      if p.stage != .serving then s
      else
        let code := match launch.bind fun n => findLaunch n s with | some l => l.codeHash | none => 0
        let body := quoteBody p nonce code
        { s with hostLog := s.hostLog ++ [.quote body (Config.identitySignature p.chip (Config.sha384 body))] })

/-! ### Launches that an event of the machine stops (R377) -/

/-- The launches with a member bound where p holds. -/
def launchesOn (p : Core → Bool) (s : State) : List Nat :=
  (s.launches.filter fun l => (allCores s).any fun c => p c && ofLaunch l.number c).map (·.number)

def stopAll (ns : List Nat) (c : Cause) (s : State) : State := ns.foldl (fun t n => stopLaunch n c t) s

/-- On a die of a package; die 4 stands for the hub die, which every member's die depends on (log 44, DESIGN CHOICE). -/
def onDie (pkg die : Nat) (c : Core) : Bool := c.pkg == pkg && (c.die == die || die == 4)
def onPkg (pkg : Nat) (c : Core) : Bool := c.pkg == pkg

/-- A unit's code (R373, R377). -/
def unitCause (n : Nat) : Cause := if 22 ≤ n then .eccUncorrectable else if n % 2 == 0 then .unitParity (n / 2) else .unitStall (n / 2)

/-- A unit of the core in focus fails: its launch stops (R377). -/
def failUnit (unit : Nat) (s : State) : State :=
  if s.me.cur.state == .active then stopLaunch s.me.cur.launch (unitCause unit) s else s
/-- The same as a step. -/
def execUnitStall (unit : Nat) (s : State) : Host.Outcome State Fault Refusal :=
  .next (failUnit unit s)

/-! ### Repair in service (R384, R385) -/

/-- A launch that has taken the core and not started there returns to the queue. -/
def freeWaiting (c : Core) (s : State) : State :=
  let t := if c.next.state == .empty then s else discardPreload c.next.launch none s
  if c.cur.state == .ready && launchPhase c.cur.launch t == some .waiting then discardPreload c.cur.launch none t else t

/-- A spare of the die is left for a core that is to be retired, beside those that other cores of the die wait for. -/
def spareLeft (p : Package) (die e : Nat) (s : State) : Bool :=
  let here := (allCores s).filter fun c => c.pkg == p.pkg && c.die == die && !c.retired
  (here.filter fun c => c.quad != 6 && retiredCoreEntry die c.phys != e && p.outOfUse.contains (retiredCoreEntry die c.phys)).length <
    (here.filter fun c => c.spare.isSome && c.quad == 6).length

/-- The core goes out of use, a spare in its place. -/
def retireCore (pkg die phys : Nat) (c : Core) (s : State) : State :=
  let t := freeWaiting c s
  let v := match findLaunch c.cur.launch t with
    | some l => updCore (sameCore c) (vacate l.packet) t
    | none => t
  let here := (allCores v).filter (onPkg pkg)
  let now := retireIn die phys here
  let place := fun (x : Core) => match now.find? (sameCore x) with | some y => y | none => x
  { v with me := place v.me, others := v.others.map place }

/-- Sahfin retires a core (R384, R385). The resource stands out first; its launch is pre-empted, or a pre-emption that runs is
waited for, and with no spare left the launch ends with CORE_RETIRED. Once the core is out of use, a later step lists it. -/
def execCoreRetire (pkg die phys : Nat) (s : State) : Host.Outcome State Fault Refusal :=
  .next (match findPkg pkg s, findCore (fun c => c.pkg == pkg && c.die == die && c.phys == phys) s with
    | some p, some c =>
      let e := retiredCoreEntry die phys
      if c.retired then (if p.outOfUse.contains e then modPkg pkg (listNow e) s else s)
      else
        let t := modPkg pkg (standOut e) s
        let n := c.cur.launch
        let phase := if c.cur.state == .empty then none else launchPhase n s
        if phase == some .stopping || phase == some .running then
          if !spareLeft p die e s then retireCore pkg die phys c (endFor n .coreRetired t)
          else if phase == some .running then { t with agenda := .gangPreemption n :: t.agenda }
          else t
        else retireCore pkg die phys c t
    | _, _ => s)

/-! ### The move of pages (R384) -/

/-- The whole range that must move together: the largest page that holds the row. -/
def pagesSpan (ls : List Moving) : Nat × Nat :=
  ls.foldl (fun acc x => let r := movingSpan x; if acc.2 < r.2 then (r.1 % 2 ^ 52, r.2) else acc) (0, 0)

/-- A page's request for invalidation (R322). -/
def moveInval (x : Moving) : BitVec 128 := BitVec.ofNat 128 (field 1 100 + field x.level 98 + field x.ctx 64 + x.va)

/-- The entries of the pages become invalid, and the dies are asked to give them up. -/
def beginMove (pkg : Nat) (xs : List Moving) (s : State) : State :=
  let t := xs.foldl (fun t x => homeWrite (memKey pkg x.entryAddr) (List.replicate 8 0) false t) (modPkg pkg (fun p => { p with moving := xs }) s)
  xs.foldl (fun t x => requestInval pkg (moveInval x) t) t

/-- Bytes of a range moved, over what stood there. -/
def movedBytes (src dst n : Nat) (m : Store 8) : Store 8 :=
  (m.filter fun e => src ≤ e.1 && e.1 < src + n).foldl (fun m e => storeSet m (e.1 - src + dst) e.2) (storeClear m dst n)
/-- And its poison marks. -/
def movedMarks (src dst n : Nat) (ws : List Nat) : List Nat :=
  (ws.filter fun w => !(dst ≤ 32 * w && 32 * w < dst + n)) ++ ((ws.filter fun w => src ≤ 32 * w && 32 * w < src + n).map fun w => w - src / 32 + dst / 32)

/-- The leaf of a page that has moved. -/
def movedLeaf (e : BitVec 64) (toPA : Nat) : BitVec 64 := BitVec.ofNat 64 (e.toNat - leafFrame e + toPA)

/-- The pages are copied, their leaves rewritten and the move noted, by which addresses that other records hold are followed;
accesses go on. -/
def endMove (pkg : Nat) (xs : List Moving) (s : State) : State :=
  let r := pagesSpan xs
  let dest := (xs.headD ⟨pkg, 0, 0, 0, 0, 0, 0, 0, 0⟩).toPA
  let t := { s with mem := movedBytes (memKey pkg r.1) (memKey pkg dest) r.2 s.mem, memPoison := movedMarks (memKey pkg r.1) (memKey pkg dest) r.2 s.memPoison }
  xs.foldl (fun t x => homeWrite (memKey pkg x.entryAddr) (natToBytes 8 (movedLeaf x.entry (leafFrame x.entry - r.1 + dest)).toNat) false t)
    (modPkg pkg (fun p => { p with moving := [], moved := p.moved ++ [(r.1, r.2, dest)] }) t)

/-- The page of a leaf that the request names and no launch maps. -/
def namedLeaf (pkg entryAddr : Nat) (ls : List Moving) (s : State) : List Moving :=
  let e : BitVec 64 := BitVec.ofNat 64 (bytesToNat (storeRead s.mem (memKey pkg entryAddr) 8))
  if leafType e == 2 && leafTier e == 0 && !ls.any (fun x => x.entryAddr == entryAddr) then [⟨pkg, 0, 2 ^ 52, 0, 0, entryAddr, e, 0, 0⟩] else []

/-- The frame that the pages of a row move to: the request's, or for a row that is retired again the first free one. -/
def moveTo (p : Package) (e toPA n : Nat) (s : State) : Nat :=
  if p.again.contains e then ((frameTries p n s).find? fun a => frameFree p n a n s).getD toPA else toPA

/-- Sahfin retires an HBM row (R384, R385): the entries of the pages that lie in it become invalid, and once every die has given
them up the pages are copied, their leaves are rewritten and the row is out of use; a later step lists it. Log 7, DESIGN CHOICE. -/
def execHbmRowRetire (pkg fromPA toPA entryAddr : Nat) (s : State) : Host.Outcome State Fault Refusal :=
  .next (match findPkg pkg s with
    | none => s
    | some p =>
      let row := fromPA / 2 ^ 16 * 2 ^ 16
      let e := retiredRowEntry row
      let known := launchLeaves pkg s
      let ls := known ++ if p.again.contains e then [] else namedLeaf pkg entryAddr known s
      let here := pagesIn row (2 ^ 16) pkg ls
      let span := pagesSpan here
      let dest := moveTo p e toPA span.2 s
      if p.stage != .serving || !inHbm p fromPA 1 then s
      else match p.moving with
        | x :: _ => if moveReady p s then modPkg pkg (standOut (retiredRowEntry x.row)) (endMove pkg p.moving s) else s
        | [] =>
          if p.outOfUse.contains e then modPkg pkg (listNow e) s
          else if here.isEmpty then modPkg pkg (standOut e) s
          else if frameFree p span.2 dest span.2 s then
            beginMove pkg ((pagesIn span.1 span.2 pkg ls).map fun x => { x with toPA := dest, row := row }) s
          else s)

/-- The dies that a die link joins (R377). -/
def linkEnds (n : Nat) : List Nat := match n with | 0 => [0, 1] | 1 => [0, 2] | 2 => [1, 3] | _ => [2, 3]

/-- Sahfin recalibrates a die link: a link that works is up afterwards; with a hub link of either die down there is no
recalibration (R384, R385). -/
def execDlinkRecal (pkg n : Nat) (s : State) : Host.Outcome State Fault Refusal :=
  .next (if (linkEnds n).any fun d => linkOf (.hlink pkg d) s != .up then s
    else match linkOf (.dlink pkg n) s with
      | .replaying _ => setLink (.dlink pkg n) .up s
      | .up => s
      | .retraining => s
      | .failed => s)

/-- HBM timing is recalibrated: its accesses wait, and nothing else (R384). -/
def execHbmRecal (_pkg _stack _channel : Nat) (s : State) : Host.Outcome State Fault Refusal := .next s

/-- A package of the pod is being replaced: it leaves, or its successor has not booted (R385). -/
def replacing (s : State) : Bool := s.pkgs.any (·.leaving)

/-- The package runs an image that passes the check of R381, and holds no other. -/
def updated (image : List Byte) (p : Package) : Package :=
  if p.stage == .serving && imageOk p image then { p with image := image, running := image } else p

/-- Sahfin is updated, one management core at a time, and not while a package of the pod is being replaced (R381, R384, R385);
the image is a free value (log 2, DESIGN CHOICE). -/
def execSahfinUpdate (pkg : Nat) (s : State) : Host.Outcome State Fault Refusal :=
  .next (if replacing s then s else modPkg pkg (updated (Config.updateImage s.fresh)) { s with fresh := s.fresh + 1 })

/-- What belongs to a package without power is gone; its flash stays. A core or row that was out of use and is not listed is in
use at the next boot, and retired again (R385). -/
def unpowered (p : Package) : Package :=
  { p with outOfUse := p.outOfUse.filter (fun e => e / 2 ^ 62 != 1), again := p.again ++ p.outOfUse.filter (fun e => e / 2 ^ 62 == 1), moved := [],
           stage := .off, inPod := false, running := [], stackUp := 0, cxlUp := 0, mgmtUp := 0, ethUp := 0, corrected := [], limits := [],
           certificate := [], gmTime := 0, gmBound := 0, hubMhz := 0, routes := [], directory := [], moving := [], leaving := false }

def ofPkg (pkg : Nat) (l : Launch) : Bool := l.phase != .ended && l.place.any fun p => p.1 == pkg

/-- The package's cores, dies, memory, links and messages after its power is gone, and with them the launches that hold it. -/
def darken (pkg : Nat) (gone : List Nat) (s : State) : State :=
  let t := gone.foldl (fun t n => endLaunch n (discardPreload n none t)) s
  let u := replaceCores pkg [] { t with others := t.others.filter fun c => c.pkg != pkg }
  { u with
    dies := u.dies.map fun d => if d.pkg == pkg then Die.off pkg d.die else d,
    mem := u.mem.filter fun e => e.1 / 2 ^ 52 != pkg,
    memPoison := u.memPoison.filter fun w => 32 * w / 2 ^ 52 != pkg,
    links := u.links.filter fun l => linkPkg l.id != pkg,
    combiners := u.combiners.filter fun c => c.pkg != pkg,
    inFlight := u.inFlight.filter fun m => !gone.contains m.who.launch,
    inval := u.inval.filter fun r => r.pkg != pkg,
    colls := u.colls.filter fun c => c.pkg != pkg,
    podBoards := u.podBoards.filter fun b => b.1.pkg != pkg }

/-- The package that takes another's place, with the identity and the flash it brings (R382; log 7, DESIGN CHOICE). -/
def newPackage (chip : Nat) (p : Package) : Package :=
  { unpowered p with joins := true, leaving := true, chip := chip, config := Config.flashRecord chip, image := Config.flashImage chip, retire2 := [], retire2Hash := 0,
                     outOfUse := [], again := [] }

/-- Sahfin ends a launch with PACKAGE_LEFT or pre-empts it; a free value says which (R384; log 2, DESIGN CHOICE). -/
def leaveLaunch (s : State) (n : Nat) : State :=
  let r := drawFree s
  if flag r.1 0 then endFor n .packageLeft r.2 else { r.2 with agenda := r.2.agenda ++ [.gangPreemption n] }

/-- The images that stood in a package that is gone cannot be read back (R373). -/
def loseImages (pkg : Nat) (s : State) : State :=
  let lose := fun (l : Launch) => if imagePkg l == pkg then { l with saved := l.saved.map fun v => { v with unreadable := true } } else l
  { s with launches := s.launches.map lose }

/-- A package of a pod is replaced (R384, R385): the launches that run on it end or are pre-empted; then its power and its
routes go, and the new package boots. -/
def execPackageReplace (pkg : Nat) (s : State) : Host.Outcome State Fault Refusal :=
  .next (match findPkg pkg s with
    | none => s
    | some p =>
      if !p.inPod then s
      else if runsOn pkg s then
        let ns := (s.launches.filter fun l => l.phase == .running && l.place.any fun q => q.1 == pkg).map (·.number)
        ns.foldl leaveLaunch (modPkg pkg (fun p => { p with leaving := true }) s)
      else
        let ns := (s.launches.filter fun l => l.phase == .waiting && l.place.any fun q => q.1 == pkg).map (·.number)
        let r := drawFree (loseImages pkg (darken pkg [] (discardAll ns none s)))
        let t := writeRoutes (modPkg pkg (newPackage (64 + s.fresh)) r.2)
        { t with agenda := t.agenda ++ [.powerOn pkg] })

/-- Power is lost: all activity of the package ends, and flash keeps what was last written (R385). Log 31, DESIGN CHOICE. -/
def execPowerLoss (pkg : Nat) (s : State) : Host.Outcome State Fault Refusal :=
  .next (writeRoutes (modPkg pkg unpowered (darken pkg ((s.launches.filter (ofPkg pkg)).map (·.number)) s)))

/-! ### Supply, power and cooling (R386, R387) -/

/-- The core supply of a die takes a value; outside 540 to 720 mV its launches stop (R386). -/
def execSupplyStop (pkg die mv : Nat) (s : State) : Host.Outcome State Fault Refusal :=
  .next (let t := modDie pkg die (fun d => { d with mv := mv }) s
    if 540 ≤ mv && mv ≤ 720 then t else stopAll (launchesOn (onDie pkg die) t) .supplyStop t)

/-- A clock below the present one, within 1.2 to 3.2 GHz; a free value says which (log 2, DESIGN CHOICE). -/
def slower (v : Word) (d : Die) : Die := if 1200 < d.mhz then { d with mhz := 1200 + v.toNat % (d.mhz - 1200) } else d
/-- A ceiling below the present one; a free value says which (log 2, DESIGN CHOICE). -/
def lowerCap (v : Word) (d : Die) : Die := if 0 < d.cap then { d with cap := v.toNat % d.cap } else d

/-- A hub clock below the present one; a free value says which (log 2, DESIGN CHOICE). -/
def slowerHub (v : Word) (p : Package) : Package := if 0 < p.hubMhz then { p with hubMhz := v.toNat % p.hubMhz } else p

/-- Above the throttle temperature Sahfin lowers the die's clock and ceiling; the hub die, number 4, has a clock only (R387). -/
def execThermalThrottle (pkg die : Nat) (s : State) : Host.Outcome State Fault Refusal :=
  .next (let (v, t) := drawFree s
    let (w, u) := drawFree t
    if die == 4 then modPkg pkg (slowerHub v) u else modDie pkg die (fun d => lowerCap w (slower v d)) u)

/-- At the stop temperature the die's launches stop (R387). -/
def execThermalStop (pkg die : Nat) (s : State) : Host.Outcome State Fault Refusal :=
  .next (stopAll (launchesOn (onDie pkg die) s) .thermalStop s)

/-- The package's power reaches its limit: the ceilings are lowered first, and once they are 0 the clocks (R386). -/
def execPackagePowerCap (pkg : Nat) (s : State) : Host.Outcome State Fault Refusal :=
  .next (let (v, t) := drawFree s
    let caps := t.dies.any fun d => d.pkg == pkg && 0 < d.cap
    { t with dies := t.dies.map fun d => if d.pkg != pkg then d else if caps then lowerCap v d else slower v d })

/-! ### Other events of the machine (R373, R377) -/

/-- A die's clock fails. -/
def execClockLoss (pkg die : Nat) (s : State) : Host.Outcome State Fault Refusal :=
  .next (stopAll (launchesOn (onDie pkg die) s) .clockLoss s)

/-- The launches whose records a failed management core held; a free value says which (log 2, DESIGN CHOICE). -/
def heldRecords (ns : List Nat) (s : State) : List Nat × State :=
  ns.foldl (fun acc n => let (v, t) := drawFree acc.2; (if flag v 0 then acc.1 ++ [n] else acc.1, t)) ([], s)

/-- A management core fails; launches whose records it held stop. Log 31, DESIGN CHOICE. -/
def execMgmtFailover (pkg core : Nat) (s : State) : Host.Outcome State Fault Refusal :=
  .next (if !((findPkg pkg s).any fun p => p.mgmtUp.getLsbD core) then s
    else
      let t := modPkg pkg (fun p => { p with mgmtUp := setBit p.mgmtUp core false }) s
      let r := heldRecords (launchesOn (onPkg pkg) t) t
      stopAll r.1 .mgmtFailover r.2)

/-- The host link is reset. -/
def execHostReset (pkg : Nat) (s : State) : Host.Outcome State Fault Refusal :=
  .next (stopAll (launchesOn (onPkg pkg) s) .hostReset s)

/-- An expander stops answering. -/
def execCxlDown (pkg expander : Nat) (s : State) : Host.Outcome State Fault Refusal :=
  .next (logMachine .cxlDown pkg (modPkg pkg (fun p => { p with cxlUp := setBit p.cxlUp expander false }) s))

/-- Some page of a launch lies in a stack. -/
def reachesStack (pkg stack : Nat) (l : Launch) (s : State) : Bool :=
  (leavesUnder pkg 0 0 s 3 (packetRoot l.packet) 0).any fun x => let r := movingSpan x; meets r.1 r.2 (memKey pkg (stack * 2 ^ 36)) (2 ^ 36)

/-- An HBM stack fails, and every launch with a page there stops. Log 31, DESIGN CHOICE. -/
def execStackFail (pkg stack : Nat) (s : State) : Host.Outcome State Fault Refusal :=
  .next (
    let hit := (s.launches.filter fun l => (l.place.any fun p => p.1 == pkg) && reachesStack pkg stack l s).map (·.number)
    stopAll hit (.stack (BitVec.ofNat 3 stack)) (modPkg pkg (fun p => { p with stackUp := setBit p.stackUp stack false }) s))

/-! ### Soft errors (R371, R373) -/

/-- The number under which corrected errors of a place are counted (log 44, DESIGN CHOICE). -/
def scrubUnit : ScrubPlace → Nat
  | .memory w => 32 * w / 2 ^ 36
  | .spad d p _ => 64 + 32 * d + p
  | .imem d p _ => 192 + 32 * d + p
  | .code d _ => 320 + d
  | .leaf d _ _ => 324 + d
  | .unit u => 328 + u

/-- A corrected error is counted for its unit. -/
def countCorrected (u : Nat) (p : Package) : Package :=
  match p.corrected.find? fun e => e.1 == u with
  | some e => { p with corrected := (u, e.2 + 1) :: p.corrected.filter fun x => x.1 != u }
  | none => { p with corrected := (u, 1) :: p.corrected }

/-- The section of a saved launch that holds a word of HBM cannot be read back. -/
def spoilImage (pkg addr : Nat) (l : Launch) : Launch :=
  if imagePkg l == pkg && l.image != 0 then
    { l with saved := l.saved.map fun v => if within addr 32 (sectionAddress l v.member) (sectionLength l.packet + 31) then { v with unreadable := true } else v }
  else l

def atPhys (pkg die phys : Nat) (c : Core) : Bool := c.pkg == pkg && c.die == die && c.phys == phys
def addMark (n : Nat) (l : List Nat) : List Nat := if l.contains n then l else l ++ [n]

/-- An uncorrectable error: the word or line is marked, a cached leaf is dropped and walked again, and a unit's launch stops. -/
def spoil (pkg : Nat) (s : State) : ScrubPlace → State
  | .memory w => { s with memPoison := setMarks s.memPoison (memKey pkg (32 * w)) 32 true, launches := s.launches.map (spoilImage pkg (32 * w)) }
  | .spad d p w => updCore (atPhys pkg d p) (fun c => { c with spadPoison := addMark w c.spadPoison }) s
  | .imem d p n => updCore (atPhys pkg d p) (fun c => { c with imemPoison := addMark n c.imemPoison }) s
  | .code d n => modDie pkg d (fun x => { x with codePoison := addMark n x.codePoison }) s
  | .leaf d c va => dropLeaves pkg d (fun l => l.ctx == c && l.va ≤ va && va < l.va + pageSize l.level) s
  | .unit u => failUnit u s

/-- A soft error is found: a corrected one is counted (R373). -/
def execBackgroundScrub (pkg : Nat) (place : ScrubPlace) (uncorrectable : Bool) (s : State) : Host.Outcome State Fault Refusal :=
  .next (if uncorrectable then spoil pkg s place else modPkg pkg (countCorrected (scrubUnit place)) s)

end Sys2Proof.Machine
end

