-- ==== Sys2Proof/Machine/Time.lean ====
section
/-! DEFINITION. Reed time (R198, R199, R278 to R281) and the ramp limiter (R174, R304, R305). -/
namespace Sys2Proof.Machine

/-- `tread` (R198): d first, then the fraction and the bound in b. -/
def execTread (d b : Reg) (s : State) : Host.Outcome State Fault Refusal :=
  run s (.ok (retire 1 (wr b (BitVec.ofNat 64 (field (boundPs s % 2 ^ 32) 32 + counter s % 65536))
    (wr d (BitVec.ofNat 64 (timeNs s)) s))))

/-- `twait` (R199, R281). -/
def execTwait (a : Reg) (s : State) : Host.Outcome State Fault Refusal :=
  run s (do
    let x ← rd s a
    need (timeLocked s) .timeUnlocked
    waitUntil (x.toNat ≤ timeNs s)
    .ok (retire 1 s))

/-- The counter reaches the deadline of the `twait` that S waits in (R281). -/
def execTwaitExpiry (s : State) : Host.Outcome State Fault Refusal :=
  .next (match twaitAt s with
    | none => s
    | some a =>
      let t := { s with cur := .s }
      if !ready s.me .s || timeNs s < a.toNat then s
      else if timeLocked s then retire 1 t
      else takeFault .s (ctx t).pc 0 { cause := .timeUnlocked } t)

/-- k with each core that satisfies p in focus in turn. -/
def eachCore (p : Core → Bool) (k : State → State) (s : State) : State :=
  (allCores s).foldl (fun t c => if p c then atCore (sameCore c) k t else t) s

/-! ### The servo (R278 to R280) -/

/-- A correction: forward as a step, backward by slowing (R280). -/
def steer (time : Nat) (d : Die) : Die :=
  if d.count ≤ time then { d with count := time, slew := 0 } else { d with slew := d.count - time }

/-- The LOCKED limit in ps (R279). -/
def lockLimit (inPod : Bool) : Nat := if inPod then 40000 else 3000

/-- A time in 2^-16 ns as ps, rounded up. -/
def toPs (t : Nat) : Nat := (t * 1000 + 65535) / 65536
/-- How far two times lie apart. -/
def apart (a b : Nat) : Nat := (a - b) + (b - a)

/-- The servo's worst-case estimate after a sync that reported a time: no less than the error of what it reported and what the
grandmaster and the links add (R279). Log 13, DESIGN CHOICE. -/
def syncEstimate (p : Package) (time bound : Nat) : Nat := max bound (syncBound p + toPs (apart time p.gmTime))

/-- The servo steers a die's offset and its rate to the grandmaster (R278; log 13, DESIGN CHOICE: the rate at once). -/
def servo (time : Nat) (d : Die) : Die := let d' := steer time d; { d' with trim := -d.drift, syncAt := d'.count }

/-- A sync is accepted, and the die steered and LOCKED, where the estimate with the offset still to be absorbed is within the limit,
and the die within 1,400 ps of the grandmaster, so that any two locked dies differ by less than 3,000 ps (R279, R280). One that
is not accepted steers a die that is UNLOCKED only. -/
def synced (p : Package) (time bound : Nat) (d : Die) : Die :=
  if !d.on then d
  else
    let d' := servo time d
    let e := syncEstimate p time bound
    if e + toPs d'.slew ≤ lockLimit p.inPod && toPs (apart d'.count p.gmTime) ≤ 1400 then { d' with time := .locked, bound := e, lastSync := d'.count }
    else if d.time == .unlocked then d'
    else { d with syncAt := d.count }

def podMember (pkg : Nat) (s : State) : Bool := (findPkg pkg s).any fun p => p.inPod

/-- A sync message of the grandmaster reaches a die over links that carry it (R278, R279); the time that it reports and the
servo's own estimate come with the step (log 13, DESIGN CHOICE). -/
def execReedSync (pkg die time bound : Nat) (s : State) : Host.Outcome State Fault Refusal :=
  .next (match findPkg pkg s with
    | none => s
    | some p =>
      let r := hubRoute pkg die s
      if routeUp r s && !routeDead r s then modDie pkg die (synced p time bound) s else s)

/-- No sync was accepted for 4 µs (R279). -/
def execHoldoverEntry (pkg die : Nat) (s : State) : Host.Outcome State Fault Refusal :=
  .next (modDie pkg die (fun d =>
    if d.time == .locked && 65536 * 4000 ≤ d.count - d.lastSync then { d with time := .holdover } else d) s)

/-- S waits in a `twait` of the core in focus. -/
def unlockWaiter (s : State) : State :=
  let t := { s with cur := .s }
  if (twaitAt s).isSome && ready s.me .s then { takeFault .s (ctx t).pc 0 { cause := .timeUnlocked } t with cur := s.cur } else s

/-- The holdover bound would pass 1,000,000 ps: the time is UNLOCKED, and every waiting `twait` of the die faults
(R199, R279, R281). -/
def execTimeUnlock (pkg die : Nat) (s : State) : Host.Outcome State Fault Refusal :=
  .next (match findDie pkg die s with
    | none => s
    | some d =>
      if d.time == .holdover && 1000000 < dieBound d then
        eachCore (fun c => c.pkg == pkg && c.die == die && c.cur.state == .active) unlockWaiter
          (modDie pkg die (fun d => { d with time := .unlocked }) s)
      else s)

/-- IEEE 1588 disciplines the grandmaster of a package in a pod, over an Ethernet port that is up: it takes the time reported, with a
bound no less than its error to pod time (R278, R279). -/
def execIeee1588Sync (pkg time bound : Nat) (s : State) : Host.Outcome State Fault Refusal :=
  .next (modPkg pkg (fun p => if p.inPod && p.ethUp != 0 then { p with gmTime := time, gmBound := max bound (toPs (apart time s.podTime)) } else p) s)

/-- Thrumub sets the epoch of a package outside any pod: the grandmaster's time, to which the dies are steered (R278, R280). -/
def execPackageTimeEpoch (pkg time : Nat) (s : State) : Host.Outcome State Fault Refusal :=
  .next (if podMember pkg s then s
    else modPkg pkg (fun p => { p with gmTime := time })
      { s with dies := s.dies.map fun d => if d.pkg == pkg && d.on then steer time d else d })

/-! ### The ramp limiter (R304, R305) -/

def rampClass (l : Launch) : Nat := bits (control l.packet) 8 7
def classFloor (c : Nat) : Nat := if c == 2 then 2 else 0
def classCeiling (c : Nat) : Nat := match c with | 1 => 6 | 3 => 4 | _ => 8

/-- The launches with an ACTIVE member on a die. -/
def activeOn (pkg die : Nat) (s : State) : List Launch :=
  s.launches.filter fun l => (allCores s).any fun c =>
    c.pkg == pkg && c.die == die && c.cur.state == .active && c.cur.launch == l.number

def rampCeiling (d : Die) (s : State) : Nat := (activeOn d.pkg d.die s).foldl (fun n l => min n (classCeiling (rampClass l))) d.cap
def rampFloor (d : Die) (s : State) : Nat :=
  min (rampCeiling d s) ((activeOn d.pkg d.die s).foldl (fun n l => max n (classFloor (rampClass l))) 0)

/-- Some matrix engine of a die has a step waiting. -/
def stepWaiting (pkg die : Nat) (s : State) : Bool :=
  (allCores s).any fun c => c.pkg == pkg && c.die == die && c.cur.state == .active && c.m.mq.any fun e =>
    match e with | .nest _ => true | .drain _ => false

/-- L moves by at most 1 (R305). -/
def rampNext (l floor ceiling : Nat) (wants : Bool) : Nat :=
  if ceiling < l then l - 1
  else if wants then (if l < ceiling then l + 1 else l)
  else if floor < l then l - 1
  else if l < floor then l + 1
  else l

/-- The 0.5 µs boundary of a die (R305). -/
def execRampLimitUpdate (pkg die : Nat) (s : State) : Host.Outcome State Fault Refusal :=
  .next (modDie pkg die (fun d =>
    { d with ramp := rampNext d.ramp (rampFloor d s) (rampCeiling d s) (stepWaiting pkg die s),
             rampAt := d.count / 32768000 * 32768000 }) s)

end Sys2Proof.Machine
end

