-- ==== Sys2Proof/Machine/Dispatch.lean ====
section
/-! DEFINITION. Which meaning each instruction has. -/
namespace Sys2Proof.Machine

def exec (i : Instr) (s : State) : Host.Outcome State Fault Refusal :=
  match i with
  | .nop => Sys2Proof.Machine.execNop s
  | .add d a b => Sys2Proof.Machine.execAdd d a b s
  | .sub d a b => Sys2Proof.Machine.execSub d a b s
  | .and d a b => Sys2Proof.Machine.execAnd d a b s
  | .or d a b => Sys2Proof.Machine.execOr d a b s
  | .xor d a b => Sys2Proof.Machine.execXor d a b s
  | .shl d a b => Sys2Proof.Machine.execShl d a b s
  | .shr d a b => Sys2Proof.Machine.execShr d a b s
  | .sra d a b => Sys2Proof.Machine.execSra d a b s
  | .mul d a b => Sys2Proof.Machine.execMul d a b s
  | .mulh d a b => Sys2Proof.Machine.execMulh d a b s
  | .mulhn d a b => Sys2Proof.Machine.execMulhn d a b s
  | .div d a b => Sys2Proof.Machine.execDiv d a b s
  | .divn d a b => Sys2Proof.Machine.execDivn d a b s
  | .rem d a b => Sys2Proof.Machine.execRem d a b s
  | .remn d a b => Sys2Proof.Machine.execRemn d a b s
  | .min d a b => Sys2Proof.Machine.execMin d a b s
  | .max d a b => Sys2Proof.Machine.execMax d a b s
  | .minn d a b => Sys2Proof.Machine.execMinn d a b s
  | .maxn d a b => Sys2Proof.Machine.execMaxn d a b s
  | .slt d a b => Sys2Proof.Machine.execSlt d a b s
  | .sltn d a b => Sys2Proof.Machine.execSltn d a b s
  | .seq d a b => Sys2Proof.Machine.execSeq d a b s
  | .addx d a b sh => Sys2Proof.Machine.execAddx d a b sh s
  | .popc d a => Sys2Proof.Machine.execPopc d a s
  | .clz d a => Sys2Proof.Machine.execClz d a s
  | .ctz d a => Sys2Proof.Machine.execCtz d a s
  | .addi d a imm => Sys2Proof.Machine.execAddi d a imm s
  | .andi d a imm => Sys2Proof.Machine.execAndi d a imm s
  | .ori d a imm => Sys2Proof.Machine.execOri d a imm s
  | .xori d a imm => Sys2Proof.Machine.execXori d a imm s
  | .slti d a imm => Sys2Proof.Machine.execSlti d a imm s
  | .shli d a sh => Sys2Proof.Machine.execShli d a sh s
  | .shri d a sh => Sys2Proof.Machine.execShri d a sh s
  | .srai d a sh => Sys2Proof.Machine.execSrai d a sh s
  | .li d imm => Sys2Proof.Machine.execLi d imm s
  | .lih d imm => Sys2Proof.Machine.execLih d imm s
  | .bext d a len pos => Sys2Proof.Machine.execBext d a len pos s
  | .bins d a len pos => Sys2Proof.Machine.execBins d a len pos s
  | .b target => Sys2Proof.Machine.execB target s
  | .jal target => Sys2Proof.Machine.execJal target s
  | .jr a => Sys2Proof.Machine.execJr a s
  | .bc cond a b target => Sys2Proof.Machine.execBc cond a b target s
  | .bci cond a imm target => Sys2Proof.Machine.execBci cond a imm target s
  | .loop a last => Sys2Proof.Machine.execLoop a last s
  | .ldb d a off => Sys2Proof.Machine.execLdb d a off s
  | .ldh d a off => Sys2Proof.Machine.execLdh d a off s
  | .ldw d a off => Sys2Proof.Machine.execLdw d a off s
  | .ldd d a off => Sys2Proof.Machine.execLdd d a off s
  | .ldbn d a off => Sys2Proof.Machine.execLdbn d a off s
  | .ldhn d a off => Sys2Proof.Machine.execLdhn d a off s
  | .ldwn d a off => Sys2Proof.Machine.execLdwn d a off s
  | .stb d a off => Sys2Proof.Machine.execStb d a off s
  | .sth d a off => Sys2Proof.Machine.execSth d a off s
  | .stw d a off => Sys2Proof.Machine.execStw d a off s
  | .std d a off => Sys2Proof.Machine.execStd d a off s
  | .csrr d n => Sys2Proof.Machine.execCsrr d n s
  | .csrw a n => Sys2Proof.Machine.execCsrw a n s
  | .csrx d a n => Sys2Proof.Machine.execCsrx d a n s
  | .srseedWrite a => Sys2Proof.Machine.execSrseedWrite a s
  | .retmodeWrite a => Sys2Proof.Machine.execRetmodeWrite a s
  | .trap code => Sys2Proof.Machine.execTrap code s
  | .fork stream a b target => Sys2Proof.Machine.execFork stream a b target s
  | .join m v c => Sys2Proof.Machine.execJoin m v c s
  | .exit => Sys2Proof.Machine.execExit s
  | .catchEv cls handler => Sys2Proof.Machine.execCatchEv cls handler s
  | .evret => Sys2Proof.Machine.execEvret s
  | .evmask d mask => Sys2Proof.Machine.execEvmask d mask s
  | .yield => Sys2Proof.Machine.execYield s
  | .qfence queues => Sys2Proof.Machine.execQfence queues s
  | .fence kind scope => Sys2Proof.Machine.execFence kind scope s
  | .rclaim d k => Sys2Proof.Machine.execRclaim d k s
  | .rfill d k => Sys2Proof.Machine.execRfill d k s
  | .rwait d k => Sys2Proof.Machine.execRwait d k s
  | .rfree d k => Sys2Proof.Machine.execRfree d k s
  | .rset a b k => Sys2Proof.Machine.execRset a b k s
  | .rstat d k => Sys2Proof.Machine.execRstat d k s
  | .hgive a target => Sys2Proof.Machine.execHgive a target s
  | .htake d => Sys2Proof.Machine.execHtake d s
  | .bar scope => Sys2Proof.Machine.execBar scope s
  | .bara d scope => Sys2Proof.Machine.execBara d scope s
  | .bart d a scope => Sys2Proof.Machine.execBart d a scope s
  | .aop d a b op order scope w => Sys2Proof.Machine.execAop d a b op order scope w s
  | .acas d a b cmp order scope w => Sys2Proof.Machine.execAcas d a b cmp order scope w s
  | .apop d => Sys2Proof.Machine.execApop d s
  | .bpost d a b board vm => Sys2Proof.Machine.execBpost d a b board vm s
  | .blook d board vm => Sys2Proof.Machine.execBlook d board vm s
  | .bread d b board vm => Sys2Proof.Machine.execBread d b board vm s
  | .bround d board => Sys2Proof.Machine.execBround d board s
  | .tread d b => Sys2Proof.Machine.execTread d b s
  | .twait a => Sys2Proof.Machine.execTwait a s
  | .bopen d a b index kind => Sys2Proof.Machine.execBopen d a b index kind s
  | .bcontFreg a p f => Sys2Proof.Machine.execBcontFreg a p f s
  | .bcontMem a b p => Sys2Proof.Machine.execBcontMem a b p s
  | .bwait d a => Sys2Proof.Machine.execBwait d a s
  | .bfree a => Sys2Proof.Machine.execBfree a s
  | .vshape td rows cols tag => Sys2Proof.Machine.execVshape td rows cols tag s
  | .vld td ta tb pm side tag rows cols => Sys2Proof.Machine.execVld td ta tb pm side tag rows cols s
  | .vst td ta tb p side => Sys2Proof.Machine.execVst td ta tb p side s
  | .vzeroKeep td pm => Sys2Proof.Machine.execVzeroKeep td pm s
  | .vzeroEmpty td => Sys2Proof.Machine.execVzeroEmpty td s
  | .vmov td ta pm => Sys2Proof.Machine.execVmov td ta pm s
  | .vadd td ta tb pm mode any => Sys2Proof.Machine.execVadd td ta tb pm mode any s
  | .vsub td ta tb pm mode any => Sys2Proof.Machine.execVsub td ta tb pm mode any s
  | .vmul td ta tb pm mode any => Sys2Proof.Machine.execVmul td ta tb pm mode any s
  | .vfma td ta tb pm mode any => Sys2Proof.Machine.execVfma td ta tb pm mode any s
  | .vmax td ta tb pm mode any => Sys2Proof.Machine.execVmax td ta tb pm mode any s
  | .vmin td ta tb pm mode any => Sys2Proof.Machine.execVmin td ta tb pm mode any s
  | .vabs td ta pm mode => Sys2Proof.Machine.execVabs td ta pm mode s
  | .vneg td ta pm mode => Sys2Proof.Machine.execVneg td ta pm mode s
  | .vadds td ta tb pm mode => Sys2Proof.Machine.execVadds td ta tb pm mode s
  | .vmuls td ta tb pm mode => Sys2Proof.Machine.execVmuls td ta tb pm mode s
  | .vbcr td f pm mode => Sys2Proof.Machine.execVbcr td f pm mode s
  | .vbcc td f pm mode => Sys2Proof.Machine.execVbcc td f pm mode s
  | .vcvt td ta tag pm mode => Sys2Proof.Machine.execVcvt td ta tag pm mode s
  | .vexp2 td ta pm mode => Sys2Proof.Machine.execVexp2 td ta pm mode s
  | .vlog2 td ta pm mode => Sys2Proof.Machine.execVlog2 td ta pm mode s
  | .vrcp td ta pm mode => Sys2Proof.Machine.execVrcp td ta pm mode s
  | .vrsq td ta pm mode => Sys2Proof.Machine.execVrsq td ta pm mode s
  | .vsig td ta pm mode => Sys2Proof.Machine.execVsig td ta pm mode s
  | .vtanh td ta pm mode => Sys2Proof.Machine.execVtanh td ta pm mode s
  | .vcmp pd ta tb pm cmp any => Sys2Proof.Machine.execVcmp pd ta tb pm cmp any s
  | .vsel td ta tb p any => Sys2Proof.Machine.execVsel td ta tb p any s
  | .vpset pd pa pb tt => Sys2Proof.Machine.execVpset pd pa pb tt s
  | .vrsum ta p dest => Sys2Proof.Machine.execVrsum ta p dest s
  | .vrmax ta p dest => Sys2Proof.Machine.execVrmax ta p dest s
  | .vrmaxi ta p dest => Sys2Proof.Machine.execVrmaxi ta p dest s
  | .vcsum ta p dest => Sys2Proof.Machine.execVcsum ta p dest s
  | .vcmax ta p dest => Sys2Proof.Machine.execVcmax ta p dest s
  | .vctopk pd ta tb pm => Sys2Proof.Machine.execVctopk pd ta tb pm s
  | .vtrans td ta pm => Sys2Proof.Machine.execVtrans td ta pm s
  | .vacc td a pm => Sys2Proof.Machine.execVacc td a pm s
  | .vtoacc a ta p => Sys2Proof.Machine.execVtoacc a ta p s
  | .vsetrs td tb desc => Sys2Proof.Machine.execVsetrs td tb desc s
  | .vsetcs td tb desc => Sys2Proof.Machine.execVsetcs td tb desc s
  | .vsetrk td ta tb => Sys2Proof.Machine.execVsetrk td ta tb s
  | .vresolve td mode => Sys2Proof.Machine.execVresolve td mode s
  | .vgetslot d ta sel => Sys2Proof.Machine.execVgetslot d ta sel s
  | .vputslot td a sel => Sys2Proof.Machine.execVputslot td a sel s
  | .vstrict td clr => Sys2Proof.Machine.execVstrict td clr s
  | .vfld f a => Sys2Proof.Machine.execVfld f a s
  | .vfst f a => Sys2Proof.Machine.execVfst f a s
  | .vfop fd fa fb op => Sys2Proof.Machine.execVfop fd fa fb op s
  | .vscl td ta f pm mode cols => Sys2Proof.Machine.execVscl td ta f pm mode cols s
  | .vrope td ta f pm mode => Sys2Proof.Machine.execVrope td ta f pm mode s
  | .vgather td ta tb pm => Sys2Proof.Machine.execVgather td ta tb pm s
  | .vscat td ta tb p => Sys2Proof.Machine.execVscat td ta tb p s
  | .vstat d ta => Sys2Proof.Machine.execVstat d ta s
  | .vsmerge td ta tb => Sys2Proof.Machine.execVsmerge td ta tb s
  | .mloadn a => Sys2Proof.Machine.execMloadn a s
  | .mnest a level => Sys2Proof.Machine.execMnest a level s
  | .mstep d a b level => Sys2Proof.Machine.execMstep d a b level s
  | .mopnd isB op => Sys2Proof.Machine.execMopnd isB op s
  | .mregion a r => Sys2Proof.Machine.execMregion a r s
  | .mscale a => Sys2Proof.Machine.execMscale a s
  | .mgo extra => Sys2Proof.Machine.execMgo extra s
  | .mwait => Sys2Proof.Machine.execMwait s
  | .mzero r => Sys2Proof.Machine.execMzero r s
  | .mdrain a b r tag rmode mode => Sys2Proof.Machine.execMdrain a b r tag rmode mode s
  | .mprog n => Sys2Proof.Machine.execMprog n s
  | .mstat d => Sys2Proof.Machine.execMstat d s
  | .mslot a r sel => Sys2Proof.Machine.execMslot a r sel s
  | .rampLimitUpdate pkg die => Sys2Proof.Machine.execRampLimitUpdate pkg die s
  | .cshape a entry => Sys2Proof.Machine.execCshape a entry s
  | .ccopy a b comp => Sys2Proof.Machine.execCcopy a b comp s
  | .cpush a b comp => Sys2Proof.Machine.execCpush a b comp s
  | .cpull a b comp => Sys2Proof.Machine.execCpull a b comp s
  | .cmcast a b comp => Sys2Proof.Machine.execCmcast a b comp s
  | .cpage a b comp => Sys2Proof.Machine.execCpage a b comp s
  | .cred a b op comp => Sys2Proof.Machine.execCred a b op comp s
  | .ccode d a b comp => Sys2Proof.Machine.execCcode d a b comp s
  | .cattn d a b comp => Sys2Proof.Machine.execCattn d a b comp s
  | .cwait => Sys2Proof.Machine.execCwait s
  | .cstat d => Sys2Proof.Machine.execCstat d s
  | .drupeletPageState index => Sys2Proof.Machine.execDrupeletPageState index s
  | .combinerForward pkg die quad => Sys2Proof.Machine.execCombinerForward pkg die quad s
  | .pageWalk pkg die ctx va => Sys2Proof.Machine.execPageWalk pkg die ctx va s
  | .tlbInvalidate pkg rec => Sys2Proof.Machine.execTlbInvalidate pkg rec s
  | .invalidationAck pkg die => Sys2Proof.Machine.execInvalidationAck pkg die s
  | .demandFaultResolve entryAddr entry => Sys2Proof.Machine.execDemandFaultResolve entryAddr entry s
  | .reedSync pkg die time bound => Sys2Proof.Machine.execReedSync pkg die time bound s
  | .holdoverEntry pkg die => Sys2Proof.Machine.execHoldoverEntry pkg die s
  | .timeUnlock pkg die => Sys2Proof.Machine.execTimeUnlock pkg die s
  | .flitReplay link => Sys2Proof.Machine.execFlitReplay link s
  | .linkRetrain link => Sys2Proof.Machine.execLinkRetrain link s
  | .linkRecoveryTimeout link => Sys2Proof.Machine.execLinkRecoveryTimeout link s
  | .launchSubmit packet => Sys2Proof.Machine.execLaunchSubmit packet s
  | .launchAdmit launch => Sys2Proof.Machine.execLaunchAdmit launch s
  | .budgetExpiry launch => Sys2Proof.Machine.execBudgetExpiry launch s
  | .gangPreemption launch => Sys2Proof.Machine.execGangPreemption launch s
  | .launchResume launch budget => Sys2Proof.Machine.execLaunchResume launch budget s
  | .hostStop launch => Sys2Proof.Machine.execHostStop launch s
  | .hostHalt launch => Sys2Proof.Machine.execHostHalt launch s
  | .launchRerun launch => Sys2Proof.Machine.execLaunchRerun launch s
  | .debugRecordArm launch rec => Sys2Proof.Machine.execDebugRecordArm launch rec s
  | .unitStall unit => Sys2Proof.Machine.execUnitStall unit s
  | .collectiveCreate pkg rec => Sys2Proof.Machine.execCollectiveCreate pkg rec s
  | .collectiveDestroy collid => Sys2Proof.Machine.execCollectiveDestroy collid s
  | .collComplete collid => Sys2Proof.Machine.execCollComplete collid s
  | .collTimeout collid => Sys2Proof.Machine.execCollTimeout collid s
  | .collAbort collid => Sys2Proof.Machine.execCollAbort collid s
  | .collContribution collid rank word value => Sys2Proof.Machine.execCollContribution collid rank word value s
  | .allowanceRaise launch cap amount => Sys2Proof.Machine.execAllowanceRaise launch cap amount s
  | .powerOn pkg => Sys2Proof.Machine.execPowerOn pkg s
  | .recoveryImage pkg image => Sys2Proof.Machine.execRecoveryImage pkg image s
  | .quoteRequest pkg nonce launch => Sys2Proof.Machine.execQuoteRequest pkg nonce launch s
  | .coreRetire pkg die phys => Sys2Proof.Machine.execCoreRetire pkg die phys s
  | .hbmRowRetire pkg fromPA toPA entryAddr => Sys2Proof.Machine.execHbmRowRetire pkg fromPA toPA entryAddr s
  | .dlinkRecal pkg n => Sys2Proof.Machine.execDlinkRecal pkg n s
  | .hbmRecal pkg stack channel => Sys2Proof.Machine.execHbmRecal pkg stack channel s
  | .sahfinUpdate pkg => Sys2Proof.Machine.execSahfinUpdate pkg s
  | .packageReplace pkg => Sys2Proof.Machine.execPackageReplace pkg s
  | .supplyStop pkg die mv => Sys2Proof.Machine.execSupplyStop pkg die mv s
  | .thermalThrottle pkg die => Sys2Proof.Machine.execThermalThrottle pkg die s
  | .thermalStop pkg die => Sys2Proof.Machine.execThermalStop pkg die s
  | .clockLoss pkg die => Sys2Proof.Machine.execClockLoss pkg die s
  | .mgmtFailover pkg core => Sys2Proof.Machine.execMgmtFailover pkg core s
  | .hostReset pkg => Sys2Proof.Machine.execHostReset pkg s
  | .cxlDown pkg expander => Sys2Proof.Machine.execCxlDown pkg expander s
  | .stackFail pkg stack => Sys2Proof.Machine.execStackFail pkg stack s
  | .backgroundScrub pkg place uncorrectable => Sys2Proof.Machine.execBackgroundScrub pkg place uncorrectable s
  | .illegalOpcode word => Sys2Proof.Machine.execIllegalOpcode word s
  | .privilegedOpcode word => Sys2Proof.Machine.execPrivilegedOpcode word s
  | .retrainRecovery link => Sys2Proof.Machine.execRetrainRecovery link s
  | .ieee1588Sync pkg time bound => Sys2Proof.Machine.execIeee1588Sync pkg time bound s
  | .packageTimeEpoch pkg time => Sys2Proof.Machine.execPackageTimeEpoch pkg time s
  | .onDemandRegister ctx lo hi => Sys2Proof.Machine.execOnDemandRegister ctx lo hi s
  | .capabilityRevoke launch cap => Sys2Proof.Machine.execCapabilityRevoke launch cap s
  | .bar2Access pkg addr write => Sys2Proof.Machine.execBar2Access pkg addr write s
  | .powerLoss pkg => Sys2Proof.Machine.execPowerLoss pkg s
  | .packagePowerCap pkg => Sys2Proof.Machine.execPackagePowerCap pkg s
  | .eventDelivery => Sys2Proof.Machine.execEventDelivery s
  | .evdlDeadline => Sys2Proof.Machine.execEvdlDeadline s
  | .releaseTokenAck => Sys2Proof.Machine.execReleaseTokenAck s
  | .fillMessage => Sys2Proof.Machine.execFillMessage s
  | .freeCredit => Sys2Proof.Machine.execFreeCredit s
  | .barrierArrival => Sys2Proof.Machine.execBarrierArrival s
  | .atomicHomeApply => Sys2Proof.Machine.execAtomicHomeApply s
  | .atomicReply => Sys2Proof.Machine.execAtomicReply s
  | .boardHomeStep => Sys2Proof.Machine.execBoardHomeStep s
  | .twaitExpiry => Sys2Proof.Machine.execTwaitExpiry s
  | .bobbinContribution => Sys2Proof.Machine.execBobbinContribution s
  | .nestStep => Sys2Proof.Machine.execNestStep s
  | .drainRegion => Sys2Proof.Machine.execDrainRegion s
  | .shuttleWalk => Sys2Proof.Machine.execShuttleWalk s
  | .commandPerformed => Sys2Proof.Machine.execCommandPerformed s
  | .cpageEntryReplace => Sys2Proof.Machine.execCpageEntryReplace s
  | .cmcastCredit => Sys2Proof.Machine.execCmcastCredit s
  | .cattnPageSend => Sys2Proof.Machine.execCattnPageSend s
  | .loadReply => Sys2Proof.Machine.execLoadReply s
  | .lineFetch => Sys2Proof.Machine.execLineFetch s
  | .dispatchStart => Sys2Proof.Machine.execDispatchStart s
  | .dispatchStage => Sys2Proof.Machine.execDispatchStage s
  | .dispatchPromote => Sys2Proof.Machine.execDispatchPromote s
  | .dispatchRelease => Sys2Proof.Machine.execDispatchRelease s
  | .homeAppliesWrite => Sys2Proof.Machine.execHomeAppliesWrite s
  | .remoteRingBind => Sys2Proof.Machine.execRemoteRingBind s

end Sys2Proof.Machine
end

