-- ==== Sys2Proof/Machine/Step.lean ====
section
/-! DEFINITION. One step: what stands on the agenda, or what the unit whose turn it is does; and the placing of one
instruction where the next step fetches. -/
namespace Sys2Proof.Machine

/-- What a step adds around an instruction's own outcome. -/
def afterTurn (s : State) : Host.Outcome State Fault Refusal → Host.Outcome State Fault Refusal
  | .next t => .next (passTurn (endEntry (endIssue s t)))
  | .fault r => .fault r
  | .refused r => .refused r

/-- One step (log 1, DESIGN CHOICE). -/
def step (s : State) : Host.Outcome State Fault Refusal :=
  match s.agenda with
  | i :: rest => exec i { s with agenda := rest }
  | [] =>
    match issue s with
    | .idle => .next (passTurn { s with cur := turnStream s })
    | .instr i => afterTurn s (exec i (turnState s))
    | .trouble pos f => .next (passTurn (takeFault (turnStream s) pos 0 f { s with cur := turnStream s }))
    | .found => .next (passTurn (takeFound (turnStream s) { s with cur := turnStream s }))

/-- The stream of lowest number in which an opcode is legal. -/
def legalStream (op : Nat) (x8 : Bool) : Stream :=
  if opcodeLegalIn op x8 .s then .s else if opcodeLegalIn op x8 .v then .v else if opcodeLegalIn op x8 .m then .m else .c

/-- A packet that reserves everything and both whole line ranges (R289 to R291), for one member. -/
def fullPacket : BitVec 1024 :=
  BitVec.ofNat 1024 (field 0x01000001 0 + field (field 1 17 + field 1 14) 32 +
    field (field 32 58 + field 16 53 + field 8 49 + field 64 42 + field 16 37 + field 64 30 + field 64 23 + 0x300000) 64 +
    field 0xFFFFFFFF (8 * 0x10) + field 1 (8 * 0x14) + field (4096 * 2 ^ 16) (8 * 0x18) + field 4096 (8 * 0x1C) +
    field 131072 (8 * 0x20))

def fullLaunch : Launch :=
  { number := 1, packet := fullPacket, phase := .running, cause := none, order := 0, submitted := 0, used := 0, budget := 0xFFFFFFFF,
    startedAt := 0, place := [(0, 0, 0)], keeps := [(0, 0)], fields := [0, 1, 2, 3], codeHash := 0, caps := [], barriers := [], boards := [],
    saved := [], image := 0, boardImages := [], podImages := [], records := [], armed := none, debug := none, heldDep := none }

/-- s with an instruction at slot 1 of line 0 of the stream it is legal in, of a member that runs on a package that has
booted, its stacks up (log 1, DESIGN CHOICE). -/
def State.withFetchWord (s : State) (_nbits w : Nat) : State :=
  let w1 : Word32 := BitVec.ofNat 32 w
  let st := legalStream (w1.toNat / 2 ^ 24) (flag w1 8)
  let link : Word32 := BitVec.ofNat 32 (field st.code 30 + field 2 25 + field 1 29)
  let line : Vector Word32 16 :=
    ((Vector.replicate 16 0#32).set 0 link).set 1 w1 |>.set 2 (BitVec.ofNat 32 (w / 2 ^ 32))
  let c := { memberCtx s.me.m st with state := .running, stopped := false, pc := position 0 1, pend := .run, line := line,
                                      replyDue := false, pastStop := [] }
  { s with
    agenda := [], turn := .stream st, cur := st,
    me := { s.me with
      cur := { s.me.cur with launch := 1, member := 0, ctx := 1, state := .active },
      m := { memberSetCtx s.me.m st c with ended := false, found := [] },
      imem := storeWrite s.me.imem 0 (line.toList.flatMap bytesOfWord) },
    pkgs := s.pkgs.map fun p => if p.pkg == s.me.pkg then { p with stage := .serving, stackUp := 0xFF } else p,
    dies := s.dies.map fun d => if d.pkg == s.me.pkg && d.die == s.me.die then { d with on := true } else d,
    launches := fullLaunch :: s.launches.filter fun l => l.number != 1 }

end Sys2Proof.Machine
end

