-- ==== Sys2Proof/Safety.lean ====
section
/-! DEFINITION. What claims are said in: safe runs, registers that can be read, instructions that a queue performs at
once, what an instruction leaves unchanged, and the bytes of memory. -/
namespace Sys2Proof.Machine

/-- The machine takes k steps from s, with neither a fault nor a refusal of the model. -/
def runsFor : Nat → State → Bool
  | 0, _ => true
  | k + 1, s => match step s with
    | .next t => runsFor k t
    | .fault _ => false
    | .refused _ => false

/-! ### Operands and issue -/

/-- A source register holds a value, and it is not poisoned (R84, R231). -/
def readable (r : Reg) (s : State) : Bool := !awaited s r && !regPoison s r

/-- Nothing that the stream has issued, or that it must follow, is unperformed (R231, R257, R263). -/
def nothingBefore (s : State) : Bool := !behindOrdered s && !pendingOf s.cur s

/-- What the current stream issues is performed at once: S has no queue; an entry of a queue is being performed, with nothing
before it; or the stream's queue is empty, has room, and no waiting `qfence` names it (R104, R204, R231). -/
def direct (s : State) : Bool :=
  s.cur == .s || (nothingBefore s && (s.me.m.perform.isSome || (queueEmpty s.cur s.me.m && queueRoom s.cur s && !behindMark s)))

/-- A scalar access of a footprint need not wait (R96, R234, R257). -/
def accessNow (f : Foot) (s : State) : Bool := queueDone s && !behindMark s && !held f s && nothingBefore s

/-- A tile register that is reserved, holds a value, and carries neither poison nor a pending slot (R41, R110, R293). -/
def plainTile (t : Reg) (s : State) : Bool :=
  hasTile t s && (tileOf s t).tag != .empty && !(tileOf s t).poison && !pendingSlots (tileOf s t).slots

/-- A factor register that is reserved and not poisoned (R110, R293). -/
def plainFreg (f : FIdx) (s : State) : Bool := hasFreg f s && !(fregOf s.me.m f).poison

/-- No debug record is in force (R376). -/
def undebugged (s : State) : Bool := (debugOf s).isNone

/-! ### What an instruction leaves unchanged -/

/-- From s to t only the current stream's context changes, and what a register write reaches: the shadow registers, and
the older loads and queued instructions that were to write the register (R108, R231). -/
def OnlyRegs (s t : State) : Prop :=
  t = { s with
    me := { s.me with m := { s.me.m with
      streams := t.me.m.streams, iq := t.me.m.iq,
      events := { s.me.m.events with
        shadow := t.me.m.events.shadow, shadowPoison := t.me.m.events.shadowPoison, shadowAwait := t.me.m.events.shadowAwait } } },
    inFlight := t.inFlight } ∧
  ∀ st, st ≠ s.cur → memberCtx t.me.m st = memberCtx s.me.m st

/-- From s to t the contexts of the current stream and of a forked one change, and the older loads and queued instructions
that were to write a register of the forked stream (R100, R231). -/
def OnlyForked (stream : Stream) (s t : State) : Prop :=
  t = { s with me := { s.me with m := { s.me.m with streams := t.me.m.streams, iq := t.me.m.iq } }, inFlight := t.inFlight } ∧
  ∀ st, st ≠ s.cur → st ≠ stream → memberCtx t.me.m st = memberCtx s.me.m st

/-- An instruction of len words whose one result is v in register d with poison bit p, its own completion included (R84,
R90). Where no older load is to write d, nothing that is on its way changes. -/
def WroteMarked (len : Nat) (d : Reg) (v : Word) (p : Bool) (s t : State) : Prop :=
  OnlyRegs s t ∧
  (∀ r, rawReg t r = if r = d ∧ d ≠ 0 then v else rawReg s r) ∧
  (∀ r, regPoison t r = if r = d ∧ d ≠ 0 then p else regPoison s r) ∧
  (if shadowed s d then (ctx t).regs = (ctx s).regs ∧ (ctx t).poison = (ctx s).poison
   else t.me.m.events = s.me.m.events) ∧
  ctx t = { sequenced len (ctx s) with regs := (ctx t).regs, poison := (ctx t).poison, await := (ctx t).await } ∧
  (awaited s d = false → t.me.m.iq = s.me.m.iq ∧ t.inFlight = s.inFlight ∧ (ctx t).await = (ctx s).await ∧
    t.me.m.events.shadowAwait = s.me.m.events.shadowAwait)

/-- The same for a value without poison. -/
def WroteReg (len : Nat) (d : Reg) (v : Word) (s t : State) : Prop := WroteMarked len d v false s t

/-- No message is on its way, and every link is up (R282, R347). -/
def AllDelivered (s : State) : Prop := s.inFlight = [] ∧ ∀ id, linkOf id s = .up

/-- A stream after a transfer to a target whose line it holds: each loop record whose exit the target is, and every one pushed
after it, are gone (R63, R93). -/
def arrivedAt (target : CodePos) (l : Vector Word32 16) (c : StreamCtx) : StreamCtx :=
  { c with pc := target, line := l, pend := .run, state := .running, arrived := none, mark := none, replyDue := false,
           pastStop := [], sealedAt := none, loops := (c.loops.reverse.takeWhile fun r => r.x != target).reverse }

/-- s with every leaf cache and translation directory empty: what an access that only caches its leaf keeps (R320, R323). -/
def uncached (s : State) : State :=
  let core : Core → Core := fun c => { c with leavesM := [], leavesS := [], leavesC := [] }
  { s with me := core s.me, others := s.others.map core, dies := s.dies.map fun d => { d with leaves := [] },
           pkgs := s.pkgs.map fun p => { p with directory := [] } }

/-- s as the performing of an M-queue command at a position sees it (R222, R231). -/
def asM (pos : CodePos) (s : State) : State := modCtx (fun c => { c with pc := pos }) { s with cur := .m }

/-! ### Ordering -/

/-- The covered set of the current stream is performed at a scope: nothing of it stands in a queue, nothing is on its
way, no loss is to be reported, and no write of the quad goes to an expander that has stopped answering (R176 to R178,
R374). -/
def Covered (sc : Scope) (s : State) : Prop :=
  queueDone s = true ∧ behindMark s = false ∧ AllDelivered s ∧ coveredLosses sc s = [] ∧
  ∀ w ∈ combined s, cxlDead w.key s = false

/-- What a release at a scope leaves: at `die` or wider the writes in the quad's combiner are at their homes (R177, R256). -/
def released (sc : Scope) (s : State) : State :=
  if wide sc then modCtx (fun c => { c with written := [] }) (drainMine s) else s

/-! ### Tiles -/

/-- The flags among conditions accumulate in `vstatus` (R27). -/
def flagged (c : Conds) (s : State) : State :=
  modM (fun m => { m with csrs := { m.csrs with vstatus := m.csrs.vstatus ||| condFlags c } }) s

/-- An instruction of len words has written a tile, the flags of its result raised (R27, R112). -/
def wroteTile (len : Nat) (td : Reg) (r : Tile × Conds) (s : State) : State := retire len (putTile td r.1 (flagged r.2 s))

/-- A result tile of a kind over the register as it was before the instruction, under a predicate; put gives the code of an
active element and what it raises (R112). -/
def tileResult (len : Nat) (td : Reg) (old : Tile) (d : Dest) (pm : PMod) (mode : RMode) (w : Word) (put : Nat → Word × Conds)
    (s : State) : State :=
  wroteTile len td (writeTile old d (predOf s pm.p) pm.zero mode w put) s

/-- Sibling operands: equal shapes, and equal tags, or any floating ones where the instruction admits them (R18, R114, R115). -/
def siblings (any : Bool) (x y : Tile) : Prop :=
  y.rows = x.rows ∧ y.cols = x.cols ∧ (y.tag = x.tag ∨ (any = true ∧ isFloatTag x.tag = true ∧ isFloatTag y.tag = true))

/-- A descriptor that may be put into a slot of length len of a tile (R41, R43). -/
def slotAllowed (d : BitVec 64) (len : Nat) (t : Tile) (s : State) : Prop :=
  slotKind d = 0 ∨ (bits d 43 32 = 0 ∧ slotOp d < 5 ∧ t.rows * t.cols ≤ 2048 ∧
    (2 ≤ slotKind d → (bobbinOf s.me.m (slotBobbin d)).state ≠ .free ∧ len ≤ (bobbinOf s.me.m (slotBobbin d)).len))

/-! ### Memory -/

/-- The byte at a place and its poison, as the members of the quad in focus read it (R236, R256, R371). -/
def byteAt (s : State) (p : Place) : List Byte × Bool :=
  match p with
  | .spad i o => let r := readSpot s (.spad i o, 1); (r.1, r.2.1)
  | .mem _ key => quadRead key 1 s

/-- The stores of a member and of its core are in canonical form. -/
def memberCanonical (m : Member) : Bool := Memory.wf m.acc
def coreCanonical (c : Core) : Bool := Memory.wf c.spad && Memory.wf c.nextSpad && memberCanonical c.m

/-- Memory, the host's, every scratchpad and every accumulator, in cores and in saved members, are in canonical form. -/
def canonical (s : State) : Bool :=
  Memory.wf s.mem && (allCores s).all coreCanonical &&
  (s.launches.all fun l => l.saved.all fun v => Memory.wf v.spad && memberCanonical v.m) && Memory.wf s.hostMem

/-- A place is among the bytes of an access; a word of a DET page stands for the 32 bytes of its shadow entry (R54). -/
def covers (l : List Spot) (p : Place) : Bool :=
  l.any fun x => match x.1, p with
    | .spad i o, .spad j q => i == j && o ≤ q && q < o + x.2
    | .mem leaf k, .mem _ q => k ≤ q && q < k + (if leafDet leaf then 8 * x.2 else x.2)
    | .spad _ _, .mem _ _ => false
    | .mem _ _, .spad _ _ => false

/-- A place that exists: memory, or the scratchpad of a core that stands in the quad (R184, R236). -/
def inQuadOf (s : State) (p : Place) : Bool :=
  match p with
  | .spad i _ => (sibling s i).isSome
  | .mem _ _ => true

/-- The places are scratchpad bytes or bytes of pages that are neither DET nor COLL. -/
def plainSpots (l : List Spot) : Bool :=
  l.all fun x => match x.1 with
    | .spad _ _ => true
    | .mem leaf _ => !leafDet leaf && !leafColl leaf

/-! ### Services of the machine -/

/-- The instruction answers a next state in which only dies differ, and P holds between the named die before and after. -/
def turnsDie (i : Instr) (s : State) (pkg die : Nat) (P : Die → Die → Prop) : Prop :=
  ∃ t, exec i s = .next t ∧ t = { s with dies := t.dies } ∧
    ∀ d, findDie pkg die s = some d → ∃ x, findDie pkg die t = some x ∧ P d x

/-- The instruction answers a next state, and P holds between the named package before and after, and of that state. -/
def turnsPkg (i : Instr) (s : State) (pkg : Nat) (P : Package → Package → State → Prop) : Prop :=
  ∃ t, exec i s = .next t ∧ ∀ p, findPkg pkg s = some p → ∃ x, findPkg pkg t = some x ∧ P p x t

/-- The instruction answers a next state, and P holds between the numbered launch before and after, and of that state. -/
def turnsLaunch (i : Instr) (s : State) (n : Nat) (P : Launch → Launch → State → Prop) : Prop :=
  ∃ t, exec i s = .next t ∧ ∀ l, findLaunch n s = some l → ∃ x, findLaunch n t = some x ∧ P l x t

/-- The gang stop of a launch has begun for a cause (R306). -/
def begunStop (n : Nat) (c : Cause) (x : Launch) (t : State) : Prop :=
  x.phase = .stopping ∧ x.cause = some c ∧ Instr.gangPreemption n ∈ t.agenda

/-- A launch is bound to a core that p holds of. -/
def boundOn (n : Nat) (p : Core → Bool) (s : State) : Prop :=
  ∃ c ∈ allCores s, p c = true ∧ c.cur.state ≠ .empty ∧ c.cur.launch = n

end Sys2Proof.Machine
end

