-- ==== Sys2Proof/Certificates/Slice0/Obligations.lean ====
section
/-! DEFINITION. The statements about the machine, family by family, each with the rules of the manual that it
formalises. -/
open Sys2Proof Sys2Proof.Machine

/-! ### Scalar instructions (R84 to R89) -/

/-- R85: the three-register operations, `addx` and the bit counts. Quotients truncate toward zero and remainders
take the sign of the dividend; of a zero divisor DivisionCorners speaks. -/
def Obligations.IntegerOperations : Prop :=
  ∀ (s : State) (d a b : Reg) (sh : BitVec 3), readable a s = true → readable b s = true →
  let x := rawReg s a
  let y := rawReg s b
  (∀ p ∈ ([(.add d a b, x + y), (.sub d a b, x - y), (.and d a b, x &&& y), (.or d a b, x ||| y), (.xor d a b, x ^^^ y),
      (.shl d a b, x <<< (y.extractLsb' 0 6).toNat), (.shr d a b, x >>> (y.extractLsb' 0 6).toNat),
      (.sra d a b, x.sshiftRight (y.extractLsb' 0 6).toNat),
      (.mul d a b, x * y), (.mulh d a b, (x.signExtend 128 * y.signExtend 128).extractLsb' 64 64),
      (.mulhn d a b, (x.zeroExtend 128 * y.zeroExtend 128).extractLsb' 64 64),
      (.min d a b, if x.toInt < y.toInt then x else y), (.max d a b, if x.toInt < y.toInt then y else x),
      (.minn d a b, if x.toNat < y.toNat then x else y), (.maxn d a b, if x.toNat < y.toNat then y else x),
      (.slt d a b, if x.toInt < y.toInt then 1 else 0), (.sltn d a b, if x.toNat < y.toNat then 1 else 0),
      (.seq d a b, if x = y then 1 else 0), (.addx d a b sh, x + y <<< sh.toNat),
      (.popc d a, x.cpop), (.clz d a, x.clz), (.ctz d a, x.ctz)] : List (Instr × Word)),
    ∃ t, exec p.1 s = .next (stepStop (ctx s).pc t) ∧ WroteReg 1 d p.2 s t) ∧
  (y ≠ 0 → ∀ p ∈ ([(.div d a b, x.sdiv y), (.divn d a b, x / y), (.rem d a b, x.srem y), (.remn d a b, x % y)] : List (Instr × Word)),
    ∃ t, exec p.1 s = .next (stepStop (ctx s).pc t) ∧ WroteReg 1 d p.2 s t)

/-- R86: a zero divisor faults DIVIDE_BY_ZERO, and no register changes; the overflowing quotient does not fault:
`div` of -2^63 by -1 gives -2^63, `rem` gives 0. -/
def Obligations.DivisionCorners : Prop :=
  ∀ (s : State) (d a b : Reg), readable a s = true → readable b s = true →
  (rawReg s b = 0 → ∀ i ∈ ([.div d a b, .divn d a b, .rem d a b, .remn d a b] : List Instr),
    exec i s = .next (takeFault s.cur (ctx s).pc 0 { cause := .divideByZero } s) ∧
    ∀ t, exec i s = .next t → ∀ r, rawReg t r = rawReg s r) ∧
  (rawReg s a = 0x8000000000000000#64 → rawReg s b = 0xFFFFFFFFFFFFFFFF#64 →
    (∃ t, exec (.div d a b) s = .next (stepStop (ctx s).pc t) ∧ WroteReg 1 d 0x8000000000000000#64 s t) ∧
    (∃ t, exec (.rem d a b) s = .next (stepStop (ctx s).pc t) ∧ WroteReg 1 d 0 s t))

/-- R72, R87, R88: one source register or an immediate. -/
def Obligations.ScalarUnary : Prop :=
  ∀ (s : State) (d a : Reg) (imm : BitVec 14) (sh : BitVec 6) (w : BitVec 32), readable a s = true →
  let x := rawReg s a
  let i := imm.signExtend 64
  (∀ p ∈ ([(.addi d a imm, x + i), (.andi d a imm, x &&& i), (.ori d a imm, x ||| i), (.xori d a imm, x ^^^ i),
      (.slti d a imm, if x.toInt < i.toInt then 1 else 0),
      (.shli d a sh, x <<< sh.toNat), (.shri d a sh, x >>> sh.toNat), (.srai d a sh, x.sshiftRight sh.toNat)] : List (Instr × Word)),
    ∃ t, exec p.1 s = .next (stepStop (ctx s).pc t) ∧ WroteReg 1 d p.2 s t) ∧
  (∃ t, exec (.li d w) s = .next (stepStop (ctx s).pc t) ∧ WroteReg 2 d (w.signExtend 64) s t) ∧
  (∃ t, exec .nop s = .next (stepStop (ctx s).pc t) ∧ WroteReg 1 0 0 s t)

/-- R88, R89: `lih`; `bext` and `bins` of lengths and positions in range, which stand in bits [12:6] and [5:0] of
word 2. R89: other lengths and positions are RESERVED_FIELD. -/
def Obligations.BitFields : Prop :=
  (∀ (s : State) (d a : Reg) (w : BitVec 32) (len : BitVec 7) (pos : BitVec 6), readable d s = true → readable a s = true →
  (∀ i ∈ ([.bext d a len pos, .bins d a len pos] : List Instr),
    (encode i)[1]? = some (BitVec.ofNat 32 (len.toNat * 2 ^ 6 + pos.toNat))) ∧
  (∃ t, exec (.lih d w) s = .next (stepStop (ctx s).pc t) ∧ WroteReg 2 d (w ++ (rawReg s d).extractLsb' 0 32) s t) ∧
  (1 ≤ len.toNat → pos.toNat + len.toNat ≤ 64 →
    (∃ t, exec (.bext d a len pos) s = .next (stepStop (ctx s).pc t) ∧
      WroteReg 2 d (((rawReg s a).extractLsb' pos.toNat len.toNat).setWidth 64) s t) ∧
    (∃ t v, exec (.bins d a len pos) s = .next (stepStop (ctx s).pc t) ∧ WroteReg 2 d v s t ∧
      ∀ n, n < 64 → v.getLsbD n =
        if pos.toNat ≤ n ∧ n < pos.toNat + len.toNat then (rawReg s a).getLsbD (n - pos.toNat) else (rawReg s d).getLsbD n))) ∧
  (∀ (s : State) (d a : Reg) (len : BitVec 7) (pos : BitVec 6), len = 0 ∨ 64 < len.toNat ∨ 64 < pos.toNat + len.toNat →
  ∀ i ∈ ([.bext d a len pos, .bins d a len pos] : List Instr),
    exec i s = .next (takeFault s.cur (ctx s).pc 0 { cause := .reservedField } s))

/-- R84: s0 reads zero and ignores writes; another register reads what was last written, and the others keep their
values. -/
def Obligations.RegisterFile : Prop :=
  ∀ (s : State) (d r : Reg) (v : Word) (p : Bool),
    rd s 0 = .ok 0 ∧ wrP 0 v p s = s ∧
    rawReg (wrP d v p s) r = (if r = d ∧ d ≠ 0 then v else rawReg s r) ∧
    regPoison (wrP d v p s) r = (if r = d ∧ d ≠ 0 then p else regPoison s r)

/-- R84, R372: an instruction that reads a poisoned register a faults POISON_CONSUMED and has no effect: as either source
operand of the integer operations, as the operand of a comparison and the target of a branch, as the count of a loop, as the
datum of a CSR write, and as the address base of a load or a store or the datum of a store. -/
def Obligations.PoisonIsConsumed : Prop :=
  ∀ (s : State) (d x a b : Reg) (off imm : BitVec 14) (sh : BitVec 3) (cond : Cond) (target : CodePos),
    regPoison s a = true → awaited s a = false → readable x s = true →
    (∀ op ∈ ([.add, .sub, .and, .or, .xor, .shl, .shr, .sra, .mul, .mulh, .mulhn, .div, .divn, .rem, .remn, .min, .max,
        .minn, .maxn, .slt, .sltn, .seq] : List (Reg → Reg → Reg → Instr)), ∀ i ∈ ([op d a b, op d x a] : List Instr),
      exec i s = .next (takeFault s.cur (ctx s).pc 0 { cause := .poisonConsumed } s)) ∧
    (∀ i ∈ ([.addx d a b sh, .addx d x a sh, .popc d a, .clz d a, .ctz d a, .addi d a imm, .andi d a imm, .ori d a imm,
        .xori d a imm, .slti d a imm, .jr a, .bc cond a b target, .bc cond x a target, .bci cond a imm target, .loop a target,
        .csrw a 3, .csrx d a 3] : List Instr),
      exec i s = .next (takeFault s.cur (ctx s).pc 0 { cause := .poisonConsumed } s)) ∧
    (direct s = true → ∀ i ∈ ([.ldb d a off, .ldh d a off, .ldw d a off, .ldd d a off, .ldbn d a off, .ldhn d a off,
        .ldwn d a off, .stb x a off, .sth x a off, .stw x a off, .std x a off, .stb a x off, .sth a x off, .stw a x off,
        .std a x off] : List Instr),
      exec i s = .next (takeFault s.cur (ctx s).pc (if s.cur = .s then 0 else 1) { cause := .poisonConsumed } s))

/-! ### Encoding and fetch (R57 to R73) -/

/-- The first words of some instructions, built from the field layouts of R65 and the codes of R72 to R79: `add s1,
s2, s3`; `nop`; `ldd s1, [s2 - 8]`; `bc ge s1, s2, 0x12:3`; `li s1, -1`; `jal 5:1`; a word with bit 0 of an empty
field set. -/
def Obligations.DecodesWords : Prop :=
  decodeWords 0x02088600#32 none = .ok (.add 1 2 3) ∧
  decodeWords 0x01000000#32 none = .ok .nop ∧
  decodeWords 0x3108BFF8#32 none = .ok (.ldd 1 2 0x3FF8) ∧
  decodeWords 0x2B184400#32 (some 0x123#32) = .ok (.bc .ge 1 2 0x123) ∧
  decodeWords 0x20080000#32 (some 0xFFFFFFFF#32) = .ok (.li 1 0xFFFFFFFF) ∧
  decodeWords 0x29000051#32 none = .ok (.jal 0x51) ∧
  decodeWords 0x02088601#32 none = .error .reservedField

/-- Every instruction that has words is decoded from them, every operand at every value its encoding admits. What
the decoder answers is well formed, and it is what two words decode to, whatever stands behind a short instruction
(R65, R66). -/
def Obligations.DecodeEncodeAgree : Prop :=
  (∀ i : Instr, i.wf = true → encode i ≠ [] → decodeList (encode i) = .ok i) ∧
  (∀ (w v : Word32) (i : Instr), decodeWords w (some v) = .ok i →
    i.wf = true ∧ (longOpcode (w.toNat / 2 ^ 24) = false → ∀ u, decodeWords w u = .ok i))

/-- A step of a stream's turn runs the instruction that the words at its position decode to, after which the turn
passes; a word of R70 runs `illegalOpcode` or `privilegedOpcode`. The step of an agenda that is not empty is its
first entry (log 1). At the turn of a stream's queue the oldest entry that may be performed is executed as its
stream, in the context of its issue (R231). A stop of the debug record that an instruction went past on resume is met again
once the instruction has been performed (R370). -/
def Obligations.StepRunsDecoded : Prop :=
  (∀ (s : State) (st : Stream), s.agenda = [] → s.turn = .stream st →
  let u := { s with cur := st }
  let c := memberCtx s.me.m st
  let n := slotOf c.pc
  let w := vat (k := 4) c.line (BitVec.ofNat 4 n)
  let op := w.toNat / 2 ^ 24
  let after : Instr → Host.Outcome State Fault Refusal := fun i => match exec i u with
    | .next t => .next (passTurn (endEntry (endIssue s t)))
    | .fault r => .fault r
    | .refused r => .refused r
  ready s.me st = true → (s.me.m.found.any fun x => x.1.who.stream == st) = false → c.pend = .run →
  codeBreak st c.pc u = none → maskBreak w u = none → (longOpcode op = true → n < 15 ∧ n < lineCount c.line) →
  (∀ i, unlistedOpcode op = false → privilegedOp op = false → opcodeLegalIn op (flag w 8) st = true →
    decodeWords w (some (vat (k := 4) c.line (BitVec.ofNat 4 (n + 1)))) = .ok i → step s = after i) ∧
  (unlistedOpcode op = true → step s = after (.illegalOpcode w)) ∧
  (unlistedOpcode op = false → privilegedOp op = true → step s = after (.privilegedOpcode w)) ∧
  (∀ (i : Instr) (rest : List Instr), step { s with agenda := i :: rest } = exec i { s with agenda := rest })) ∧
  (∀ (s : State) (st : Stream) (e : QEntry) (i : Instr), s.agenda = [] → s.turn = .queue st → entryNow st s = some e →
    decodeSlot st e.ctx = .instr i →
    step s = match exec i (installEntry e s) with
      | .next t => .next (passTurn (endEntry t))
      | .fault r => .fault r
      | .refused r => .refused r)

/-- R59 to R62: a stream that enters a line finds it checked: the line is present and in the launch's ranges, no
`ccode` is writing it, it is not poisoned, the link word's reserved bits are 0, the slot exists, the line is the
stream's own. R59, R63: a line is entered as it is fetched, and a TERM line that runs out faults CHAIN_END; a line
that cannot be entered faults at the position the stream attempted to fetch. R370: a stream that resumes at a CHAIN_END
reads the link word of its line again. R70: opcodes that name no instruction,
and those of the privileged range, fault at user privilege. -/
def Obligations.LineEntry : Prop :=
  (∀ (s : State) (st : Stream) (pos : CodePos) (l : Vector Word32 16), fetchLine st pos s = .ok l ↔
    l = readLine (lineOf pos) s ∧ lineOf pos < 135168 ∧ inRanges (lineOf pos) s = true ∧
    overlayBusy (lineOf pos) s = false ∧ linePoisoned (lineOf pos) s = false ∧
    bits (linkWord l) 24 20 = 0 ∧ 1 ≤ slotOf pos ∧ slotOf pos ≤ lineCount l ∧ bits (linkWord l) 31 30 = st.code) ∧
  (∀ (s : State),
    (∀ l, (ctx s).pend = .enter → fetchLine s.cur (ctx s).pc s = .ok l →
      exec .lineFetch s = .next (setCtx { ctx s with line := l, pend := .run } s)) ∧
    (∀ f, (ctx s).pend = .enter → fetchLine s.cur (ctx s).pc s = .error (.fault f) →
      exec .lineFetch s = .next (takeFault s.cur (ctx s).pc 0 f s)) ∧
    ((ctx s).pend = .chainEnd → exec .lineFetch s = .next (takeFault s.cur (ctx s).pc 0 { cause := .chainEnd } s)) ∧
    ((ctx s).pend = .again →
      let n := lineOf (ctx s).pc
      let l := readLine n s
      (linePoisoned n s = true → exec .lineFetch s = .next (takeFault s.cur (ctx s).pc 0 { cause := .fetchPoison } s)) ∧
      (linePoisoned n s = false → lineTerm l = true → exec .lineFetch s = .next (takeFault s.cur (ctx s).pc 0 { cause := .chainEnd } s)) ∧
      (linePoisoned n s = false → lineTerm l = false →
        exec .lineFetch s = .next (setCtx { ctx s with pc := position (lineNext l) 1, pend := .enter } s)))) ∧
  (∀ (s : State) (w : BitVec 32),
    exec (.illegalOpcode w) s = .next (takeFault s.cur (ctx s).pc 0 { cause := .illegalOpcode } s) ∧
    exec (.privilegedOpcode w) s = .next (takeFault s.cur (ctx s).pc 0 { cause := .privilegedOpcode } s))

/-! ### Transfers of control and loops (R90 to R93) -/

/-- R90 to R92: `b`, `jr`, and `bc` and `bci` whose condition holds, transfer control; one that does not hold
continues in sequence without a check of its target. R90: `jal` transfers control and leaves the position that
follows it in s31. R62, R63, R91: a slot that the target line lacks, a line of another stream, and a `jr` beyond 24
bits fault at the transfer, which has no effect. -/
def Obligations.Transfers : Prop :=
  (∀ (s : State) (a b : Reg) (cond : Cond) (imm : BitVec 14) (target : CodePos) (l : Vector Word32 16),
    readable a s = true → readable b s = true →
    let x := rawReg s a
    let y := rawReg s b
    let holds : Word → Word → Bool := fun x y => match cond with
      | .eq => x = y | .ne => x ≠ y
      | .lt => x.slt y | .ge => !x.slt y
      | .ltn => x.ult y | .gen => !x.ult y
    let there : Host.Outcome State Fault Refusal := .next (stepStop (ctx s).pc (setCtx (arrivedAt target l (ctx s)) s))
    let onward : Host.Outcome State Fault Refusal := .next (stepStop (ctx s).pc (setCtx (sequenced 2 (ctx s)) s))
    (targetLine target s = .ok l →
      exec (.b target) s = there ∧
      (x = target.zeroExtend 64 → exec (.jr a) s = there) ∧
      (holds x y = true → exec (.bc cond a b target) s = there) ∧
      (holds x (imm.signExtend 64) = true → exec (.bci cond a imm target) s = there)) ∧
    (holds x y = false → exec (.bc cond a b target) s = onward) ∧
    (holds x (imm.signExtend 64) = false → exec (.bci cond a imm target) s = onward)) ∧
  (∀ (s : State) (target : CodePos) (l : Vector Word32 16), targetLine target s = .ok l →
  ∃ t, exec (.jal target) s = .next (stepStop (ctx s).pc t) ∧ OnlyRegs s t ∧
    (∀ r, rawReg t r = if r = 31 then (nextPos 1 s).zeroExtend 64 else rawReg s r) ∧
    ctx t = { arrivedAt target l (ctx s) with regs := (ctx t).regs, poison := (ctx t).poison, await := (ctx t).await }) ∧
  (∀ (s : State) (a : Reg) (target : CodePos), readable a s = true →
  let line := readLine (lineOf target) s
  let faults : Cause → Host.Outcome State Fault Refusal := fun c => .next (takeFault s.cur (ctx s).pc 0 { cause := c } s)
  (2 ^ 24 ≤ (rawReg s a).toNat → exec (.jr a) s = faults .reservedField) ∧
  (lineOf target ≠ lineOf (ctx s).pc → lineOf target < 135168 → inRanges (lineOf target) s = true →
    overlayBusy (lineOf target) s = false → linePoisoned (lineOf target) s = false → bits (linkWord line) 24 20 = 0 →
    ((slotOf target = 0 ∨ lineCount line < slotOf target) → exec (.b target) s = faults .slotCount ∧
      (rawReg s a = target.zeroExtend 64 → exec (.jr a) s = faults .slotCount)) ∧
    (1 ≤ slotOf target → slotOf target ≤ lineCount line → bits (linkWord line) 31 30 ≠ s.cur.code →
      exec (.b target) s = faults .foreignLine)))

/-- R93: `loop` with a count pushes its record and continues; with a count of 0 control passes to what follows its
end; a fifth record faults LOOP_DEPTH. R93: an instruction that completes at the end of a body goes back while its
record has iterations left; a record without any is popped, and the next one is examined at the same instruction.
R59, R90: the position that follows an instruction whose last word stands in slot n, where no loop record ends at
it; the registers and the line stay. -/
def Obligations.Loops : Prop :=
  (∀ (s : State) (a : Reg) (last : CodePos) (l : Vector Word32 16), readable a s = true → targetLine last s = .ok l →
  let c := ctx s
  let n := rawReg s a
  let w := vat (k := 4) l (BitVec.ofNat 4 (slotOf last))
  let after := following l (lineOf last) (slotOf last + if longOpcode (w.toNat / 2 ^ 24) then 1 else 0)
  (n ≠ 0 → c.loops.length < 4 →
    ∃ t, exec (.loop a last) s = .next (stepStop c.pc (setCtx t s)) ∧
      t.loops = ⟨nextPos 2 s, last, followingPos after, n⟩ :: c.loops ∧ t.regs = c.regs ∧ t.poison = c.poison ∧
      (following c.line (lineOf c.pc) (slotOf c.pc + 1) = .here (nextPos 2 s) → t.pc = nextPos 2 s ∧ t.pend = .run)) ∧
  (n = 0 →
    ∃ t, exec (.loop a last) s = .next (stepStop c.pc (setCtx t s)) ∧ t.loops = c.loops ∧ t.regs = c.regs ∧
      match after with
      | .here p => t.pc = p ∧ t.pend = (if lineOf last = lineOf c.pc then .run else .enter)
      | .entering p => t.pc = p ∧ t.pend = .enter
      | .term => lineOf t.pc = lineOf last ∧ t.pend = .chainEnd) ∧
  (n ≠ 0 → 4 ≤ c.loops.length → exec (.loop a last) s = .next (takeFault s.cur c.pc 0 { cause := .loopDepth } s))) ∧
  (∀ (len : Nat) (c : StreamCtx) (r : LoopRec) (rest : List LoopRec), c.loops = r :: rest → r.e = c.pc →
    (1 < r.rem.toNat → (sequenced len c).pc = r.b ∧ (sequenced len c).loops = { r with rem := r.rem - 1 } :: rest ∧
      (sequenced len c).pend = (if lineOf r.b = lineOf c.pc then .run else .enter)) ∧
    (r.rem.toNat ≤ 1 → sequenced len c = sequenced len { c with loops := rest })) ∧
  (∀ (len : Nat) (c : StreamCtx), 1 ≤ len → (∀ r, c.loops.head? = some r → r.e ≠ c.pc) →
  let n := slotOf c.pc + len - 1
  let t := sequenced len c
  t.loops = c.loops ∧ t.regs = c.regs ∧ t.poison = c.poison ∧ t.line = c.line ∧ t.state = .running ∧
  (n < lineCount c.line → t.pc = position (lineOf c.pc) (n + 1) ∧ t.pend = .run) ∧
  (lineCount c.line = n → lineTerm c.line = false → t.pc = position (lineNext c.line) 1 ∧ t.pend = .enter) ∧
  (lineCount c.line ≤ n → lineTerm c.line = true ∨ lineCount c.line < n → t.pend = .chainEnd))

/-! ### Scalar loads and stores (R94 to R96, R236, R311, R312) -/

/-- R94, R95: a load of n bytes at ea, little-endian, extended as its row says; poisoned data marks the register; the
leaf it used enters the caches (R320), and nothing else changes. R261: a load of an UNORD page may be performed at once, or
set out, to be performed after accesses that follow it; the register then waits for its value. How long it is put off is a
free value (log 2). -/
def Obligations.ScalarLoads : Prop :=
  ∀ (s : State) (d a : Reg) (off : BitVec 14), readable a s = true → direct s = true →
  let ea := (rawReg s a + off.signExtend 64).toNat
  ∀ p ∈ ([(.ldb d a off, 1, true), (.ldh d a off, 2, true), (.ldw d a off, 4, true), (.ldd d a off, 8, false),
      (.ldbn d a off, 1, false), (.ldhn d a off, 2, false), (.ldwn d a off, 4, false)] : List (Instr × Nat × Bool)),
  ∀ spots, ea % p.2.1 = 0 → accessNow (accessFoot .read ea p.2.1) s = true →
    resolve { dir := .read, det := p.2.1 == 4, coll := p.2.1 == 4 } ea p.2.1 s = .ok spots → (readSpots s spots).2.2 = 0 →
    let bytes : BitVec (8 * p.2.1) := BitVec.ofNat (8 * p.2.1) (bytesToNat (readSpots s spots).1)
    let v : Word := if p.2.2 then bytes.signExtend 64 else bytes.zeroExtend 64
    uncached (cached ea p.2.1 s) = uncached s ∧
    ((∀ leaf key n, (.mem leaf key, n) ∈ spots → leafOrd leaf ≠ 2) → spotsFree spots s = true →
      ∃ t, exec p.1 s = .next (stepStop (ctx s).pc t) ∧ WroteMarked 1 d v (readSpots s spots).2.1 (cached ea p.2.1 s) t) ∧
    (∀ leaf key, spots = [(.mem leaf key, p.2.1)] → leafOrd leaf = 2 → entryFree s = true →
      ∃ t, exec p.1 s = .next (stepStop (ctx s).pc t) ∧
        (WroteMarked 1 d v (readSpots s spots).2.1 (cached ea p.2.1 { s with fresh := s.fresh + 1 }) t ∨
         ((∀ r, rawReg t r = rawReg s r) ∧ (d ≠ 0 → awaited t d = true) ∧ t.mem = s.mem ∧
          ∃ m ∈ t.inFlight, m.who = me s ∧ m.route = keyRoute key s ∧ ∃ sg, m.body = .load d (shadowed s d) leaf key p.2.1 sg)))

/-- R94, R95: a store puts the low bytes of d, little-endian, into the bytes at ea: at once in the scratchpad, in the quad's
combiner on an RC page, at the home over routes that are free on a STRONG one, else as a write that is on its way there (R256,
R259, R261); a write to an expander that is down is lost, which the stream's log holds (R374, R377). Every other byte, every
register and all else of the member reads as before. R55, R354: `stw` to a DET page stores to the shadow entry, and to a COLL
page contributes the word of its rank. That a message whose route is free is applied in the step that sends it is the model's choice
(log 24). -/
def Obligations.ScalarStores : Prop :=
  ∀ (s : State) (d a : Reg) (off : BitVec 14), readable a s = true → readable d s = true → direct s = true → canonical s = true →
  let ea := (rawReg s a + off.signExtend 64).toNat
  runs s.me s.me.cur.launch s.me.cur.member = true → entryFree s = true →
  let v := (rawReg s d).toNat
  (∀ p ∈ ([(.stb d a off, 1), (.sth d a off, 2), (.stw d a off, 4), (.std d a off, 8)] : List (Instr × Nat)),
  ∀ spots, ea % p.2 = 0 → accessNow (accessFoot .write ea p.2) s = true →
    resolve { dir := .write, det := p.2 == 4, coll := p.2 == 4 } ea p.2 s = .ok spots → plainSpots spots = true →
    ∃ t, exec p.1 s = .next (stepStop (ctx s).pc t) ∧
      -- the stored bytes
      (∀ n off', spots = [(.spad n off', p.2)] → (readSpots t spots).1 = natToBytes p.2 v) ∧
      (∀ leaf key, spots = [(.mem leaf key, p.2)] →
        (leafOrd leaf = 1 → (readSpots t spots).1 = natToBytes p.2 v) ∧
        (leafOrd leaf ≠ 1 → cxlDead key s = true →
          ∃ x ∈ vat (k := 2) t.me.m.losses (streamIdx s.cur), x.cause = .remoteStoreLost ∧ x.addr = key ∧ x.size = p.2) ∧
        (leafOrd leaf = 0 → cxlDead key s = false → spotsFree spots s = true → storeRead t.mem key p.2 = natToBytes p.2 v) ∧
        (leafOrd leaf ≠ 1 → cxlDead key s = false → storeRead t.mem key p.2 = natToBytes p.2 v ∨
          ∃ m ∈ t.inFlight, m.who = me s ∧ m.route = keyRoute key s ∧ m.body = .write key (natToBytes p.2 v) false)) ∧
      -- the frame
      (∀ q, inQuadOf s q = true → covers spots q = false → byteAt t q = byteAt s q) ∧
      t.me.m = { s.me.m with streams := t.me.m.streams, losses := t.me.m.losses, age := t.me.m.age } ∧
      (∀ st, st ≠ s.cur → memberCtx t.me.m st = memberCtx s.me.m st) ∧
      ctx t = { sequenced 1 (ctx s) with written := (ctx t).written } ∧
      t.launches = s.launches ∧ (uncached t).pkgs = (uncached s).pkgs ∧ (uncached t).dies = (uncached s).dies ∧
      t.links = s.links ∧ t.agenda = s.agenda) ∧
  (∀ leaf key, ea % 4 = 0 → accessNow (accessFoot .write ea 4) s = true →
    resolve { dir := .write, det := true, coll := true } ea 4 s = .ok [(.mem leaf key, 4)] →
    (∀ e, leafDet leaf = true → routeFree (accessClass leaf 4 s) (keyRoute key s) s = true →
      detStore (leafDetw leaf) ((rawReg s d).setWidth 32) = .ok e →
      ∃ t, exec (.stw d a off) s = .next (stepStop (ctx s).pc t) ∧ storeRead t.mem key 32 = natToBytes 32 (detEncode e)) ∧
    (∀ c r w, leafDet leaf = false → leafColl leaf = true → findColl (leafCollid leaf) s = some c → c.aborted = false →
      collWord c key s = some (r, w) → routeFree (accessClass leaf 4 s) (keyRoute key s ++ weftRoute key c s) s = true →
      ∃ t, exec (.stw d a off) s = .next (stepStop (ctx s).pc t) ∧ t.mem = s.mem ∧
        Instr.collContribution (leafCollid leaf) r w ((rawReg s d).setWidth 32) ∈ t.agenda))

/-- R236, R311, R312: the windows and the canonical form, and the checks of a leaf, for an access of one page part. R318: a page
of shadow entries takes whole words alone.
R95: an access that is not aligned faults MISALIGNED with its address. -/
def Obligations.AddressChecks : Prop :=
  (∀ (s : State) (a : Acc) (va n : Nat),
  let off := va % 2 ^ 56
  (va / 2 ^ 56 = 0xFE → (resSpad s < off + n ∨ resSpad s ≤ off) → resolvePart a va n s = failAt .windowRange va) ∧
  (va / 2 ^ 56 = 0xFE → 1 ≤ n → off + n ≤ resSpad s → s.me.buffers = [] → resolvePart a va n s = .ok (.spad s.me.idx off)) ∧
  (va / 2 ^ 56 ≠ 0xFE → va / 2 ^ 56 ≠ 0xFD → 2 ^ 52 ≤ va → resolvePart a va n s = failAt .noncanonical va) ∧
  (∀ e lvl, va < 2 ^ 52 → translate va s = .ok (e, lvl) →
    (leafTier e = 2 → resolvePart a va n s = failAbsent .tierFault va) ∧
    (leafTier e ≠ 2 → permitted a e = false → resolvePart a va n s = failAt .permission va) ∧
    (leafTier e ≠ 2 → permitted a e = true → leafDet e = false →
      resolvePart a va n s = .ok (.mem e (memKey s.me.pkg (leafFrame e + va % pageSize lvl)))) ∧
    (leafTier e ≠ 2 → permitted a e = true → leafDet e = true → va % 4 ≠ 0 ∨ n % 4 ≠ 0 → resolvePart a va n s = failAt .permission va))) ∧
  (∀ (s : State) (d a : Reg) (off : BitVec 14), readable a s = true → readable d s = true → direct s = true →
  let ea := (rawReg s a + off.signExtend 64).toNat
  ∀ p ∈ ([(.ldh d a off, 2), (.ldhn d a off, 2), (.ldw d a off, 4), (.ldwn d a off, 4), (.ldd d a off, 8),
      (.sth d a off, 2), (.stw d a off, 4), (.std d a off, 8)] : List (Instr × Nat)), ea % p.2 ≠ 0 →
    exec p.1 s = .next (takeFault s.cur (ctx s).pc (if s.cur = .s then 0 else 1)
      { cause := .misaligned, addr := BitVec.ofNat 64 ea } s))

/-! ### Control and status registers, streams and events (R97 to R109) -/

/-- R97, R98: the CSRs read as the table says; a flag register is read once the stream's own queue is empty. -/
def Obligations.CsrReads : Prop :=
  ∀ (s : State) (d : Reg), queueQuiet s.cur s = true →
  let c := s.me.m.csrs
  (∀ p ∈ ([(0x000, BitVec.ofNat 64 s.me.cur.member), (0x001, BitVec.ofNat 64 (coreid s.me s)),
      (0x002, BitVec.ofNat 64 (launchdims (packet s))), (0x003, c.vstatus.zeroExtend 64), (0x004, c.atomflags.zeroExtend 64),
      (0x005, c.retmode.zeroExtend 64), (0x006, c.srseed), (0x007, c.profile.zeroExtend 64), (0x008, c.evcause),
      (0x009, c.evpc.zeroExtend 64), (0x00A, BitVec.ofNat 64 (boundPs s)), (0x00B, c.evdl)] : List (BitVec 12 × Word)),
    ∃ t, exec (.csrr d p.1) s = .next (stepStop (ctx s).pc t) ∧ WroteReg 1 d p.2 s t) ∧
  (∀ n : BitVec 12, 0x00B < n.toNat → exec (.csrr d n) s = .next (takeFault s.cur (ctx s).pc 0 { cause := .reservedField } s))

/-- R97, R98: a write changes its CSR alone, and `csrx` returns the old value; a read-only CSR and a reserved bit
fault RESERVED_FIELD. A deadline in the past raises its event instead. R29, R98: a write of `srseed` seeds the three
converters, of `retmode` sets the return mode; each waits for what is outstanding. -/
def Obligations.CsrWrites : Prop :=
  (∀ (s : State) (d a : Reg), readable a s = true → queueQuiet s.cur s = true →
  let v := rawReg s a
  let set : (Csrs → Csrs) → State := fun f => modM (fun m => { m with csrs := f m.csrs }) s
  (∀ p ∈ ([(3, 5, s.me.m.csrs.vstatus.zeroExtend 64, set fun c => { c with vstatus := v.setWidth 5 }),
      (4, 4, s.me.m.csrs.atomflags.zeroExtend 64, set fun c => { c with atomflags := v.setWidth 4 }),
      (7, 4, s.me.m.csrs.profile.zeroExtend 64, set fun c => { c with profile := v.setWidth 4 }),
      (9, 24, s.me.m.csrs.evpc.zeroExtend 64, set fun c => { c with evpc := v.setWidth 24 })] : List (BitVec 12 × Nat × Word × State)),
    (v.toNat < 2 ^ p.2.1 →
      exec (.csrw a p.1) s = .next (retire 1 p.2.2.2) ∧ exec (.csrx d a p.1) s = .next (retire 1 (wr d p.2.2.1 p.2.2.2))) ∧
    (2 ^ p.2.1 ≤ v.toNat → exec (.csrw a p.1) s = .next (takeFault s.cur (ctx s).pc 0 { cause := .reservedField } s))) ∧
  (∀ n ∈ ([0, 1, 2, 8, 0xA] : List (BitVec 12)),
    exec (.csrw a n) s = .next (takeFault s.cur (ctx s).pc 0 { cause := .reservedField } s) ∧
    exec (.csrx d a n) s = .next (takeFault s.cur (ctx s).pc 0 { cause := .reservedField } s)) ∧
  (timeNs s < v.toNat → exec (.csrw a 0xB) s = .next (retire 1 (set fun c => { c with evdl := v }))) ∧
  (v.toNat ≤ timeNs s →
    exec (.csrw a 0xB) s = .next (retire 1 (raiseEvent .deadline 0 (set fun c => { c with evdl := 0xFFFFFFFFFFFFFFFF#64 }))))) ∧
  (∀ (s : State) (a : Reg), readable a s = true →
  let v := rawReg s a
  (drawsDone s.me.m = true → ∃ g : Vector Word 3,
    exec (.srseedWrite a) s = .next (retire 1 (modM (fun m => { m with csrs := { m.csrs with srseed := v }, gens := g }) s)) ∧
    ∀ c : Fin 3, let x := v ^^^ BitVec.ofNat 64 (s.me.cur.member * 256) ^^^ BitVec.ofNat 64 c.val
      g[c] = if x = 0 then 0x9E3779B97F4A7C15#64 else x) ∧
  (returnsArrived s.me.m = true → v.toNat < 2 →
    exec (.retmodeWrite a) s = .next (retire 1 (modM (fun m => { m with csrs := { m.csrs with retmode := v.setWidth 1 } }) s))))

/-- R99: `trap` ends its stream with fault TRAP, which records the immediate and the position; once every older
instruction is performed, the fault is delivered to the host and the member stops. -/
def Obligations.TrapFaults : Prop :=
  ∀ (s : State) (code : BitVec 14),
  decodeWords (0x3C000000#32 ||| code.zeroExtend 32) none = .ok (.trap code) ∧
  exec (.trap code) s =
    .next (takeFault s.cur (ctx s).pc 0 { cause := .trap, detail := code.toNat } (setCtx (sequenced 1 (ctx s)) s)) ∧
  (ownEmpty s.cur s = true → ∃ t r, exec (.trap code) s = .next t ∧ HostEvent.fault r ∈ t.hostLog ∧ r.cause = .trap ∧
      r.detail = code.toNat ∧ r.pos = (ctx s).pc ∧ r.who = ⟨s.me.cur.launch, s.me.cur.member, s.cur⟩ ∧ (∀ st, (memberCtx t.me.m st).stopped = true))

/-- R367 to R369: a fault of an instruction stops every stream of its member, is recorded with its position, cause,
origin and address for the launch and the host, and begins the stop of the launch; no register, no tile and no
memory changes. A fault that a sequencer finds while older entries of its queue stand waits for them. R325: a fault
on a page that the host registered as on demand stops the member alone; its launch runs on. -/
def Obligations.FaultTaken : Prop :=
  (∀ (s : State) (st : Stream) (pos : CodePos) (o : BitVec 2) (f : Trouble) (l : Launch),
  findLaunch s.me.cur.launch s = some l → l.phase = .running → isDemand f = false →
  let t := takeFault st pos o f s
  let r := recordOf s st pos o f
  (∃ ss fd dm ls ag lg, t = { s with
    me := { s.me with m := { s.me.m with streams := ss, found := fd, demand := dm } }, launches := ls, agenda := ag, hostLog := lg }) ∧
  (∀ su, (memberCtx t.me.m su).regs = (memberCtx s.me.m su).regs ∧ (memberCtx t.me.m su).poison = (memberCtx s.me.m su).poison ∧
    (memberCtx t.me.m su).loops = (memberCtx s.me.m su).loops ∧ (memberCtx t.me.m su).pc = (memberCtx s.me.m su).pc) ∧
  r.cause = f.cause ∧ r.pos = pos ∧ r.origin = o ∧ r.addr = f.addr ∧ r.who = ⟨s.me.cur.launch, s.me.cur.member, st⟩ ∧
  (o ≠ 0 ∨ s.me.m.perform.isSome ∨ ownEmpty st s = true →
    (∀ su, (memberCtx t.me.m su).stopped = true) ∧ HostEvent.fault r ∈ t.hostLog ∧
    Instr.gangPreemption l.number ∈ t.agenda ∧
    ∃ x, findLaunch s.me.cur.launch t = some x ∧ x.phase = .stopping ∧ x.cause = some f.cause ∧ r ∈ x.records) ∧
  (o = 0 → s.me.m.perform = none → ownEmpty st s = false →
    t.launches = s.launches ∧ t.hostLog = s.hostLog ∧ (memberCtx t.me.m st).state = (if (memberCtx s.me.m st).state = .idle then .idle else .stalled) ∧
    ∃ x ∈ t.me.m.found, x.1.who.stream = st)) ∧
  (∀ (s : State) (st : Stream) (pos : CodePos) (f : Trouble), isDemand f = true →
  onDemandHas s.me.cur.ctx f.addr.toNat s = true →
    takeFault st pos 1 f s = modM (fun m => { m with
      streams := m.streams.map (fun c => { c with stopped := true }), demand := some (recordOf s st pos 1 f) }) s)

/-- R101 to R103, R228: `join` completes when the streams it names are idle with empty queues; `exit` idles M, V and
C, and for S waits for them and ends the member; `yield` completes. R100: `fork` waits for an idle stream, writes
its s1 and s2 and starts it at the target with an empty loop stack. R102: when the last member of a launch ends, the
launch ends, and the host is told. -/
def Obligations.StreamControl : Prop :=
  (∀ (s : State) (m v c : Bool),
  let quiet : Stream → Prop := fun st => (memberCtx s.me.m st).state = .idle ∧ queueQuiet st s = true
  ((m || v || c) = true → (m = true → quiet .m) → (v = true → quiet .v) → (c = true → quiet .c) →
    exec (.join m v c) s = .next (retire 1 s)) ∧
  exec .yield s = .next (retire 1 s) ∧
  (s.cur ≠ .s → exec .exit s = .next (stepStop (ctx s).pc (setCtx { sequenced 1 (ctx s) with state := .idle } s))) ∧
  (s.cur = .s → quiet .m → quiet .v → quiet .c →
    exec .exit s = .next (stepStop (ctx s).pc (endLaunchIfDone (modM (fun m => { m with ended := true }) (setCtx { ctx s with state := .idle } s)))))) ∧
  (∀ (s : State) (stream : Stream) (a b : Reg) (target : CodePos) (l : Vector Word32 16),
  readable a s = true → readable b s = true → stream ≠ .s → stream ≠ s.cur → fetchLine stream target s = .ok l →
  (memberCtx s.me.m stream).state = .idle →
  ∃ t, exec (.fork stream a b target) s = .next (stepStop (ctx s).pc t) ∧ OnlyForked stream s t ∧
    ctx t = sequenced 2 (ctx s) ∧
    (let c := memberCtx t.me.m stream
     c.pc = target ∧ c.line = l ∧ c.pend = .run ∧ c.state = .running ∧ c.loops = [] ∧
     (∀ r : Reg, vat (k := 5) c.regs r =
       if r = 1 then rawReg s a else if r = 2 then rawReg s b else vat (k := 5) (memberCtx s.me.m stream).regs r))) ∧
  (∀ (s : State) (l : Launch), myLaunch s = some l → l.number = s.me.cur.launch →
  let ended := ((allCores s).filter fun c => c.cur.state == .active && c.cur.launch == l.number && c.m.ended).length
  (ended = packetMembers l.packet →
    HostEvent.ended l.number ∈ (endLaunchIfDone s).hostLog ∧
    (∃ x, myLaunch (endLaunchIfDone s) = some x ∧ x.phase = .ended) ∧
    ∀ b ∈ (endLaunchIfDone s).podBoards, ∀ q ∈ podBoardsOf l, b.1 ≠ q.1) ∧
  (ended ≠ packetMembers l.packet → endLaunchIfDone s = s))

/-- R105, R106, R109: `catch` registers a checked handler or removes one, `evmask` replaces the mask and returns the
old one, `evret` goes back to `evpc` with the loop stack that the handler set aside. R107, R108: the pending event
of lowest class is delivered to S: `evpc` and `evcause` saved, the loop stack set aside, control at the handler; one of a
class without a handler is discarded, by the model's reading with all that its queue holds in the one step (log 32), and an
uncaught tier miss faults. A deadline that is reached raises its event once. -/
def Obligations.Events : Prop :=
  (∀ (s : State) (cls : EvClass) (handler : CodePos) (d : Reg) (mask : BitVec 4),
  let put : CodePos → State := fun h => modM (fun m => { m with events := { m.events with
    handlers := vput (k := 2) m.events.handlers (classIdx cls) h } }) s
  exec (.catchEv cls 0) s = .next (retire 2 (put 0)) ∧
  (∀ l, fetchLine .s handler s = .ok l → exec (.catchEv cls handler) s = .next (retire 2 (put handler))) ∧
  exec (.evmask d mask) s = .next (retire 1 (modM (fun m => { m with events := { m.events with mask := mask } })
    (wr d (s.me.m.events.mask.zeroExtend 64) s))) ∧
  (s.me.m.events.inHandler = false → exec .evret s = .next (takeFault s.cur (ctx s).pc 0 { cause := .notInHandler } s)) ∧
  (∀ l, s.cur = .s → undebugged s = true → s.me.m.events.inHandler = true → targetLine s.me.m.csrs.evpc s = .ok l →
    ∃ t, exec .evret s = .next t ∧ (ctx t).pc = s.me.m.csrs.evpc ∧ (ctx t).loops = s.me.m.events.aside ∧
      (ctx t).regs = (ctx s).regs ∧ t.me.m.events = { s.me.m.events with inHandler := false, aside := [], asideArrived := none } ∧
      t.me.m.csrs = s.me.m.csrs ∧ t.mem = s.mem)) ∧
  (∀ (s : State) (cls : EvClass) (detail : BitVec 56) (rest : List (BitVec 56)), s.cur = .s → undebugged s = true →
  mayTake s = true →
  let h := vat (k := 2) s.me.m.events.handlers (classIdx cls)
  (pendingClass s.me.m = some cls → vat (k := 2) s.me.m.events.queues (classIdx cls) = detail :: rest → h ≠ 0 →
    ∃ t, exec .eventDelivery s = .next t ∧
      (ctx t).pc = h ∧ (ctx t).pend = .enter ∧ (ctx t).loops = [] ∧ (ctx t).regs = (ctx s).regs ∧
      t.me.m.csrs = { s.me.m.csrs with evpc := (ctx s).pc,
                                       evcause := evcauseWord cls (s.me.m.events.lost.getLsbD (classIdx cls).toNat) detail } ∧
      t.me.m.events.inHandler = true ∧ t.me.m.events.aside = (ctx s).loops ∧
      vat (k := 2) t.me.m.events.queues (classIdx cls) = rest ∧ t.mem = s.mem) ∧
  (pendingClass s.me.m = some cls → cls ≠ .tier → h = 0 → (vat (k := 2) s.me.m.events.queues (classIdx cls)).length ≤ 16 →
    ∃ t, exec .eventDelivery s = .next t ∧ vat (k := 2) t.me.m.events.queues (classIdx cls) = [] ∧ t.mem = s.mem) ∧
  (pendingClass s.me.m = some .tier → vat (k := 2) s.me.m.events.handlers (classIdx .tier) = 0 →
    exec .eventDelivery s = .next (takeFault .s (ctx s).pc 0 { cause := .tierMissUncaught } (modM (discardEvents 1 .tier) s))) ∧
  (s.me.m.csrs.evdl ≠ 0xFFFFFFFFFFFFFFFF#64 → s.me.m.csrs.evdl.toNat ≤ timeNs s →
    exec .evdlDeadline s = .next (raiseEvent .deadline 0 (modM (fun m => { m with csrs := { m.csrs with evdl := 0xFFFFFFFFFFFFFFFF#64 } }) s))))

/-! ### Ordering, rings, handles and barriers (R104, R176 to R187) -/

/-- R104, R177, R178: a fence whose covered set is performed completes, a release at `die` or wider having applied
the quad's combined writes at their homes; covered losses fault it, of whichever kind it is, first those of writes, and
those reported are gone (R374); `qfence` completes once everything older in the
queues it names is performed, and its marks then bound what later fences of the stream cover (R176). -/
def Obligations.FencesComplete : Prop :=
  ∀ (s : State) (scope : Scope) (queues : BitVec 4),
  (Covered scope s →
    exec (.fence .acq scope) s = .next (retire 1 (ordered s)) ∧
    exec (.fence .rel scope) s = .next (retire 1 (released scope s)) ∧
    exec (.fence .full scope) s = .next (retire 1 (released scope s)) ∧
    (wide scope = true → combined (released scope s) = [])) ∧
  (∀ l rest, queueDone s = true → behindMark s = false → AllDelivered s → coveredLosses scope s = l :: rest →
    let c := if (l :: rest).any (fun x => x.cause == .remoteStoreLost) then .remoteStoreLost else l.cause
    let ls := (l :: rest).filter fun x => x.cause == c
    let faulted : State → Host.Outcome State Fault Refusal := fun t => .next (takeFault s.cur (ctx s).pc 0
      { cause := c, addr := BitVec.ofNat 64 (ls.head?.getD l).addr, lost := ls } (clearLosses scope c t))
    exec (.fence .acq scope) s = faulted s ∧
    ((∀ w ∈ combined s, cxlDead w.key s = false) →
      exec (.fence .rel scope) s = faulted (released scope s) ∧ exec (.fence .full scope) s = faulted (released scope s)) ∧
    (∀ x ∈ coveredLosses scope (clearLosses scope c s), x.cause ≠ c)) ∧
  (queues ≠ 0 → (ctx s).mark = none → (∀ st : Stream, flag queues (3 - st.code) = true → queueQuiet st s = true) →
    ∃ c, exec (.qfence queues) s = .next (retire 1 (setCtx c s)) ∧ c = { ctx s with carried := c.carried } ∧
      ∀ st : Stream, vat (k := 2) c.carried (streamIdx st) =
        if flag queues (3 - st.code) then s.me.m.age else vat (k := 2) (ctx s).carried (streamIdx st)) ∧
  (queues = 0 → exec (.qfence queues) s = .next (takeFault s.cur (ctx s).pc 0 { cause := .reservedField } s))

/-- R179 to R183: claiming, filling, waiting for and freeing a slot of a local ring that no proxy is bound to. -/
def Obligations.LocalRings : Prop :=
  ∀ (s : State) (d : Reg) (k : KIdx), k.toNat < resRings s →
  let r := ringOf s.me.m k
  let addr : Nat → Word := fun n => BitVec.ofNat 64 (r.base.toNat + n * ringBytes r)
  let put : Ring → State := fun x => modM (fun m => { m with rings := vput (k := 4) m.rings k x }) s
  ringSet r = true → ringRemote r = false → r.bound = none →
  (slotState r r.tail = .free →
    exec (.rclaim d k) s = .next (retire 1 (wr d (addr r.tail) (ordered (put { r with
      slots := setNth r.slots r.tail .claimed, tail := (r.tail + 1) % ringCount r, claims := r.claims ++ [r.tail] }))))) ∧
  (∀ n, oldestClaim r = some n → Covered .core s →
    exec (.rfill d k) s = .next (retire 1 (wr d (BitVec.ofNat 64 n) (put { r with
      slots := setNth r.slots n .filled, claims := r.claims.filter (· != n), reserved := r.reserved.filter (· != n) })))) ∧
  (slotState r r.head = .filled →
    exec (.rwait d k) s = .next (retire 1 (wr d (addr r.head) (ordered (put { r with
      slots := setNth r.slots r.head .held, head := (r.head + 1) % ringCount r, holds := r.holds ++ [r.head] }))))) ∧
  (∀ n rest, r.holds = n :: rest → r.mfrom = [] → Covered .core s →
    exec (.rfree d k) s = .next (retire 1 (wr d (BitVec.ofNat 64 n) (put { r with
      slots := setNth r.slots n .free, holds := r.holds.filter (· != n) })))) ∧
  (r.claims = [] → exec (.rfill d k) s = .next (takeFault s.cur (ctx s).pc 0 { cause := .ringConfig } s)) ∧
  (r.holds = [] → exec (.rfree d k) s = .next (takeFault s.cur (ctx s).pc 0 { cause := .ringConfig } s))

/-- R179, R180, R183: `rset` configures a local ring in the scratchpad and releases one whose slots are all FREE;
`rstat` reports it; a register beyond the reservation is RING_CONFIG. R182: a fill of a proxy's slot, and the credit
of a freed slot, reach the other end's ring. -/
def Obligations.RingRegisters : Prop :=
  (∀ (s : State) (d a b : Reg) (k : KIdx), readable a s = true → readable b s = true →
  let r := ringOf s.me.m k
  let base := rawReg s a
  let cfg := rawReg s b
  let put : Ring → State := fun x => modM (fun m => { m with rings := vput (k := 4) m.rings k x }) s
  (k.toNat < resRings s →
    (allFree r = true → ringNamed k s.me.m = false → r.bound = none →
      (cfg = 0 → exec (.rset a b k) s = .next (retire 1 (put Ring.unconfigured))) ∧
      (ringCfgOk cfg = true → flag cfg 47 = false → ringSet r = false → base.toNat / 2 ^ 56 = 0xFE → base.toNat % 64 = 0 →
        base.toNat % 2 ^ 56 + (bits cfg 39 32 + 1) * bits cfg 20 0 ≤ resSpad s → s.colls = [] →
        exec (.rset a b k) s = .next (retire 1 (put { Ring.unconfigured with
          cfg := cfg, base := base, slots := List.replicate (bits cfg 39 32 + 1) .free })))) ∧
    (allFree r = false → exec (.rset a b k) s = .next (takeFault s.cur (ctx s).pc 0 { cause := .ringConfig } s)) ∧
    exec (.rstat d k) s = .next (retire 1 (wr d (BitVec.ofNat 64 (ringStatus r)) s)) ∧
    (ringSet r = false → ringStatus r = 0)) ∧
  (resRings s ≤ k.toNat → ∀ i ∈ ([.rset a b k, .rstat d k, .rclaim d k, .rfill d k, .rwait d k, .rfree d k] : List Instr),
    exec i s = .next (takeFault s.cur (ctx s).pc 0 { cause := .ringConfig } s))) ∧
  (∀ (s : State) (d : Reg) (k pk : KIdx) (l m n : Nat) (rest : List Nat), k.toNat < resRings s → Covered .sys s →
  let r := ringOf s.me.m k
  let u := released .sys s
  ringSet r = true → r.bound = some (.proxy l m pk) → r.mfrom = [] →
  (ringRemote r = true → oldestClaim r = some n →
    exec (.rfill d k) s = .next (retire 1 (wr d (BitVec.ofNat 64 n)
      (modMember l m (modRing pk (setSlot n .filled)) (modM (modRing k (fillSlot n)) u))))) ∧
  (ringRemote r = false → r.holds = n :: rest →
    exec (.rfree d k) s = .next (retire 1 (wr d (BitVec.ofNat 64 n)
      (modMember l m (modRing pk (setSlot n .free)) (modM (modRing k (freeSlot n)) u))))))

/-- R184, R185: a buffer of the core's own scratchpad is registered, at once, with the core as its holder; once the core's
accesses to it are performed and the target has room, and the covered set is performed at `quad`, the target becomes the
holder and finds the handle in its inbox, from which `htake` takes it. The holder of a registered buffer hands it on, and the
owner that holds it takes it back once its accesses to it are performed. A buffer that is not in the reservation or meets
another, or a target that is no member of the launch in the quad, is WINDOW_RANGE, as is a handle that is not in form, by the
model's choice (log 11); a handle that another core holds, or an unregistered one
of another core, HANDLE_NOT_HELD; a 17th buffer, HANDLE_TABLE_FULL. -/
def Obligations.BufferHandles : Prop :=
  (∀ (s : State) (a : Reg) (target : BitVec 2), readable a s = true →
  let h := rawReg s a
  let off := handleOff h
  let len := handleLen h
  let own := handleOwner h = s.me.idx
  let faults : Cause → Prop := fun c => exec (.hgive a target) s = .next (takeFault s.cur (ctx s).pc 0 { cause := c } s)
  let new := ∀ o, sibling s (handleOwner h) = some o → ∀ b ∈ o.buffers, b.handle ≠ h
  let room := off + len ≤ resSpad s ∧ ∀ b ∈ s.me.buffers, meets off len (handleOff b.handle) (handleLen b.handle) = false
  let member : Core → Prop := fun c => (c.cur.state = .active ∨ c.cur.state = .ready) ∧ c.cur.launch = s.me.cur.launch
  let registered := modCore (fun x => { x with buffers := x.buffers ++ [⟨h, s.me.idx, s.me.m.age⟩] }) s
  -- the first hand-over
  (∀ c, handleWf h = true → own → sibling s s.me.idx = some s.me → new → room → s.me.buffers.length < 16 → target.toNat ≠ s.me.idx →
    sibling s target.toNat = some c → member c →
    (held (handleFoot h) registered = false → c.inbox.length < 16 → Covered .quad s →
      exec (.hgive a target) s = .next (retire 1 (updCore (fun x => inQuad x s.me.pkg s.me.die s.me.quad target.toNat)
        (fun x => { x with inbox := x.inbox ++ [h] }) (modCore (fun x => { x with buffers := x.buffers ++ [⟨h, target.toNat, s.me.m.age⟩] }) s)))) ∧
    (held (handleFoot h) registered = true ∨ 16 ≤ c.inbox.length → exec (.hgive a target) s = .next (stall registered))) ∧
  -- a registered buffer that the core holds: handed on, or taken back
  (∀ o b c, handleWf h = true → sibling s (handleOwner h) = some o → o.buffers.find? (fun x => x.handle == h) = some b → b.holder = s.me.idx →
    sibling s target.toNat = some c → member c →
    (target.toNat ≠ s.me.idx → held (handleFoot h) s = false → c.inbox.length < 16 → Covered .quad s →
      exec (.hgive a target) s = .next (retire 1 (updCore (fun x => inQuad x s.me.pkg s.me.die s.me.quad target.toNat)
        (fun x => { x with inbox := x.inbox ++ [h] })
        (updCore (fun x => inQuad x s.me.pkg s.me.die s.me.quad (handleOwner h))
          (fun x => { x with buffers := x.buffers.map fun y => if y.handle = h then { y with holder := target.toNat } else y }) s)))) ∧
    (target.toNat = s.me.idx → own → exec (.hgive a target) s = .next (if held (handleFoot h) s = true then stall s
      else retire 1 (modCore (fun x => { x with buffers := x.buffers.filter fun y => y.handle ≠ h }) s)))) ∧
  -- the refusals
  (handleWf h = false → faults .windowRange) ∧
  (∀ o b, handleWf h = true → sibling s (handleOwner h) = some o → o.buffers.find? (fun x => x.handle == h) = some b → b.holder ≠ s.me.idx →
    faults .handleNotHeld) ∧
  (handleWf h = true → new → ¬own → faults .handleNotHeld) ∧
  (handleWf h = true → new → own → ¬room → faults .windowRange) ∧
  (handleWf h = true → new → own → room → 16 ≤ s.me.buffers.length → faults .handleTableFull) ∧
  (handleWf h = true →
    (new ∧ own ∧ room ∧ s.me.buffers.length < 16) ∨
      (∃ o b, sibling s (handleOwner h) = some o ∧ o.buffers.find? (fun x => x.handle == h) = some b ∧ b.holder = s.me.idx) →
    (∀ c, sibling s target.toNat = some c → ¬member c) → faults .windowRange)) ∧
  (∀ (s : State) (d : Reg),
  (∀ x rest, s.me.inbox = x :: rest →
    exec (.htake d) s = .next (retire 1 (wr d x (ordered (modCore (fun c => { c with inbox := rest }) s))))) ∧
  (s.me.inbox = [] → exec (.htake d) s = .next (stall s)))

/-- R187: `bar` completes once its phase is over, `bara` arrives and returns the generation it joins, `bart` tests
it; of a phase that lost an arrival, or the release of this member, both are BARRIER_LOST (R377); `sys` without the host
among the participants is BARRIER_SCOPE. R186: an arrival counts once, and a phase is
complete exactly when every participant has arrived for it. -/
def Obligations.Barriers : Prop :=
  (∀ (s : State) (d a : Reg) (scope : Scope), readable a s = true →
  let me := s.me.cur.member
  let seen : Scope → State → BitVec 32 := fun sc t => BitVec.ofNat 32 (seenGen (myBarrier sc t) t.me.cur.member)
  let lost : Host.Outcome State Fault Refusal := .next (takeFault s.cur (ctx s).pc 0 { cause := .barrierLost } s)
  let g := (rawReg s a).extractLsb' 0 32
  (scope ≠ .sys ∨ hostTakesPart (packet s) = true →
    (∀ sc g, (ctx s).arrived = some (sc, g) →
      (phaseLost (myBarrier sc s) me g = true → exec (.bar scope) s = lost) ∧
      (phaseLost (myBarrier sc s) me g = false → passed (seen sc s) g = true → exec (.bar scope) s = .next (retire 1 s))) ∧
    ((ctx s).arrived = none → Covered scope s →
      let r := arrive scope (released scope s)
      phaseLost (myBarrier scope r.2) r.2.me.cur.member r.1 = false → passed (seen scope r.2) r.1 = true →
      exec (.bar scope) s = .next (retire 1 r.2)) ∧
    (Covered scope s →
      let r := arrive scope (released scope s)
      exec (.bara d scope) s = .next (retire 1 (wr d (r.1.zeroExtend 64) r.2))) ∧
    (phaseLost (myBarrier scope s) me g = true → exec (.bart d a scope) s = lost) ∧
    (phaseLost (myBarrier scope s) me g = false → exec (.bart d a scope) s = .next (retire 1
      (if passed (seen scope s) g then wr d 1 (ordered s) else wr d 0 s)))) ∧
  (scope = .sys → hostTakesPart (packet s) = false → ∀ i ∈ ([.bar scope, .bara d scope, .bart d a scope] : List Instr),
    exec i s = .next (takeFault s.cur (ctx s).pc 0 { cause := .barrierScope } s))) ∧
  (∀ (ps : List Nat) (m : Nat) (b : Barrier), m ∈ ps → (∀ p ∈ ps, b.gen ≤ arrivalCount b p) →
  let t := arriveIn ps m b
  arrivalCount t m = arrivalCount b m + 1 ∧ (∀ p, p ≠ m → arrivalCount t p = arrivalCount b p) ∧
  (∀ p ∈ ps, t.gen ≤ arrivalCount t p) ∧ (∃ p ∈ ps, arrivalCount t p = t.gen))

/-! ### Atomics, boards, reed time and bobbins (R188 to R203) -/

/-- R188 to R190: what each integer operation makes of the word m and the operand b, on n bits, and each float operation of
words of 32 bits: the rounded sum, the larger and the smaller with -0 below +0, NV and the one NaN where an operand is NaN or
infinities meet; and what an atomic does at the home of a word: on a page that is not DET the new value is stored and the old one returned, `acas`
storing only where the word equals its comparand; on a DET page `fadd32` adds exactly to the shadow entry, and `xchg` reads it
and stores anew, each under R56, whose read raises its flags where it is made; a poisoned word is left alone. -/
def Obligations.AtomicOperations : Prop :=
  (∀ (n : Nat) (m b : BitVec n), n = 32 ∨ n = 64 →
    ∀ p ∈ ([(.add, m + b), (.max, if m.toInt < b.toInt then b else m), (.min, if b.toInt < m.toInt then b else m),
        (.maxn, if m.toNat < b.toNat then b else m), (.minn, if b.toNat < m.toNat then b else m), (.and, m &&& b),
        (.or, m ||| b), (.xor, m ^^^ b), (.xchg, b)] : List (AtomOp × BitVec n)),
      atomNew p.1 n m.toNat b.toNat = (p.2.toNat, 0)) ∧
  (∀ m b : Word32,
    let gives : AtomOp → Word32 → Flags → Prop := fun o w fl =>
      (atomNew o 32 m.toNat b.toNat).1 = w.toNat ∧ condFlags (atomNew o 32 m.toNat b.toNat).2 = fl
    let sum := xadd false (x32 m) (x32 b)
    let rank : Word32 → Int := fun w => if w.getLsbD 31 then -((w.toNat % 2 ^ 31 : Nat) : Int) - 1 else w.toNat
    let nan := isNan32 m = true ∨ isNan32 b = true
    (xisNan sum = true → gives .fadd32 0x7FC00000#32 flagNV) ∧
    (xisNan sum = false → gives .fadd32 (r32 sum).1 (r32 sum).2) ∧
    (nan → gives .fmax32 0x7FC00000#32 flagNV ∧ gives .fmin32 0x7FC00000#32 flagNV) ∧
    (¬nan → gives .fmax32 (if rank m < rank b then b else m) 0 ∧ gives .fmin32 (if rank b < rank m then b else m) 0)) ∧
  (∀ (s : State) (k : AtomKind) (w : Bool) (leaf : BitVec 64) (key : Nat) (b : Word) (returns : Bool),
    let n := atomSize k w
    let m := bytesToNat (storeRead s.mem key n)
    let b' := b.toNat % 2 ^ (8 * n)
    (leafDet leaf = false → anyMark s.memPoison key n = true →
      atomAt k w leaf key b returns s = .ok ⟨s, atomOld k (8 * n) m, true, 0⟩) ∧
    (leafDet leaf = false → anyMark s.memPoison key n = false →
      (∀ o, k = .op o → atomAt k w leaf key b returns s =
        .ok ⟨homeWrite key (natToBytes n (atomNew o (8 * n) m b').1) false s, atomOld k (8 * n) m, false, (atomNew o (8 * n) m b').2⟩) ∧
      (∀ c, k = .cas c → m = c.toNat % 2 ^ (8 * n) →
        atomAt k w leaf key b returns s = .ok ⟨homeWrite key (natToBytes n b') false s, atomOld k (8 * n) m, false, 0⟩) ∧
      (∀ c, k = .cas c → m ≠ c.toNat % 2 ^ (8 * n) → atomAt k w leaf key b returns s = .ok ⟨s, atomOld k (8 * n) m, false, 0⟩)) ∧
    (leafDet leaf = true → anyMark s.memPoison key 32 = false →
      let old := detRead (leafDetw leaf) (detAt key s)
      (∀ d, k = .op .fadd32 → detAdd (leafDetw leaf) (b.setWidth 32) (detAt key s) = .ok d → ∃ c,
        atomAt k w leaf key b returns s = .ok ⟨detPut key d s, old.1.setWidth 64, false, c⟩ ∧
        condFlags c = if returns then old.2 else 0) ∧
      (∀ d, k = .op .xchg → detStore (leafDetw leaf) (b.setWidth 32) = .ok d → ∃ c,
        atomAt k w leaf key b returns s = .ok ⟨detPut key d s, old.1.signExtend 64, false, c⟩ ∧ condFlags c = old.2)))

/-- R188 to R192: an atomic whose operands are readable and whose place the checks of R190 admit, nothing being on
its way, is performed at its home, after the release of an order that has one; its flags accumulate in `atomflags`;
the old value goes to d, to the return queue, or nowhere for s0. R191: `apop` takes the oldest returned value with
its poison; with nothing outstanding it faults APOP_EMPTY. -/
def Obligations.AtomicsComplete : Prop :=
  (∀ (s : State) (d a b c : Reg) (op : AtomOp) (order : AOrder) (scope : Scope) (w : Bool) (leaf : BitVec 64) (key : Nat) (r : AtomDone),
  readable a s = true → readable b s = true → readable c s = true → undebugged s = true → AllDelivered s →
  combined s = [] → queueDone s = true → behindMark s = false → (order = .rel ∨ order = .ar → Covered scope s) →
  s.me.m.returns.length < 64 →
  let base := if order = .rel ∨ order = .ar then released scope s else s
  let placed : Nat → State := fun key =>
    let t := cachePage (noteWritten key base) (rawReg s a).toNat
    if order = .acq ∨ order = .ar then ordered t else t
  let u := modM (fun m => { m with csrs := { m.csrs with
    atomflags := m.csrs.atomflags ||| BitVec.ofNat 4 (condFlags r.conds).toNat } }) r.state
  ∀ p ∈ ([(.aop d a b op order scope w, .op op), (.acas d a b c order scope w, .cas (rawReg s c))] : List (Instr × AtomKind)),
    atomPlace p.2 w (rawReg s a).toNat s = .ok (leaf, key) →
    atomAt p.2 w leaf key (rawReg s b) (d != 0) (placed key) = .ok r →
    ∃ t, exec p.1 s = .next t ∧
      (d = 0 → r.poison = false → t = retire 2 u) ∧
      (d ≠ 0 → s.me.m.csrs.retmode = 1 → t = retire 2 (wrP d r.old r.poison u)) ∧
      (d ≠ 0 → s.me.m.csrs.retmode = 0 → ∃ x, t = retire 2 (modM (fun m => { m with returns := x }) u) ∧
        x.length = s.me.m.returns.length + 1 ∧ x.getLast?.map (·.2) = some (some (r.old, r.poison)))) ∧
  (∀ (s : State) (d : Reg),
  (∀ n v p rest, s.me.m.returns = (n, some (v, p)) :: rest →
    exec (.apop d) s = .next (retire 1 (wrP d v p (modM (fun m => { m with returns := rest }) s)))) ∧
  (s.me.m.returns = [] → exec (.apop d) s = .next (takeFault s.cur (ctx s).pc 0 { cause := .apopEmpty } s)))

/-- R195 to R197, R273: the four board instructions on a board that can be reached at once: a post of a free slot, a
look, a read through a view of the present or the last round, and a round advance. -/
def Obligations.Boards : Prop :=
  ∀ (s u : State) (d a b : Reg) (ref : BoardRef) (vm : BitVec 3) (bd : Board), readable a s = true → readable b s = true →
  AllDelivered s →
  let value := rawReg s a
  let slot := rawReg s b
  let report : Board → Bool → State → State := fun x again t =>
    retire 2 (wr d (BitVec.ofNat 64 (x.round.toNat * 2 ^ 32 + (if again then 2 ^ 31 else 0) + boardLevel x))
      (noteRound ref x.round (setView vm (some ⟨x.mask, x.round, ref⟩) (ordered t))))
  (Covered (boardScope ref) s → findBoard ref s = .ok bd → findBoard ref (released (boardScope ref) s) = .ok bd →
    useBoard ref (released (boardScope ref) s) = .ok u → boardAt ref u = .ok bd → slot.toNat < bd.p →
    (bd.mask.getLsbD slot.toNat = false → (vat (k := 6) bd.owners (BitVec.ofNat 6 slot.toNat) = none ∨
        vat (k := 6) bd.owners (BitVec.ofNat 6 slot.toNat) = some s.me.cur.member) →
      let x := postedBoard s.me.cur.member slot.toNat value bd
      exec (.bpost d a b ref vm) s = .next (report x false (putBoard ref x u))) ∧
    (bd.mask.getLsbD slot.toNat = true → vat (k := 6) bd.owners (BitVec.ofNat 6 slot.toNat) = some s.me.cur.member →
      exec (.bpost d a b ref vm) s = .next (report bd true u))) ∧
  (findBoard ref s = .ok bd → useBoard ref s = .ok u → boardAt ref u = .ok bd →
    exec (.blook d ref vm) s = .next (report bd false u) ∧
    (∀ v, slot.toNat ≤ 65 → vat (k := 3) s.me.m.views vm = some v → v.board = ref →
      (v.round = bd.round ∨ v.round + 1 = bd.round) →
      exec (.bread d b ref vm) s = .next (retire 2 (wr d
        (if slot.toNat = 64 then v.mask
         else if slot.toNat = 65 then BitVec.ofNat 64 (v.round.toNat * 2 ^ 32 + boardLevel { bd with mask := v.mask })
         else if v.mask.getLsbD slot.toNat then
          vat (k := 6) (if v.round = bd.round then bd.cur else bd.prev) (BitVec.ofNat 6 slot.toNat)
         else 0) (ordered u)))) ∧
    (bd.round = lastRound ref s → boardLevel bd = bd.p →
      exec (.bround d ref) s = .next (retire 2 (wr d ((bd.round + 1).zeroExtend 64) (noteRound ref (bd.round + 1)
        (putBoard ref { bd with round := bd.round + 1, mask := 0, prev := bd.cur, cur := Vector.replicate 64 0 } u))))) ∧
    (bd.round = lastRound ref s + 1 →
      exec (.bround d ref) s = .next (retire 2 (wr d (bd.round.zeroExtend 64) (noteRound ref bd.round u)))))

/-- R198, R199, R281: `tread` reads the time, its fraction and its bound; `twait` completes once the time has come,
and faults where the time is not LOCKED. R199, R278 to R281: a sync that the links of a die carry steers it to the reported
time, forward as a step and backward by slewing, and locks it where its worst-case error is within the limit; a sync that does not meet it steers an
unlocked die alone; a die that is not synchronised holds over, and unlocks past its bound; a `twait` ends at its time; IEEE 1588 disciplines the grandmaster of
a package in a pod that has an Ethernet port up, and Thrumub sets the epoch of one that is in none. The estimate, that a
locked die lies within 1,400 ps of the grandmaster, and that the rate is steered at once, are the model's choice (log 13). R305: at a boundary the limit of a die
moves by at most 1, down while it is above its ceiling, up while it is below its floor, and never above the ceiling it was
within. -/
def Obligations.TimeAndRamp : Prop :=
  (∀ (s : State) (d b a : Reg), readable a s = true →
  exec (.tread d b) s = .next (retire 1 (wr b (BitVec.ofNat 64 (boundPs s % 2 ^ 32 * 2 ^ 32 + counter s % 2 ^ 16))
    (wr d (BitVec.ofNat 64 (counter s / 2 ^ 16)) s))) ∧
  (timeLocked s = true → (rawReg s a).toNat ≤ counter s / 2 ^ 16 → exec (.twait a) s = .next (retire 1 s)) ∧
  (timeLocked s = true → counter s / 2 ^ 16 < (rawReg s a).toNat → exec (.twait a) s = .next (stall s)) ∧
  (timeLocked s = false → exec (.twait a) s = .next (takeFault s.cur (ctx s).pc 0 { cause := .timeUnlocked } s))) ∧
  (∀ (s : State) (pkg die time bound : Nat),
  (∀ p, findPkg pkg s = some p →
    let error := max bound (asymmetry p + 80 + (if p.inPod then p.gmBound else 0) + toPs (apart time p.gmTime))
    let steered : Die → Die := fun d => { d with count := max d.count time, slew := d.count - time, trim := -d.drift, syncAt := max d.count time }
    let carried := routeUp (hubRoute pkg die s) s = true ∧ routeDead (hubRoute pkg die s) s = false
    turnsDie (.reedSync pkg die time bound) s pkg die (fun d x =>
      let y := steered d
      (¬carried ∨ d.on = false → x = d) ∧
      (carried → d.on = true → error + toPs y.slew ≤ (if p.inPod then 40000 else 3000) → toPs (apart y.count p.gmTime) ≤ 1400 →
        x = { y with time := .locked, bound := error, lastSync := y.count }) ∧
      (carried → d.on = true → (if p.inPod then 40000 else 3000) < error + toPs y.slew ∨ 1400 < toPs (apart y.count p.gmTime) →
        x = if d.time = .unlocked then y else { d with syncAt := d.count }))) ∧
  turnsDie (.holdoverEntry pkg die) s pkg die (fun d x =>
    x = if d.time = .locked ∧ 262144000 ≤ d.count - d.lastSync then { d with time := .holdover } else d) ∧
  (∃ t, exec (.timeUnlock pkg die) s = .next t ∧ ∀ d, findDie pkg die s = some d → ∃ x, findDie pkg die t = some x ∧
    x = if d.time = .holdover ∧ 1000000 < dieBound d then { d with time := .unlocked } else d) ∧
  turnsPkg (.ieee1588Sync pkg time bound) s pkg (fun p x t => t = { s with pkgs := t.pkgs } ∧
    (p.inPod = true → p.ethUp ≠ 0 → x = { p with gmTime := time, gmBound := max bound (toPs (apart time s.podTime)) }) ∧
    (p.inPod = false ∨ p.ethUp = 0 → x = p)) ∧
  (podMember pkg s = false → turnsPkg (.packageTimeEpoch pkg time) s pkg (fun p x t => x = { p with gmTime := time } ∧
    t = { s with pkgs := t.pkgs, dies := t.dies } ∧ ∀ d, findDie pkg die s = some d → ∃ y, findDie pkg die t = some y ∧
      y = if d.on then { d with count := max d.count time, slew := d.count - time } else d)) ∧
  (∀ a, twaitAt s = some a → ready s.me .s = true → a.toNat ≤ timeNs s →
    (timeLocked s = true → exec .twaitExpiry s = .next (retire 1 { s with cur := .s })) ∧
    (timeLocked s = false → exec .twaitExpiry s =
      .next (takeFault .s (memberCtx s.me.m .s).pc 0 { cause := .timeUnlocked } { s with cur := .s })))) ∧
  (∀ (s : State) (pkg die : Nat),
  turnsDie (.rampLimitUpdate pkg die) s pkg die fun d x =>
    x = { d with ramp := x.ramp, rampAt := d.count / 32768000 * 32768000 } ∧
    x.ramp ≤ d.ramp + 1 ∧ d.ramp ≤ x.ramp + 1 ∧ (rampCeiling d s < d.ramp → x.ramp + 1 = d.ramp) ∧
    (d.ramp ≤ rampCeiling d s → x.ramp ≤ rampCeiling d s) ∧ (d.ramp < rampFloor d s → x.ramp = d.ramp + 1) ∧
    (stepWaiting pkg die s = true → d.ramp < rampCeiling d s → x.ramp = d.ramp + 1))

/-- R200 to R203: opening, waiting for and freeing a bobbin, and contributing a factor register or a vector in the
scratchpad to an OPEN one, the identity in place of inactive elements. R202, R243: the home combines a contribution
element by element, counts it, and seals the bobbin with the last one; one to a SEALED bobbin is BOBBIN_OVERFLOW, to a free or
FAULTED one BOBBIN_INVALID, and a bad address comes before both in S; a sum is rounded to FP32, a maximum keeps the
larger value. -/
def Obligations.Bobbins : Prop :=
  (∀ (s : State) (d a b : Reg) (index : BitVec 6) (kind : BobKind) (p : PIdx) (f : FIdx), readable a s = true → readable b s = true →
  direct s = true →
  let x := rawReg s a
  let y := rawReg s b
  (1 ≤ x.toNat → x.toNat ≤ 256 → bits y 31 0 ≠ 0 → bits y 63 33 = 0 → index.toNat < resBobbins s →
    (bobbinOf s.me.m index).state = .free →
    exec (.bopen d a b index kind) s = .next (retire 1 (wr d (BitVec.ofNat 64 (coreField s * 64 + index.toNat))
      (modM (setBobbin index ⟨.opened, kind, x.toNat, bits y 31 0, 0, flag y 32, List.replicate x.toNat (bobIdentity kind)⟩) s)))) ∧
  (∀ home i, bobbinName x s = .ok (home, i) → (home = s.me.cur.member ∨ AllDelivered s) →
    let bob := homeBobbin home i s
    (bob.state = .opened → plainFreg f s = true → held ⟨[.freg f], []⟩ s = false →
      exec (.bcontFreg a p f) s = .next (retire 1 (modMember s.me.cur.launch home (acceptAt i
        ((upTo bob.len).map fun n => if (predOf s p).getLsbD n then fregAt s.me.m f n else bobIdentity bob.kind)) s))) ∧
    (∀ c ∈ ([.bobbinOverflow, .bobbinInvalid] : List Cause),
      (if c = .bobbinOverflow then bob.state = .sealed else bob.state = .free ∨ bob.state = .faulted) →
      let o : BitVec 2 := if s.cur = .s then 0 else 1
      (plainFreg f s = true → held ⟨[.freg f], []⟩ s = false →
        exec (.bcontFreg a p f) s = .next (takeFault s.cur (ctx s).pc o { cause := c } s)) ∧
      (∀ vals, (s.cur ≠ .s ∨ p = 0) → y.toNat % 4 = 0 → y.toNat / 2 ^ 56 = 0xFE → y.toNat % 2 ^ 56 + 4 * bob.len ≤ resSpad s →
        held (accessFoot .read y.toNat (4 * bob.len)) s = false → bcontElements bob.kind (predOf s p) y.toNat s (upTo bob.len) = .ok vals →
        exec (.bcontMem a b p) s = .next (takeFault s.cur (ctx s).pc o { cause := c } s))) ∧
    (s.cur = .s → p = 0 → y.toNat % 4 ≠ 0 → exec (.bcontMem a b p) s =
      .next (takeFault s.cur (ctx s).pc 0 { cause := .misaligned, addr := y } s)) ∧
    (∀ vals, bob.state = .opened → (s.cur ≠ .s ∨ p = 0) → y.toNat % 4 = 0 → y.toNat / 2 ^ 56 = 0xFE →
      y.toNat % 2 ^ 56 + 4 * bob.len ≤ resSpad s →
      held (accessFoot .read y.toNat (4 * bob.len)) s = false →
      bcontElements bob.kind (predOf s p) y.toNat s (upTo bob.len) = .ok vals →
      exec (.bcontMem a b p) s = .next (retire 1 (modMember s.me.cur.launch home (acceptAt i vals) s))) ∧
    (bob.state = .sealed → exec (.bwait d a) s = .next (retire 1 (wr d 2 (ordered s)))) ∧
    (bob.state = .faulted → exec (.bwait d a) s = .next (retire 1 (wr d 3 (ordered s)))) ∧
    (bob.state = .sealed ∨ bob.state = .faulted → home = s.me.cur.member → liveSlots i s.me.m = 0 →
      exec (.bfree a) s = .next (retire 1 (modM (setBobbin i Bobbin.free) s))))) ∧
  (∀ (i : BitVec 6) (vals : List Word32) (m : Member),
  let b := bobbinOf m i
  let t := bobbinOf (acceptAt i vals m) i
  b.vals.length = b.len → b.state = .opened → b.received < b.expected →
  t.received = b.received + 1 ∧ t.kind = b.kind ∧ t.len = b.len ∧ t.expected = b.expected ∧
  (t.state = .sealed ↔ t.received = t.expected) ∧ (t.state = .opened ↔ t.received < t.expected) ∧
  (∀ n, n < b.len → nth t.vals n 0 = bobCombine b.kind (nth b.vals n 0) (nth vals n (bobIdentity b.kind))) ∧
  (∀ j, j ≠ i → bobbinOf (acceptAt i vals m) j = bobbinOf m j))

/-! ### Tiles (R110 to R151) -/

/-- R112, for a tag without blocks or a result that carries slots: the register takes the result's tag, shape and
slots; an active element is the one the instruction forms, an inactive one is kept under `merge` where tag, shape,
slots and cm agree, and is 0 otherwise. -/
def Obligations.TileWriteMask : Prop :=
  ∀ (old : Tile) (d : Dest) (p : BitVec 4096) (zero : Bool) (mode : RMode) (w : Word) (put : Nat → Word × Conds),
  blockLen d.tag = 0 ∨ pendingSlots d.slots = true →
  let t := (writeTile old d p zero mode w put).1
  t.tag = d.tag ∧ t.rows = d.rows ∧ t.cols = d.cols ∧ t.slots = d.slots ∧ t.strict = old.strict ∧
  t.elems.length = d.rows * d.cols ∧
  ∀ n, n < d.rows * d.cols → nth t.elems n 0 =
    if p.getLsbD n then (put n).1
    else if zero = false ∧ old.tag = d.tag ∧ old.rows = d.rows ∧ old.cols = d.cols ∧ old.slots = d.slots then nth old.elems n 0
    else 0

/-- R47, R111, R112, R125 to R128, R130: element-wise arithmetic on tiles whose resolves have been carried out. The
result takes the tag and shape of the first operand; each active element is the exact value of the operation,
rounded as R111 has it; integer operations wrap. -/
def Obligations.TileArithmetic : Prop :=
  ∀ (s : State) (td ta tb : Reg) (f : FIdx) (pm : PMod) (mode : RMode) (any cols : Bool) (w : Word) (u : State),
  direct s = true → undebugged s = true → hasTile td s = true → hasTile ta s = true → held ⟨[], [.tile td]⟩ s = false →
  (tileOf s ta).tag ≠ .empty →
  let a := tileOf s ta
  let b := tileOf u ta
  let two : Plan → (List XVal → XVal) → Instr → Prop := fun pl op i =>
    hasTile tb s = true → siblings any a (tileOf s tb) → isFloatTag a.tag = true → prepared pl [ta, tb] mode s = .ok (w, u) →
    held ⟨[], [.tile td]⟩ u = false → undebugged u = true → isIntTile b = false →
    exec i s = .next (tileResult 1 td (tileOf s td) ⟨b.tag, b.rows, b.cols, pl.slots u⟩ pm mode w
      (fun n => let l := laneOf op (lanesAt [valuesOf u ta, valuesOf u tb] n); putW ⟨b.tag, b.rows, b.cols, pl.slots u⟩ mode w n l.finite l.x l.extra) u)
  let ints : Plan → (Int → Int → Int) → Instr → Prop := fun pl op i =>
    hasTile tb s = true → siblings any a (tileOf s tb) → isIntTag a.tag = true → pendingSlots a.slots = false →
    pendingSlots (tileOf s tb).slots = false → prepared pl [ta, tb] mode s = .ok (w, u) →
    exec i s = .next (tileResult 1 td (tileOf s td) ⟨a.tag, a.rows, a.cols, pl.slots u⟩ pm .rne 0
      (fun n => (intCode a.tag (op ((intAt a).getD n 0) ((intAt (tileOf s tb)).getD n 0)), 0)) u)
  let one : Plan → (XVal → XVal) → Instr → Prop := fun pl op i =>
    isFloatTag a.tag = true → prepared pl [ta] mode s = .ok (w, u) →
    held ⟨[], [.tile td]⟩ u = false → undebugged u = true → isIntTile b = false →
    exec i s = .next (tileResult 1 td (tileOf s td) ⟨b.tag, b.rows, b.cols, pl.slots u⟩ pm mode w
      (fun n => let l := laneOf (fun x => op (opX x 0)) (lanesAt [valuesOf u ta] n); putW ⟨b.tag, b.rows, b.cols, pl.slots u⟩ mode w n l.finite l.x l.extra) u)
  (two (planSum ta tb s) (fun x => xadd (mode == .rdn) (opX x 0) (opX x 1)) (.vadd td ta tb pm mode any)) ∧
  (two (planSum ta tb s) (fun x => xadd (mode == .rdn) (opX x 0) (xneg (opX x 1))) (.vsub td ta tb pm mode any)) ∧
  (two (planProduct ta tb s) (fun x => xmul (opX x 0) (opX x 1)) (.vmul td ta tb pm mode any)) ∧
  (two (planNone [ta, tb]) (fun x => xmax (opX x 0) (opX x 1)) (.vmax td ta tb pm mode any)) ∧
  (two (planNone [ta, tb]) (fun x => xmin (opX x 0) (opX x 1)) (.vmin td ta tb pm mode any)) ∧
  (ints (planSum ta tb s) (· + ·) (.vadd td ta tb pm mode any)) ∧ (ints (planSum ta tb s) (· - ·) (.vsub td ta tb pm mode any)) ∧
  (ints (planNone [ta, tb]) max (.vmax td ta tb pm mode any)) ∧ (ints (planNone [ta, tb]) min (.vmin td ta tb pm mode any)) ∧
  (∀ p ∈ ([(.vexp2 td ta pm mode, xexp2), (.vlog2 td ta pm mode, xlog2), (.vrcp td ta pm mode, xdiv xone), (.vrsq td ta pm mode, xrsqrt),
      (.vsig td ta pm mode, xsig), (.vtanh td ta pm mode, xtanh), (.vabs td ta pm mode, xabs)] : List (Instr × (XVal → XVal))),
    one (planNone [ta]) p.2 p.1) ∧
  (one (planScale ta s) xneg (.vneg td ta pm mode)) ∧
  (∀ p ∈ ([(.vabs td ta pm mode, planNone [ta], fun i => (i.natAbs : Int)), (.vneg td ta pm mode, planScale ta s, fun i => -i)] :
      List (Instr × Plan × (Int → Int))),
    isIntTag a.tag = true → pendingSlots a.slots = false → prepared p.2.1 [ta] mode s = .ok (w, u) →
    exec p.1 s = .next (tileResult 1 td (tileOf s td) ⟨a.tag, a.rows, a.cols, p.2.1.slots u⟩ pm .rne 0
      (fun n => (intCode a.tag (p.2.2 ((intAt a).getD n 0)), 0)) u)) ∧
  -- x · y + z with one rounding
  (hasTile tb s = true → siblings any a (tileOf s tb) → siblings any a (tileOf s td) → isFloatTag a.tag = true →
    prepared (planNone [td, ta, tb]) [ta, tb, td] mode s = .ok (w, u) → held ⟨[], [.tile td]⟩ u = false → undebugged u = true →
    isIntTile b = false →
    exec (.vfma td ta tb pm mode any) s = .next (tileResult 1 td (tileOf s td) ⟨b.tag, b.rows, b.cols, Slots.none⟩ pm mode w
      (fun n => let l := laneOf (fun x => xadd (mode == .rdn) (xmul (opX x 0) (opX x 1)) (opX x 2)) (lanesAt [valuesOf u ta, valuesOf u tb, valuesOf u td] n)
        putW ⟨b.tag, b.rows, b.cols, Slots.none⟩ mode w n l.finite l.x l.extra) u)) ∧
  -- a scalar, a factor register
  (∀ p ∈ ([(.vadds td ta tb pm mode, planNone [ta], xadd (mode == .rdn)), (.vmuls td ta tb pm mode, planScale ta s, xmul)] :
      List (Instr × Plan × (XVal → XVal → XVal))),
    readable tb s = true → isFloatTag a.tag = true → prepared p.2.1 [ta] mode s = .ok (w, u) →
    held ⟨[], [.tile td]⟩ u = false → undebugged u = true →
    exec p.1 s = .next (tileResult 1 td (tileOf s td) ⟨b.tag, b.rows, b.cols, p.2.1.slots u⟩ pm mode w
      (fun n => let l := laneOf (fun x => p.2.2 (opX x 0) (opX x 1)) [(valuesOf u ta).getD n (.nan, 0), (x32 ((rawReg s tb).setWidth 32), 0)]
        putW ⟨b.tag, b.rows, b.cols, p.2.1.slots u⟩ mode w n l.finite l.x l.extra) u)) ∧
  (plainFreg f s = true → held ⟨[.freg f], []⟩ s = false → isFloatTag a.tag = true → prepared (planScale ta s) [ta] mode s = .ok (w, u) →
    held ⟨[], [.tile td]⟩ u = false → undebugged u = true →
    exec (.vscl td ta f pm mode cols) s = .next (tileResult 1 td (tileOf s td) ⟨b.tag, b.rows, b.cols, (planScale ta s).slots u⟩ pm mode w
      (fun n => let l := laneOf (fun x => xmul (opX x 0) (opX x 1)) [(valuesOf u ta).getD n (.nan, 0),
                  (x32 (fregAt u.me.m f (if cols then n % b.cols else n / b.cols)), 0)]
        putW ⟨b.tag, b.rows, b.cols, (planScale ta s).slots u⟩ mode w n l.finite l.x l.extra) u)) ∧
  (plainFreg f s = true → held ⟨[.freg f], []⟩ s = false → isFloatTag (tileOf s td).tag = true →
    let t := tileOf s td
    let r := drawWord 0 mode s
    let fill : (Nat → Nat) → State := fun at_ => tileResult 1 td (tileOf s td) ⟨t.tag, t.rows, t.cols, Slots.none⟩ pm mode r.1
      (fun n => putW ⟨t.tag, t.rows, t.cols, Slots.none⟩ mode r.1 n true (x32 (fregAt s.me.m f (at_ n))) 0) r.2
    exec (.vbcr td f pm mode) s = .next (fill (· / t.cols)) ∧ exec (.vbcc td f pm mode) s = .next (fill (· % t.cols)))

/-- R117, R121, R122, R129, R139: shaping, zeroing, moving, converting and transposing a tile. What a block becomes that is
zeroed or copied in part is the model's choice: it is requantised under RNE (log 39). -/
def Obligations.TileShapes : Prop :=
  ∀ (s : State) (td ta : Reg) (pm : PMod) (mode : RMode) (tag : Tag) (rows cols : BitVec 8) (w : Word) (u : State),
  direct s = true → undebugged s = true → hasTile td s = true → hasTile ta s = true → held ⟨[], [.tile td]⟩ s = false →
  let t := tileOf s td
  let a := tileOf s ta
  let r := rows.toNat + 1
  let c := cols.toNat + 1
  (legalShape tag r c = true → exec (.vshape td rows cols tag) s = .next (retire 2 (putTile td
    ⟨tag, r, c, List.replicate (r * c) 0, List.replicate (r * rowBlocks tag c) 0, Slots.none, t.strict, false⟩ s))) ∧
  (exec (.vzeroEmpty td) s = .next (retire 1 (putTile td ⟨.empty, 0, 0, [], [], Slots.none, t.strict, false⟩ s))) ∧
  (t.tag ≠ .empty → exec (.vzeroKeep td pm) s = .next (tileResult 1 td (tileOf s td) ⟨t.tag, t.rows, t.cols, Slots.none⟩ pm .rne 0 (fun _ => (0, 0)) s)) ∧
  (a.tag ≠ .empty → a.poison = false →
    (blockLen a.tag = 0 ∨ pendingSlots a.slots = true →
      exec (.vmov td ta pm) s = .next (tileResult 1 td (tileOf s td) ⟨a.tag, a.rows, a.cols, a.slots⟩ pm .rne 0 (fun n => (nth a.elems n 0, 0)) s)) ∧
    (exec (.vmov td ta pm) s = .next (wroteTile 1 td (copiedTile t a (predOf s pm.p) pm.zero) s)) ∧
    -- element (i, j) of the result is element (j, i) of ta
    (legalShape a.tag a.cols a.rows = true → pendingSlots a.slots = true ∨ blockLen a.tag = 0 →
      exec (.vtrans td ta pm) s = .next (tileResult 1 td (tileOf s td)
        ⟨a.tag, a.cols, a.rows, { rs := a.slots.cs, cs := a.slots.rs, rp := a.slots.cq, cq := a.slots.rp, cm := a.slots.cm }⟩ pm .rne 0
        (fun n => (nth a.elems (n % a.rows * a.cols + n / a.rows) 0, 0)) s)) ∧
    (pendingSlots a.slots = false → legalShape a.tag a.cols a.rows = true → blockLen a.tag ≠ 0 →
      exec (.vtrans td ta pm) s = .next (tileResult 1 td (tileOf s td) ⟨a.tag, a.cols, a.rows, { a.slots with rs := a.slots.cs, cs := a.slots.rs, rp := a.slots.cq, cq := a.slots.rp }⟩ pm .rne 0
        (fun n => let v := (tileValues a).toArray.getD (n % a.rows * a.cols + n / a.rows) (.nan, 0); ((r32 v.1).1.setWidth 64, flagConds v.2)) s))) ∧
  (a.tag ≠ .empty → legalShape tag a.rows a.cols = true → prepared (planNone [ta]) [ta] mode s = .ok (w, u) →
    held ⟨[], [.tile td]⟩ u = false → undebugged u = true →
    let b := tileOf u ta
    let d : Dest := ⟨tag, b.rows, b.cols, Slots.none⟩
    (isIntTag b.tag = true → isIntTag tag = true →
      exec (.vcvt td ta tag pm mode) s = .next (tileResult 1 td (tileOf s td) d pm mode w (fun n => intToInt tag ((intAt b).getD n 0)) u)) ∧
    ((isIntTag b.tag && isIntTag tag) = false →
      exec (.vcvt td ta tag pm mode) s = .next (tileResult 1 td (tileOf s td) d pm mode w
        (fun n => let l := laneOf (fun x => opX x 0) [(valuesOf u ta).getD n (.nan, 0)]; putW d mode w n l.finite l.x l.extra) u)))

/-- R131 to R134: predicates and selection. -/
def Obligations.Predicates : Prop :=
  ∀ (s u : State) (td ta tb : Reg) (pd pa pb p : PIdx) (pm : PMod) (cmp : VCmp) (any : Bool) (tt : BitVec 4), direct s = true →
  let holds : XVal → XVal → Bool := fun x y => match cmp with
    | .eq => xeq x y | .ne => !xeq x y | .lt => xlt x y | .le => xle x y | .gt => xlt y x | .ge => xle y x
    | .un => xisNan x || xisNan y
  (∃ x, exec (.vpset pd pa pb tt) s = .next (retire 1 (putPred pd x s)) ∧
    ∀ n, n < 4096 → x.getLsbD n = tt.getLsbD (2 * boolNat ((predOf s pa).getLsbD n) + boolNat ((predOf s pb).getLsbD n))) ∧
  (hasTile ta s = true → hasTile tb s = true → arithTag (tileOf s ta).tag = true → siblings any (tileOf s ta) (tileOf s tb) →
    carryOut (planNone [ta, tb]) [ta, tb] s = .ok u →
    (∃ x, exec (.vcmp pd ta tb pm cmp any) s = .next (retire 1 (putPred pd x u)) ∧
      ∀ n, n < 4096 → x.getLsbD n =
        if (tileOf u ta).rows * (tileOf u ta).cols ≤ n then false
        else if (predOf u pm.p).getLsbD n then holds ((valuesOf u ta).getD n (.nan, 0)).1 ((valuesOf u tb).getD n (.nan, 0)).1
        else !pm.zero && (predOf u pd).getLsbD n)) ∧
  (hasTile td s = true → hasTile ta s = true → hasTile tb s = true → (tileOf s ta).tag ≠ .empty → siblings any (tileOf s ta) (tileOf s tb) →
    carryOut (planNone [ta, tb]) [ta, tb] s = .ok u → held ⟨[], [.tile td]⟩ u = false → undebugged u = true →
    exec (.vsel td ta tb p any) s = .next (wroteTile 1 td (selectedTile (tileOf u td) (tileOf u ta) (tileOf u tb) (predOf u p)) u)) ∧
  (hasTile ta s = true → isFloatTag (tileOf s ta).tag = true → readable tb s = true → 1 ≤ (rawReg s tb).toNat → (rawReg s tb).toNat ≤ 256 →
    carryOut (planNone [ta]) [ta] s = .ok u → undebugged u = true →
    let t := tileOf u ta
    let v : Nat → XVal := fun n => ((valuesOf u ta).getD n (.nan, 0)).1
    let act := predOf u pm.p
    -- active elements of the column that rank above, or equal and in a lower row
    let before : Nat → Nat := fun n => ((List.range t.rows).filter fun r =>
      let o := r * t.cols + n % t.cols
      act.getLsbD o && (ranksAbove (v o) (v n) || (decide (o < n) && !ranksAbove (v n) (v o)))).length
    ∃ x fl, exec (.vctopk pd ta tb pm) s = .next (retire 1 (putPred pd x (flagged fl u))) ∧
      ∀ n, n < 4096 → x.getLsbD n =
        if t.rows * t.cols ≤ n then false
        else if act.getLsbD n then decide (before n < (rawReg s tb).toNat)
        else !pm.zero && (predOf u pd).getLsbD n)

/-- R48, R49, R135 to R138: reductions of a source whose checks pass. A sum goes to a tile with the lines' scale
left out of it, or to a factor register or an OPEN bobbin with every scale applied; a maximum delivers the value of
each line and `vrmaxi` its index beside it. The flags of a pending result are the model's reading (log 21); so are those of a
maximum, whose own operations raise none, while the evaluation of the slots it applies raises its own, and no PFOV (log 38). -/
def Obligations.TileReductions : Prop :=
  ∀ (s : State) (ta : Reg) (p : PIdx) (l : Lines), direct s = true → undebugged s = true → hasTile ta s = true →
  let slots := (tileOf s ta).slots
  let lines := List.range (lineCountOf l)
  let raised : State → List (Word32 × Conds) → Conds → State := fun t vs c => flagged (vs.foldl (fun c v => c ||| v.2 ||| resultConds fp32 v.1.toNat) c) t
  let tile : Bool → List Word32 → Slots → Tile → Tile := fun col vs x old =>
    { old with tag := .fp32, rows := if col then 1 else vs.length, cols := if col then vs.length else 1,
               elems := vs.map (·.setWidth 64), side := [], slots := x, poison := false }
  -- what a maximum leaves in the slots of a tile: a materialised scale of the lines without a negative factor, a cm that is not negative
  let passing : Bool → Lines × Slots := fun col =>
    let d := lineSlot col slots
    let scale := d != 0 && materialised ((ctx s).sealedAt.getD (sealedSet s.me.m)) d &&
      (if col then l.v.cs else l.v.rs).toList.all fun w => !w.getLsbD 31
    let cm := !slots.cm.getLsbD 31
    (withoutScale l scale cm, { Slots.none with rs := if scale && !col then d else 0, cs := if scale && col then d else 0,
                                                 cm := if cm then slots.cm else one32 })
  -- sums
  (∀ q ∈ ([(false, .vrsum ta p), (true, .vcsum ta p)] : List (Bool × (RedDest → Instr))),
    let sums := lines.map fun i => let c := lineSum l i; let r := appliedSum l (if rankOne slots then (rankSum l).1 else 0) i c; (r.1, flagConds r.2)
    let fl := flagConds l.v.flags ||| flagConds (if rankOne slots then (rankSum l).2 else 0)
    (∀ f, hasFreg f s = true → held ⟨[], [.freg f]⟩ s = false → linesOf ta p q.1 (.freg f 0) [.sum, .sumsq] id s = .ok l →
      exec (q.2 (.freg f 0)) s = .next (retire 2 (putFregHead f (sums.map (·.1)) (raised s sums fl)))) ∧
    -- a line without an active element gives a bobbin its identity
    (∀ b, (bobbinOf s.me.m b).kind = .sum → held ⟨[], []⟩ s = false → linesOf ta p q.1 (.bobbin b) [.sum, .sumsq] id s = .ok l →
      let given := (sums.zip lines).map fun x => if (List.range (alongCount l)).all fun k => !activeIn l x.2 k then (0, 0) else x.1
      exec (q.2 (.bobbin b)) s = .next (retire 2 (modM (acceptAt b (given.map (·.1))) (raised s given fl)))) ∧
    (∀ b, (bobbinOf s.me.m b).kind = .sumsq → held ⟨[], []⟩ s = false → linesOf ta p q.1 (.bobbin b) [.sum, .sumsq] id s = .ok l →
      let sq := lines.map fun i => let r := squareSum l i; (r.1, flagConds r.2)
      exec (q.2 (.bobbin b)) s = .next (retire 2 (modM (acceptAt b (sq.map (·.1))) (raised s sq (flagConds l.v.flags))))) ∧
    (∀ td f, hasFreg f s = false → exec (q.2 (.tile td f)) s = .next (takeFault s.cur (ctx s).pc 0 { cause := .reservedField } s)) ∧
    (∀ td f, hasTile td s = true → hasFreg f s = true →
      held ⟨[], .tile td :: if rankOne slots then [.freg f] else []⟩ s = false →
      linesOf ta p q.1 (.tile td f) [.sum, .sumsq] (withoutPassed q.1) s = .ok l →
      let out := passedSum q.1 slots
      let out := if rankOne slots then (if q.1 then { out with rp := fregSlot f } else { out with cq := fregSlot f }) else out
      let vs := lines.map fun i => (lineSum l i).1
      ∃ fl, let t := putTile td (tile q.1 vs out (tileOf s td)) (flagged fl s)
        exec (q.2 (.tile td f)) s = .next (retire 2 (if rankOne slots then putFregHead f [(rankSum l).1] t else t)))) ∧
  -- maxima
  (∀ q ∈ ([(false, .vrmax ta p), (true, .vcmax ta p)] : List (Bool × (RedDest → Instr))),
    let vs := lines.map fun i => (lineMax l i).1
    let raise : State := raised s (vs.map fun v => (v, 0)) (flagConds l.v.flags)
    (∀ f, hasFreg f s = true → held ⟨[], [.freg f]⟩ s = false → linesOf ta p q.1 (.freg f 0) [.max] id s = .ok l →
      exec (q.2 (.freg f 0)) s = .next (retire 2 (putFregHead f vs raise))) ∧
    (∀ b, held ⟨[], []⟩ s = false → linesOf ta p q.1 (.bobbin b) [.max] id s = .ok l →
      exec (q.2 (.bobbin b)) s = .next (retire 2 (modM (acceptAt b vs) raise))) ∧
    (∀ td f, hasTile td s = true → held ⟨[], [.tile td]⟩ s = false → linesOf ta p q.1 (.tile td f) [.max] id s = .ok l →
      let k := passing q.1
      let us := lines.map fun i => (lineMax k.1 i).1
      exec (q.2 (.tile td f)) s = .next (retire 2 (putTile td (tile q.1 us k.2 (tileOf s td))
        (raised s (us.map fun v => (v, 0)) (flagConds l.v.flags)))))) ∧
  (∀ f x, hasFreg f s = true → hasFreg x s = true → held ⟨[], [.freg f, .freg x]⟩ s = false →
    linesOf ta p false (.freg f x) [.max] id s = .ok l →
    exec (.vrmaxi ta p (.freg f x)) s = .next (retire 2
      (putFregHead x (lines.map fun i => (r32 (xofInt (lineMax l i).2)).1) (putFregHead f (lines.map fun i => (lineMax l i).1)
        (raised s (lines.map fun i => ((lineMax l i).1, 0)) (flagConds l.v.flags)))))) ∧
  (∀ td x, hasTile td s = true → hasFreg x s = true → held ⟨[], [.tile td, .freg x]⟩ s = false →
    linesOf ta p false (.tile td x) [.max] id s = .ok l →
    let k := passing false
    let us := lines.map fun i => (lineMax k.1 i).1
    exec (.vrmaxi ta p (.tile td x)) s = .next (retire 2
      (putFregHead x (lines.map fun i => (r32 (xofInt (lineMax k.1 i).2)).1)
        (putTile td (tile false us k.2 (tileOf s td)) (raised s (us.map fun v => (v, 0)) (flagConds l.v.flags))))))

/-- R40 to R46, R143 to R148: slots are set, read, resolved and reported. What they do to a poison bit, and the
codes of a tile left without slots, are the model's reading (log 20). -/
def Obligations.TileSlots : Prop :=
  ∀ (s : State) (td ta tb d : Reg) (desc : BitVec 32) (sel : SlotSel) (clr : Bool) (mode : RMode),
  direct s = true → undebugged s = true → hasTile td s = true → readable ta s = true → readable tb s = true →
  held ⟨[], [.tile td]⟩ s = false →
  let t := tileOf s td
  let put : Nat → Slots → State := fun len x => wroteTile len td (reslotted t x) s
  let kept : BitVec 64 → BitVec 64 := fun x => if slotKind x = 0 then 0 else x
  let one : BitVec 64 := desc ++ (if tb = 0 then one32 else (rawReg s tb).setWidth 32)
  let x := rawReg s ta
  let y := rawReg s tb
  (isFloatTag t.tag = true →
    (slotAllowed one t.rows t s → exec (.vsetrs td tb desc) s = .next (put 2 { t.slots with rs := kept one })) ∧
    (slotAllowed one t.cols t s → exec (.vsetcs td tb desc) s = .next (put 2 { t.slots with cs := kept one })) ∧
    (slotAllowed x t.rows t s → slotAllowed y t.cols t s →
      exec (.vsetrk td ta tb) s = .next (put 1 { t.slots with rp := kept x, cq := kept y })) ∧
    (slotAllowed x t.rows t s →
      exec (.vputslot td ta .rs) s = .next (put 1 { t.slots with rs := kept x }) ∧
      exec (.vputslot td ta .rp) s = .next (put 1 { t.slots with rp := kept x })) ∧
    (slotAllowed x t.cols t s →
      exec (.vputslot td ta .cs) s = .next (put 1 { t.slots with cs := kept x }) ∧
      exec (.vputslot td ta .cq) s = .next (put 1 { t.slots with cq := kept x })) ∧
    (x.toNat < 2 ^ 32 → (x.setWidth 32 = one32 ∨ t.rows * t.cols ≤ 2048) →
      exec (.vputslot td ta .cm) s = .next (put 1 { t.slots with cm := x.setWidth 32 })) ∧
    (t.poison = false → pendingSlots t.slots = false → exec (.vresolve td mode) s = .next (retire 1 (drawWord 0 mode s).2)) ∧
    (∀ v, t.poison = false → pendingSlots t.slots = true → slotsReserved s t.slots = true → slotsPoisoned s.me.m t.slots = false →
      held ⟨slotsFoot t.slots, [.tile td]⟩ s = false → evalSlots s.me.m t.slots t.rows t.cols = .ok v →
      exec (.vresolve td mode) s = .next (wroteTile 1 td (resolvedTile t v mode (drawWord 0 mode s).1) (drawWord 0 mode s).2))) ∧
  exec (.vgetslot d td sel) s = .next (retire 1 (wr d (match sel with
    | .rs => t.slots.rs | .cs => t.slots.cs | .rp => t.slots.rp | .cq => t.slots.cq | .cm => t.slots.cm.setWidth 64) s)) ∧
  exec (.vstrict td clr) s = .next (retire 1 (putTile td { t with strict := !clr } s)) ∧
  (t.tag = .empty ∨ (t.rows ≤ 256 ∧ t.cols ≤ 256) → ∃ v, exec (.vstat d td) s = .next (retire 1 (wr d v s)) ∧
    v.extractLsb' 16 5 = BitVec.ofNat 5 t.tag.code ∧ v.getLsbD 21 = t.strict ∧ v.getLsbD 22 = t.poison ∧
    v.getLsbD 23 = decide (t.slots.cm ≠ one32) ∧
    v.extractLsb' 24 8 = t.slots.cq.extractLsb' 62 2 ++ t.slots.rp.extractLsb' 62 2 ++ t.slots.cs.extractLsb' 62 2 ++ t.slots.rs.extractLsb' 62 2 ∧
    (t.tag ≠ .empty →
      v.extractLsb' 0 8 = BitVec.ofNat 8 (t.rows - 1) ∧ v.extractLsb' 8 8 = BitVec.ofNat 8 (t.cols - 1)))

/-- R140, R141: `vacc` copies a described region into an FP32 tile with its slots; `vtoacc` copies a tile into the
region of its shape, which then holds FP32 words; no other accumulator word changes. -/
def Obligations.AccumulatorCopies : Prop :=
  ∀ (s : State) (td : Reg) (a : AIdx) (pm : PMod) (d : BitVec 64), direct s = true → undebugged s = true → hasTile td s = true →
  hasRegion a s = true → (regionOf s.me.m a).desc = some d → held ⟨[regionUnit s.me.m a], []⟩ s = false →
  held ⟨[], [.tile td]⟩ s = false → held ⟨[], [regionUnit s.me.m a]⟩ s = false →
  let r := regionOf s.me.m a
  let t := tileOf s td
  let spot : Nat → Nat := fun n => 256 * (dRow0 d + n / dCols d) + dCol0 d + n % dCols d
  let word : Nat → Word32 × Flags := fun n => regionWord r.isInt (storeGet s.me.m.acc (spot n))
  (dRows d * dCols d ≤ 2048 → exec (.vacc td a pm) s = .next (tileResult 1 td (tileOf s td) ⟨.fp32, dRows d, dCols d, r.slots⟩ pm .rne 0
    (fun n => ((word n).1.setWidth 64, flagConds (word n).2 ||| resultConds fp32 (word n).1.toNat)) s)) ∧
  (isFloatTag t.tag = true → t.poison = false → t.rows = dRows d → t.cols = dCols d → (rawWords t).length = t.rows * t.cols →
    1 ≤ t.cols → dCol0 d + dCols d ≤ 256 → canonical s = true →
    ∃ acc fl, exec (.vtoacc a td pm.p) s = .next (retire 1 (modM (fun m => { m with
        acc := acc, regions := vput (k := 3) m.regions a { r with slots := t.slots, isInt := false, fresh := false } }) (flagged fl s))) ∧
      (∀ n, n < t.rows * t.cols → storeGet acc (spot n) =
        if (predOf s pm.p).getLsbD n then (nth (rawWords t) n (0, 0)).1 else (word n).1) ∧
      (∀ k, (∀ n, n < t.rows * t.cols → k ≠ spot n) → storeGet acc k = storeGet s.me.m.acc k))

/-- R117 to R120, R123: tile loads and stores of rows, of a packed block, and by an index tile: what a load
delivers, and the bytes that a store changes. The leaves used enter the caches (R320). What a partly loaded block becomes is the
model's choice: an inactive element keeps its code (log 39). -/
def Obligations.TileMemory : Prop :=
  ∀ (s : State) (td ta tb side : Reg) (pm : PMod) (tag : Tag) (rows cols : BitVec 8) (es ss : List RowAccess),
  direct s = true → nothingBefore s = true → undebugged s = true → hasTile td s = true → readable ta s = true → readable tb s = true → readable side s = true →
  held ⟨[], [.tile td]⟩ s = false →
  let r := rows.toNat + 1
  let c := cols.toNat + 1
  let base := rawReg s ta
  let t := tileOf s td
  let p := predOf s pm.p
  let reaches : List RowAccess → State → Prop := fun l u => spotsFree (rowsSpots l) u = true ∧ readWasLost (rowsSpots l) u = false
  -- vld of rows
  (inPackPage base.toNat s = false → legalShape tag r c = true →
    tileRows .read tag p r c base (rawReg s tb) (rawReg s side) s = .ok (es, ss) → reaches (es ++ ss) s →
    held (rowsFoot .read (es ++ ss)) s = false →
    let eb := readRows s (rowBytes tag c) es
    let sb := readRows s (rowBlocks tag c) ss
    rowsConds eb = 0 →
    exec (.vld td ta tb pm side tag rows cols) s = .next (retire 2 (putTile td
      (loadedTile t ⟨tag, r, c, Slots.none⟩ p pm.zero (rowsPoison eb || rowsPoison sb)
        (fun n => rowElem tag (eb.toArray.getD (n / c) ([], false, 0)).1 (n % c))
        (fun b => nth (sb.toArray.getD (b / rowBlocks tag c) ([], false, 0)).1 (b % rowBlocks tag c) 0)) (rowsDone (es ++ ss) s))) ∧
    uncached (rowsDone (es ++ ss) s) = uncached s) ∧
  -- vld of a packed block
  (∀ codes, inPackPage base.toNat s = true → (tag = .e4m3 ∨ tag = .e2m1) → r = 64 → c = 64 → base.toNat % 8 = 0 →
    readBlock tag base.toNat s = .ok codes →
    exec (.vld td ta tb pm side tag rows cols) s = .next (retire 2 (putTile td
      (loadedTile t ⟨tag, r, c, Slots.none⟩ p pm.zero false (fun n => codes.toArray.getD n 0) (fun _ => 0)) (blockCached base.toNat s))) ∧
    uncached (blockCached base.toNat s) = uncached s) ∧
  -- vst, its tile resolved: the bytes outside its rows keep their values
  (∀ x u v, t.tag ≠ .empty → (blockLen t.tag ≠ 0 ∨ side = 0) → carryOut (planNone [td]) [td] s = .ok x →
    let t := tileOf x td
    tileRows .write t.tag p t.rows t.cols base (rawReg s tb) (rawReg s side) x = .ok (es, ss) →
    held (rowsFoot .write (es ++ ss)) x = false → (isByteTag t.tag = false → reaches (es ++ ss) x) →
    plainSpots (rowsSpots es) = true → plainSpots (rowsSpots ss) = true →
    storeRows t.tag p t.cols t.elems.toArray (es.zip (List.range t.rows)) x = .ok u →
    writeRows ((ss.zip (List.range t.rows)).map fun y =>
      (y.1, runBytes y.1.runs ((t.side.drop (y.2 * rowBlocks t.tag t.cols)).take (rowBlocks t.tag t.cols)))) u = .ok v →
    let w := retire 1 (rowsDone (es ++ ss) v)
    exec (.vst td ta tb pm.p side) s = .next w ∧
    (canonical s = true → ∀ q, inQuadOf s q = true → covers (rowsSpots es ++ rowsSpots ss) q = false → byteAt w q = byteAt s q)) ∧
  -- vgather and vscat
  (let i := tileOf s tb
   let eb := elemBits t.tag / 8
   hasTile tb s = true → i.tag = .i32 → i.poison = false → isByteTag t.tag = true → i.rows = t.rows → i.cols = t.cols → base.toNat % eb = 0 →
   (∀ rs, indexRows .read t.tag p base i.elems s = .ok rs → reaches rs s → held (rowsFoot .read rs) s = false →
     rowsConds (readRows s eb rs) = 0 →
     ∃ code, exec (.vgather td ta tb pm) s = .next (retire 1 (putTile td
       (loadedTile t ⟨t.tag, t.rows, t.cols, Slots.none⟩ p pm.zero (rowsPoison (readRows s eb rs)) code (fun _ => 0)) (rowsDone rs s))) ∧
       ∀ k n, k < rs.length → ((List.range (t.rows * t.cols)).filter fun n => p.getLsbD n)[k]? = some n →
         code n = rowElem t.tag ((readRows s eb rs).toArray.getD k ([], false, 0)).1 0) ∧
   (∀ x rs u, carryOut (planNone [td]) [td] s = .ok x → i.poison = false → indexRows .write t.tag p base i.elems x = .ok rs →
     held (rowsFoot .write rs) x = false → plainSpots (rowsSpots rs) = true →
     let codes := (tileOf x td).elems
     writeRows (rs.zip (((codes.zip (List.range codes.length)).filter fun y => p.getLsbD y.2).map fun y => natToBytes eb y.1.toNat)) x = .ok u →
     let w := retire 1 (rowsDone rs u)
     exec (.vscat td ta tb pm.p) s = .next w ∧
     (canonical s = true → ∀ q, inQuadOf s q = true → covers (rowsSpots rs) q = false → byteAt w q = byteAt s q)))

/-- R124, R149 to R151: factor registers are loaded, stored and combined; `vrope` and `vsmerge` on FP32 tiles. -/
def Obligations.FactorRegisters : Prop :=
  ∀ (s : State) (td ta tb a : Reg) (fd fa fb : FIdx) (op : FOp) (pm : PMod) (mode : RMode) (w : Word) (u : State),
  direct s = true → nothingBefore s = true → undebugged s = true → readable a s = true →
  let x := (rawReg s a).toNat
  (∀ bytes poison t, hasFreg fd s = true → x % 64 = 0 → held ⟨bytesUnit x 1024, [.freg fd]⟩ s = false →
    loadBytes { dir := .read, det := true, coll := true, noPack := true } x 1024 s = .ok (bytes, poison, t) →
    ∃ f : FReg, exec (.vfld fd a) s = .next (retire 1 (putFreg fd f t)) ∧ f.poison = poison ∧
      (bytes.length = 1024 → ∀ n, n < 256 → vat (k := 8) f.vals (BitVec.ofNat 8 n) = BitVec.ofNat 32 (bytesToNat ((bytes.drop (4 * n)).take 4)))) ∧
  (∀ t spots, plainFreg fd s = true → x % 64 = 0 → held ⟨[.freg fd], bytesUnit x 1024⟩ s = false →
    let data := (fregOf s.me.m fd).vals.toList.flatMap fun v => natToBytes 4 v.toNat
    let acc : Acc := { dir := .write, det := true, coll := true, noPack := true }
    resolve acc x 1024 s = .ok spots → plainSpots spots = true → storeBytes acc x data s = .ok t →
    exec (.vfst fd a) s = .next (retire 1 t) ∧
    (canonical s = true → ∀ q, inQuadOf s q = true → covers spots q = false → byteAt (retire 1 t) q = byteAt s q)) ∧
  (hasFreg fd s = true → plainFreg fa s = true → (if isUnaryOp op then fb = 0 else plainFreg fb s = true) →
    held ⟨.freg fa :: (if isUnaryOp op then [] else [.freg fb]), [.freg fd]⟩ s = false →
    ∃ (f : FReg) (fl : Conds), exec (.vfop fd fa fb op) s = .next (retire 1 (putFreg fd f (flagged fl s))) ∧ f.poison = false ∧
      ∀ n, n < 256 →
        let y := x32 (fregAt s.me.m fa n)
        let z := x32 (fregAt s.me.m fb n)
        vat (k := 8) f.vals (BitVec.ofNat 8 n) = match op with
          | .add => (r32 (xadd false y z)).1 | .sub => (r32 (xadd false y (xneg z))).1 | .mul => (r32 (xmul y z)).1
          | .max => (r32 (xmax y z)).1 | .min => (r32 (xmin y z)).1 | .rcp => (r32 (xdiv xone y)).1 | .rsqrt => (r32 (xrsqrt y)).1
          | .mov => fregAt s.me.m fa n | .exp2 => (r32 (xexp2 y)).1 | .log2 => (r32 (xlog2 y)).1) ∧
  (hasTile td s = true → hasTile ta s = true → plainFreg fd s = true → plainFreg (fd + 1) s = true → held ⟨[.freg fd, .freg (fd + 1)], []⟩ s = false →
    isFloatTag (tileOf s ta).tag = true → (tileOf s ta).cols % 2 = 0 → prepared (planNone [ta]) [ta] mode s = .ok (w, u) →
    held ⟨[], [.tile td]⟩ u = false → undebugged u = true →
    let b := tileOf u ta
    let vs := valuesOf u ta
    ∃ lane : Nat → Lane, exec (.vrope td ta fd pm mode) s = .next (tileResult 1 td (tileOf s td) ⟨b.tag, b.rows, b.cols, Slots.none⟩ pm mode w
        (fun n => putW ⟨b.tag, b.rows, b.cols, Slots.none⟩ mode w n (lane n).finite (lane n).x (lane n).extra) u) ∧
      ∀ n, let i := n / b.cols
        let j := n % b.cols
        let th := (mul32 (fregAt u.me.m (fd + 1) i) (fregAt u.me.m fd (j / 2))).1
        let c := x32 (r32 (xcos (x32 th))).1
        let d := x32 (r32 (xsin (x32 th))).1
        let x := (vs.getD (n - j % 2) (.nan, 0)).1
        let y := (vs.getD (n - j % 2 + 1) (.nan, 0)).1
        (j % 2 = 0 → (lane n).x = xadd (mode == .rdn) (xmul x c) (xneg (xmul y d))) ∧
        (j % 2 = 1 → (lane n).x = xadd (mode == .rdn) (xmul x d) (xmul y c))) ∧
  (hasTile td s = true → hasTile ta s = true → hasTile tb s = true → (tileOf s ta).tag = .fp32 → (tileOf s tb).tag = .fp32 →
    (tileOf s tb).rows = (tileOf s ta).rows → (tileOf s tb).cols = (tileOf s ta).cols → (tileOf s ta).cols ≠ 1 →
    carryOut (planNone [ta, tb]) [ta, tb] s = .ok u → held ⟨[], [.tile td]⟩ u = false → undebugged u = true →
    let t := tileOf u ta
    let row : Reg → Nat → Nat → XVal := fun x i j => ((valuesOf u x).getD (i * t.cols + j) (.nan, 0)).1
    exec (.vsmerge td ta tb) s = .next (wroteTile 1 td (writeTile (tileOf u td) ⟨.fp32, t.rows, t.cols, Slots.none⟩ (BitVec.allOnes 4096) true .rne 0
      (fun n => let r := mergeLane (row ta (n / t.cols)) (row tb (n / t.cols)) (n - n / t.cols * t.cols)
        (r.1.setWidth 64, flagConds r.2 ||| resultConds fp32 r.1.toNat))) u))

/-! ### The matrix engine (R152 to R174) -/

/-- R152, R160 to R163, R168: the instructions that set the shadow record, and the status word. That they act when
they issue is the model's reading (log 9), as is that a poisoned image loads (log 22); each waits for room in the M queue (R231),
`mregion` for the older accesses of M as well (R96). -/
def Obligations.MatrixSetup : Prop :=
  ∀ (s : State) (a b d : Reg) (level : BitVec 3) (isB : Bool) (r : AIdx) (n : BitVec 4), readable a s = true → readable b s = true →
  readable d s = true → queueRoom .m s = true →
  let x := rawReg s a
  let y := rawReg s b
  let z := rawReg s d
  let put : (Nest → Nest) → State := fun f => modM (fun m => { m with shadow := f m.shadow }) s
  let opnd : NestOp → State := fun o => put fun q => if isB then { q with opB := o } else { q with opA := o }
  (level.toNat < 6 →
    (x.toNat < 2 ^ 32 → exec (.mnest a level) s = .next (retire 1 (put fun q => { q with n := q.n.setIfInBounds level.toNat (x.setWidth 32) }))) ∧
    (2 ^ 32 ≤ x.toNat → exec (.mnest a level) s = .next (takeFault s.cur (ctx s).pc 0 { cause := .nestConfig } s)) ∧
    (z.toNat < 2 ^ 32 → exec (.mstep d a b level) s = .next (retire 1 (put fun q => { q with
      sa := q.sa.setIfInBounds level.toNat x, sb := q.sb.setIfInBounds level.toNat y, sc := q.sc.setIfInBounds level.toNat z })))) ∧
  (x.toNat < 2 ^ 32 → exec (.mscale a) s = .next (retire 1 (put fun q => { q with s := x.setWidth 32 }))) ∧
  (exec (.mprog n) s = .next (retire 1 (put fun q => { q with prof := some n }))) ∧
  (∀ t src, hasTile t s = true → exec (.mopnd isB (.tile t src)) s = .next (retire 2 (opnd (.tile t src)))) ∧
  (∀ tag src, exec (.mopnd isB (.addr a b tag src d)) s = .next (retire 2 (opnd (.addr x y tag src (if src = .table then z else 0))))) ∧
  (∀ bytes p t q, x.toNat % 64 = 0 → queueDone s = true → behindMark s = false → held (accessFoot .read x.toNat 256) s = false →
    loadBytes { dir := .read } x.toNat 256 s = .ok (bytes, p, t) → imageNest bytes = .ok q → nestReserved q s = true →
    exec (.mloadn a) s = .next (retire 1 (modM (fun m => { m with shadow := q }) t))) ∧
  (hasRegion r s = true → behindMark s = false → accessesDone s = true → held ⟨[regionUnit s.me.m r], [regionUnit s.me.m r]⟩ s = false →
    held ⟨[], [regionRect r x]⟩ s = false →
    dRow0 x + dRows x ≤ 256 → dCol0 x + dCols x ≤ 256 → dSRows x ≤ dRows x → dSCols x ≤ dCols x → dDepth x ≠ 0 →
    exec (.mregion a r) s = .next (retire 1 (modM (fun m => { m with
      shadow := { m.shadow with dest := r },
      regions := vput (k := 3) m.regions r { vat (k := 3) m.regions r with desc := some x, slots := Slots.none, fresh := true } }) s))) ∧
  (exec .mwait s = if queueEmpty .m s.me.m = true ∧ (∀ m ∈ s.inFlight, unperformed (mine .m s) m = false) then .next (retire 1 s) else .next (stall s)) ∧
  (∃ v, exec (.mstat d) s = .next (retire 1 (wr d v s)) ∧ v.getLsbD 0 = nestBusy s.me.m ∧
    v.getLsbD 1 = decide (∃ c, s.me.m.copied = some c ∧ c ≠ s.me.m.shadow) ∧ v.getLsbD 2 = (s.me.m.mq.any isDrain || s.inFlight.any fun m => unperformed (mine .m s) m && m.bulk) ∧
    (∀ w, s.me.m.active = some w → v.extractLsb' 8 3 = w.nest.dest ∧ v.extractLsb' 12 4 = w.profile ∧
      v.extractLsb' 16 32 = BitVec.ofNat 32 (min w.done 0xFFFFFFFF)))

/-- R164 to R167, R169: the commands that enter the M queue, and those that clear a region or write its slots once
no older command uses it and the older accesses of M are performed; that these act as they issue, without an entry in the queue,
is the model's reading (log 9). -/
def Obligations.MatrixCommands : Prop :=
  ∀ (s : State) (a b : Reg) (x : Option FIdx) (r : AIdx) (sel : SlotSel) (tag : Tag) (rmode : RMode) (mode : DrainMode) (d : BitVec 64) (q : Nat),
  readable a s = true → readable b s = true → queueRoom .m s = true →
  let n := s.me.m.shadow
  let g := regionOf s.me.m r
  ((∀ f, x = some f → hasFreg f s = true) → nestBusy s.me.m = false →
    let w : Walk := ⟨n, x, 0, 0, n.n.toList.any (· == 0), (ctx s).pc⟩
    held (nestFoot w s.me.m) s = false → nestChecks n x s = .ok q →
    exec (.mgo x) s = .next (retire 1 (modM (fun m => { m with
      active := some { w with profile := BitVec.ofNat 4 q }, copied := some n, age := m.age + 1,
      mq := m.mq ++ if w.finished then [] else [.nest m.age] }) s))) ∧
  (hasRegion r s = true → behindMark s = false → accessesDone s = true →
    held ⟨[regionUnit s.me.m r], [regionUnit s.me.m r]⟩ s = false → g.desc = some d →
    (∃ acc, exec (.mzero r) s = .next (retire 1 (modM (fun m => { m with
        acc := acc, regions := vput (k := 3) m.regions r ⟨some d, Slots.none, false, true⟩ }) s)) ∧
      (canonical s = true → dCol0 d + dCols d ≤ 256 → ∀ row col, col < 256 → storeGet acc (256 * row + col) =
        if dRow0 d ≤ row ∧ row < dRow0 d + dRows d ∧ dCol0 d ≤ col ∧ col < dCol0 d + dCols d then 0
        else storeGet s.me.m.acc (256 * row + col))) ∧
    (needSlotWrite sel (rawReg s a) (dRows d) (dCols d) true s = .ok () →
      exec (.mslot a r sel) s = .next (retire 1 (modM (fun m => { m with
        regions := vput (k := 3) m.regions r { g with slots := withSlot g.slots sel (rawReg s a), fresh := false } }) s)))) ∧
  (hasRegion r s = true → g.desc = some d → (mode = .add → tag = .fp32) → (mode = .kv → tag = .e4m3) →
    (blockLen tag = 0 ∨ dCols d % blockLen tag = 0) → (rawReg s b).toNat % 32 = 0 → (mode = .kv → (rawReg s a).toNat % 32 = 0) →
    exec (.mdrain a b r tag rmode mode) s = .next (retire 2 (modM (fun m => { m with
      age := m.age + 1, mq := m.mq ++ [.drain ⟨m.age, r, rawReg s a, rawReg s b, tag, rmode, mode, false, 0, 0, (ctx s).pc⟩] }) s)))

/-- R46, R154, R158, R164: a step of the nest at the head of the M queue. Each word of the window is its dot product of a
stored row of A and one of B, added to its old value; every other word of the accumulator is as before; the region takes the
slots of the nest, the extra row its register; the walk counts, and the last step frees the engine. A fault stops at the
progress. -/
def Obligations.MatrixEngine : Prop :=
  ∀ (s : State) (a : Nat) (rest : List MEntry) (w : Walk), s.me.m.mq = .nest a :: rest → s.me.m.active = some w →
  let v := asM w.pos s
  let n := w.nest
  let p := w.profile.toNat
  let l := walkDigits w
  let g := regionOf s.me.m n.dest
  let ro := dotDigits l (n.sc.toList.map rowStep)
  let co := dotDigits l (n.sc.toList.map colStep)
  (∀ d A B Q fa fb fq, canonical s = true → undebugged s = true → g.desc = some d → dCol0 d + dCols d ≤ 256 →
    regionAgrees g (nestSlots n w.x v) (p == 5) = true → 0 ≤ ro → 0 ≤ co → ro + dSRows d ≤ dRows d → co + dSCols d ≤ dCols d →
    loadOperand false n.opA (dotDigits l (n.sa.toList.map (·.toInt))) (dSRows d) (dDepth d) v = .ok (A, fa) →
    loadOperand true n.opB (dotDigits l (n.sb.toList.map (·.toInt))) (dSCols d) (dDepth d) v = .ok (B, fb) →
    (∀ t, extraRow n v = true → opTileOf n.opA v = some t → loadExtra t v = .ok (Q, fq)) →
    let k := groupRanges p (dDepth d) A B
    let old : FIdx → Nat → Word32 := fun f m => if g.fresh && decide (m < dCols d) then 0 else fregAt s.me.m f m
    ∃ u, exec .nestStep s = .next u ∧
      (∀ i j, i < dSRows d → j < dSCols d → let at_ := regionSpot d (ro.toNat + i) (co.toNat + j)
        storeGet u.me.m.acc at_ = (dotWord p k A B i j (storeGet s.me.m.acc at_)).1) ∧
      (∀ q, (∀ i j, i < dSRows d → j < dSCols d → q ≠ regionSpot d (ro.toNat + i) (co.toNat + j)) →
        storeGet u.me.m.acc q = storeGet s.me.m.acc q) ∧
      u.me.m.regions = vput (k := 3) s.me.m.regions n.dest { g with slots := nestSlots n w.x v, isInt := p == 5, fresh := false } ∧
      (∀ f m, m < 256 → fregAt u.me.m f m =
        if extraRow n v = true ∧ w.x = some f then
          (if co.toNat ≤ m ∧ m < co.toNat + dSCols d then (dotWord p k Q B 0 (m - co.toNat) (old f m)).1 else old f m)
        else fregAt s.me.m f m) ∧
      u.me.m.active = some { w with done := w.done + 1, finished := decide (nestTotal n ≤ w.done + 1) } ∧
      u.me.m.mq = (if nestTotal n ≤ w.done + 1 then rest else s.me.m.mq) ∧
      u.me.m.tiles = s.me.m.tiles ∧ u.me.m.bobbins = s.me.m.bobbins ∧ u.me.m.preds = s.me.m.preds ∧ u.me.spad = s.me.spad ∧ u.mem = s.mem) ∧
  (∀ f, asCommand .m w.pos (performStep w) s = .error (.fault f) →
    exec .nestStep s = .next (takeFault .m w.pos 1 { f with progress := l } s))

/-- R38, R52, R169 to R172, R208: a drain. It first resolves its region, whose words become FP32 and whose slots are
gone; then it writes or adds element after element, or appends row after row, and leaves the queue. An element of a whole
number of bytes is stored at its place in the tensor, or added there, and one outside the tensor is not written; a row of
narrow elements keeps the bits of its neighbours; a scale follows its row; a KV row is rotated, quantised and appended. That the padding behind a row's last narrow element is
written as zero also without a bound, and that only written elements raise flags, is the model's reading (log 22). -/
def Obligations.DrainEffects : Prop :=
  (∀ (s : State) (dr : Drain) (rest : List MEntry) (d : BitVec 64) (h : BitVec 256), s.me.m.mq = .drain dr :: rest → dr.taken = false → dr.done = 0 →
    let v := asM dr.pos s
    let g := regionOf s.me.m dr.region
    g.desc = some d →
    (∀ sv kv, canonical s = true → undebugged s = true → dCol0 d + dCols d ≤ 256 → heldEntry (drainFoot dr v) .m dr.age v = false →
      drainRecord dr v = .ok h → (dr.mode ≠ .kv → drainRecordOk h d dr.tag = true) → (dr.mode = .kv → readAppend dr d h (wordCached [(dr.b.toNat, 32)] v) = .ok kv) →
      needClean v [g.slots] = .ok () → evalSlots v.me.m g.slots (dRows d) (dCols d) = .ok sv →
      ∃ t, asCommand .m dr.pos (startDrain dr d) s = .ok t ∧
        (∀ i j, i < dRows d → j < dCols d → storeGet t.me.m.acc (regionSpot d i j) =
          (resolveElem g.slots sv i j (regionWord g.isInt (storeGet s.me.m.acc (regionSpot d i j))).1).1) ∧
        (∀ q, (∀ i j, i < dRows d → j < dCols d → q ≠ regionSpot d i j) → storeGet t.me.m.acc q = storeGet s.me.m.acc q) ∧
        t.me.m.regions = vput (k := 3) s.me.m.regions dr.region ⟨some d, Slots.none, false, false⟩ ∧
        currentDrain t = some { dr with taken := true, word := (drawWord (drainConverter dr.mode) dr.rmode v).1 } ∧
        t.me.m.tiles = s.me.m.tiles ∧ t.me.m.fregs = s.me.m.fregs ∧ t.me.spad = s.me.spad ∧ t.mem = s.mem) ∧
    (∀ t q u, asCommand .m dr.pos (startDrain dr d) s = .ok t → currentDrain t = some q → q.done = 0 → drainRecord q t = .ok h →
      (q.mode ≠ .kv → (List.range (dRows d * dCols d)).foldlM (fun x n => asCommand .m q.pos (drainAt q d h n) x) t = .ok u) →
      (q.mode = .kv → ∃ tab angles, readAppend q d h t = .ok (tab, angles) ∧
        (List.range (dRows d)).foldlM (fun x i => asCommand .m q.pos (appendAt q d h tab angles i) x) t = .ok u) →
      exec .drainRegion s = .next (modM (fun m => { dropPassed .m dr.pos m with mq := m.mq.drop 1 }) u)) ∧
    (∀ f, asCommand .m dr.pos (startDrain dr d) s = .error (.fault f) →
      exec .drainRegion s = .next (takeFault .m dr.pos 1 { f with progress := [0] } s))) ∧
  (∀ (q : Drain) (d : BitVec 64) (h : BitVec 256) (u : State) (i j : Nat), undebugged u = true → j < dCols d → shExt0 h = dCols d →
    (blockLen q.tag = 0 ∨ dCols d % blockLen q.tag = 0 ∧ q.mode = .st) →
    let val : Nat → XVal := fun k => x32 (storeGet u.me.m.acc (regionSpot d i k))
    let bl := blockLen q.tag
    let block : Nat → Byte × List Word × List Flags := fun b =>
      requantise q.tag q.rmode (fun k => srBits q.word (i * dCols d + b * bl + k)) ((List.range bl).map fun k => val (b * bl + k))
    let code : Nat → Word × Conds := fun k =>
      if bl = 0 then intoTag q.tag q.rmode (srBits q.word (i * dCols d + k)) (val k)
      else (nth (block (k / bl)).2.1 (k % bl) 0, blockConds q.tag (fun _ => true) (block (k / bl)))
    let eb := elemBits q.tag / 8
    let row : Int := (q.a.toNat : Int) + (shOrg1 h + i) * shDst1 h
    let va := (wrap64 (row + (shOrg0 h + j) * eb)).toNat
    let after : State → Eff State := fun t =>
      if bl ≠ 0 ∧ j + 1 = dCols d then drainScales q d h i ((List.range (dCols d / bl)).filter fun b => (drainCols h i).contains (b * bl)) t else .ok t
    (j ∈ drainCols h i ↔ (shRange1 h).1 ≤ i ∧ (i : Int) < (shRange1 h).2 ∧ j < shExt0 h ∧ (shRange0 h).1 ≤ j ∧ (j : Int) < (shRange0 h).2) ∧
    -- an element of whole bytes
    (elemBits q.tag % 8 = 0 →
      (∀ j0 j1, j = 0 → (drainCols h i).head? = some j0 → (drainCols h i).getLast? = some j1 →
        needNoStraddle (drainAcc q) (wrap64 (row + (shOrg0 h + j0) * eb)).toNat ((j1 - j0 + 1) * eb) u = .ok ()) →
      (j ∉ drainCols h i → drainAt q d h (i * dCols d + j) u = after u) ∧
      (j ∈ drainCols h i → q.mode = .st →
        drainAt q d h (i * dCols d + j) u = (storeBytes ⟨.write, q.tag == .fp32, elemBits q.tag == 32, false, false⟩ va
          (natToBytes eb (code j).1.toNat) (flagged (code j).2 u)).bind after) ∧
      (j ∈ drainCols h i → q.mode = .add → va % 4 = 0 → drainAt q d h (i * dCols d + j) u = commandAdd .fadd32 true va (code j).1 u)) ∧
    -- a row of narrow elements
    (elemBits q.tag % 8 ≠ 0 → q.mode = .st →
      (0 < j → drainAt q d h (i * dCols d + j) u = after u) ∧
      (1 < dCols d → drainAt q d h (i * dCols d) u = drainNarrow q h i (drainCols h i) (fun k => (code k).1)
        (flagged ((drainCols h i).foldl (fun c k => c ||| (code k).2) 0) u))) ∧
    -- the scale of a block
    (∀ b bs, b < dCols d / bl → drainScales q d h i (b :: bs) u =
      (storeBytes { dir := .write } (wrap64 ((q.a.toNat : Int) + shDst2 h + (shOrg1 h + i) * shSst1 h + (shOrg0 h / (bl : Int) + b))).toNat
        [(block b).1] u).bind (drainScales q d h i bs))) ∧
  (∀ (q : Drain) (h : BitVec 256) (u t : State) (i j0 j1 sp o n : Nat) (code : Nat → Word),
    let w := elemBits q.tag
    let lo : Int := (shOrg0 h + j0) * w / 8
    let low := ((shOrg0 h + j0) * w - 8 * lo).toNat
    let high := low + w * (j1 + 1 - j0)
    let number : State → Nat := fun x => bytesToNat (readSpot x (.spad sp o, n)).1
    canonical u = true → (drainCols h i).head? = some j0 → (drainCols h i).getLast? = some j1 → (w = 4 ∨ w = 6) →
    resolve (drainAcc q) (wrap64 (drainRowBase q h i + lo)).toNat n u = .ok [(.spad sp o, n)] →
    (n : Int) = (if endsRow h j1 then narrowBytes w (shOrg0 h + j1 + 1) else ((shOrg0 h + j1) * w + w - 1) / 8 + 1) - lo →
    drainNarrow q h i (drainCols h i) code u = .ok t →
    (∀ k, k ≤ j1 - j0 → number t / 2 ^ (low + w * k) % 2 ^ w = (code (j0 + k)).toNat % 2 ^ w) ∧
    number t % 2 ^ low = number u % 2 ^ low ∧
    number t / 2 ^ high = (if endsRow h j1 = true then 0 else number u / 2 ^ high)) ∧
  -- a KV row
  (∀ (q : Drain) (d : BitVec 64) (h : BitVec 256) (tab : KvTable) (angles : List Word32) (i : Nat) (u x : State) (e : BitVec 64),
    undebugged u = true → 2 * angles.length ≤ dCols d →
    let r := rotatedRow d angles (kvPos h + i) i u
    let k := kvRow r.1 q.rmode (fun j => srBits q.word (i * dCols d + j))
    let token := kvPos h + i
    let t := kvT tab.head
    (appendAt q d h tab angles i u = appendRow tab token k.1 k.2.1 (flagged (r.2 ||| k.2.2) u)) ∧
    (r.1.length = dCols d) ∧
    (∀ m, m < dCols d → nth r.1 m 0 =
      let val : Nat → XVal := fun j => x32 (storeGet u.me.m.acc (regionSpot d i j))
      if m < 2 * angles.length then
        let th := x32 (mul32 (r32 (xofInt token)).1 (nth angles (m / 2) 0)).1
        let c := x32 (r32 (xcos th)).1
        let n := x32 (r32 (xsin th)).1
        let a := val (2 * (m / 2))
        let b := val (2 * (m / 2) + 1)
        (r32 (if m % 2 = 0 then xadd false (xmul a c) (xneg (xmul b n)) else xadd false (xmul a n) (xmul b c))).1
      else storeGet u.me.m.acc (regionSpot d i m)) ∧
    (token / t < kvEntries tab.head → readEntry tab.addr (token / t) u = .ok (e, false) → entryOk e = true → entryTier e = 0 →
      writePhysical (entryFrame e + token % t * kvDim tab.head) k.2.1 (wordCached [(entryAddr tab.addr (token / t), 8)] u) = .ok x →
      appendRow tab token k.1 k.2.1 u =
        writePhysical (entryFrame e + t * kvDim tab.head + 4 * (token % t)) (natToBytes 4 k.1.toNat) x))

/-- R36 to R38: the engine's products. INT8 sums exactly, modulo 2^32. A floating group of finite elements: each product,
aligned to the largest exponent e of a product that is not zero, is truncated to W - 1 magnitude bits; they are summed exactly,
and the sum times the scales of the blocks is added to the accumulator with one rounding; two half-groups of 16 have an e and
scales of their own and are added exactly first. A NaN product or scale, or infinities of both signs, gives the one NaN,
infinities of one sign that infinity; an exact zero leaves the accumulator as it is. The groups follow each other; R39: an
overflow of the rounding raises PFOV and nothing else is raised. Which groups are split where the operands' blocks differ is the
model's choice (log 22). -/
def Obligations.DotProducts : Prop :=
  (∀ (a b : OpBlock) (i j sk : Nat) (acc : Word32) (x y : Nat → Int),
    (∀ k, k < sk → opElem a i k = xofInt (x k)) → (∀ k, k < sk → opElem b j k = xofInt (y k)) →
    dotWord 5 (groupRanges 5 sk a b) a b i j acc = (acc + BitVec.ofInt 32 ((List.range sk).foldl (fun t k => t + x k * y k) 0), 0)) ∧
  (∀ (p : Nat) (a b : OpBlock) (i j sk : Nat) (acc : Word32), 1 ≤ p → p ≤ 4 → blockLen a.tag = 0 → blockLen b.tag = 0 →
    (∀ k, k < sk → opElem a i k = xzero) → (∀ k, k < sk → opElem b j k = xzero) →
    dotWord p (groupRanges p sk a b) a b i j acc = (acc, 0)) ∧
  (∀ (p : Nat) (a b : OpBlock) (i j : Nat) (acc : Word32) (na nb : Nat → Bool) (ma mb : Nat → Nat) (ea eb : Nat → Int),
    1 ≤ p → p ≤ 4 →
    let w : Int := match p with | 1 => 25 | 2 => 16 | 3 => 36 | _ => 44
    let scale : Nat → XVal := fun lo => xmul (opScale a i lo) (opScale b j lo)
    let product : Nat → XVal := fun k => xmul (opElem a i k) (opElem b j k)
    -- n finite elements from lo on: signs, significands and exponents, e the largest exponent of a product that is not zero
    let finite : Nat → Nat → Int → Prop := fun lo n e =>
      (∀ k, lo ≤ k → k < lo + n → opElem a i k = .fin (na k) (ma k) (ea k - opMant a) ∧
        opElem b j k = .fin (nb k) (mb k) (eb k - opMant b) ∧ (ma k * mb k ≠ 0 → ea k + eb k ≤ e)) ∧
      ((∃ k, lo ≤ k ∧ k < lo + n ∧ ma k * mb k ≠ 0 ∧ ea k + eb k = e) ∨ ∀ k, lo ≤ k → k < lo + n → ma k * mb k = 0)
    let term : Int → Nat → Int := fun e k =>
      let sh := ea k + eb k - opMant a - opMant b + (w - 3 - e)
      let m : Nat := if 0 ≤ sh then ma k * mb k * 2 ^ sh.toNat else ma k * mb k / 2 ^ (-sh).toNat
      if na k = nb k then m else -m
    let sum : Nat → Nat → Int → XVal := fun lo n e =>
      let t := (List.range n).foldl (fun t k => t + term e (lo + k)) 0
      xmul (.fin (decide (t < 0)) t.natAbs (e - w + 3)) (scale lo)
    let gives : List (Nat × Nat) → XVal → Prop := fun g x =>
      let r := dotWord p [g] a b i j acc
      let y := r32 (xadd false (x32 acc) x)
      r.1 = (if xisNan x then 0x7FC00000#32 else if xisZero x then acc else y.1) ∧
      condFlags r.2 = (if xisNan x || xisZero x || !y.2.getLsbD 2 then 0 else flagPFOV)
    (∀ lo n e, finite lo n e → gives [(lo, lo + n)] (sum lo n e)) ∧
    (∀ lo n e f, finite lo 16 e → finite (lo + 16) n f →
      gives [(lo, lo + 16), (lo + 16, lo + 16 + n)] (xadd false (sum lo 16 e) (sum (lo + 16) n f))) ∧
    (∀ g : List (Nat × Nat),
      let among : XVal → Prop := fun x => ∃ r ∈ g, ∃ k, r.1 ≤ k ∧ k < r.2 ∧ product k = x
      let nan := among .nan ∨ ∃ r ∈ g, scale r.1 = .nan
      (nan ∨ (among (.inf true) ∧ among (.inf false)) → gives g .nan) ∧
      (¬nan → ∀ neg, among (.inf neg) → ¬among (.inf !neg) → gives g (.inf neg))) ∧
    (∀ gs hs, (dotWord p (gs ++ hs) a b i j acc).1 = (dotWord p hs a b i j (dotWord p gs a b i j acc).1).1)) ∧
  (∀ (p sk : Nat) (a b : OpBlock),
    let k := match p with | 1 => 16 | 2 => 32 | 5 => 16 | _ => 8
    let blocks16 := p = 2 ∧ (blockLen a.tag = 16 ∨ blockLen b.tag = 16)
    groupRanges p sk a b = (List.range ((sk + k - 1) / k)).map fun g =>
      let hi := min (g * k + k) sk
      if blocks16 ∧ g * k + 16 < hi then [(g * k, g * k + 16), (g * k + 16, hi)] else [(g * k, hi)])

/-! ### The shuttle (R204 to R223, R333 to R341) -/

/-- R204, R206, R209, R212 to R221: the instructions of C. A command whose checks pass enters the queue with its
operands, its shape record, its completion and the slot reserved for its fill; a capability gives one unit. That the credit bit
of `cstat`, which R220 has 1 while a `cmcast` waits, always reads 0 is the model's reading: the waiting instruction has not
retired, so no `cstat` follows it (log 24). -/
def Obligations.ShuttleCommands : Prop :=
  ∀ (s u : State) (d a b : Reg) (op : CredOp) (comp : Completion) (slot : Option Nat) (e : BitVec 256), readable a s = true → readable b s = true →
  readable d s = true →
  let x := rawReg s a
  let y := rawReg s b
  let z := rawReg s d
  let h := shapeOf comp.shape s
  let enter : CmdKind → Word → BitVec 256 → Option Nat → State → Host.Outcome State Fault Refusal := fun k y h n t =>
    .next (retire 2 (enqueue k x y h comp n t))
  (∀ c : Cmd, ∀ k y, (enqueue k x y h comp none s).me.m.cq = s.me.m.cq ++ [c] →
    c.age = s.me.m.age ∧ c.kind = k ∧ c.a = x ∧ c.b = y ∧ c.shape = h ∧ c.comp = comp ∧ c.progress = 0 ∧ c.walked = false ∧ c.pos = (ctx s).pc) ∧
  (queueRoom .c s = true → (comp.barr = true → comp.bscope ≠ .sys ∨ hostTakesPart (packet s) = true) →
    (fillTarget comp s = .ok slot →
      (shCount h = 0 ∨ oddWalk (shE h) [x, y] (strides h) = none →
        exec (.ccopy a b comp) s = enter .copy y h slot s ∧
        (shE h = credBytes op → exec (.cred a b op comp) s = enter (.red op) y h slot s) ∧
        (shE h ≠ credBytes op → exec (.cred a b op comp) s = .next (takeFault s.cur (ctx s).pc 0 { cause := .shapeRecord } s))) ∧
      (shCount h = 0 ∨ (x.toNat % 64 = 0 ∧ y.toNat % 8 = 0 ∧ oddWalk (shE h) [x] (pageStrides h) = none) →
        (pageShapeOk h = true → exec (.cpage a b comp) s = enter .page y h slot s) ∧
        (pageShapeOk h = false → exec (.cpage a b comp) s = .next (takeFault s.cur (ctx s).pc 0 { cause := .shapeRecord } s))) ∧
      (z = 0 ∨ (x.toNat % 64 = 0 ∧ linesPresent y.toNat z.toNat = true ∧ inRanges y.toNat s = true ∧ inRanges (y.toNat + z.toNat - 1) s = true) →
        exec (.ccode d a b comp) s = enter (.code z.toNat) y 0 slot s) ∧
      (transferCap comp.cap capWrite s = .ok e → consumeCap comp.cap s = .ok u →
        (shCount h = 0 ∨ (oddWalk (shE h) [x, y] (strides h) = none ∧ spanWithin y.toNat (capLength e) (dstSpan h) = true)) →
        exec (.cpush a b comp) s = enter (.push comp.cap.toNat) y h slot u) ∧
      (transferCap comp.cap capRead s = .ok e → consumeCap comp.cap s = .ok u →
        (shCount h = 0 ∨ (oddWalk (shE h) [x, y] (strides h) = none ∧ spanWithin x.toNat (capLength e) (srcSpan h) = true)) →
        exec (.cpull a b comp) s = enter (.pull comp.cap.toNat) y h slot u)) ∧
    (∀ c, capEntry comp.cap s = .ok e → capKind e = 5 → capMcast e = true → capAllowance e ≠ 0 →
      (shCount h = 0 ∨ oddWalk (shE h) [x] (strides h) = none) → y ≠ 0 → (∀ r ∈ maskBits y, r < capGroup e) →
      capAt comp.cap.toNat s = some c → mcastFits c (mcastState c s) h s (maskBits y) = true →
      waitCredits comp.cap c (mcastState c s) s (maskBits y) = .ok () →
      consumeCap comp.cap (modCap comp.cap (fun k => { k with mcast := (maskBits y).foldl (fun q r => takeCredit k q r s) (mcastState c s) }) s) = .ok u →
      exec (.cmcast a b comp) s = enter (.mcast comp.cap.toNat ((maskBits y).map fun r => (r, (nth (mcastState c s) r (0, 0)).2))) y h none u) ∧
    (∀ r, needRing comp.ring s = .ok r → ringRemote r = false → ringBound r = false →
      (y.toNat / 2 ^ 32 = 0 ∨ (needRecordFits r z.toNat s = .ok () ∧ x.toNat % 64 = 0 ∧ z.toNat % 32 = 0 ∧
        x.toNat / 2 ^ 56 = 0xFE ∧ x.toNat % 2 ^ 56 < resSpad s)) →
      exec (.cattn d a b comp) s = enter (.attn z) y 0 none s)) ∧
  (∀ r t, x.toNat % 32 = 0 → readRecord x.toNat s = .ok (r, t) →
    (bits r 139 128 = 0 → bits r 143 141 < 4 →
      exec (.cshape a comp.shape) s = .next (retire 1 (modM (fun m => { m with shapes := vput (k := 4) m.shapes comp.shape r }) t))) ∧
    (bits r 139 128 ≠ 0 → exec (.cshape a comp.shape) s = .next (takeFault s.cur (ctx s).pc 0 { cause := .shapeRecord } s))) ∧
  (exec .cwait s = if queueQuiet s.cur s = true then .next (retire 1 s) else .next (stall s)) ∧
  (queueLength .c s ≤ 64 → ∃ v, exec (.cstat d) s = .next (retire 1 (wr d v s)) ∧ v.getLsbD 0 = decide (queueLength .c s ≠ 0) ∧ v.getLsbD 2 = false ∧
    v.extractLsb' 8 8 = BitVec.ofNat 8 (queueLength .c s) ∧ v.extractLsb' 16 32 = s.me.m.cDone)

/-- R205, R210, R216, R217, R336: the shuttle works on its oldest command alone: its units in order, then its
completion (the reserved slot FILLED, the arrival, the event) and its departure. R208, R210: where element (i0, i1,
i2) of a shape record stands at the source and at the destination: the tensor's coordinates on one side, the packed
indices on the other; and which elements lie inside the tensor. R212: one element of a plain copy, from and to scratchpads
and RC pages: the bytes at the destination become those of the source, or zeros outside a clipped source, and no other byte
changes; an element outside a clipped destination is skipped. -/
def Obligations.ShuttleEngine : Prop :=
  (∀ (s t : State) (c : Cmd) (rest : List Cmd), s.me.m.cq = c :: rest →
  (∀ q more u k, c.walked = false → isAttn c = false → asCommand .c c.pos (cmdStart c) s = .ok t → t.me.m.cq = q :: more → q.walked = false →
    walkElems cmdUnit (cmdUnits q - q.progress) q.progress t = ⟨u, k, none⟩ →
    exec .shuttleWalk s = .next (modCmd (fun c => { c with walked := true }) u)) ∧
  (cmdWalked c = true → asCommand .c c.pos (performCmd c) s = .ok t → exec .commandPerformed s = .next t) ∧
  (c.kind = .copy → c.walked = true → combined s = [] → AllDelivered s →
    ∃ u, exec .commandPerformed s = .next u ∧ u.me.m.cq = rest ∧ u.me.m.cDone = s.me.m.cDone + 1 ∧ u.mem = s.mem ∧ u.me.spad = s.me.spad ∧
      (∀ n, c.slot = some n → (ringOf s.me.m c.comp.ring).bound = none → n < (ringOf s.me.m c.comp.ring).slots.length →
        slotState (ringOf u.me.m c.comp.ring) n = .filled) ∧
      (c.comp.notify = true → (vat (k := 2) s.me.m.events.queues 1).length < 16 →
        vat (k := 2) u.me.m.events.queues 1 = vat (k := 2) s.me.m.events.queues 1 ++
          [BitVec.ofNat 56 (c.comp.ring.toNat + 16 * c.comp.shape.toNat)])) ∧
  (∀ e es, c.kind = .page → c.walked = true → c.read = e :: es → asCommand .c c.pos (replaceEntry c e) s = .ok t →
    exec .cpageEntryReplace s = .next t) ∧
  (isAttn c = true → c.progress < attnCount c →
    (c.read = [] → asCommand .c c.pos (attnStart c) s = .ok t → exec .cattnPageSend s = .next t) ∧
    (c.read ≠ [] → asCommand .c c.pos (sendPage c) s = .ok t →
      exec .cattnPageSend s = .next t ∧ ∃ q more, t.me.m.cq = q :: more ∧ q.progress = c.progress + 1)) ∧
  (∀ i j, c.jobs[i]? = some j → pageFaulted c s = true → exec (.drupeletPageState i) s = .next s) ∧
  (∀ i j, c.jobs[i]? = some j → pageFaulted c s = false → asCommand .c c.pos (finishPage c j) s = .ok t →
    exec (.drupeletPageState i) s = .next t ∧
    ∃ q more, t.me.m.cq = q :: more ∧ q.jobs = c.jobs.filter fun x => x.slot != j.slot)) ∧
  (∀ (h : BitVec 256) (a b : Word) (i0 i1 i2 : Nat), i0 < shExt0 h → i1 < shExt1 h → i2 < shExt2 h →
  let x := elemAt h a b ((i2 * shExt1 h + i1) * shExt0 h + i0)
  let w : Int → Word := fun n => BitVec.ofInt 64 n
  let c0 := shOrg0 h + i0
  let c1 := shOrg1 h + i1
  let e : Int := 2 ^ shEsz h
  (shSrcSide h = true →
    x.src = a + w (c0 * e + c1 * shSst1 h + i2 * shSst2 h) ∧ x.dst = b + w (i0 * e + i1 * shDst1 h + i2 * shDst2 h)) ∧
  (shSrcSide h = false →
    x.src = a + w (i0 * e + i1 * shSst1 h + i2 * shSst2 h) ∧ x.dst = b + w (c0 * e + c1 * shDst1 h + i2 * shDst2 h)) ∧
  (x.inside = true ↔ (shBnd0 h = 0 ∨ (0 ≤ c0 ∧ c0 < shBnd0 h)) ∧ (shBnd1 h = 0 ∨ (0 ≤ c1 ∧ c1 < shBnd1 h)))) ∧
  (∀ (s : State) (c : Cmd) (rest : List Cmd) (n : Nat), s.me.m.cq = c :: rest → c.kind = .copy → canonical s = true → AllDelivered s →
  let x := elemAt c.shape c.a c.b n
  let e := shE c.shape
  let v := modCtx (fun k => { k with pc := c.pos }) { s with cur := .c }
  let done := { c with progress := n + 1 } :: rest
  ((elemIndex c.shape n).1 = 0 → needRunWhole true true (putAcc e) false c n v = .ok ()) →
  (x.inside = false → shSrcSide c.shape = false →
    ∃ u, cmdUnit n s = .ok u ∧ u.me.m.cq = done ∧ u.mem = s.mem ∧ ∀ q, byteAt u q = byteAt s q) ∧
  (∀ ss p, (x.inside = true → resolve (getAcc e) x.src.toNat e v = .ok ss ∧ plainSpots ss = true ∧ readWasLost ss v = false) →
    (x.inside = true ∨ shSrcSide c.shape = true) →
    resolve (putAcc e) x.dst.toNat e (if x.inside = true then cached x.src.toNat e v else v) = .ok [(p, e)] →
    plainSpots [(p, e)] = true → (∀ leaf key, p = .mem leaf key → leafOrd leaf = 1) → inQuadOf s p = true →
    ∃ u, cmdUnit n s = .ok u ∧ u.me.m.cq = done ∧ u.mem = s.mem ∧
      (readSpot u (p, e)).1 = (if x.inside = true then (readSpots s ss).1 else List.replicate e 0) ∧
      ∀ q, inQuadOf s q = true → covers [(p, e)] q = false → (byteAt u q).1 = (byteAt s q).1))

/-! ### Messages and the memory system (R177, R182, R186, R188, R195, R202, R215, R256, R282, R320 to R325, R342) -/

/-- R177, R182, R186, R188, R195, R202, R215, R256, R265, R282, R353: what each message does where it arrives: it is
delivered once, and the others stay on their way. Which messages travel is the model's choice (log 24). -/
def Obligations.Messages : Prop :=
  ∀ (s : State) (m : Msg) (i : Instr),
  let t := { s with inFlight := dropFirst (fun x => deliveryStep x.body == i && deliverable x s) s.inFlight }
  s.inFlight.find? (fun x => deliveryStep x.body == i && deliverable x s) = some m →
  (∀ l n k slot, m.body = .fill l n k slot → i = .fillMessage → exec i s = .next (applyFill l n k slot t)) ∧
  (∀ id r l n k slot rec, m.body = .collFill id r l n k slot rec → i = .fillMessage → exec i s = .next (applyCollFill id r l n k slot rec t)) ∧
  (∀ l n k slot, m.body = .credit l n k slot → i = .freeCredit → exec i s = .next (applyCredit l n k slot t)) ∧
  (∀ n r slot, m.body = .collCredit n r slot → i = .freeCredit → exec i s = .next (applyCollCredit n r slot t)) ∧
  (∀ l c r, m.body = .mcredit l c r → i = .cmcastCredit → exec i s = .next (applyMcredit l c r t)) ∧
  (∀ sc, m.body = .arrival sc → i = .barrierArrival → exec i s = .next (applyArrival m.who.launch m.who.member sc t)) ∧
  (∀ sc gen, m.body = .release sc gen → i = .barrierArrival → exec i s = .next (applyRelease m.who.launch m.who.member sc gen t)) ∧
  (∀ key data p, m.body = .write key data p → i = .homeAppliesWrite → exec i s = .next (homeWrite key data p t)) ∧
  (∀ leaf key v d, m.body = .detWrite leaf key v → i = .homeAppliesWrite → detStore (leafDetw leaf) v = .ok d → exec i s = .next (detPut key d t)) ∧
  (∀ id r w v, m.body = .collWrite id r w v → i = .homeAppliesWrite → exec i s = .next { t with agenda := t.agenda ++ [.collContribution id r w v] }) ∧
  (∀ l n off data p, m.body = .copyWrite l n off data p → i = .homeAppliesWrite →
    exec i s = .next (updCore (fun c => runs c l n) (spadWrite off data p) t)) ∧
  (∀ a data, m.body = .hostWrite a data → i = .homeAppliesWrite → exec i s = .next { t with hostMem := storeWrite t.hostMem a data }) ∧
  (∀ d shadow leaf key n sg, m.body = .load d shadow leaf key n sg → i = .loadReply →
    let r := replyOf m.who leaf key n t
    let u := deliverReg m.who d shadow (extend sg n (bytesToNat r.1)) r.2.1 t
    exec i s = .next (if r.2.2 = 0 then u else atWho m.who (raiseAtomAt m.who.stream r.2.2 key n m.pos m.scope m.age) u)) ∧
  (∀ key n, m.body = .fetch key n → i = .loadReply → exec i s = .next t) ∧
  (∀ v p ret, m.body = .atomicReply v p ret → i = .atomicReply → exec i s = .next (atWho m.who (returnAtom ret v p) t)) ∧
  (∀ k w leaf key b r, m.body = .atomic k w leaf key b .none → i = .atomicHomeApply → atomAt k w leaf key b false t = .ok r → r.conds = 0 → r.poison = false →
    exec i s = .next (atWho m.who (fun x => x) r.state)) ∧
  (∀ k w leaf key b r n, m.body = .atomic k w leaf key b (.queued n) → i = .atomicHomeApply → atomAt k w leaf key b true t = .ok r →
    r.conds = 0 → r.poison = false → ∃ u, exec i s = .next u ∧ u.mem = r.state.mem ∧
      ∃ x ∈ u.inFlight, x.who = m.who ∧ x.body = .atomicReply r.old false (.queued n)) ∧
  (∀ x, m.body = .token → i = .releaseTokenAck → (t.inFlight.any fun x => x.who == m.who && x.body == .token) = x →
    exec i s = .next (if x then t else atWho m.who (modCtx fun c => { c with replyDue := false }) t)) ∧
  -- a board's request is answered or refused at its home, and the reply sets out; the reply ends the instruction
  (∀ b vm d, boardRequest m.body = some (b, vm, d) → i = .boardHomeStep → exec i s = .next (atWho m.who (fun u =>
    let x := boardResult b m.body { u with cur := m.who.stream }
    { x.2 with inFlight := x.2.inFlight ++ [{ m with body := .boardReply x.1 vm d }] }) t)) ∧
  (∀ r vm d, m.body = .boardReply r vm d → i = .boardHomeStep → exec i s = .next (atWho m.who (takeBoardReply r d) t)) ∧
  (∀ home n vals p x, m.body = .bobbin home n vals p → i = .bobbinContribution → memberOf m.who.launch home t = some x →
    needOpen (bobbinOf x (BitVec.ofNat 6 n)) = .ok () →
    exec i s = .next (contributionOver m (modMember m.who.launch home
      (if p then faultBobbin (BitVec.ofNat 6 n) else acceptAt (BitVec.ofNat 6 n) vals) t))) ∧
  (∀ l n k cfg cap proxy, m.body = .bind l n k cfg cap proxy → i = .remoteRingBind →
    exec i s = .next (atWho m.who (settle fun u =>
      match peerTrouble 0 (match memberHome l n u with | some (p, _) => p | none => u.me.pkg) (some l) (some cap) u with
      | some c => fail c
      | none => bindReply cfg l n k proxy u) t))

/-- R256, R317, R320 to R323, R325, R342: the oldest combined write goes on; a walk fills the die's cache, and the directory
records it; an invalidation goes to the dies that the records name, or to all of them, and a die whose accesses are performed
drops its leaves and those of its cores and acknowledges; the host registers pages on demand, and a member that waits for one goes on
once it is mapped, a valid leaf that stood there being asked for an invalidation; the host reads and writes HBM. That a message
whose route is free is applied in the step that sends it is the model's choice (log 24), and so is that an access of the host
beyond HBM has no answer (log 33). -/
def Obligations.TranslationAndHostWindow : Prop :=
  ∀ (s : State) (pkg die quad c va addr hi : Nat) (rec : BitVec 128) (entry : BitVec 64),
  (∀ k w rest, s.combiners.find? (isCombiner pkg die quad) = some k → k.writes = w :: rest → cxlDead w.key s = false →
    let r := routeTo pkg die (w.key / 2 ^ 52) (homeDie (w.key % 2 ^ 52)) s
    routeFreeFor w.who w.cls r s = true → forwardedOver r w.key w.data.length s = false →
    ∃ t, exec (.combinerForward pkg die quad) s = .next t ∧ t.mem = storeWrite s.mem w.key w.data ∧
      ∃ x, t.combiners.find? (isCombiner pkg die quad) = some x ∧ x.writes = rest) ∧
  (∀ l e lvl, launchOfCtx c s = some l → walkIn pkg (packetRoot l.packet) va s = .ok (e, lvl) →
    ∃ t, exec (.pageWalk pkg die c va) s = .next t ∧ uncached t = uncached s ∧
      (∀ d, findDie pkg die s = some d → ∃ x, findDie pkg die t = some x ∧
        (∃ k ∈ x.leaves, k.ctx = c ∧ k.va = va / pageSize lvl * pageSize lvl ∧ k.level = lvl) ∧
        (d.leaves.length ≤ 16384 → x.leaves.length ≤ 16384)) ∧
      ∀ p, findPkg pkg t = some p → ∃ r ∈ p.directory, r.ctx = c ∧ r.va = va / pageSize lvl * pageSize lvl ∧ r.level = lvl ∧ die ∈ r.dies) ∧
  (∀ d ∈ s.dies, ∀ p, d.pkg = pkg → d.on = true → findPkg pkg s = some p →
    (invalCount rec = 0 ∨ 64 < invalCount rec ∨ allRecorded p rec = false ∨ ∃ x ∈ p.directory, recordHits rec x = true ∧ d.die ∈ x.dies) →
    d.die ∈ invalDies pkg rec s) ∧
  (invalOk rec = true → invalDies pkg rec s = [] →
    exec (.tlbInvalidate pkg rec) s = .next { s with hostLog := s.hostLog ++ [.invalidated pkg] }) ∧
  (invalOk rec = true → invalDies pkg rec s ≠ [] →
    exec (.tlbInvalidate pkg rec) s = .next { s with inval := s.inval ++ [⟨pkg, rec, invalDies pkg rec s⟩] }) ∧
  (∀ r rest, s.inval = r :: rest → r.pkg = pkg → die ∈ r.dies → (allCores s).any waitsForPage = false →
    let t := drainDie pkg die (dropInval pkg die r.record s)
    dieBusy pkg die t = false → ∃ x, exec (.invalidationAck pkg die) s = .next x ∧
      x = { t with inval := x.inval, hostLog := x.hostLog } ∧
      (∀ d, findDie pkg die s = some d → ∃ y, findDie pkg die x = some y ∧ y.leaves = d.leaves.filter fun k => !invalHits r.record k) ∧
      (∀ c ∈ allCores x, c.pkg = pkg → c.die = die → ∀ k ∈ c.leavesM ++ c.leavesS ++ c.leavesC, invalHits r.record k = false) ∧
      (r.dies = [die] → x.inval = rest ∧ HostEvent.invalidated pkg ∈ x.hostLog) ∧
      (r.dies ≠ [die] → x.inval = { r with dies := r.dies.filter (· != die) } :: rest)) ∧
  exec (.onDemandRegister c va hi) s = .next { s with onDemand := s.onDemand ++ [(c, va, hi)] } ∧
  (∀ r e lvl, waitsForPage s.me = true → s.me.m.demand = some r →
    let old : BitVec 64 := BitVec.ofNat 64 (bytesToNat (storeRead s.mem (memKey s.me.pkg addr) 8))
    let u := homeWrite (memKey s.me.pkg addr) (natToBytes 8 entry.toNat) false s
    let t := if leafType old = 2 then requestInval s.me.pkg (pageInval r.ctx r.addr.toNat) u else u
    translate r.addr.toNat t = .ok (e, lvl) → leafTier e ≠ 2 →
    exec (.demandFaultResolve addr entry) s = .next (modM (fun m => { m with
      demand := none, streams := m.streams.map fun c => { c with stopped := false } }) t)) ∧
  (∀ p, findPkg pkg s = some p → inHbm p addr 8 = true →
    exec (.bar2Access pkg addr (some entry)) s = .next (homeWrite (memKey pkg addr) (natToBytes 8 entry.toNat) false s) ∧
    exec (.bar2Access pkg addr none) s = .next { s with
      hostLog := s.hostLog ++ [.data (BitVec.ofNat 64 (bytesToNat (storeRead s.mem (memKey pkg addr) 8)))] }) ∧
  (∀ p w, findPkg pkg s = some p → inHbm p addr 8 = false →
    exec (.bar2Access pkg addr w) s = .fault (.noSuchPhysicalAddress addr))

/-! ### Reed time, the ramp limiter and links (R174, R278 to R281, R304, R305, R346, R347, R377, R384) -/

/-- R347, R374, R377, R384: a link replays up to its limit, then retrains; a retrain recovers, or times out: the link
fails and what was outstanding on it is lost, which the host is told; what sets out over it later is lost as well, a read
comes back poisoned and a write is logged at its issuer; recalibrations leave links up and memory as it
was. When an error or a timeout comes, the agenda says (log 8, the model's choice). -/
def Obligations.LinkService : Prop :=
  ∀ (s : State) (link : LinkId) (pkg n stack channel : Nat),
  let limit := replayLimit (linkPkg link) s
  (linkOf link s = .up → exec (.flitReplay link) s = .next (setLink link (.replaying 1) s)) ∧
  (∀ k, linkOf link s = .replaying k →
    exec (.flitReplay link) s = .next (setLink link (.replaying (min (k + 1) limit)) s) ∧
    (limit ≤ k → exec (.linkRetrain link) s = .next (setLink link .retraining s))) ∧
  (linkOf link s = .retraining →
    exec (.retrainRecovery link) s = .next (setLink link .up s) ∧
    ∃ t k, exec (.linkRecoveryTimeout link) s = .next t ∧ linkOf link t = .failed ∧ t.mem = s.mem ∧
      (∀ m ∈ t.inFlight, link ∉ m.route) ∧ HostEvent.machine (linkCause link) (linkPkg link) k ∈ t.hostLog) ∧
  (∀ m, linkOf link s = .failed → s.inFlight = [m] → link ∈ m.route →
    let u := { s with inFlight := [] }
    (∀ key data p, m.body = .write key data p → m.who.stream ≠ .c → exec (.linkRecoveryTimeout link) s = .next
      (modMember m.who.launch m.who.member (addLoss m.who.stream ⟨.remoteStoreLost, key, data.length, m.pos, m.scope, m.age⟩) u)) ∧
    (∀ key k, m.body = .fetch key k → exec (.linkRecoveryTimeout link) s = .next
      (modMember m.who.launch m.who.member (fun x => { x with readLost := x.readLost ++ [(m.who.stream, key)] }) u)) ∧
    (∀ d shadow leaf key k sg, m.body = .load d shadow leaf key k sg → ∃ v x, exec (.linkRecoveryTimeout link) s = .next x ∧
      x = { deliverReg m.who d shadow v true u with fresh := x.fresh })) ∧
  (∀ id, linkOf id (setLink link .up s) = if id = link then .up else linkOf id s) ∧
  ((∀ d ∈ linkEnds n, linkOf (.hlink pkg d) s = .up) →
    (∀ k, linkOf (.dlink pkg n) s = .replaying k → exec (.dlinkRecal pkg n) s = .next (setLink (.dlink pkg n) .up s)) ∧
    (linkOf (.dlink pkg n) s = .up → exec (.dlinkRecal pkg n) s = .next s)) ∧
  exec (.hbmRecal pkg stack channel) s = .next s

/-! ### Launches, dispatch and collectives (R289 to R309, R350 to R358, R370, R375 to R377) -/

/-- R292, R299, R350, R376, R377: a packet in order is queued and its admission follows, another is refused; a
launch at the head of its class, where none of a higher class can be placed, with cores and board places free is bound on them,
READY on all of them, after a pre-emption where one is needed; one whose tables are on the move waits (log 26); the host changes allowances, removes capabilities and arms a debug record. That a raised allowance
stays below the unlimited one is the model's choice (log 26). -/
def Obligations.LaunchAdmission : Prop :=
  ∀ (s : State) (p : BitVec 1024) (n cap amount : Nat) (rec : List (BitVec 8)),
  (packetOk p = true → fitsIdle (newLaunch p s) s = true → ∃ t l, exec (.launchSubmit p) s = .next t ∧
    t = { s with launches := s.launches ++ [l], nextLaunch := s.nextLaunch + 1, agenda := s.agenda ++ [.launchAdmit s.nextLaunch] } ∧
    l.packet = p ∧ l.number = s.nextLaunch ∧ l.phase = .waiting ∧ l.budget = packetField p 0x10 4 ∧ l.place = [] ∧ l.used = 0) ∧
  (packetOk p = false → exec (.launchSubmit p) s = .next { s with hostLog := s.hostLog ++ [.refused p .reservedField] }) ∧
  (∀ l, findLaunch n s = some l → outranked l s = true → exec (.launchAdmit n) s = .next s) ∧
  (∀ l, findLaunch n s = some l → waits l = true → l.phase = .waiting → atClassHead l s = true → outranked l s = false →
    (∀ place e, victimsFor l s = some [] → placeFor l [] s = some place → admitted l place s = .error e → refusal e = none →
      turnsLaunch (.launchAdmit n) s n fun _ x _ => x.phase = .waiting ∧ x.place = []) ∧
    (∀ place l', victimsFor l s = some [] → placeFor l [] s = some place → admitted l place s = .ok l' →
      (podFree l' [] s = true → turnsLaunch (.launchAdmit n) s n fun _ x t => x.phase = .running ∧ x.place = place ∧ x.packet = l.packet ∧
        x.cause = none ∧ x.keeps = placeDies place ∧ ∀ c ∈ allCores t, c.retired = false → ∀ m, memberAt place c = some m →
          c.cur.state = .ready ∧ c.cur.launch = n ∧ c.cur.member = m ∧ c.cur.ctx = packetField l.packet 0x14 2) ∧
      -- another launch holds the place of a pod board
      (podFree l' [] s = false → turnsLaunch (.launchAdmit n) s n fun _ x t => x.phase = .waiting ∧ x.place = [] ∧ t.podBoards = s.podBoards)) ∧
    (∀ v vs, victimsFor l s = some (v :: vs) → exec (.launchAdmit n) s =
      .next { s with agenda := (v :: vs).map Instr.gangPreemption ++ [.launchAdmit n] ++ s.agenda })) ∧
  turnsLaunch (.allowanceRaise n cap amount) s n (fun l x _ => ∀ c, l.caps[cap]? = some c →
    ∃ y, x.caps[cap]? = some y ∧ y.revoked = c.revoked ∧
      (capAllowance c.entry = 0xFFFFFFFF → y = c) ∧
      (capAllowance c.entry ≠ 0xFFFFFFFF → capAllowance y.entry = min (capAllowance c.entry + amount) 0xFFFFFFFE)) ∧
  turnsLaunch (.capabilityRevoke n cap) s n (fun l x _ => ∀ c, l.caps[cap]? = some c →
    x.caps[cap]? = some { c with revoked := true }) ∧
  (debugOk rec = true → turnsLaunch (.debugRecordArm n rec) s n fun l x _ => x = { l with armed := some rec }) ∧
  (debugOk rec = false → exec (.debugRecordArm n rec) s = .next { s with hostLog := s.hostLog ++ [.recordRefused .reservedField] })

/-- R300, R306 to R309, R340, R370, R373, R377: a spent budget and the host's halt begin the gang stop; a gang stop
finishes what drupelets were sent and what was contributed to bobbins, saves the launch under its first cause (R203, R250,
R369), and a member alone on the machine with all its registers, tiles and scratchpad, and ends a launch whose image has no
place; a saved launch resumes on free quads from the bytes of its image, or waits while it is not at the head of its class or one
of a higher class can be placed, reruns, or ends at the host's word, or when its image cannot be read or is not in order. The place of an image and the budget of a rerun are the model's
choice (logs 29 and 42). -/
def Obligations.LaunchStopAndResume : Prop :=
  ∀ (s : State) (n : Nat) (budget : Option Nat) (l : Launch), findLaunch n s = some l →
  (budgetSpent l s = true → l.phase = .running → turnsLaunch (.budgetExpiry n) s n fun _ x t => begunStop n .budgetOverrun x t) ∧
  (l.phase = .running → turnsLaunch (.hostHalt n) s n fun _ x t => begunStop n .hostHalt x t) ∧
  (l.phase = .running ∨ l.phase = .stopping →
    let v := setPhase n .stopping (stopMembers l s)
    let u := recordStop n v
    (jobsOpen n v = true ∨ contributing n v = true → exec (.gangPreemption n) s = .next v) ∧
    (∀ spot, jobsOpen n v = false → contributing n v = false → (imageSpot l u).1 = some spot → turnsLaunch (.gangPreemption n) s n fun _ x t =>
      x.phase = .saved ∧ x.image = spot ∧ (∀ y, findLaunch n u = some y → x.cause = firstCause y) ∧
      (s.others = [] → s.me.m.cq = [] → s.me.m.found = [] → s.me.cur.state = .active → s.me.cur.launch = n →
        t.me.cur = Bind.empty ∧ ∃ v ∈ x.saved, v.member = s.me.cur.member ∧ v.length = sectionLength l.packet ∧ v.spad = s.me.spad ∧
          v.m.tiles = s.me.m.tiles ∧ v.m.fregs = s.me.m.fregs ∧ v.m.acc = s.me.m.acc ∧ v.m.csrs = s.me.m.csrs ∧
          ∀ st, memberCtx v.m st = { memberCtx s.me.m st with stopped := true })) ∧
    (jobsOpen n v = false → contributing n v = false → (imageSpot l u).1 = none → turnsLaunch (.gangPreemption n) s n fun _ x t =>
      x.phase = .ended ∧ HostEvent.ended n ∈ t.hostLog)) ∧
  (l.phase = .saved → (l.saved.any fun v => v.m.demand.isSome) = false →
    let x0 := readImage l s
    (∀ place, (l.saved.any fun v => v.unreadable) = false → imageFault x0 = none → l.fields ≠ [] → atClassHead l s = true →
      outranked l s = false → victimsFor l s = some [] → placeFor l [] s = some place →
      turnsLaunch (.launchResume n budget) s n fun _ x t => x.phase = .running ∧ x.place = place ∧
        x.saved = x0.saved.map (passStops l.records) ∧
        x.budget = budget.getD l.budget ∧ x.used = (if budget = none then l.used else 0) ∧
        x.boards = (if x0.boardImages = [] then l.boards else x0.boardImages.map imageBoard) ∧
        ∀ c ∈ allCores t, c.retired = false → ∀ m, memberAt place c = some m →
          c.cur.state = .ready ∧ c.cur.launch = n ∧ c.cur.member = m ∧
          c.cur.image = if (l.saved.any fun v => v.member == m) then sectionAddress l m else 0) ∧
    ((l.saved.any fun v => v.unreadable) = false → imageFault x0 = none → atClassHead l s = false ∨ outranked l s = true →
      turnsLaunch (.launchResume n budget) s n fun _ x _ => x.phase = .saved ∧ x.cause = none ∧ x.saved = l.saved) ∧
    (∀ f, (l.saved.any fun v => v.unreadable) = true ∨ imageFault x0 = some f →
      turnsLaunch (.launchResume n budget) s n fun _ x t => x.phase = .ended ∧ HostEvent.ended n ∈ t.hostLog)) ∧
  (l.phase = .saved →
    let u := unholdPreloads n (discardAll (preloadsOver n true s) none { s with inFlight := s.inFlight.filterMap (rerunMsg n) })
    let l' := { l with saved := [], barriers := [], records := [], used := 0, cause := none, image := 0, boardImages := [], podImages := [],
                       caps := [], boards := [], submitted := sahfinTime s }
    (placeFor l' [] u = none → turnsLaunch (.launchRerun n) s n fun _ x _ => x = { l' with phase := .waiting, place := [] }) ∧
    (∀ place l'', placeFor l' [] u = some place → admitted l' place u = .ok l'' → podFree l'' [] u = true →
      turnsLaunch (.launchRerun n) s n fun _ x _ => x.phase = .running ∧ x.saved = [] ∧ x.place = place ∧ x.used = 0)) ∧
  (l.phase ≠ .ended → turnsLaunch (.hostStop n) s n fun _ x t => x.phase = .ended ∧ HostEvent.ended n ∈ t.hostLog)

/-- R102, R294, R298, R309: a READY record starts its member at the entry of its packet, or restores the saved one;
a STAGING record becomes READY beside the running launch; a READY next record moves into an EMPTY current slot; an
ended launch leaves its core empty. That a member starts without accumulator words, and that an EMPTY core holds no member and
no scratchpad bytes, is the model's choice (log 6). -/
def Obligations.Dispatch : Prop :=
  ∀ (s : State),
  (∀ l, s.me.cur.state = .ready → findLaunch s.me.cur.launch s = some l → l.phase ≠ .ended →
    (∀ v, (l.saved.find? fun v => v.member == s.me.cur.member) = some v →
      ∃ t, exec .dispatchStart s = .next t ∧ t.me.cur = { s.me.cur with state := .active } ∧
        t.me.m = { reinstated v with streams := v.m.streams.map fun c => { c with stopped := false } } ∧
        t.me.spad = v.spad ∧ t.me.spadPoison = v.spadPoison ∧ t.me.buffers = v.buffers ++ s.me.buffers ∧ t.me.inbox = v.inbox ++ s.me.inbox) ∧
    ((l.saved.find? fun v => v.member == s.me.cur.member) = none → (s.me.cur.staged = true ∨ packetField l.packet 0x40 8 = 0) →
      hasDist l.packet = false → ∃ t, exec .dispatchStart s = .next t ∧
        t.me.cur = { s.me.cur with state := .active } ∧
        memberCtx t.me.m .s = { StreamCtx.start with state := .running, pc := BitVec.ofNat 24 (packetField l.packet 0 3) } ∧
        (∀ st, st ≠ .s → memberCtx t.me.m st = memberCtx Member.start st) ∧
        t.me.m.csrs = { Csrs.start with srseed := BitVec.ofNat 64 (packetField l.packet 0x38 8),
                                        profile := BitVec.ofNat 4 (bits (control l.packet) 6 3) } ∧
        t.me.m.tiles = Member.start.tiles ∧ t.me.m.acc = [] ∧
        (s.me.cur.staged = false → t.me.spad = []) ∧ (s.me.cur.staged = true → t.me.spad = s.me.spad))) ∧
  (∀ l, s.me.next.state = .staging → findLaunch s.me.next.launch s = some l → packetField l.packet 0x40 8 = 0 →
    ∃ t, exec .dispatchStage s = .next t ∧ t.me.next = { s.me.next with state := .ready, staged := true } ∧ t.me.nextSpad = s.me.nextSpad ∧
      t.me.cur = s.me.cur ∧ t.me.m = s.me.m ∧ t.me.spad = s.me.spad ∧ t.mem = s.mem) ∧
  (s.me.next.state = .ready → s.me.cur.state = .empty → exec .dispatchPromote s = .next (modCore (fun c => { c with
    cur := c.next, next := Bind.empty, spad := c.nextSpad, spadPoison := c.nextSpadPoison, nextSpad := [], nextSpadPoison := [] }) s)) ∧
  (∀ l, s.me.cur.state = .active → findLaunch s.me.cur.launch s = some l → l.phase = .ended →
    ∃ t, exec .dispatchRelease s = .next t ∧ t.me.cur = Bind.empty ∧ t.me.m = Member.start ∧ t.me.spad = [] ∧ t.me.buffers = [] ∧
      t.me.next = s.me.next ∧ t.mem = s.mem)

/-- R353 to R358: a record in order makes a collective, which the host destroys; a contribution is recorded once for
each rank and word, and the last one completes the round; an integer reduction is the sum modulo 2^32; a round that
completes takes no contribution with it into the next, one that times out or is aborted ends the collective; its abort record
is written to the host, and logged, which is the model's choice (log 30). -/
def Obligations.Collectives : Prop :=
  ∀ (s : State) (pkg id rank word : Nat) (rec : List (BitVec 8)) (value : BitVec 32),
  (collOk rec = true → ∃ t c, exec (.collectiveCreate pkg rec) s = .next t ∧ c ∈ t.colls ∧ c.record = rec ∧ c.pkg = pkg ∧
    c.contribs = [] ∧ c.aborted = false ∧ c.round = 0 ∧ ∀ x ∈ t.colls, collId x = collId c → x = c) ∧
  (collOk rec = false →
    exec (.collectiveCreate pkg rec) s = .next { s with hostLog := s.hostLog ++ [.recordRefused .reservedField] }) ∧
  (∃ t, exec (.collectiveDestroy id) s = .next t ∧ ∀ c ∈ t.colls, collId c ≠ id) ∧
  (∀ c, findColl id s = some c →
    (∀ q r, c.aborted = false → c.ranks[rank]? = some q → q.waiting = some r →
      ∃ t x, exec (.collContribution id rank word value) s = .next t ∧ findColl id t = some x ∧ t.mem = s.mem ∧
        x = { c with ranks := setNth c.ranks rank { q with waiting := some (markDup r) } }) ∧
    (∀ q, c.aborted = false → c.ranks[rank]? = some q → q.waiting = none →
      ∃ t x, exec (.collContribution id rank word value) s = .next t ∧ findColl id t = some x ∧ t.mem = s.mem ∧
        ((∀ v, (rank, word, v) ∉ c.contribs) → x = { c with contribs := c.contribs ++ [(rank, word, value)] } ∧
          (c.contribs.length + 1 = collRankCount c * collLen c → Instr.collComplete id ∈ t.agenda)) ∧
        ((∃ v, (rank, word, v) ∈ c.contribs) → x = { c with dup := true })) ∧
    (c.aborted = false → c.contribs.length = collRankCount c * collLen c →
      ∃ t x, exec (.collComplete id) s = .next t ∧ findColl id t = some x ∧ x.contribs = [] ∧ x.dup = false ∧ x.aborted = false ∧
        x.record = c.record) ∧
    (c.aborted = false → ∃ t x, exec (.collAbort id) s = .next t ∧ findColl id t = some x ∧ x.aborted = true ∧
      HostEvent.outcome id c.round (collMask c) ∈ t.hostLog ∧
      (Memory.wf s.hostMem = true → storeRead t.hostMem (bytesField c.record 0x10 8) 64 =
        collRecord c 1 (collMask c) (abortFlags c (reduceRound c s.fresh).conds))) ∧
    (collLate (sahfinTime s) c = true → ∃ t x, exec (.collTimeout id) s = .next t ∧ findColl id t = some x ∧ x.aborted = true ∧
      HostEvent.outcome id c.round (collMask c) ∈ t.hostLog)) ∧
  (∀ (c : Coll) (vs : List Word32) (fresh : Nat), collOp c = 1 → (reduceWord c vs fresh).1 = (vs.foldl (· + ·) 0, 0))

/-! ### Boot, repair, supply and cooling (R371, R373, R377 to R387) -/

/-- R378 to R383, R385: power brings a package with records in order up, running the image in flash, and leaves one
without in RECOVERY, which a streamed image ends; stage 1 may fail; an update takes an image that passes its check and runs
it, but not while a package is being replaced; a quote is signed by the identity key of the package; without power all of a
package but its flash is gone, and a row that is out of use and not listed is to be retired again; a package is replaced once its launches have ended or are saved. What fails at boot and what an
update brings are free values (log 2), the form of an image's header and the flash of a replacement are the model's choice (logs
4 and 7). -/
def Obligations.BootAndFlash : Prop :=
  ∀ (s : State) (pkg : Nat) (p : Package) (image : List (BitVec 8)) (nonce : BitVec 384) (launch : Option Nat),
  findPkg pkg s = some p →
  let code := match launch.bind fun n => findLaunch n s with | some l => l.codeHash | none => 0
  let body := quoteBody p nonce code
  (p.stage = .off → turnsPkg (.powerOn pkg) s pkg fun _ x _ => x.stage = .stuck ∨
    (if recordOk p && imageOk p p.image then x.stage = .serving ∧ x.running = p.image else x.stage = .recovery)) ∧
  (p.stage = .recovery → imageOk p image = true → turnsPkg (.recoveryImage pkg image) s pkg fun _ x _ => x.image = image ∧ (x.stage = .stuck ∨
    (recordOk p = true → x.stage = .serving ∧ x.running = image) ∧ (recordOk p = false → x.stage = .recovery))) ∧
  (replacing s = true → exec (.sahfinUpdate pkg) s = .next s) ∧
  (let i := Config.updateImage s.fresh
   replacing s = false → p.stage = .serving → turnsPkg (.sahfinUpdate pkg) s pkg fun _ x _ =>
     x = if imageOk p i then { p with image := i, running := i } else p) ∧
  (p.stage = .serving → exec (.quoteRequest pkg nonce launch) s = .next { s with
    hostLog := s.hostLog ++ [.quote body (Config.identitySignature p.chip (Config.sha384 body))] }) ∧
  (turnsPkg (.powerLoss pkg) s pkg fun _ x t => x.stage = .off ∧ x.config = p.config ∧ x.image = p.image ∧ x.retire2 = p.retire2 ∧
    x.outOfUse = p.outOfUse.filter (· / 2 ^ 62 != 1) ∧ x.again = p.again ++ p.outOfUse.filter (· / 2 ^ 62 == 1) ∧
    (∀ e ∈ t.mem, e.1 / 2 ^ 52 ≠ pkg)) ∧
  (p.inPod = true → runsOn pkg s = false → turnsPkg (.packageReplace pkg) s pkg fun _ x t => x.stage = .off ∧ x.retire2 = [] ∧
    x.config = Config.flashRecord x.chip ∧ x.image = Config.flashImage x.chip ∧ Instr.powerOn pkg ∈ t.agenda ∧
    (∀ e ∈ t.mem, e.1 / 2 ^ 52 ≠ pkg)) ∧
  (p.inPod = true → runsOn pkg s = true → turnsPkg (.packageReplace pkg) s pkg fun _ x t => x = { p with leaving := true } ∧
    ∀ n l, findLaunch n s = some l → l.phase = .running → (l.place.any fun q => q.1 == pkg) = true →
      ∃ y, findLaunch n t = some y ∧ (y.phase = .ended ∨ Instr.gangPreemption n ∈ t.agenda))

/-- R371, R373, R384, R385: Sahfin takes a core out of use, its launch pre-empted first, or ended where no spare is left, and
lists it in a later step; it takes the leaves of a row's pages away, and once every die has given them up copies the pages,
rewrites the leaves and notes where they went; a scrub counts a corrected error for its unit, and marks a word or line it cannot correct. How much moves
with a row is the model's choice (log 7), and so are the units' numbers (log 44). -/
def Obligations.Repair : Prop :=
  ∀ (s : State) (pkg die phys fromPA toPA entryAddr w : Nat) (p : Package) (place : ScrubPlace), findPkg pkg s = some p → canonical s = true →
  (∀ c, findCore (fun c => c.pkg == pkg && c.die == die && c.phys == phys) s = some c →
    let e := retiredCoreEntry die phys
    let out : State → Prop := fun t => (∀ x ∈ allCores t, x.pkg = pkg → x.die = die → x.phys = phys → x.retired = true) ∧
      ∀ x, findPkg pkg t = some x → e ∈ x.outOfUse
    let spare := spareLeft p die e s
    let phase := launchPhase c.cur.launch s
    (c.retired = false → c.cur.state = .empty → ∃ t, exec (.coreRetire pkg die phys) s = .next t ∧ out t) ∧
    (c.retired = false → c.cur.state ≠ .empty → phase = some .running → spare = true →
      exec (.coreRetire pkg die phys) s =
        .next { modPkg pkg (standOut e) s with agenda := [.gangPreemption c.cur.launch] ++ s.agenda }) ∧
    (c.retired = false → c.cur.state ≠ .empty → phase = some .stopping → spare = true →
      exec (.coreRetire pkg die phys) s = .next (modPkg pkg (standOut e) s)) ∧
    (c.retired = false → c.cur.state ≠ .empty → phase = some .running ∨ phase = some .stopping → spare = false →
      turnsLaunch (.coreRetire pkg die phys) s c.cur.launch fun _ x t => x.phase = .ended ∧ HostEvent.ended c.cur.launch ∈ t.hostLog ∧ out t) ∧
    (c.retired = true → e ∈ p.outOfUse → turnsPkg (.coreRetire pkg die phys) s pkg fun _ x _ => x = listNow e p)) ∧
  (let row := fromPA / 2 ^ 16 * 2 ^ 16
   let e := retiredRowEntry row
   let known := launchLeaves pkg s
   let ls := known ++ if p.again.contains e then [] else namedLeaf pkg entryAddr known s
   let span := pagesSpan (pagesIn row (2 ^ 16) pkg ls)
   let dest := moveTo p e toPA span.2 s
   let pages := (pagesIn span.1 span.2 pkg ls).map fun m => { m with toPA := dest, row := row }
   p.stage = .serving → inHbm p fromPA 1 = true →
   (p.moving = [] → e ∉ p.outOfUse → pagesIn row (2 ^ 16) pkg ls ≠ [] → frameFree p span.2 dest span.2 s = true →
     turnsPkg (.hbmRowRetire pkg fromPA toPA entryAddr) s pkg fun _ x t => x = { p with moving := pages } ∧
       (∀ m ∈ pages, storeRead t.mem (memKey pkg m.entryAddr) 8 = List.replicate 8 0) ∧
       ∀ k, (∀ m ∈ pages, k < memKey pkg m.entryAddr ∨ memKey pkg m.entryAddr + 8 ≤ k) → storeGet t.mem k = storeGet s.mem k) ∧
   (p.moving ≠ [] → moveReady p s = false → exec (.hbmRowRetire pkg fromPA toPA entryAddr) s = .next s) ∧
   (∀ m rest, p.moving = m :: rest → moveReady p s = true →
     let r := pagesSpan p.moving
     turnsPkg (.hbmRowRetire pkg fromPA toPA entryAddr) s pkg fun _ x t => x.moving = [] ∧ retiredRowEntry m.row ∈ x.outOfUse ∧
       x.moved = p.moved ++ [(r.1, r.2, m.toPA)] ∧
       ((∀ y ∈ p.moving, memKey pkg y.entryAddr + 8 ≤ memKey pkg m.toPA ∨ memKey pkg m.toPA + r.2 ≤ memKey pkg y.entryAddr) →
         storeRead t.mem (memKey pkg m.toPA) r.2 = storeRead s.mem (memKey pkg r.1) r.2) ∧
       (rest = [] → storeRead t.mem (memKey pkg m.entryAddr) 8 =
         natToBytes 8 (movedLeaf m.entry (leafFrame m.entry - r.1 + m.toPA)).toNat)) ∧
   (p.moving = [] → e ∈ p.outOfUse → turnsPkg (.hbmRowRetire pkg fromPA toPA entryAddr) s pkg fun _ x _ => x = listNow e p)) ∧
  (let count : Package → Nat → Nat := fun p u => ((p.corrected.find? fun x => x.1 == u).map (·.2)).getD 0
   turnsPkg (.backgroundScrub pkg place false) s pkg fun p x t => x = { p with corrected := x.corrected } ∧ t.memPoison = s.memPoison ∧
     ∀ u, count x u = count p u + if u = scrubUnit place then 1 else 0) ∧
  (∃ t, exec (.backgroundScrub pkg (.memory w) true) s = .next t ∧ t = { s with memPoison := t.memPoison, launches := t.launches } ∧
    ∀ k, anyMark t.memPoison (32 * k) 32 = (anyMark s.memPoison (32 * k) 32 || 32 * k == memKey pkg (32 * w))) ∧
  (∃ t, exec (.backgroundScrub pkg (.spad die phys w) true) s = .next t ∧ ∀ c, findCore (atPhys pkg die phys) s = some c →
    ∃ y, findCore (atPhys pkg die phys) t = some y ∧ y = { c with spadPoison := y.spadPoison } ∧ w ∈ y.spadPoison) ∧
  (∃ t, exec (.backgroundScrub pkg (.imem die phys w) true) s = .next t ∧ ∀ c, findCore (atPhys pkg die phys) s = some c →
    ∃ y, findCore (atPhys pkg die phys) t = some y ∧ y = { c with imemPoison := y.imemPoison } ∧ w ∈ y.imemPoison) ∧
  turnsDie (.backgroundScrub pkg (.code die w) true) s pkg die (fun d x => x = { d with codePoison := x.codePoison } ∧ w ∈ x.codePoison) ∧
  (∀ c va, ∃ t, exec (.backgroundScrub pkg (.leaf die c va) true) s = .next t ∧ uncached t = uncached s ∧ ∀ d, findDie pkg die t = some d →
    ∀ l ∈ d.leaves, ¬(l.ctx = c ∧ l.va ≤ va ∧ va < l.va + pageSize l.level)) ∧
  (exec (.backgroundScrub pkg (.unit w) true) s = exec (.unitStall w) s)

/-- R377, R386, R387: supply, cooling, clock, host link, unit and stack events stop the launches that run there,
each for its cause, and tell the host of an expander that failed; a power or temperature limit lowers ceilings and clocks, the
hub's too, by how much being a free value (log 2). That die 4 is the hub die, and that a stop of it stops the launches of every die
of the package, is the model's choice (log 44), as are what a failed stack stops and what a management core held (log 31). -/
def Obligations.MachineEvents : Prop :=
  ∀ (s : State) (pkg die unit n mv core expander stack : Nat) (l : Launch), findLaunch n s = some l → l.phase = .running →
  (boundOn n (onDie pkg die) s →
    (mv < 540 ∨ 720 < mv → turnsLaunch (.supplyStop pkg die mv) s n fun _ x t => begunStop n .supplyStop x t) ∧
    turnsLaunch (.thermalStop pkg die) s n (fun _ x t => begunStop n .thermalStop x t) ∧
    turnsLaunch (.clockLoss pkg die) s n (fun _ x t => begunStop n .clockLoss x t)) ∧
  (540 ≤ mv → mv ≤ 720 → turnsDie (.supplyStop pkg die mv) s pkg die fun d x => x = { d with mv := mv }) ∧
  (boundOn n (onPkg pkg) s → turnsLaunch (.hostReset pkg) s n fun _ x t => begunStop n .hostReset x t) ∧
  (s.me.cur.state = .active → s.me.cur.launch = n → turnsLaunch (.unitStall unit) s n fun _ x t => begunStop n (unitCause unit) x t) ∧
  ((l.place.any fun p => p.1 == pkg) = true → reachesStack pkg stack l s = true →
    turnsLaunch (.stackFail pkg stack) s n fun _ x t => begunStop n (.stack (BitVec.ofNat 3 stack)) x t) ∧
  turnsPkg (.stackFail pkg stack) s pkg (fun p x _ => x = { p with stackUp := setBit p.stackUp stack false }) ∧
  turnsPkg (.cxlDown pkg expander) s pkg (fun p x t => x = { p with cxlUp := setBit p.cxlUp expander false } ∧
    ∃ k, HostEvent.machine .cxlDown pkg k ∈ t.hostLog) ∧
  (∀ p, findPkg pkg s = some p → p.mgmtUp.getLsbD core = true →
    turnsPkg (.mgmtFailover pkg core) s pkg (fun p x _ => x = { p with mgmtUp := setBit p.mgmtUp core false }) ∧
    turnsLaunch (.mgmtFailover pkg core) s n (fun _ x t => (x.phase = .running ∧ x.cause = l.cause) ∨ begunStop n .mgmtFailover x t)) ∧
  turnsPkg (.thermalThrottle pkg 4) s pkg (fun p x t => x = { p with hubMhz := x.hubMhz } ∧ x.hubMhz ≤ p.hubMhz ∧
    (0 < p.hubMhz → x.hubMhz < p.hubMhz) ∧ t.dies = s.dies) ∧
  (die ≠ 4 → ∃ t, exec (.thermalThrottle pkg die) s = .next t ∧ ∀ d, findDie pkg die s = some d → ∃ x, findDie pkg die t = some x ∧
    x = { d with mhz := x.mhz, cap := x.cap } ∧ x.mhz ≤ d.mhz ∧ x.cap ≤ d.cap ∧ (1200 < d.mhz → 1200 ≤ x.mhz ∧ x.mhz < d.mhz) ∧
    (0 < d.cap → x.cap < d.cap)) ∧
  (∃ t, exec (.packagePowerCap pkg) s = .next t ∧ ∀ d, findDie pkg die s = some d → ∃ x, findDie pkg die t = some x ∧
    x = { d with mhz := x.mhz, cap := x.cap } ∧ x.mhz ≤ d.mhz ∧ x.cap ≤ d.cap ∧
    (0 < d.cap → x.mhz = d.mhz ∧ x.cap < d.cap) ∧ ((∀ y ∈ s.dies, y.pkg = pkg → y.cap = 0) → 1200 < d.mhz → x.mhz < d.mhz))

/-! ### The whole machine -/

/-- Every store of the machine keeps its canonical form from each step to the next (R94, R256; the form, and that an
unlisted byte reads 0, are the model's choice, log 5). -/
def Obligations.StoresStayCanonical : Prop :=
  ∀ (s t : State), canonical s = true → step s = .next t → canonical t = true

/-- R378: at reset no package has power, and nothing runs until it has (log 1): no launch, no message, nothing in
memory, no die on; the stores are in canonical form. What the spec states no reset value for stands at the values of
log 6. -/
def Obligations.ResetState : Prop :=
  (∀ p ∈ State.reset.pkgs, p.stage = .off) ∧ (∀ d ∈ State.reset.dies, d.on = false) ∧ State.reset.launches = [] ∧
  State.reset.inFlight = [] ∧ State.reset.mem = [] ∧ State.reset.memPoison = [] ∧ State.reset.agenda = [.powerOn 0] ∧
  State.reset.me.cur.state = .empty ∧ State.reset.others = [] ∧ canonical State.reset = true
end

