-- ==== Sys2Proof/Laws/State.lean ====
section
/-! SUPPORT. What each named update of the state leaves in each field: one lemma per field per update, true by
definition, so that a proof never unfolds a record update. -/
namespace Sys2Proof.Machine

/-! ### Updates of the core in focus -/

@[simp] theorem modCore_agenda (f : Core → Core) (s : State) : (modCore f s).agenda = s.agenda := rfl
@[simp] theorem modCore_turn (f : Core → Core) (s : State) : (modCore f s).turn = s.turn := rfl
@[simp] theorem modCore_cur (f : Core → Core) (s : State) : (modCore f s).cur = s.cur := rfl
@[simp] theorem modCore_fresh (f : Core → Core) (s : State) : (modCore f s).fresh = s.fresh := rfl
@[simp] theorem modCore_tick (f : Core → Core) (s : State) : (modCore f s).tick = s.tick := rfl
@[simp] theorem modCore_others (f : Core → Core) (s : State) : (modCore f s).others = s.others := rfl
@[simp] theorem modCore_launches (f : Core → Core) (s : State) : (modCore f s).launches = s.launches := rfl
@[simp] theorem modCore_pkgs (f : Core → Core) (s : State) : (modCore f s).pkgs = s.pkgs := rfl
@[simp] theorem modCore_dies (f : Core → Core) (s : State) : (modCore f s).dies = s.dies := rfl
@[simp] theorem modCore_links (f : Core → Core) (s : State) : (modCore f s).links = s.links := rfl
@[simp] theorem modCore_mem (f : Core → Core) (s : State) : (modCore f s).mem = s.mem := rfl
@[simp] theorem modCore_memPoison (f : Core → Core) (s : State) : (modCore f s).memPoison = s.memPoison := rfl
@[simp] theorem modCore_hostMem (f : Core → Core) (s : State) : (modCore f s).hostMem = s.hostMem := rfl
@[simp] theorem modCore_combiners (f : Core → Core) (s : State) : (modCore f s).combiners = s.combiners := rfl
@[simp] theorem modCore_inFlight (f : Core → Core) (s : State) : (modCore f s).inFlight = s.inFlight := rfl
@[simp] theorem modCore_inval (f : Core → Core) (s : State) : (modCore f s).inval = s.inval := rfl
@[simp] theorem modCore_onDemand (f : Core → Core) (s : State) : (modCore f s).onDemand = s.onDemand := rfl
@[simp] theorem modCore_colls (f : Core → Core) (s : State) : (modCore f s).colls = s.colls := rfl
@[simp] theorem modCore_podBoards (f : Core → Core) (s : State) : (modCore f s).podBoards = s.podBoards := rfl
@[simp] theorem modCore_hostLog (f : Core → Core) (s : State) : (modCore f s).hostLog = s.hostLog := rfl
@[simp] theorem modCore_nextLaunch (f : Core → Core) (s : State) : (modCore f s).nextLaunch = s.nextLaunch := rfl
@[simp] theorem modCore_podTime (f : Core → Core) (s : State) : (modCore f s).podTime = s.podTime := rfl
@[simp] theorem modCore_me (f : Core → Core) (s : State) : (modCore f s).me = f s.me := rfl

/-! ### Updates of its member -/

@[simp] theorem modM_agenda (f : Member → Member) (s : State) : (modM f s).agenda = s.agenda := rfl
@[simp] theorem modM_turn (f : Member → Member) (s : State) : (modM f s).turn = s.turn := rfl
@[simp] theorem modM_cur (f : Member → Member) (s : State) : (modM f s).cur = s.cur := rfl
@[simp] theorem modM_fresh (f : Member → Member) (s : State) : (modM f s).fresh = s.fresh := rfl
@[simp] theorem modM_tick (f : Member → Member) (s : State) : (modM f s).tick = s.tick := rfl
@[simp] theorem modM_others (f : Member → Member) (s : State) : (modM f s).others = s.others := rfl
@[simp] theorem modM_launches (f : Member → Member) (s : State) : (modM f s).launches = s.launches := rfl
@[simp] theorem modM_pkgs (f : Member → Member) (s : State) : (modM f s).pkgs = s.pkgs := rfl
@[simp] theorem modM_dies (f : Member → Member) (s : State) : (modM f s).dies = s.dies := rfl
@[simp] theorem modM_links (f : Member → Member) (s : State) : (modM f s).links = s.links := rfl
@[simp] theorem modM_mem (f : Member → Member) (s : State) : (modM f s).mem = s.mem := rfl
@[simp] theorem modM_memPoison (f : Member → Member) (s : State) : (modM f s).memPoison = s.memPoison := rfl
@[simp] theorem modM_hostMem (f : Member → Member) (s : State) : (modM f s).hostMem = s.hostMem := rfl
@[simp] theorem modM_combiners (f : Member → Member) (s : State) : (modM f s).combiners = s.combiners := rfl
@[simp] theorem modM_inFlight (f : Member → Member) (s : State) : (modM f s).inFlight = s.inFlight := rfl
@[simp] theorem modM_inval (f : Member → Member) (s : State) : (modM f s).inval = s.inval := rfl
@[simp] theorem modM_onDemand (f : Member → Member) (s : State) : (modM f s).onDemand = s.onDemand := rfl
@[simp] theorem modM_colls (f : Member → Member) (s : State) : (modM f s).colls = s.colls := rfl
@[simp] theorem modM_podBoards (f : Member → Member) (s : State) : (modM f s).podBoards = s.podBoards := rfl
@[simp] theorem modM_hostLog (f : Member → Member) (s : State) : (modM f s).hostLog = s.hostLog := rfl
@[simp] theorem modM_nextLaunch (f : Member → Member) (s : State) : (modM f s).nextLaunch = s.nextLaunch := rfl
@[simp] theorem modM_podTime (f : Member → Member) (s : State) : (modM f s).podTime = s.podTime := rfl
@[simp] theorem modM_me_pkg (f : Member → Member) (s : State) : (modM f s).me.pkg = s.me.pkg := rfl
@[simp] theorem modM_me_die (f : Member → Member) (s : State) : (modM f s).me.die = s.me.die := rfl
@[simp] theorem modM_me_phys (f : Member → Member) (s : State) : (modM f s).me.phys = s.me.phys := rfl
@[simp] theorem modM_me_quad (f : Member → Member) (s : State) : (modM f s).me.quad = s.me.quad := rfl
@[simp] theorem modM_me_idx (f : Member → Member) (s : State) : (modM f s).me.idx = s.me.idx := rfl
@[simp] theorem modM_me_spare (f : Member → Member) (s : State) : (modM f s).me.spare = s.me.spare := rfl
@[simp] theorem modM_me_retired (f : Member → Member) (s : State) : (modM f s).me.retired = s.me.retired := rfl
@[simp] theorem modM_me_cur (f : Member → Member) (s : State) : (modM f s).me.cur = s.me.cur := rfl
@[simp] theorem modM_me_next (f : Member → Member) (s : State) : (modM f s).me.next = s.me.next := rfl
@[simp] theorem modM_me_spad (f : Member → Member) (s : State) : (modM f s).me.spad = s.me.spad := rfl
@[simp] theorem modM_me_spadPoison (f : Member → Member) (s : State) : (modM f s).me.spadPoison = s.me.spadPoison := rfl
@[simp] theorem modM_me_nextSpad (f : Member → Member) (s : State) : (modM f s).me.nextSpad = s.me.nextSpad := rfl
@[simp] theorem modM_me_nextSpadPoison (f : Member → Member) (s : State) : (modM f s).me.nextSpadPoison = s.me.nextSpadPoison := rfl
@[simp] theorem modM_me_imem (f : Member → Member) (s : State) : (modM f s).me.imem = s.me.imem := rfl
@[simp] theorem modM_me_imemPoison (f : Member → Member) (s : State) : (modM f s).me.imemPoison = s.me.imemPoison := rfl
@[simp] theorem modM_me_buffers (f : Member → Member) (s : State) : (modM f s).me.buffers = s.me.buffers := rfl
@[simp] theorem modM_me_inbox (f : Member → Member) (s : State) : (modM f s).me.inbox = s.me.inbox := rfl
@[simp] theorem modM_me_leavesM (f : Member → Member) (s : State) : (modM f s).me.leavesM = s.me.leavesM := rfl
@[simp] theorem modM_me_leavesS (f : Member → Member) (s : State) : (modM f s).me.leavesS = s.me.leavesS := rfl
@[simp] theorem modM_me_leavesC (f : Member → Member) (s : State) : (modM f s).me.leavesC = s.me.leavesC := rfl
@[simp] theorem modM_me_m (f : Member → Member) (s : State) : (modM f s).me.m = f s.me.m := rfl

/-! ### Updates of a stream -/

@[simp] theorem memberSetCtx_events (m : Member) (st : Stream) (c : StreamCtx) : (memberSetCtx m st c).events = m.events := rfl
@[simp] theorem memberSetCtx_csrs (m : Member) (st : Stream) (c : StreamCtx) : (memberSetCtx m st c).csrs = m.csrs := rfl
@[simp] theorem memberSetCtx_gens (m : Member) (st : Stream) (c : StreamCtx) : (memberSetCtx m st c).gens = m.gens := rfl
@[simp] theorem memberSetCtx_tiles (m : Member) (st : Stream) (c : StreamCtx) : (memberSetCtx m st c).tiles = m.tiles := rfl
@[simp] theorem memberSetCtx_fregs (m : Member) (st : Stream) (c : StreamCtx) : (memberSetCtx m st c).fregs = m.fregs := rfl
@[simp] theorem memberSetCtx_preds (m : Member) (st : Stream) (c : StreamCtx) : (memberSetCtx m st c).preds = m.preds := rfl
@[simp] theorem memberSetCtx_regions (m : Member) (st : Stream) (c : StreamCtx) : (memberSetCtx m st c).regions = m.regions := rfl
@[simp] theorem memberSetCtx_acc (m : Member) (st : Stream) (c : StreamCtx) : (memberSetCtx m st c).acc = m.acc := rfl
@[simp] theorem memberSetCtx_shadow (m : Member) (st : Stream) (c : StreamCtx) : (memberSetCtx m st c).shadow = m.shadow := rfl
@[simp] theorem memberSetCtx_active (m : Member) (st : Stream) (c : StreamCtx) : (memberSetCtx m st c).active = m.active := rfl
@[simp] theorem memberSetCtx_copied (m : Member) (st : Stream) (c : StreamCtx) : (memberSetCtx m st c).copied = m.copied := rfl
@[simp] theorem memberSetCtx_age (m : Member) (st : Stream) (c : StreamCtx) : (memberSetCtx m st c).age = m.age := rfl
@[simp] theorem memberSetCtx_mq (m : Member) (st : Stream) (c : StreamCtx) : (memberSetCtx m st c).mq = m.mq := rfl
@[simp] theorem memberSetCtx_cq (m : Member) (st : Stream) (c : StreamCtx) : (memberSetCtx m st c).cq = m.cq := rfl
@[simp] theorem memberSetCtx_iq (m : Member) (st : Stream) (c : StreamCtx) : (memberSetCtx m st c).iq = m.iq := rfl
@[simp] theorem memberSetCtx_perform (m : Member) (st : Stream) (c : StreamCtx) : (memberSetCtx m st c).perform = m.perform := rfl
@[simp] theorem memberSetCtx_found (m : Member) (st : Stream) (c : StreamCtx) : (memberSetCtx m st c).found = m.found := rfl
@[simp] theorem memberSetCtx_cDone (m : Member) (st : Stream) (c : StreamCtx) : (memberSetCtx m st c).cDone = m.cDone := rfl
@[simp] theorem memberSetCtx_shapes (m : Member) (st : Stream) (c : StreamCtx) : (memberSetCtx m st c).shapes = m.shapes := rfl
@[simp] theorem memberSetCtx_bobbins (m : Member) (st : Stream) (c : StreamCtx) : (memberSetCtx m st c).bobbins = m.bobbins := rfl
@[simp] theorem memberSetCtx_rings (m : Member) (st : Stream) (c : StreamCtx) : (memberSetCtx m st c).rings = m.rings := rfl
@[simp] theorem memberSetCtx_views (m : Member) (st : Stream) (c : StreamCtx) : (memberSetCtx m st c).views = m.views := rfl
@[simp] theorem memberSetCtx_rounds (m : Member) (st : Stream) (c : StreamCtx) : (memberSetCtx m st c).rounds = m.rounds := rfl
@[simp] theorem memberSetCtx_returns (m : Member) (st : Stream) (c : StreamCtx) : (memberSetCtx m st c).returns = m.returns := rfl
@[simp] theorem memberSetCtx_losses (m : Member) (st : Stream) (c : StreamCtx) : (memberSetCtx m st c).losses = m.losses := rfl
@[simp] theorem memberSetCtx_readLost (m : Member) (st : Stream) (c : StreamCtx) : (memberSetCtx m st c).readLost = m.readLost := rfl
@[simp] theorem memberSetCtx_passed (m : Member) (st : Stream) (c : StreamCtx) : (memberSetCtx m st c).passed = m.passed := rfl
@[simp] theorem memberSetCtx_demand (m : Member) (st : Stream) (c : StreamCtx) : (memberSetCtx m st c).demand = m.demand := rfl
@[simp] theorem memberSetCtx_ended (m : Member) (st : Stream) (c : StreamCtx) : (memberSetCtx m st c).ended = m.ended := rfl
@[simp] theorem setCtx_agenda (c : StreamCtx) (s : State) : (setCtx c s).agenda = s.agenda := rfl
@[simp] theorem setCtx_turn (c : StreamCtx) (s : State) : (setCtx c s).turn = s.turn := rfl
@[simp] theorem setCtx_cur (c : StreamCtx) (s : State) : (setCtx c s).cur = s.cur := rfl
@[simp] theorem setCtx_fresh (c : StreamCtx) (s : State) : (setCtx c s).fresh = s.fresh := rfl
@[simp] theorem setCtx_tick (c : StreamCtx) (s : State) : (setCtx c s).tick = s.tick := rfl
@[simp] theorem setCtx_others (c : StreamCtx) (s : State) : (setCtx c s).others = s.others := rfl
@[simp] theorem setCtx_launches (c : StreamCtx) (s : State) : (setCtx c s).launches = s.launches := rfl
@[simp] theorem setCtx_pkgs (c : StreamCtx) (s : State) : (setCtx c s).pkgs = s.pkgs := rfl
@[simp] theorem setCtx_dies (c : StreamCtx) (s : State) : (setCtx c s).dies = s.dies := rfl
@[simp] theorem setCtx_links (c : StreamCtx) (s : State) : (setCtx c s).links = s.links := rfl
@[simp] theorem setCtx_mem (c : StreamCtx) (s : State) : (setCtx c s).mem = s.mem := rfl
@[simp] theorem setCtx_memPoison (c : StreamCtx) (s : State) : (setCtx c s).memPoison = s.memPoison := rfl
@[simp] theorem setCtx_hostMem (c : StreamCtx) (s : State) : (setCtx c s).hostMem = s.hostMem := rfl
@[simp] theorem setCtx_combiners (c : StreamCtx) (s : State) : (setCtx c s).combiners = s.combiners := rfl
@[simp] theorem setCtx_inFlight (c : StreamCtx) (s : State) : (setCtx c s).inFlight = s.inFlight := rfl
@[simp] theorem setCtx_inval (c : StreamCtx) (s : State) : (setCtx c s).inval = s.inval := rfl
@[simp] theorem setCtx_onDemand (c : StreamCtx) (s : State) : (setCtx c s).onDemand = s.onDemand := rfl
@[simp] theorem setCtx_colls (c : StreamCtx) (s : State) : (setCtx c s).colls = s.colls := rfl
@[simp] theorem setCtx_podBoards (c : StreamCtx) (s : State) : (setCtx c s).podBoards = s.podBoards := rfl
@[simp] theorem setCtx_hostLog (c : StreamCtx) (s : State) : (setCtx c s).hostLog = s.hostLog := rfl
@[simp] theorem setCtx_nextLaunch (c : StreamCtx) (s : State) : (setCtx c s).nextLaunch = s.nextLaunch := rfl
@[simp] theorem setCtx_podTime (c : StreamCtx) (s : State) : (setCtx c s).podTime = s.podTime := rfl
@[simp] theorem setCtx_me_pkg (c : StreamCtx) (s : State) : (setCtx c s).me.pkg = s.me.pkg := rfl
@[simp] theorem setCtx_me_die (c : StreamCtx) (s : State) : (setCtx c s).me.die = s.me.die := rfl
@[simp] theorem setCtx_me_phys (c : StreamCtx) (s : State) : (setCtx c s).me.phys = s.me.phys := rfl
@[simp] theorem setCtx_me_quad (c : StreamCtx) (s : State) : (setCtx c s).me.quad = s.me.quad := rfl
@[simp] theorem setCtx_me_idx (c : StreamCtx) (s : State) : (setCtx c s).me.idx = s.me.idx := rfl
@[simp] theorem setCtx_me_spare (c : StreamCtx) (s : State) : (setCtx c s).me.spare = s.me.spare := rfl
@[simp] theorem setCtx_me_retired (c : StreamCtx) (s : State) : (setCtx c s).me.retired = s.me.retired := rfl
@[simp] theorem setCtx_me_cur (c : StreamCtx) (s : State) : (setCtx c s).me.cur = s.me.cur := rfl
@[simp] theorem setCtx_me_next (c : StreamCtx) (s : State) : (setCtx c s).me.next = s.me.next := rfl
@[simp] theorem setCtx_me_spad (c : StreamCtx) (s : State) : (setCtx c s).me.spad = s.me.spad := rfl
@[simp] theorem setCtx_me_spadPoison (c : StreamCtx) (s : State) : (setCtx c s).me.spadPoison = s.me.spadPoison := rfl
@[simp] theorem setCtx_me_nextSpad (c : StreamCtx) (s : State) : (setCtx c s).me.nextSpad = s.me.nextSpad := rfl
@[simp] theorem setCtx_me_nextSpadPoison (c : StreamCtx) (s : State) : (setCtx c s).me.nextSpadPoison = s.me.nextSpadPoison := rfl
@[simp] theorem setCtx_me_imem (c : StreamCtx) (s : State) : (setCtx c s).me.imem = s.me.imem := rfl
@[simp] theorem setCtx_me_imemPoison (c : StreamCtx) (s : State) : (setCtx c s).me.imemPoison = s.me.imemPoison := rfl
@[simp] theorem setCtx_me_buffers (c : StreamCtx) (s : State) : (setCtx c s).me.buffers = s.me.buffers := rfl
@[simp] theorem setCtx_me_inbox (c : StreamCtx) (s : State) : (setCtx c s).me.inbox = s.me.inbox := rfl
@[simp] theorem setCtx_me_leavesM (c : StreamCtx) (s : State) : (setCtx c s).me.leavesM = s.me.leavesM := rfl
@[simp] theorem setCtx_me_leavesS (c : StreamCtx) (s : State) : (setCtx c s).me.leavesS = s.me.leavesS := rfl
@[simp] theorem setCtx_me_leavesC (c : StreamCtx) (s : State) : (setCtx c s).me.leavesC = s.me.leavesC := rfl
@[simp] theorem setCtx_m_events (c : StreamCtx) (s : State) : (setCtx c s).me.m.events = s.me.m.events := rfl
@[simp] theorem setCtx_m_csrs (c : StreamCtx) (s : State) : (setCtx c s).me.m.csrs = s.me.m.csrs := rfl
@[simp] theorem setCtx_m_gens (c : StreamCtx) (s : State) : (setCtx c s).me.m.gens = s.me.m.gens := rfl
@[simp] theorem setCtx_m_tiles (c : StreamCtx) (s : State) : (setCtx c s).me.m.tiles = s.me.m.tiles := rfl
@[simp] theorem setCtx_m_fregs (c : StreamCtx) (s : State) : (setCtx c s).me.m.fregs = s.me.m.fregs := rfl
@[simp] theorem setCtx_m_preds (c : StreamCtx) (s : State) : (setCtx c s).me.m.preds = s.me.m.preds := rfl
@[simp] theorem setCtx_m_regions (c : StreamCtx) (s : State) : (setCtx c s).me.m.regions = s.me.m.regions := rfl
@[simp] theorem setCtx_m_acc (c : StreamCtx) (s : State) : (setCtx c s).me.m.acc = s.me.m.acc := rfl
@[simp] theorem setCtx_m_shadow (c : StreamCtx) (s : State) : (setCtx c s).me.m.shadow = s.me.m.shadow := rfl
@[simp] theorem setCtx_m_active (c : StreamCtx) (s : State) : (setCtx c s).me.m.active = s.me.m.active := rfl
@[simp] theorem setCtx_m_copied (c : StreamCtx) (s : State) : (setCtx c s).me.m.copied = s.me.m.copied := rfl
@[simp] theorem setCtx_m_age (c : StreamCtx) (s : State) : (setCtx c s).me.m.age = s.me.m.age := rfl
@[simp] theorem setCtx_m_mq (c : StreamCtx) (s : State) : (setCtx c s).me.m.mq = s.me.m.mq := rfl
@[simp] theorem setCtx_m_cq (c : StreamCtx) (s : State) : (setCtx c s).me.m.cq = s.me.m.cq := rfl
@[simp] theorem setCtx_m_iq (c : StreamCtx) (s : State) : (setCtx c s).me.m.iq = s.me.m.iq := rfl
@[simp] theorem setCtx_m_perform (c : StreamCtx) (s : State) : (setCtx c s).me.m.perform = s.me.m.perform := rfl
@[simp] theorem setCtx_m_found (c : StreamCtx) (s : State) : (setCtx c s).me.m.found = s.me.m.found := rfl
@[simp] theorem setCtx_m_cDone (c : StreamCtx) (s : State) : (setCtx c s).me.m.cDone = s.me.m.cDone := rfl
@[simp] theorem setCtx_m_shapes (c : StreamCtx) (s : State) : (setCtx c s).me.m.shapes = s.me.m.shapes := rfl
@[simp] theorem setCtx_m_bobbins (c : StreamCtx) (s : State) : (setCtx c s).me.m.bobbins = s.me.m.bobbins := rfl
@[simp] theorem setCtx_m_rings (c : StreamCtx) (s : State) : (setCtx c s).me.m.rings = s.me.m.rings := rfl
@[simp] theorem setCtx_m_views (c : StreamCtx) (s : State) : (setCtx c s).me.m.views = s.me.m.views := rfl
@[simp] theorem setCtx_m_rounds (c : StreamCtx) (s : State) : (setCtx c s).me.m.rounds = s.me.m.rounds := rfl
@[simp] theorem setCtx_m_returns (c : StreamCtx) (s : State) : (setCtx c s).me.m.returns = s.me.m.returns := rfl
@[simp] theorem setCtx_m_losses (c : StreamCtx) (s : State) : (setCtx c s).me.m.losses = s.me.m.losses := rfl
@[simp] theorem setCtx_m_readLost (c : StreamCtx) (s : State) : (setCtx c s).me.m.readLost = s.me.m.readLost := rfl
@[simp] theorem setCtx_m_passed (c : StreamCtx) (s : State) : (setCtx c s).me.m.passed = s.me.m.passed := rfl
@[simp] theorem setCtx_m_demand (c : StreamCtx) (s : State) : (setCtx c s).me.m.demand = s.me.m.demand := rfl
@[simp] theorem setCtx_m_ended (c : StreamCtx) (s : State) : (setCtx c s).me.m.ended = s.me.m.ended := rfl
@[simp] theorem modCtx_agenda (f : StreamCtx → StreamCtx) (s : State) : (modCtx f s).agenda = s.agenda := rfl
@[simp] theorem modCtx_turn (f : StreamCtx → StreamCtx) (s : State) : (modCtx f s).turn = s.turn := rfl
@[simp] theorem modCtx_cur (f : StreamCtx → StreamCtx) (s : State) : (modCtx f s).cur = s.cur := rfl
@[simp] theorem modCtx_fresh (f : StreamCtx → StreamCtx) (s : State) : (modCtx f s).fresh = s.fresh := rfl
@[simp] theorem modCtx_tick (f : StreamCtx → StreamCtx) (s : State) : (modCtx f s).tick = s.tick := rfl
@[simp] theorem modCtx_others (f : StreamCtx → StreamCtx) (s : State) : (modCtx f s).others = s.others := rfl
@[simp] theorem modCtx_launches (f : StreamCtx → StreamCtx) (s : State) : (modCtx f s).launches = s.launches := rfl
@[simp] theorem modCtx_pkgs (f : StreamCtx → StreamCtx) (s : State) : (modCtx f s).pkgs = s.pkgs := rfl
@[simp] theorem modCtx_dies (f : StreamCtx → StreamCtx) (s : State) : (modCtx f s).dies = s.dies := rfl
@[simp] theorem modCtx_links (f : StreamCtx → StreamCtx) (s : State) : (modCtx f s).links = s.links := rfl
@[simp] theorem modCtx_mem (f : StreamCtx → StreamCtx) (s : State) : (modCtx f s).mem = s.mem := rfl
@[simp] theorem modCtx_memPoison (f : StreamCtx → StreamCtx) (s : State) : (modCtx f s).memPoison = s.memPoison := rfl
@[simp] theorem modCtx_hostMem (f : StreamCtx → StreamCtx) (s : State) : (modCtx f s).hostMem = s.hostMem := rfl
@[simp] theorem modCtx_combiners (f : StreamCtx → StreamCtx) (s : State) : (modCtx f s).combiners = s.combiners := rfl
@[simp] theorem modCtx_inFlight (f : StreamCtx → StreamCtx) (s : State) : (modCtx f s).inFlight = s.inFlight := rfl
@[simp] theorem modCtx_inval (f : StreamCtx → StreamCtx) (s : State) : (modCtx f s).inval = s.inval := rfl
@[simp] theorem modCtx_onDemand (f : StreamCtx → StreamCtx) (s : State) : (modCtx f s).onDemand = s.onDemand := rfl
@[simp] theorem modCtx_colls (f : StreamCtx → StreamCtx) (s : State) : (modCtx f s).colls = s.colls := rfl
@[simp] theorem modCtx_podBoards (f : StreamCtx → StreamCtx) (s : State) : (modCtx f s).podBoards = s.podBoards := rfl
@[simp] theorem modCtx_hostLog (f : StreamCtx → StreamCtx) (s : State) : (modCtx f s).hostLog = s.hostLog := rfl
@[simp] theorem modCtx_nextLaunch (f : StreamCtx → StreamCtx) (s : State) : (modCtx f s).nextLaunch = s.nextLaunch := rfl
@[simp] theorem modCtx_podTime (f : StreamCtx → StreamCtx) (s : State) : (modCtx f s).podTime = s.podTime := rfl
@[simp] theorem modCtx_me_pkg (f : StreamCtx → StreamCtx) (s : State) : (modCtx f s).me.pkg = s.me.pkg := rfl
@[simp] theorem modCtx_me_die (f : StreamCtx → StreamCtx) (s : State) : (modCtx f s).me.die = s.me.die := rfl
@[simp] theorem modCtx_me_phys (f : StreamCtx → StreamCtx) (s : State) : (modCtx f s).me.phys = s.me.phys := rfl
@[simp] theorem modCtx_me_quad (f : StreamCtx → StreamCtx) (s : State) : (modCtx f s).me.quad = s.me.quad := rfl
@[simp] theorem modCtx_me_idx (f : StreamCtx → StreamCtx) (s : State) : (modCtx f s).me.idx = s.me.idx := rfl
@[simp] theorem modCtx_me_spare (f : StreamCtx → StreamCtx) (s : State) : (modCtx f s).me.spare = s.me.spare := rfl
@[simp] theorem modCtx_me_retired (f : StreamCtx → StreamCtx) (s : State) : (modCtx f s).me.retired = s.me.retired := rfl
@[simp] theorem modCtx_me_cur (f : StreamCtx → StreamCtx) (s : State) : (modCtx f s).me.cur = s.me.cur := rfl
@[simp] theorem modCtx_me_next (f : StreamCtx → StreamCtx) (s : State) : (modCtx f s).me.next = s.me.next := rfl
@[simp] theorem modCtx_me_spad (f : StreamCtx → StreamCtx) (s : State) : (modCtx f s).me.spad = s.me.spad := rfl
@[simp] theorem modCtx_me_spadPoison (f : StreamCtx → StreamCtx) (s : State) : (modCtx f s).me.spadPoison = s.me.spadPoison := rfl
@[simp] theorem modCtx_me_nextSpad (f : StreamCtx → StreamCtx) (s : State) : (modCtx f s).me.nextSpad = s.me.nextSpad := rfl
@[simp] theorem modCtx_me_nextSpadPoison (f : StreamCtx → StreamCtx) (s : State) : (modCtx f s).me.nextSpadPoison = s.me.nextSpadPoison := rfl
@[simp] theorem modCtx_me_imem (f : StreamCtx → StreamCtx) (s : State) : (modCtx f s).me.imem = s.me.imem := rfl
@[simp] theorem modCtx_me_imemPoison (f : StreamCtx → StreamCtx) (s : State) : (modCtx f s).me.imemPoison = s.me.imemPoison := rfl
@[simp] theorem modCtx_me_buffers (f : StreamCtx → StreamCtx) (s : State) : (modCtx f s).me.buffers = s.me.buffers := rfl
@[simp] theorem modCtx_me_inbox (f : StreamCtx → StreamCtx) (s : State) : (modCtx f s).me.inbox = s.me.inbox := rfl
@[simp] theorem modCtx_me_leavesM (f : StreamCtx → StreamCtx) (s : State) : (modCtx f s).me.leavesM = s.me.leavesM := rfl
@[simp] theorem modCtx_me_leavesS (f : StreamCtx → StreamCtx) (s : State) : (modCtx f s).me.leavesS = s.me.leavesS := rfl
@[simp] theorem modCtx_me_leavesC (f : StreamCtx → StreamCtx) (s : State) : (modCtx f s).me.leavesC = s.me.leavesC := rfl
@[simp] theorem modCtx_m_events (f : StreamCtx → StreamCtx) (s : State) : (modCtx f s).me.m.events = s.me.m.events := rfl
@[simp] theorem modCtx_m_csrs (f : StreamCtx → StreamCtx) (s : State) : (modCtx f s).me.m.csrs = s.me.m.csrs := rfl
@[simp] theorem modCtx_m_gens (f : StreamCtx → StreamCtx) (s : State) : (modCtx f s).me.m.gens = s.me.m.gens := rfl
@[simp] theorem modCtx_m_tiles (f : StreamCtx → StreamCtx) (s : State) : (modCtx f s).me.m.tiles = s.me.m.tiles := rfl
@[simp] theorem modCtx_m_fregs (f : StreamCtx → StreamCtx) (s : State) : (modCtx f s).me.m.fregs = s.me.m.fregs := rfl
@[simp] theorem modCtx_m_preds (f : StreamCtx → StreamCtx) (s : State) : (modCtx f s).me.m.preds = s.me.m.preds := rfl
@[simp] theorem modCtx_m_regions (f : StreamCtx → StreamCtx) (s : State) : (modCtx f s).me.m.regions = s.me.m.regions := rfl
@[simp] theorem modCtx_m_acc (f : StreamCtx → StreamCtx) (s : State) : (modCtx f s).me.m.acc = s.me.m.acc := rfl
@[simp] theorem modCtx_m_shadow (f : StreamCtx → StreamCtx) (s : State) : (modCtx f s).me.m.shadow = s.me.m.shadow := rfl
@[simp] theorem modCtx_m_active (f : StreamCtx → StreamCtx) (s : State) : (modCtx f s).me.m.active = s.me.m.active := rfl
@[simp] theorem modCtx_m_copied (f : StreamCtx → StreamCtx) (s : State) : (modCtx f s).me.m.copied = s.me.m.copied := rfl
@[simp] theorem modCtx_m_age (f : StreamCtx → StreamCtx) (s : State) : (modCtx f s).me.m.age = s.me.m.age := rfl
@[simp] theorem modCtx_m_mq (f : StreamCtx → StreamCtx) (s : State) : (modCtx f s).me.m.mq = s.me.m.mq := rfl
@[simp] theorem modCtx_m_cq (f : StreamCtx → StreamCtx) (s : State) : (modCtx f s).me.m.cq = s.me.m.cq := rfl
@[simp] theorem modCtx_m_iq (f : StreamCtx → StreamCtx) (s : State) : (modCtx f s).me.m.iq = s.me.m.iq := rfl
@[simp] theorem modCtx_m_perform (f : StreamCtx → StreamCtx) (s : State) : (modCtx f s).me.m.perform = s.me.m.perform := rfl
@[simp] theorem modCtx_m_found (f : StreamCtx → StreamCtx) (s : State) : (modCtx f s).me.m.found = s.me.m.found := rfl
@[simp] theorem modCtx_m_cDone (f : StreamCtx → StreamCtx) (s : State) : (modCtx f s).me.m.cDone = s.me.m.cDone := rfl
@[simp] theorem modCtx_m_shapes (f : StreamCtx → StreamCtx) (s : State) : (modCtx f s).me.m.shapes = s.me.m.shapes := rfl
@[simp] theorem modCtx_m_bobbins (f : StreamCtx → StreamCtx) (s : State) : (modCtx f s).me.m.bobbins = s.me.m.bobbins := rfl
@[simp] theorem modCtx_m_rings (f : StreamCtx → StreamCtx) (s : State) : (modCtx f s).me.m.rings = s.me.m.rings := rfl
@[simp] theorem modCtx_m_views (f : StreamCtx → StreamCtx) (s : State) : (modCtx f s).me.m.views = s.me.m.views := rfl
@[simp] theorem modCtx_m_rounds (f : StreamCtx → StreamCtx) (s : State) : (modCtx f s).me.m.rounds = s.me.m.rounds := rfl
@[simp] theorem modCtx_m_returns (f : StreamCtx → StreamCtx) (s : State) : (modCtx f s).me.m.returns = s.me.m.returns := rfl
@[simp] theorem modCtx_m_losses (f : StreamCtx → StreamCtx) (s : State) : (modCtx f s).me.m.losses = s.me.m.losses := rfl
@[simp] theorem modCtx_m_readLost (f : StreamCtx → StreamCtx) (s : State) : (modCtx f s).me.m.readLost = s.me.m.readLost := rfl
@[simp] theorem modCtx_m_passed (f : StreamCtx → StreamCtx) (s : State) : (modCtx f s).me.m.passed = s.me.m.passed := rfl
@[simp] theorem modCtx_m_demand (f : StreamCtx → StreamCtx) (s : State) : (modCtx f s).me.m.demand = s.me.m.demand := rfl
@[simp] theorem modCtx_m_ended (f : StreamCtx → StreamCtx) (s : State) : (modCtx f s).me.m.ended = s.me.m.ended := rfl

/-! ### The stream just written -/

theorem vat_vput_same {α : Type} {k : Nat} (v : Vector α (2 ^ k)) (i : BitVec k) (x : α) : vat (vput v i x) i = x := by
  simp [vat, vput]

theorem vat_vput_other {α : Type} {k : Nat} (v : Vector α (2 ^ k)) (i j : BitVec k) (x : α) (h : i ≠ j) :
    vat (vput v i x) j = vat v j := by
  have : i.toNat ≠ j.toNat := fun e => h (BitVec.eq_of_toNat_eq e)
  simp [vat, vput, Vector.getElem_set_ne, this]

@[simp] theorem memberCtx_set (m : Member) (st : Stream) (c : StreamCtx) : memberCtx (memberSetCtx m st c) st = c := by
  simp only [memberCtx, memberSetCtx]
  exact vat_vput_same (k := 2) m.streams (streamIdx st) c

theorem memberCtx_set_other (m : Member) (st su : Stream) (c : StreamCtx) (h : su ≠ st) :
    memberCtx (memberSetCtx m st c) su = memberCtx m su := by
  simp only [memberCtx, memberSetCtx]
  apply vat_vput_other (k := 2)
  cases st <;> cases su <;> first | exact absurd rfl h | decide

@[simp] theorem ctx_setCtx (c : StreamCtx) (s : State) : ctx (setCtx c s) = c := by simp [ctx, setCtx]
@[simp] theorem ctx_modCtx (f : StreamCtx → StreamCtx) (s : State) : ctx (modCtx f s) = f (ctx s) := by simp [modCtx]

/-! ### Tiles and factor registers -/

@[simp] theorem putTile_agenda (t : Reg) (x : Tile) (s : State) : (putTile t x s).agenda = s.agenda := rfl
@[simp] theorem putTile_turn (t : Reg) (x : Tile) (s : State) : (putTile t x s).turn = s.turn := rfl
@[simp] theorem putTile_cur (t : Reg) (x : Tile) (s : State) : (putTile t x s).cur = s.cur := rfl
@[simp] theorem putTile_fresh (t : Reg) (x : Tile) (s : State) : (putTile t x s).fresh = s.fresh := rfl
@[simp] theorem putTile_tick (t : Reg) (x : Tile) (s : State) : (putTile t x s).tick = s.tick := rfl
@[simp] theorem putTile_others (t : Reg) (x : Tile) (s : State) : (putTile t x s).others = s.others := rfl
@[simp] theorem putTile_launches (t : Reg) (x : Tile) (s : State) : (putTile t x s).launches = s.launches := rfl
@[simp] theorem putTile_pkgs (t : Reg) (x : Tile) (s : State) : (putTile t x s).pkgs = s.pkgs := rfl
@[simp] theorem putTile_dies (t : Reg) (x : Tile) (s : State) : (putTile t x s).dies = s.dies := rfl
@[simp] theorem putTile_links (t : Reg) (x : Tile) (s : State) : (putTile t x s).links = s.links := rfl
@[simp] theorem putTile_mem (t : Reg) (x : Tile) (s : State) : (putTile t x s).mem = s.mem := rfl
@[simp] theorem putTile_memPoison (t : Reg) (x : Tile) (s : State) : (putTile t x s).memPoison = s.memPoison := rfl
@[simp] theorem putTile_hostMem (t : Reg) (x : Tile) (s : State) : (putTile t x s).hostMem = s.hostMem := rfl
@[simp] theorem putTile_combiners (t : Reg) (x : Tile) (s : State) : (putTile t x s).combiners = s.combiners := rfl
@[simp] theorem putTile_inFlight (t : Reg) (x : Tile) (s : State) : (putTile t x s).inFlight = s.inFlight := rfl
@[simp] theorem putTile_inval (t : Reg) (x : Tile) (s : State) : (putTile t x s).inval = s.inval := rfl
@[simp] theorem putTile_onDemand (t : Reg) (x : Tile) (s : State) : (putTile t x s).onDemand = s.onDemand := rfl
@[simp] theorem putTile_colls (t : Reg) (x : Tile) (s : State) : (putTile t x s).colls = s.colls := rfl
@[simp] theorem putTile_podBoards (t : Reg) (x : Tile) (s : State) : (putTile t x s).podBoards = s.podBoards := rfl
@[simp] theorem putTile_hostLog (t : Reg) (x : Tile) (s : State) : (putTile t x s).hostLog = s.hostLog := rfl
@[simp] theorem putTile_nextLaunch (t : Reg) (x : Tile) (s : State) : (putTile t x s).nextLaunch = s.nextLaunch := rfl
@[simp] theorem putTile_podTime (t : Reg) (x : Tile) (s : State) : (putTile t x s).podTime = s.podTime := rfl
@[simp] theorem putTile_m_streams (t : Reg) (x : Tile) (s : State) : (putTile t x s).me.m.streams = s.me.m.streams := rfl
@[simp] theorem putTile_m_events (t : Reg) (x : Tile) (s : State) : (putTile t x s).me.m.events = s.me.m.events := rfl
@[simp] theorem putTile_m_csrs (t : Reg) (x : Tile) (s : State) : (putTile t x s).me.m.csrs = s.me.m.csrs := rfl
@[simp] theorem putTile_m_gens (t : Reg) (x : Tile) (s : State) : (putTile t x s).me.m.gens = s.me.m.gens := rfl
@[simp] theorem putTile_m_fregs (t : Reg) (x : Tile) (s : State) : (putTile t x s).me.m.fregs = s.me.m.fregs := rfl
@[simp] theorem putTile_m_preds (t : Reg) (x : Tile) (s : State) : (putTile t x s).me.m.preds = s.me.m.preds := rfl
@[simp] theorem putTile_m_regions (t : Reg) (x : Tile) (s : State) : (putTile t x s).me.m.regions = s.me.m.regions := rfl
@[simp] theorem putTile_m_acc (t : Reg) (x : Tile) (s : State) : (putTile t x s).me.m.acc = s.me.m.acc := rfl
@[simp] theorem putTile_m_shadow (t : Reg) (x : Tile) (s : State) : (putTile t x s).me.m.shadow = s.me.m.shadow := rfl
@[simp] theorem putTile_m_active (t : Reg) (x : Tile) (s : State) : (putTile t x s).me.m.active = s.me.m.active := rfl
@[simp] theorem putTile_m_copied (t : Reg) (x : Tile) (s : State) : (putTile t x s).me.m.copied = s.me.m.copied := rfl
@[simp] theorem putTile_m_age (t : Reg) (x : Tile) (s : State) : (putTile t x s).me.m.age = s.me.m.age := rfl
@[simp] theorem putTile_m_mq (t : Reg) (x : Tile) (s : State) : (putTile t x s).me.m.mq = s.me.m.mq := rfl
@[simp] theorem putTile_m_cq (t : Reg) (x : Tile) (s : State) : (putTile t x s).me.m.cq = s.me.m.cq := rfl
@[simp] theorem putTile_m_iq (t : Reg) (x : Tile) (s : State) : (putTile t x s).me.m.iq = s.me.m.iq := rfl
@[simp] theorem putTile_m_perform (t : Reg) (x : Tile) (s : State) : (putTile t x s).me.m.perform = s.me.m.perform := rfl
@[simp] theorem putTile_m_found (t : Reg) (x : Tile) (s : State) : (putTile t x s).me.m.found = s.me.m.found := rfl
@[simp] theorem putTile_m_cDone (t : Reg) (x : Tile) (s : State) : (putTile t x s).me.m.cDone = s.me.m.cDone := rfl
@[simp] theorem putTile_m_shapes (t : Reg) (x : Tile) (s : State) : (putTile t x s).me.m.shapes = s.me.m.shapes := rfl
@[simp] theorem putTile_m_bobbins (t : Reg) (x : Tile) (s : State) : (putTile t x s).me.m.bobbins = s.me.m.bobbins := rfl
@[simp] theorem putTile_m_rings (t : Reg) (x : Tile) (s : State) : (putTile t x s).me.m.rings = s.me.m.rings := rfl
@[simp] theorem putTile_m_views (t : Reg) (x : Tile) (s : State) : (putTile t x s).me.m.views = s.me.m.views := rfl
@[simp] theorem putTile_m_rounds (t : Reg) (x : Tile) (s : State) : (putTile t x s).me.m.rounds = s.me.m.rounds := rfl
@[simp] theorem putTile_m_returns (t : Reg) (x : Tile) (s : State) : (putTile t x s).me.m.returns = s.me.m.returns := rfl
@[simp] theorem putTile_m_losses (t : Reg) (x : Tile) (s : State) : (putTile t x s).me.m.losses = s.me.m.losses := rfl
@[simp] theorem putTile_m_readLost (t : Reg) (x : Tile) (s : State) : (putTile t x s).me.m.readLost = s.me.m.readLost := rfl
@[simp] theorem putTile_m_passed (t : Reg) (x : Tile) (s : State) : (putTile t x s).me.m.passed = s.me.m.passed := rfl
@[simp] theorem putTile_m_demand (t : Reg) (x : Tile) (s : State) : (putTile t x s).me.m.demand = s.me.m.demand := rfl
@[simp] theorem putTile_m_ended (t : Reg) (x : Tile) (s : State) : (putTile t x s).me.m.ended = s.me.m.ended := rfl
@[simp] theorem putFreg_agenda (f : FIdx) (x : FReg) (s : State) : (putFreg f x s).agenda = s.agenda := rfl
@[simp] theorem putFreg_turn (f : FIdx) (x : FReg) (s : State) : (putFreg f x s).turn = s.turn := rfl
@[simp] theorem putFreg_cur (f : FIdx) (x : FReg) (s : State) : (putFreg f x s).cur = s.cur := rfl
@[simp] theorem putFreg_fresh (f : FIdx) (x : FReg) (s : State) : (putFreg f x s).fresh = s.fresh := rfl
@[simp] theorem putFreg_tick (f : FIdx) (x : FReg) (s : State) : (putFreg f x s).tick = s.tick := rfl
@[simp] theorem putFreg_others (f : FIdx) (x : FReg) (s : State) : (putFreg f x s).others = s.others := rfl
@[simp] theorem putFreg_launches (f : FIdx) (x : FReg) (s : State) : (putFreg f x s).launches = s.launches := rfl
@[simp] theorem putFreg_pkgs (f : FIdx) (x : FReg) (s : State) : (putFreg f x s).pkgs = s.pkgs := rfl
@[simp] theorem putFreg_dies (f : FIdx) (x : FReg) (s : State) : (putFreg f x s).dies = s.dies := rfl
@[simp] theorem putFreg_links (f : FIdx) (x : FReg) (s : State) : (putFreg f x s).links = s.links := rfl
@[simp] theorem putFreg_mem (f : FIdx) (x : FReg) (s : State) : (putFreg f x s).mem = s.mem := rfl
@[simp] theorem putFreg_memPoison (f : FIdx) (x : FReg) (s : State) : (putFreg f x s).memPoison = s.memPoison := rfl
@[simp] theorem putFreg_hostMem (f : FIdx) (x : FReg) (s : State) : (putFreg f x s).hostMem = s.hostMem := rfl
@[simp] theorem putFreg_combiners (f : FIdx) (x : FReg) (s : State) : (putFreg f x s).combiners = s.combiners := rfl
@[simp] theorem putFreg_inFlight (f : FIdx) (x : FReg) (s : State) : (putFreg f x s).inFlight = s.inFlight := rfl
@[simp] theorem putFreg_inval (f : FIdx) (x : FReg) (s : State) : (putFreg f x s).inval = s.inval := rfl
@[simp] theorem putFreg_onDemand (f : FIdx) (x : FReg) (s : State) : (putFreg f x s).onDemand = s.onDemand := rfl
@[simp] theorem putFreg_colls (f : FIdx) (x : FReg) (s : State) : (putFreg f x s).colls = s.colls := rfl
@[simp] theorem putFreg_podBoards (f : FIdx) (x : FReg) (s : State) : (putFreg f x s).podBoards = s.podBoards := rfl
@[simp] theorem putFreg_hostLog (f : FIdx) (x : FReg) (s : State) : (putFreg f x s).hostLog = s.hostLog := rfl
@[simp] theorem putFreg_nextLaunch (f : FIdx) (x : FReg) (s : State) : (putFreg f x s).nextLaunch = s.nextLaunch := rfl
@[simp] theorem putFreg_podTime (f : FIdx) (x : FReg) (s : State) : (putFreg f x s).podTime = s.podTime := rfl
@[simp] theorem putFreg_m_streams (f : FIdx) (x : FReg) (s : State) : (putFreg f x s).me.m.streams = s.me.m.streams := rfl
@[simp] theorem putFreg_m_events (f : FIdx) (x : FReg) (s : State) : (putFreg f x s).me.m.events = s.me.m.events := rfl
@[simp] theorem putFreg_m_csrs (f : FIdx) (x : FReg) (s : State) : (putFreg f x s).me.m.csrs = s.me.m.csrs := rfl
@[simp] theorem putFreg_m_gens (f : FIdx) (x : FReg) (s : State) : (putFreg f x s).me.m.gens = s.me.m.gens := rfl
@[simp] theorem putFreg_m_tiles (f : FIdx) (x : FReg) (s : State) : (putFreg f x s).me.m.tiles = s.me.m.tiles := rfl
@[simp] theorem putFreg_m_preds (f : FIdx) (x : FReg) (s : State) : (putFreg f x s).me.m.preds = s.me.m.preds := rfl
@[simp] theorem putFreg_m_regions (f : FIdx) (x : FReg) (s : State) : (putFreg f x s).me.m.regions = s.me.m.regions := rfl
@[simp] theorem putFreg_m_acc (f : FIdx) (x : FReg) (s : State) : (putFreg f x s).me.m.acc = s.me.m.acc := rfl
@[simp] theorem putFreg_m_shadow (f : FIdx) (x : FReg) (s : State) : (putFreg f x s).me.m.shadow = s.me.m.shadow := rfl
@[simp] theorem putFreg_m_active (f : FIdx) (x : FReg) (s : State) : (putFreg f x s).me.m.active = s.me.m.active := rfl
@[simp] theorem putFreg_m_copied (f : FIdx) (x : FReg) (s : State) : (putFreg f x s).me.m.copied = s.me.m.copied := rfl
@[simp] theorem putFreg_m_age (f : FIdx) (x : FReg) (s : State) : (putFreg f x s).me.m.age = s.me.m.age := rfl
@[simp] theorem putFreg_m_mq (f : FIdx) (x : FReg) (s : State) : (putFreg f x s).me.m.mq = s.me.m.mq := rfl
@[simp] theorem putFreg_m_cq (f : FIdx) (x : FReg) (s : State) : (putFreg f x s).me.m.cq = s.me.m.cq := rfl
@[simp] theorem putFreg_m_iq (f : FIdx) (x : FReg) (s : State) : (putFreg f x s).me.m.iq = s.me.m.iq := rfl
@[simp] theorem putFreg_m_perform (f : FIdx) (x : FReg) (s : State) : (putFreg f x s).me.m.perform = s.me.m.perform := rfl
@[simp] theorem putFreg_m_found (f : FIdx) (x : FReg) (s : State) : (putFreg f x s).me.m.found = s.me.m.found := rfl
@[simp] theorem putFreg_m_cDone (f : FIdx) (x : FReg) (s : State) : (putFreg f x s).me.m.cDone = s.me.m.cDone := rfl
@[simp] theorem putFreg_m_shapes (f : FIdx) (x : FReg) (s : State) : (putFreg f x s).me.m.shapes = s.me.m.shapes := rfl
@[simp] theorem putFreg_m_bobbins (f : FIdx) (x : FReg) (s : State) : (putFreg f x s).me.m.bobbins = s.me.m.bobbins := rfl
@[simp] theorem putFreg_m_rings (f : FIdx) (x : FReg) (s : State) : (putFreg f x s).me.m.rings = s.me.m.rings := rfl
@[simp] theorem putFreg_m_views (f : FIdx) (x : FReg) (s : State) : (putFreg f x s).me.m.views = s.me.m.views := rfl
@[simp] theorem putFreg_m_rounds (f : FIdx) (x : FReg) (s : State) : (putFreg f x s).me.m.rounds = s.me.m.rounds := rfl
@[simp] theorem putFreg_m_returns (f : FIdx) (x : FReg) (s : State) : (putFreg f x s).me.m.returns = s.me.m.returns := rfl
@[simp] theorem putFreg_m_losses (f : FIdx) (x : FReg) (s : State) : (putFreg f x s).me.m.losses = s.me.m.losses := rfl
@[simp] theorem putFreg_m_readLost (f : FIdx) (x : FReg) (s : State) : (putFreg f x s).me.m.readLost = s.me.m.readLost := rfl
@[simp] theorem putFreg_m_passed (f : FIdx) (x : FReg) (s : State) : (putFreg f x s).me.m.passed = s.me.m.passed := rfl
@[simp] theorem putFreg_m_demand (f : FIdx) (x : FReg) (s : State) : (putFreg f x s).me.m.demand = s.me.m.demand := rfl
@[simp] theorem putFreg_m_ended (f : FIdx) (x : FReg) (s : State) : (putFreg f x s).me.m.ended = s.me.m.ended := rfl

@[simp] theorem tileOf_putTile (t : Reg) (x : Tile) (s : State) : tileOf (putTile t x s) t = x := by
  simp only [tileOf, putTile, modM_me_m]
  exact vat_vput_same (k := 5) s.me.m.tiles t x

theorem tileOf_putTile_other (t u : Reg) (x : Tile) (s : State) (h : t ≠ u) : tileOf (putTile t x s) u = tileOf s u := by
  simp only [tileOf, putTile, modM_me_m]
  exact vat_vput_other (k := 5) s.me.m.tiles t u x h

end Sys2Proof.Machine
end

