-- ==== Sys2Proof/Laws/Exec.lean ====
section
/-! SUPPORT. What the shared operations can do, said once: reading a register, concluding an effect, entering a queue,
taking a fault, writing a register and completing an instruction. -/
namespace Sys2Proof.Machine

/-! ### Effects and their conclusions -/

@[simp] theorem readable_zero (s : State) : readable 0 s = true := by simp [readable, regPoison, awaited]
@[simp] theorem rawReg_zero (s : State) : rawReg s 0 = 0 := by simp [rawReg]

theorem rd_readable {s : State} {r : Reg} (h : readable r s = true) : rd s r = .ok (rawReg s r) := by
  simp only [readable, Bool.and_eq_true, Bool.not_eq_true'] at h
  unfold rd
  rw [h.1, h.2]
  rfl

theorem rd_poisoned {s : State} {r : Reg} (h : awaited s r = false) (hp : regPoison s r = true) : rd s r = fail .poisonConsumed := by
  unfold rd
  rw [h, hp]
  rfl

@[simp] theorem need_true (c : Cause) : need true c = .ok () := rfl
@[simp] theorem need_false (c : Cause) : need false c = fail c := rfl
@[simp] theorem waitUntil_true : waitUntil true = .ok () := rfl
@[simp] theorem waitUntil_false : waitUntil false = hold := rfl
@[simp] theorem bind_ok {α β : Type} (a : α) (f : α → Eff β) : (Except.ok a >>= f : Eff β) = f a := rfl
@[simp] theorem bind_error {α β : Type} (e : Stop) (f : α → Eff β) : (Except.error e >>= f : Eff β) = .error e := rfl
@[simp] theorem bind_fail {α β : Type} (c : Cause) (f : α → Eff β) : ((fail c : Eff α) >>= f : Eff β) = fail c := rfl
@[simp] theorem run_ok (s t : State) : run s (.ok t) = .next t := rfl
@[simp] theorem run_wait (s : State) : run s (.error .wait) = .next (stall s) := rfl
@[simp] theorem run_fault (s : State) (f : Trouble) : run s (.error (.fault f)) = .next (takeFault s.cur (ctx s).pc 0 f s) := rfl
@[simp] theorem run_fail (s : State) (c : Cause) : run s (fail c) = .next (takeFault s.cur (ctx s).pc 0 { cause := c } s) := rfl
@[simp] theorem conclude_ok (o : BitVec 2) (s t : State) : conclude o s (.ok t) = .next t := rfl

/-- Where nothing at all is before it, an access is in its turn too. -/
theorem turnOf_nothing {s : State} (h : nothingBefore s = true) (q : Queued) : turnOf q s = true := by
  unfold nothingBefore pendingOf at h
  unfold turnOf
  simp only [Bool.and_eq_true, Bool.or_eq_true, Bool.not_eq_true', List.any_eq_false, Bool.not_eq_true] at h ⊢
  exact ⟨h.1, .inr fun m hm ha => absurd ha.1 (by simp [show unperformed (me s) m = false from h.2 m hm])⟩

/-- An instruction of a queue whose effect has a result, where nothing stands before it. -/
theorem runIn_ok {s : State} (h : direct s = true) (q : Queued) (t : State) : runIn q s (.ok t) = .next t := by
  unfold direct at h
  unfold runIn
  by_cases h1 : (s.cur == .s) = true
  · rw [if_pos h1]; rfl
  · rw [if_neg h1]
    rw [Bool.eq_false_iff.mpr h1, Bool.false_or, Bool.and_eq_true] at h
    have hq := turnOf_nothing h.1 q
    by_cases h2 : s.me.m.perform.isSome = true
    · rw [if_pos h2, if_pos hq]; rfl
    · rw [if_neg h2]
      rw [Bool.eq_false_iff.mpr h2, Bool.false_or] at h
      rw [hq, if_pos (by simpa using h.2)]
      rfl

theorem runV_ok {s : State} (h : direct s = true) (q : Queued) (t : State) : runV s true q (.ok t) = .next t := runIn_ok h q t

/-- What an effect comes to: a next state always, unless no memory answers. -/
theorem run_next (s : State) (e : Eff State) (h : ∀ pa, e ≠ .error (.hole pa)) : ∃ t, run s e = .next t := by
  match e with
  | .ok t => exact ⟨t, rfl⟩
  | .error .wait => exact ⟨_, rfl⟩
  | .error (.reading _ _ _ _ _) => exact ⟨_, rfl⟩
  | .error (.fault f) => exact ⟨_, rfl⟩
  | .error (.hole pa) => exact absurd rfl (h pa)

/-! ### Taking a fault touches only the launches, the agenda, the host's log, and what stops the member -/

theorem beginStop_frame (n : Nat) (c : Cause) (s : State) : ∃ ls ag, beginStop n c s = { s with launches := ls, agenda := ag } := by
  unfold beginStop
  split
  · split
    · exact ⟨_, _, rfl⟩
    · exact ⟨s.launches, s.agenda, rfl⟩
  · exact ⟨s.launches, s.agenda, rfl⟩

theorem logRecords_frame (rs : List (FaultRecord × Bool)) (s : State) :
    ∃ ls lg, rs.foldl (fun u r => logRecord r.1 u) s = { s with launches := ls, hostLog := lg } := by
  induction rs generalizing s with
  | nil => exact ⟨s.launches, s.hostLog, rfl⟩
  | cons r rest ih =>
    obtain ⟨ls, lg, h⟩ := ih (logRecord r.1 s)
    exact ⟨ls, lg, h⟩

theorem logFound_frame (s : State) :
    ∃ ls lg, logFound s = { s with me := { s.me with m := { s.me.m with found := [] } }, launches := ls, hostLog := lg } := by
  obtain ⟨ls, lg, h⟩ := logRecords_frame s.me.m.found s
  exact ⟨ls, lg, by unfold logFound; simp only [h]; rfl⟩

/-- Of the member only its streams' stops, its found faults and its demand fault change. -/
theorem takeRecord_frame (r : FaultRecord) (b : Bool) (s : State) : ∃ ss fd dm ls ag lg, takeRecord r b s =
    { s with me := { s.me with m := { s.me.m with streams := ss, found := fd, demand := dm } },
             launches := ls, agenda := ag, hostLog := lg } := by
  unfold takeRecord
  split
  · exact ⟨_, s.me.m.found, _, s.launches, s.agenda, s.hostLog, rfl⟩
  · obtain ⟨ls, lg, h⟩ := logFound_frame (logRecord r (modM stopStreams s))
    obtain ⟨ls', ag, h'⟩ := beginStop_frame r.who.launch r.cause (logFound (logRecord r (modM stopStreams s)))
    exact ⟨_, _, s.me.m.demand, ls', ag, lg, by rw [h', h]; rfl⟩

theorem takeFault_frame (st : Stream) (pos : CodePos) (o : BitVec 2) (f : Trouble) (s : State) :
    ∃ ss fd dm ls ag lg, takeFault st pos o f s =
      { s with me := { s.me with m := { s.me.m with streams := ss, found := fd, demand := dm } },
               launches := ls, agenda := ag, hostLog := lg } := by
  unfold takeFault
  simp only
  split
  · exact ⟨_, _, s.me.m.demand, s.launches, s.agenda, s.hostLog, rfl⟩
  · exact takeRecord_frame _ _ s

@[simp] theorem takeFault_mem (st : Stream) (pos : CodePos) (o : BitVec 2) (f : Trouble) (s : State) :
    (takeFault st pos o f s).mem = s.mem := by
  obtain ⟨_, _, _, _, _, _, h⟩ := takeFault_frame st pos o f s
  rw [h]

theorem stepStop_frame (pos : CodePos) (s : State) : ∃ ss fd dm ls ag lg, stepStop pos s =
    { s with me := { s.me with m := { s.me.m with streams := ss, found := fd, demand := dm } },
             launches := ls, agenda := ag, hostLog := lg } := by
  unfold stepStop
  split
  · exact takeFault_frame _ _ _ _ s
  · exact ⟨s.me.m.streams, s.me.m.found, s.me.m.demand, s.launches, s.agenda, s.hostLog, rfl⟩

/-- Without a debug record nothing follows a completion. -/
theorem stepStop_plain {s : State} (h : debugOf s = none) (pos : CodePos) : stepStop pos s = s := by
  unfold stepStop stopMask
  rw [h]
  rfl

/-! ### The completion of an instruction -/

theorem retire_frame (n : Nat) (s : State) : ∃ ss fd dm ls ag lg, retire n s =
    { s with me := { s.me with m := { s.me.m with streams := ss, found := fd, demand := dm } },
             launches := ls, agenda := ag, hostLog := lg } := by
  obtain ⟨ss, fd, dm, ls, ag, lg, h⟩ := stepStop_frame (ctx s).pc (modCtx (sequenced n) s)
  exact ⟨ss, fd, dm, ls, ag, lg, h⟩

@[simp] theorem retire_mem (n : Nat) (s : State) : (retire n s).mem = s.mem := by
  obtain ⟨_, _, _, _, _, _, h⟩ := retire_frame n s
  rw [h]

@[simp] theorem stall_mem (s : State) : (stall s).mem = s.mem := rfl

/-! ### Writing a register -/

theorem dropAwaited_frame (st : Stream) (d : Reg) (s : State) : ∃ ss q fl, dropAwaited st d s =
    { s with me := { s.me with m := { s.me.m with streams := ss, iq := q } }, inFlight := fl } := by
  unfold dropAwaited
  split
  · exact ⟨_, _, _, rfl⟩
  · exact ⟨s.me.m.streams, s.me.m.iq, s.inFlight, rfl⟩

/-- A register that no older load or queued instruction is to write. -/
theorem dropAwaited_clear {st : Stream} {d : Reg} {s : State} (h : (memberCtx s.me.m st).await.getLsbD d.toNat = false) :
    dropAwaited st d s = s := by
  unfold dropAwaited
  rw [h]
  rfl

theorem dropShadow_frame (d : Reg) (s : State) : ∃ w fl, dropShadow d s =
    { s with me := { s.me with m := { s.me.m with events := { s.me.m.events with shadowAwait := w } } }, inFlight := fl } := by
  unfold dropShadow
  split
  · exact ⟨_, _, rfl⟩
  · exact ⟨s.me.m.events.shadowAwait, s.inFlight, rfl⟩

/-- A shadow register that no older load is to write. -/
theorem dropShadow_clear {d : Reg} {s : State} (h : s.me.m.events.shadowAwait.getLsbD (d.toNat - 24) = false) : dropShadow d s = s := by
  unfold dropShadow
  rw [h]
  rfl

theorem wrP_frame (d : Reg) (v : Word) (p : Bool) (s : State) : ∃ ss q sh sp sw fl, wrP d v p s =
    { s with me := { s.me with m := { s.me.m with
        streams := ss, iq := q, events := { s.me.m.events with shadow := sh, shadowPoison := sp, shadowAwait := sw } } }, inFlight := fl } := by
  unfold wrP
  split
  · exact ⟨s.me.m.streams, s.me.m.iq, s.me.m.events.shadow, s.me.m.events.shadowPoison, s.me.m.events.shadowAwait, s.inFlight, rfl⟩
  · split
    · obtain ⟨w, fl, h⟩ := dropShadow_frame d s
      exact ⟨s.me.m.streams, s.me.m.iq, _, _, w, fl, by rw [h]; rfl⟩
    · obtain ⟨ss, q, fl, h⟩ := dropAwaited_frame s.cur d s
      exact ⟨_, q, s.me.m.events.shadow, s.me.m.events.shadowPoison, s.me.m.events.shadowAwait, fl, by rw [h]; rfl⟩

/-- s0 ignores a write (R84). -/
@[simp] theorem wrP_zero (v : Word) (p : Bool) (s : State) : wrP 0 v p s = s := rfl
@[simp] theorem wr_zero (v : Word) (s : State) : wr 0 v s = s := rfl

@[simp] theorem wrP_mem (d : Reg) (v : Word) (p : Bool) (s : State) : (wrP d v p s).mem = s.mem := by
  obtain ⟨_, _, _, _, _, _, h⟩ := wrP_frame d v p s
  rw [h]
@[simp] theorem wr_mem (d : Reg) (v : Word) (s : State) : (wr d v s).mem = s.mem := wrP_mem d v false s
@[simp] theorem wrP_cur (d : Reg) (v : Word) (p : Bool) (s : State) : (wrP d v p s).cur = s.cur := by
  obtain ⟨_, _, _, _, _, _, h⟩ := wrP_frame d v p s
  rw [h]

theorem setBit_get {n : Nat} (x : BitVec n) (i j : Nat) (b : Bool) (h : i < n) :
    (setBit x i b).getLsbD j = if i = j then b else x.getLsbD j := by
  have hb : (BitVec.ofNat n (2 ^ i)).getLsbD j = decide (i = j) := by
    rw [BitVec.getLsbD_ofNat, Nat.testBit_two_pow]
    by_cases hij : i = j
    · subst hij; simp [h]
    · simp [hij]
  unfold setBit
  by_cases hij : i = j
  · cases b
    · rw [if_neg Bool.false_ne_true, BitVec.getLsbD_and, BitVec.getLsbD_not, hb]
      simp [hij]
    · rw [if_pos rfl, BitVec.getLsbD_or, hb]
      simp [hij]
  · cases b
    · rw [if_neg Bool.false_ne_true, BitVec.getLsbD_and, BitVec.getLsbD_not, hb, if_neg hij]
      cases hx : x.getLsbD j
      · rfl
      · simp [hij, BitVec.lt_of_getLsbD hx]
    · rw [if_pos rfl, BitVec.getLsbD_or, hb, if_neg hij]
      simp [hij]

@[simp] theorem sequenced_regs (n : Nat) (c : StreamCtx) : (sequenced n c).regs = c.regs := by
  unfold sequenced continueAt
  simp only
  split
  · rfl
  · split <;> rfl
@[simp] theorem sequenced_poison (n : Nat) (c : StreamCtx) : (sequenced n c).poison = c.poison := by
  unfold sequenced continueAt
  simp only
  split
  · rfl
  · split <;> rfl
@[simp] theorem sequenced_await (n : Nat) (c : StreamCtx) : (sequenced n c).await = c.await := by
  unfold sequenced continueAt
  simp only
  split
  · rfl
  · split <;> rfl
/-- Where control goes depends on none of the registers. -/
theorem sequenced_of_regs (n : Nat) (c : StreamCtx) (r : Vector Word 32) (p a : BitVec 32) :
    sequenced n { c with regs := r, poison := p, await := a } =
      { sequenced n c with regs := r, poison := p, await := a } := by
  unfold sequenced continueAt
  simp only
  split
  · rfl
  · split <;> rfl

@[simp] theorem shadowed_modCtx (f : StreamCtx → StreamCtx) (s : State) (r : Reg) : shadowed (modCtx f s) r = shadowed s r := rfl

theorem rawReg_modCtx (f : StreamCtx → StreamCtx) (s : State) (h : (f (ctx s)).regs = (ctx s).regs) (r : Reg) :
    rawReg (modCtx f s) r = rawReg s r := by
  unfold rawReg
  rw [shadowed_modCtx, ctx_modCtx, h]
  rfl
theorem regPoison_modCtx (f : StreamCtx → StreamCtx) (s : State) (h : (f (ctx s)).poison = (ctx s).poison) (r : Reg) :
    regPoison (modCtx f s) r = regPoison s r := by
  unfold regPoison
  rw [shadowed_modCtx, ctx_modCtx, h]
  rfl

/-- The stream after its older accesses to d are dropped. -/
theorem ctx_dropAwaited (d : Reg) (s : State) : ∃ a, ctx (dropAwaited s.cur d s) = { ctx s with await := a } := by
  unfold dropAwaited
  split
  · refine ⟨setBit (memberCtx s.me.m s.cur).await d.toNat false, ?_⟩
    simp [ctx, modM, memberCtx, memberSetCtx, vat_vput_same]
  · exact ⟨_, rfl⟩

theorem memberCtx_dropAwaited (d : Reg) (s : State) {st : Stream} (h : st ≠ s.cur) :
    memberCtx (dropAwaited s.cur d s).me.m st = memberCtx s.me.m st := by
  unfold dropAwaited
  split
  · exact memberCtx_set_other s.me.m s.cur st _ h
  · rfl

/-- R84: what a register write leaves. -/
theorem wrP_regs (d : Reg) (v : Word) (p : Bool) (s : State) :
    (∀ r, rawReg (wrP d v p s) r = if r = d ∧ d ≠ 0 then v else rawReg s r) ∧
    (∀ r, regPoison (wrP d v p s) r = if r = d ∧ d ≠ 0 then p else regPoison s r) := by
  by_cases h0 : d = 0
  · subst h0
    constructor <;> intro r <;> simp [show wrP 0#5 v p s = s from rfl]
  · have h0' : (d == 0) = false := by simpa using h0
    unfold wrP
    rw [h0']
    by_cases hs : shadowed s d = true
    · rw [hs]
      have hs' := hs
      simp only [shadowed, Bool.and_eq_true, decide_eq_true_eq] at hs'
      have hd := d.isLt
      obtain ⟨w, fl, hf⟩ := dropShadow_frame d s
      simp only [if_false, Bool.false_eq_true, if_true]
      generalize hu : modM (fun m => { m with events := { m.events with
        shadow := vput (k := 3) m.events.shadow (BitVec.ofNat 3 d.toNat) v,
        shadowPoison := setBit m.events.shadowPoison (d.toNat - 24) p } }) (dropShadow d s) = u
      have hsu : ∀ r, shadowed u r = shadowed s r := by intro r; rw [← hu, hf]; rfl
      have hc : ctx u = ctx s := by rw [← hu, hf]; rfl
      have h1 : u.me.m.events.shadow = vput (k := 3) s.me.m.events.shadow (BitVec.ofNat 3 d.toNat) v := by rw [← hu, hf]; rfl
      have h2 : u.me.m.events.shadowPoison = setBit s.me.m.events.shadowPoison (d.toNat - 24) p := by rw [← hu, hf]; rfl
      constructor <;> intro r
      · unfold rawReg
        rw [hsu, hc, h1]
        by_cases hr : r = d
        · subst hr
          rw [h0', hs, if_neg Bool.false_ne_true, if_pos rfl, if_pos ⟨rfl, h0⟩]
          exact vat_vput_same (k := 3) _ _ _
        · simp only [hr, false_and, if_false]
          split
          · rfl
          · split
            · rename_i h2
              simp only [shadowed, Bool.and_eq_true, decide_eq_true_eq] at h2
              have hrlt := r.isLt
              refine vat_vput_other (k := 3) _ _ _ _ ?_
              intro e
              apply hr
              have := congrArg BitVec.toNat e
              simp only [BitVec.toNat_ofNat] at this
              apply BitVec.eq_of_toNat_eq
              omega
            · rfl
      · unfold regPoison
        rw [hsu, hc, h2]
        by_cases hr : r = d
        · subst hr
          rw [h0', hs, if_neg Bool.false_ne_true, if_pos rfl, if_pos ⟨rfl, h0⟩, setBit_get _ _ _ _ (by omega), if_pos rfl]
        · simp only [hr, false_and, if_false]
          split
          · rfl
          · split
            · rename_i h2
              simp only [shadowed, Bool.and_eq_true, decide_eq_true_eq] at h2
              rw [setBit_get _ _ _ _ (by omega), if_neg]
              intro e
              exact hr (BitVec.eq_of_toNat_eq (by omega))
            · rfl
    · rw [Bool.eq_false_iff.mpr hs]
      obtain ⟨a, ha⟩ := ctx_dropAwaited d s
      obtain ⟨ss, q, fl, hf⟩ := dropAwaited_frame s.cur d s
      have hsh : ∀ r, shadowed (dropAwaited s.cur d s) r = shadowed s r := by intro r; rw [hf]; rfl
      have hev : (dropAwaited s.cur d s).me.m.events = s.me.m.events := by rw [hf]
      constructor <;> intro r
      · simp only [if_false, Bool.false_eq_true]
        unfold rawReg
        rw [shadowed_modCtx, ctx_modCtx, hsh]
        by_cases hr : r = d
        · subst hr
          rw [h0', if_neg Bool.false_ne_true, if_neg hs, if_pos ⟨rfl, h0⟩]
          exact vat_vput_same (k := 5) _ _ _
        · simp only [hr, false_and, if_false]
          split
          · rfl
          · split
            · exact congrArg (fun e => vat (k := 3) e.shadow (BitVec.ofNat 3 r.toNat)) hev
            · rw [ha]; exact vat_vput_other (k := 5) _ _ _ _ (Ne.symm hr)
      · simp only [if_false, Bool.false_eq_true]
        unfold regPoison
        rw [shadowed_modCtx, ctx_modCtx, hsh]
        by_cases hr : r = d
        · subst hr
          rw [h0', if_neg Bool.false_ne_true, if_neg hs, if_pos ⟨rfl, h0⟩, setBit_get _ _ _ _ r.isLt, if_pos rfl]
        · simp only [hr, false_and, if_false]
          split
          · rfl
          · split
            · exact congrArg (fun (e : Events) => e.shadowPoison.getLsbD (r.toNat - 24)) hev
            · rw [setBit_get _ _ _ _ d.isLt, if_neg (fun e => hr (BitVec.eq_of_toNat_eq e.symm)), ha]

/-- An instruction whose result is a register write: its completion, and all that it leaves unchanged. -/
theorem retire_wrP (len : Nat) (d : Reg) (v : Word) (p : Bool) (s : State) :
    ∃ t, retire len (wrP d v p s) = stepStop (ctx s).pc t ∧ WroteMarked len d v p s t := by
  have hpc : (ctx (wrP d v p s)).pc = (ctx s).pc := by
    unfold wrP
    split
    · rfl
    · split
      · obtain ⟨w, fl, hf⟩ := dropShadow_frame d s
        rw [hf]; rfl
      · obtain ⟨a, ha⟩ := ctx_dropAwaited d s
        rw [ctx_modCtx, ha]
  obtain ⟨hraw, hpo⟩ := wrP_regs d v p s
  have hcur : (wrP d v p s).cur = s.cur := wrP_cur d v p s
  refine ⟨modCtx (sequenced len) (wrP d v p s), by unfold retire; rw [hpc], ?_, ?_, ?_, ?_, ?_, ?_⟩
  · constructor
    · obtain ⟨ss, q, sh, sp, sw, fl, h⟩ := wrP_frame d v p s
      have h' : wrP d v p s = _ := h
      rw [h']
      rfl
    · intro st hst
      have h1 : memberCtx (modCtx (sequenced len) (wrP d v p s)).me.m st = memberCtx (wrP d v p s).me.m st :=
        memberCtx_set_other (wrP d v p s).me.m (wrP d v p s).cur st _ (by rw [hcur]; exact hst)
      rw [h1]
      unfold wrP
      split
      · rfl
      · split
        · obtain ⟨w, fl, hf⟩ := dropShadow_frame d s
          rw [hf]; rfl
        · have h2 : ∀ f, memberCtx (modCtx f (dropAwaited s.cur d s)).me.m st = memberCtx (dropAwaited s.cur d s).me.m st := by
            intro f
            have hc : (dropAwaited s.cur d s).cur = s.cur := by
              obtain ⟨_, _, _, h⟩ := dropAwaited_frame s.cur d s
              rw [h]
            exact memberCtx_set_other (dropAwaited s.cur d s).me.m (dropAwaited s.cur d s).cur st _ (by rw [hc]; exact hst)
          rw [h2, memberCtx_dropAwaited d s hst]
  · intro r
    rw [rawReg_modCtx _ _ (sequenced_regs _ _)]
    exact hraw r
  · intro r
    rw [regPoison_modCtx _ _ (sequenced_poison _ _)]
    exact hpo r
  · rw [ctx_modCtx, sequenced_regs, sequenced_poison]
    split
    · rename_i hs
      have h0 : (d == 0) = false := by
        cases hd : d == 0
        · rfl
        · have : d = 0 := by simpa using hd
          subst this
          simp [shadowed] at hs
      unfold wrP
      rw [h0, hs]
      obtain ⟨w, fl, hf⟩ := dropShadow_frame d s
      rw [hf]
      exact ⟨rfl, rfl⟩
    · rename_i hs
      unfold wrP
      rw [if_neg hs]
      split
      · rfl
      · obtain ⟨ss, q, fl, hf⟩ := dropAwaited_frame s.cur d s
        rw [hf]
        rfl
  · rw [ctx_modCtx]
    have : ∃ r q a, ctx (wrP d v p s) = { ctx s with regs := r, poison := q, await := a } := by
      unfold wrP
      split
      · exact ⟨_, _, _, rfl⟩
      · split
        · obtain ⟨w, fl, hf⟩ := dropShadow_frame d s
          exact ⟨(ctx s).regs, (ctx s).poison, (ctx s).await, by rw [hf]; rfl⟩
        · obtain ⟨a, ha⟩ := ctx_dropAwaited d s
          exact ⟨_, _, a, by rw [ctx_modCtx, ha]⟩
    obtain ⟨r, q, a, h⟩ := this
    rw [h, sequenced_of_regs]
  · intro hclear
    have : wrP d v p s = s ∨ (∃ f, wrP d v p s = modM f s ∧ (∀ m, (f m).iq = m.iq) ∧ (∀ m, (f m).streams = m.streams) ∧
          ∀ m, (f m).events.shadowAwait = m.events.shadowAwait) ∨
        (∃ f, wrP d v p s = modCtx f s ∧ ∀ c, (f c).await = c.await) := by
      unfold wrP
      by_cases h0 : (d == 0) = true
      · rw [if_pos h0]; exact .inl rfl
      · rw [if_neg h0]
        unfold awaited at hclear
        rw [if_neg h0] at hclear
        by_cases hs : shadowed s d = true
        · rw [if_pos hs] at hclear ⊢
          rw [dropShadow_clear hclear]
          exact .inr (.inl ⟨_, rfl, fun _ => rfl, fun _ => rfl, fun _ => rfl⟩)
        · rw [if_neg hs] at hclear ⊢
          rw [dropAwaited_clear hclear]
          exact .inr (.inr ⟨_, rfl, fun _ => rfl⟩)
    rw [ctx_modCtx, sequenced_await]
    rcases this with h | ⟨f, h, hf, hg, he⟩ | ⟨f, h, hf⟩
    · rw [h]; exact ⟨rfl, rfl, rfl, rfl⟩
    · rw [h]
      refine ⟨hf s.me.m, rfl, ?_, he s.me.m⟩
      have : ctx (modM f s) = ctx s := congrArg (fun ss => vat (k := 2) ss (streamIdx s.cur)) (hg s.me.m)
      rw [this]
    · rw [h]
      refine ⟨rfl, rfl, ?_, rfl⟩
      rw [ctx_modCtx]
      exact hf (ctx s)

theorem retire_wr (len : Nat) (d : Reg) (v : Word) (s : State) :
    ∃ t, retire len (wr d v s) = stepStop (ctx s).pc t ∧ WroteReg len d v s t := retire_wrP len d v false s

end Sys2Proof.Machine
end

