-- ==== Sys2Proof/Laws/Store.lean ====
section
/-! SUPPORT. The sparse stores: every operation keeps the canonical form; a read after a write. -/
namespace Sys2Proof.Machine

variable {w : Nat}

theorem storeWfFrom_mono {m : Store w} {lo lo' : Nat} (h : storeWfFrom lo m = true) (hl : lo' ≤ lo) : storeWfFrom lo' m = true := by
  cases m with
  | nil => rfl
  | cons e rest =>
    obtain ⟨k, v⟩ := e
    simp only [storeWfFrom, Bool.and_eq_true, decide_eq_true_eq, bne_iff_ne] at h ⊢
    exact ⟨⟨by omega, h.1.2⟩, h.2⟩

theorem storeSet_wfFrom (m : Store w) (lo a : Nat) (x : BitVec w) (h : storeWfFrom lo m = true) (ha : lo ≤ a) :
    storeWfFrom lo (storeSet m a x) = true := by
  induction m generalizing lo with
  | nil => by_cases hx : x = unlisted w <;> simp [storeSet, storeWfFrom, hx, ha]
  | cons e rest ih =>
    obtain ⟨k, v⟩ := e
    simp only [storeWfFrom, Bool.and_eq_true, decide_eq_true_eq, bne_iff_ne] at h
    obtain ⟨⟨hk, hv⟩, hr⟩ := h
    simp only [storeSet]
    split
    · split
      · exact storeWfFrom_mono hr (by omega)
      · subst_vars
        simp [storeWfFrom, *]
    · split
      · split
        · simp [storeWfFrom, *]
        · simp only [storeWfFrom, Bool.and_eq_true, decide_eq_true_eq, bne_iff_ne]
          exact ⟨⟨ha, by assumption⟩, ⟨by omega, hv⟩, hr⟩
      · simp only [storeWfFrom, Bool.and_eq_true, decide_eq_true_eq, bne_iff_ne]
        exact ⟨⟨hk, hv⟩, ih _ hr (by omega)⟩

/-- A write keeps the canonical form. -/
theorem storeSet_wf {m : Store w} (a : Nat) (x : BitVec w) (h : Memory.wf m = true) : Memory.wf (storeSet m a x) = true :=
  storeSet_wfFrom m 0 a x h (Nat.zero_le _)

/-- A write of several entries keeps the canonical form. -/
theorem storeWrite_wf {m : Store w} (a : Nat) (l : List (BitVec w)) (h : Memory.wf m = true) : Memory.wf (storeWrite m a l) = true := by
  induction l generalizing m a with
  | nil => exact h
  | cons x rest ih => exact ih _ (storeSet_wf a x h)

theorem filter_wfFrom (m : Store w) (lo : Nat) (p : Nat × BitVec w → Bool) (h : storeWfFrom lo m = true) :
    storeWfFrom lo (m.filter p) = true := by
  induction m generalizing lo with
  | nil => rfl
  | cons e rest ih =>
    obtain ⟨k, v⟩ := e
    simp only [storeWfFrom, Bool.and_eq_true, decide_eq_true_eq, bne_iff_ne] at h
    obtain ⟨⟨hk, hv⟩, hr⟩ := h
    by_cases hp : p (k, v) = true
    · simp only [List.filter_cons_of_pos hp, storeWfFrom, Bool.and_eq_true, decide_eq_true_eq, bne_iff_ne]
      exact ⟨⟨hk, hv⟩, ih _ hr⟩
    · rw [List.filter_cons_of_neg (by simpa using hp)]
      exact storeWfFrom_mono (ih _ hr) (by omega)

/-- Dropping entries keeps the canonical form. -/
theorem filter_wf {m : Store w} (p : Nat × BitVec w → Bool) (h : Memory.wf m = true) : Memory.wf (m.filter p) = true :=
  filter_wfFrom m 0 p h

theorem storeClear_wf {m : Store w} (a n : Nat) (h : Memory.wf m = true) : Memory.wf (storeClear m a n) = true := filter_wf _ h

theorem storeGet_below (m : Store w) (lo a : Nat) (h : storeWfFrom lo m = true) (ha : a < lo) : storeGet m a = unlisted w := by
  cases m with
  | nil => rfl
  | cons e rest =>
    obtain ⟨k, v⟩ := e
    simp only [storeWfFrom, Bool.and_eq_true, decide_eq_true_eq] at h
    have hk : lo ≤ k := h.1.1
    have h1 : ¬ k = a := by omega
    have h2 : a < k := by omega
    simp [storeGet, h1, h2]

theorem storeGet_set_from (m : Store w) (lo a b : Nat) (x : BitVec w) (h : storeWfFrom lo m = true) :
    storeGet (storeSet m a x) b = if a = b then x else storeGet m b := by
  induction m generalizing lo with
  | nil =>
    by_cases hx : x = unlisted w
    · simp only [storeSet, hx, if_true, storeGet]; split <;> rfl
    · simp only [storeSet, hx, if_false, storeGet]; repeat' split
      all_goals rfl
  | cons e rest ih =>
    obtain ⟨k, v⟩ := e
    simp only [storeWfFrom, Bool.and_eq_true, decide_eq_true_eq] at h
    obtain ⟨⟨hk, hv⟩, hr⟩ := h
    have hbelow : ∀ c, c ≤ k → storeGet rest c = unlisted w := fun c hc => storeGet_below rest (k + 1) c hr (by omega)
    simp only [storeSet]
    by_cases h1 : k = a
    · subst h1
      by_cases hx : x = unlisted w
      · simp only [hx, if_true, storeGet]
        by_cases hb : k = b
        · subst hb; simp [hbelow k (Nat.le_refl k)]
        · simp only [hb, if_false]
          by_cases hlt : b < k
          · simp [hlt, hbelow b (by omega)]
          · simp [hlt]
      · simp only [hx, if_true, if_false, storeGet]
        by_cases hb : k = b <;> simp [hb]
    · by_cases h2 : a < k
      · by_cases hx : x = unlisted w
        · simp only [h1, h2, hx, if_true, if_false, storeGet]
          by_cases hab : a = b
          · subst hab; simp [h1, h2]
          · simp [hab]
        · simp only [h1, h2, hx, if_true, if_false, storeGet]
          by_cases hab : a = b
          · simp [hab]
          · by_cases hba : b < a
            · have : ¬ k = b := by omega
              have : b < k := by omega
              simp [*]
            · simp [hab, hba]
      · simp only [h1, h2, if_false, storeGet, ih _ hr]
        by_cases hb : k = b
        · subst hb
          have : ¬ a = k := fun e => h1 e.symm
          simp [this]
        · simp only [hb, if_false]
          by_cases hlt : b < k
          · have : ¬ a = b := by omega
            simp [hlt, this]
          · simp [hlt]

/-- A read after a write. -/
theorem storeGet_set {m : Store w} (a b : Nat) (x : BitVec w) (h : Memory.wf m = true) :
    storeGet (storeSet m a x) b = if a = b then x else storeGet m b := storeGet_set_from m 0 a b x h

/-- A write leaves every other address alone. -/
theorem storeGet_write_other {m : Store w} (a b : Nat) (l : List (BitVec w)) (h : Memory.wf m = true)
    (hb : b < a ∨ a + l.length ≤ b) : storeGet (storeWrite m a l) b = storeGet m b := by
  induction l generalizing m a with
  | nil => rfl
  | cons x rest ih =>
    simp only [List.length_cons] at hb
    simp only [storeWrite]
    rw [ih _ (storeSet_wf a x h) (by omega), storeGet_set a b x h]
    have : ¬ a = b := by omega
    simp [this]

/-- Several entries read after they were written. -/
theorem storeRead_write {m : Store w} (a : Nat) (l : List (BitVec w)) (h : Memory.wf m = true) :
    storeRead (storeWrite m a l) a l.length = l := by
  induction l generalizing m a with
  | nil => rfl
  | cons x rest ih =>
    simp only [storeWrite, List.length_cons, storeRead]
    rw [ih (a + 1) (storeSet_wf a x h), storeGet_write_other (a + 1) a rest (storeSet_wf a x h) (by omega), storeGet_set a a x h]
    simp

end Sys2Proof.Machine
end

