-- ==== Sys2Proof/Laws/Canonical.lean ====
section
/-! SUPPORT. The shared operations keep every store of the machine in its canonical form. -/
namespace Sys2Proof.Machine

theorem canonical_iff (s : State) : canonical s = true ↔
    Memory.wf s.mem = true ∧ (∀ c ∈ allCores s, coreCanonical c = true) ∧
    (∀ l ∈ s.launches, ∀ v ∈ l.saved, Memory.wf v.spad = true ∧ memberCanonical v.m = true) ∧ Memory.wf s.hostMem = true := by
  simp [canonical, and_assoc]

theorem canonical_mem {s : State} (h : canonical s = true) : Memory.wf s.mem = true := ((canonical_iff s).1 h).1
theorem canonical_me {s : State} (h : canonical s = true) : coreCanonical s.me = true :=
  ((canonical_iff s).1 h).2.1 _ (by simp [allCores])

/-- What leaves memory, the host's, cores and launches in order keeps the form. -/
theorem canonical_congr {s t : State} (h : canonical s = true) (hm : t.mem = s.mem) (hc : allCores t = allCores s)
    (hl : t.launches = s.launches) (hh : t.hostMem = s.hostMem) : canonical t = true := by
  simp only [canonical, hm, hc, hl, hh] at *
  exact h

theorem homeWrite_canonical {s : State} (key : Nat) (data : List Byte) (p : Bool) (h : canonical s = true) :
    canonical (homeWrite key data p s) = true := by
  rw [canonical_iff] at *
  exact ⟨storeWrite_wf _ _ h.1, h.2⟩

theorem detPut_canonical {s : State} (key : Nat) (d : DetWord) (h : canonical s = true) : canonical (detPut key d s) = true :=
  homeWrite_canonical _ _ _ h

theorem modCore_canonical {s : State} {f : Core → Core} (h : canonical s = true)
    (hf : coreCanonical s.me = true → coreCanonical (f s.me) = true) : canonical (modCore f s) = true := by
  have hm := canonical_me h
  rw [canonical_iff] at *
  refine ⟨h.1, fun c hc => ?_, h.2.2⟩
  simp only [allCores, modCore, List.mem_cons] at hc
  rcases hc with rfl | hc
  · exact hf hm
  · exact h.2.1 c (by simp [allCores, hc])

theorem modM_canonical {s : State} {f : Member → Member} (h : canonical s = true)
    (hf : memberCanonical s.me.m = true → memberCanonical (f s.me.m) = true) : canonical (modM f s) = true := by
  apply modCore_canonical (f := fun c => { c with m := f c.m }) h
  simp only [coreCanonical, Bool.and_eq_true]
  exact fun x => ⟨x.1, hf x.2⟩

/-- A change of the member that leaves its accumulator store. -/
theorem modM_canonical_acc {s : State} {f : Member → Member} (h : canonical s = true) (hf : (f s.me.m).acc = s.me.m.acc) :
    canonical (modM f s) = true :=
  modM_canonical h fun x => by simpa [memberCanonical, hf] using x

theorem setCtx_canonical {s : State} (c : StreamCtx) (h : canonical s = true) : canonical (setCtx c s) = true :=
  modM_canonical_acc h rfl

theorem modCtx_canonical {s : State} (f : StreamCtx → StreamCtx) (h : canonical s = true) : canonical (modCtx f s) = true :=
  setCtx_canonical _ h

theorem stall_canonical {s : State} (h : canonical s = true) : canonical (stall s) = true := modCtx_canonical _ h

theorem modLaunch_canonical {s : State} {n : Nat} {f : Launch → Launch} (h : canonical s = true) (hf : ∀ l, (f l).saved = l.saved) :
    canonical (modLaunch n f s) = true := by
  rw [canonical_iff] at *
  refine ⟨h.1, h.2.1, fun l hl => ?_, h.2.2.2⟩
  simp only [modLaunch, List.mem_map] at hl
  obtain ⟨x, hx, rfl⟩ := hl
  split
  · rw [hf]; exact h.2.2.1 x hx
  · exact h.2.2.1 x hx

theorem logRecord_canonical {s : State} (r : FaultRecord) (h : canonical s = true) : canonical (logRecord r s) = true :=
  modLaunch_canonical (canonical_congr (s := s) h rfl rfl rfl rfl) fun _ => rfl

theorem beginStop_canonical {s : State} (n : Nat) (c : Cause) (h : canonical s = true) : canonical (beginStop n c s) = true := by
  unfold beginStop
  split
  · split
    · exact modLaunch_canonical (canonical_congr (s := s) h rfl rfl rfl rfl) fun _ => rfl
    · exact h
  · exact h

theorem logFound_canonical {s : State} (h : canonical s = true) : canonical (logFound s) = true := by
  unfold logFound
  refine modM_canonical_acc ?_ rfl
  generalize s.me.m.found = l
  induction l generalizing s with
  | nil => exact h
  | cons r rest ih => exact ih (logRecord_canonical r.1 h)

theorem takeRecord_canonical {s : State} (r : FaultRecord) (b : Bool) (h : canonical s = true) : canonical (takeRecord r b s) = true := by
  unfold takeRecord
  split
  · exact modM_canonical_acc h rfl
  · exact beginStop_canonical _ _ (logFound_canonical (logRecord_canonical _ (modM_canonical_acc h rfl)))

theorem takeFault_canonical {s : State} (st : Stream) (pos : CodePos) (o : BitVec 2) (f : Trouble) (h : canonical s = true) :
    canonical (takeFault st pos o f s) = true := by
  unfold takeFault
  simp only
  split
  · exact modM_canonical_acc h rfl
  · exact takeRecord_canonical _ _ h

theorem stepStop_canonical {s : State} (pos : CodePos) (h : canonical s = true) : canonical (stepStop pos s) = true := by
  unfold stepStop
  split
  · exact takeFault_canonical _ _ _ _ h
  · exact h

theorem retire_canonical {s : State} (n : Nat) (h : canonical s = true) : canonical (retire n s) = true :=
  stepStop_canonical _ (modCtx_canonical _ h)

theorem dropAwaited_canonical {s : State} (st : Stream) (d : Reg) (h : canonical s = true) : canonical (dropAwaited st d s) = true := by
  obtain ⟨ss, q, fl, e⟩ := dropAwaited_frame st d s
  rw [e]
  exact canonical_congr (modM_canonical_acc (f := fun m => { m with streams := ss, iq := q }) h rfl) rfl rfl rfl rfl

theorem dropShadow_canonical {s : State} (d : Reg) (h : canonical s = true) : canonical (dropShadow d s) = true := by
  unfold dropShadow
  split
  · exact canonical_congr (modM_canonical_acc (f := fun m => { m with events := { m.events with
      shadowAwait := setBit m.events.shadowAwait (d.toNat - 24) false } }) h rfl) rfl rfl rfl rfl
  · exact h

theorem wrP_canonical {s : State} (d : Reg) (v : Word) (p : Bool) (h : canonical s = true) : canonical (wrP d v p s) = true := by
  unfold wrP
  split
  · exact h
  · split
    · exact modM_canonical_acc (dropShadow_canonical d h) rfl
    · exact modCtx_canonical _ (dropAwaited_canonical _ _ h)

theorem wr_canonical {s : State} (d : Reg) (v : Word) (h : canonical s = true) : canonical (wr d v s) = true := wrP_canonical d v false h

theorem takeAge_canonical {s : State} (h : canonical s = true) : canonical (takeAge s) = true := by
  unfold takeAge
  split
  · exact modM_canonical_acc h rfl
  · exact h

theorem sendAs_canonical {s : State} (o : Option Nat) (delay : Nat) (cls : TClass) (r : List LinkId) (sc : Scope) (b : Body)
    (h : canonical s = true) : canonical (sendAs o delay cls r sc b s) = true :=
  takeAge_canonical (canonical_congr (s := s) h rfl rfl rfl rfl)

theorem sendFetch_canonical {s : State} (r : List LinkId) (sc : Scope) (cls : TClass) (key n : Nat) (h : canonical s = true) :
    canonical (sendFetch r sc cls key n s) = true := by
  unfold sendFetch
  split
  · exact h
  · exact sendAs_canonical _ _ _ _ _ _ h

/-- A plain instruction keeps the form when its effect does. -/
theorem run_canonical {s t : State} {e : Eff State} (h : canonical s = true) (he : ∀ u, e = .ok u → canonical u = true)
    (hr : run s e = .next t) : canonical t = true := by
  unfold run conclude at hr
  match e with
  | .ok u => exact Host.Outcome.next.inj hr ▸ he u rfl
  | .error .wait => cases hr; exact stall_canonical h
  | .error (.reading route scope cls key n) => cases hr; exact stall_canonical (sendFetch_canonical _ _ _ _ _ h)
  | .error (.fault f) => cases hr; exact takeFault_canonical _ _ _ _ h
  | .error (.hole pa) => cases hr

end Sys2Proof.Machine
end

