-- ==== Sys2Proof/Laws/Lookup.lean ====
section
/-! SUPPORT. What a lookup finds after an update of the same table. -/
namespace Sys2Proof.Machine

theorem find_map {α : Type} (p : α → Bool) (f : α → α) (h : ∀ a, p a = true → p (f a) = true) (l : List α) :
    (l.map fun a => if p a = true then f a else a).find? p = (l.find? p).map f := by
  induction l with
  | nil => rfl
  | cons a r ih =>
    simp only [List.map, List.find?]
    by_cases ha : p a = true
    · simp [ha, h a ha]
    · simp [ha, ih]

theorem findDie_modDie (pkg die : Nat) (f : Die → Die) (h : ∀ d, (f d).pkg = d.pkg ∧ (f d).die = d.die) (s : State) :
    findDie pkg die (modDie pkg die f s) = (findDie pkg die s).map f := by
  unfold findDie modDie
  exact find_map _ f (fun d hd => by simpa [h d] using hd) s.dies

theorem findPkg_modPkg (pkg : Nat) (f : Package → Package) (h : ∀ p, (f p).pkg = p.pkg) (s : State) :
    findPkg pkg (modPkg pkg f s) = (findPkg pkg s).map f := by
  unfold findPkg modPkg
  exact find_map _ f (fun p hp => by simpa [h p] using hp) s.pkgs

theorem findLaunch_modLaunch (n : Nat) (f : Launch → Launch) (h : ∀ l, l.number = n → (f l).number = n) (s : State) :
    findLaunch n (modLaunch n f s) = (findLaunch n s).map f := by
  unfold findLaunch modLaunch
  exact find_map _ f (fun l hl => by have := h l; simp_all) s.launches

theorem findColl_modColl (n : Nat) (f : Coll → Coll) (h : ∀ c, (f c).record = c.record) (s : State) :
    findColl n (modColl n f s) = (findColl n s).map f := by
  unfold findColl modColl
  exact find_map _ f (fun c hc => by simpa [h c] using hc) s.colls

theorem findLaunch_number {n : Nat} {s : State} {l : Launch} (h : findLaunch n s = some l) : l.number = n := by
  have := List.find?_some h
  simpa using this

theorem findPkg_pkg {n : Nat} {s : State} {p : Package} (h : findPkg n s = some p) : p.pkg = n := by
  have := List.find?_some h
  simpa using this

theorem findColl_collId {n : Nat} {s : State} {c : Coll} (h : findColl n s = some c) : collId c = n := by
  have := List.find?_some h
  simpa [collId] using this

@[simp] theorem linkOf_setLink (id : LinkId) (st : LinkState) (s : State) : linkOf id (setLink id st s) = st := by
  simp [linkOf, setLink]

theorem linkOf_setLink_other {id link : LinkId} (st : LinkState) (s : State) (h : id ≠ link) :
    linkOf id (setLink link st s) = linkOf id s := by
  unfold linkOf setLink
  have hl : (link == id) = false := by simpa using fun e => h e.symm
  simp only [List.find?, hl]
  congr 1
  induction s.links with
  | nil => rfl
  | cons a r ih =>
    by_cases ha : a.id = link
    · have : (a.id == id) = false := by simpa [ha] using fun e => h e.symm
      simp [List.filter, ha, ih, List.find?, hl]
    · simp only [List.filter, List.find?]
      have : (a.id != link) = true := by simpa using ha
      simp only [this]
      simp only [List.find?]
      split <;> simp_all

end Sys2Proof.Machine
end

