-- ==== Sys2Proof/Laws/PerInstr.lean ====
section
/-! SUPPORT. One statement per instruction, for each constructor: what is encoded is decoded again. -/
namespace Sys2Proof.Laws
set_option Elab.async false
set_option linter.all false

/-! ### Words and fields -/

/-- What `decodeWords` does with a word whose opcode is known. -/
def decodeAt (op n : Nat) (w : Word32) (next : Option Word32) : Decoded :=
  if unlistedOpcode op then .ok (.illegalOpcode w)
  else if privilegedOp op then .ok (.privilegedOpcode w)
  else if longOpcode op then
    match next with
    | none => .error .truncated
    | some w2 => decodeLong op n w2.toNat
  else if op < 0x40 then decodeCommon op n
  else if op < 0x70 then decodeSync op n
  else if op < 0xB0 then decodeTile op n
  else decodeEngine op n

theorem decodeWords_at {op n : Nat} (h : n / 2 ^ 24 = op) (hn : n < 2 ^ 32) (next : Option Word32) :
    decodeWords (BitVec.ofNat 32 n) next = decodeAt op n (BitVec.ofNat 32 n) next := by
  have e : (BitVec.ofNat 32 n).toNat = n := by rw [BitVec.toNat_ofNat, Nat.mod_eq_of_lt hn]
  simp only [decodeWords, decodeAt, e, h] <;> rfl

theorem okIf_eq {c : Bool} {i j : Instr} (hc : c = true) (hij : i = j) : okIf c i = .ok j := by simp [okIf, hc, hij]
theorem okSome_eq {α : Type} {o : Option α} {a : α} {f : α → Decoded} {r : Decoded} (ho : o = some a) (h : f a = r) : okSome o f = r := by
  simp [okSome, ho, h]
theorem bv_eq {k n : Nat} {d : BitVec k} (h : n % 2 ^ k = d.toNat) : BitVec.ofNat k n = d := by
  apply BitVec.eq_of_toNat_eq; simpa using h
theorem bit_lt (b : Bool) : bit b < 2 := by cases b <;> decide
theorem bit_flag (b : Bool) : (bit b == 1) = b := by cases b <;> rfl
theorem flag_eq {n lo : Nat} {b : Bool} (h : n / 2 ^ lo % 2 = bit b) : fFlag n lo = b := by simp [fFlag, fBits, h, bit_flag]

theorem rmode_code {k : Nat} {m : RMode} (h : k = m.code) : RMode.ofCode k = some m := by subst h; cases m <;> rfl
theorem rmode_lt (m : RMode) : m.code < 5 := by cases m <;> decide
theorem scope_code {k : Nat} {m : Scope} (h : k = m.code) : Scope.ofCode k = some m := by subst h; cases m <;> rfl
theorem scope_lt (m : Scope) : m.code < 6 := by cases m <;> decide
theorem tag_code {k : Nat} {t : Tag} (h : k = t.code) (he : t ≠ .empty) : Tag.ofCode k = some t := by
  subst h; cases t <;> first | rfl | exact absurd rfl he
theorem tag_lt (t : Tag) : t.code < 32 := by cases t <;> decide
theorem sel_code {k : Nat} {m : SlotSel} (h : k = m.code) : SlotSel.ofCode k = some m := by subst h; cases m <;> rfl
theorem sel_lt (m : SlotSel) : m.code < 5 := by cases m <;> decide


theorem and_t {a b : Bool} (ha : a = true) (hb : b = true) : (a && b) = true := by simp [ha, hb]
theorem or_l {a b : Bool} (ha : a = true) : (a || b) = true := by simp [ha]
theorem or_r {a b : Bool} (hb : b = true) : (a || b) = true := by simp [hb]
theorem zero_of {k : Nat} {d : BitVec k} (h : (d == 0) = true) : d.toNat = 0 := by rw [beq_iff_eq.mp h]; simp
theorem stream_code {k : Nat} {m : Stream} (h : k = m.code) : Stream.ofCode k = some m := by subst h; cases m <;> rfl
theorem cond_code {k : Nat} {m : Cond} (h : k = m.code) : Cond.ofCode k = some m := by subst h; cases m <;> rfl
theorem class_code {k : Nat} {m : EvClass} (h : k = m.code) : EvClass.ofCode k = some m := by subst h; cases m <;> rfl
theorem fence_code {k : Nat} {m : FenceKind} (h : k = m.code) : FenceKind.ofCode k = some m := by subst h; cases m <;> rfl
theorem aop_code {k : Nat} {m : AtomOp} (h : k = m.code) : AtomOp.ofCode k = some m := by subst h; cases m <;> rfl
theorem order_code {k : Nat} {m : AOrder} (h : k = m.code) : AOrder.ofCode k = some m := by subst h; cases m <;> rfl
theorem cmp_code {k : Nat} {m : VCmp} (h : k = m.code) : VCmp.ofCode k = some m := by subst h; cases m <;> rfl
theorem fop_code {k : Nat} {m : FOp} (h : k = m.code) : FOp.ofCode k = some m := by subst h; cases m <;> rfl
theorem cred_code {k : Nat} {m : CredOp} (h : k = m.code) : CredOp.ofCode k = some m := by subst h; cases m <;> rfl
theorem drain_code {k : Nat} {m : DrainMode} (h : k = m.code) : DrainMode.ofCode k = some m := by subst h; cases m <;> rfl
theorem scale_code {k : Nat} {m : ScaleSrc} (h : k = m.code) : ScaleSrc.ofCode k = some m := by subst h; cases m <;> rfl
theorem bob_code {n : Nat} {m : BobKind} (h : n % 4 = m.code) : BobKind.ofCode n = m := by unfold BobKind.ofCode; rw [h]; cases m <;> rfl
theorem stream_lt (m : Stream) : m.code < 4 := by cases m <;> decide
theorem cond_lt (m : Cond) : m.code < 6 := by cases m <;> decide
theorem class_lt (m : EvClass) : m.code < 4 := by cases m <;> decide
theorem fence_lt (m : FenceKind) : m.code < 4 := by cases m <;> decide
theorem aop_lt (m : AtomOp) : m.code < 12 := by cases m <;> decide
theorem order_lt (m : AOrder) : m.code < 4 := by cases m <;> decide
theorem cmp_lt (m : VCmp) : m.code < 7 := by cases m <;> decide
theorem fop_lt (m : FOp) : m.code < 10 := by cases m <;> decide
theorem cred_lt (m : CredOp) : m.code < 3 := by cases m <;> decide
theorem drain_lt (m : DrainMode) : m.code < 3 := by cases m <;> decide
theorem scale_lt (m : ScaleSrc) : m.code < 3 := by cases m <;> decide
theorem bob_lt (m : BobKind) : m.code < 4 := by cases m <;> decide

theorem board_eq {n : Nat} {r : BoardRef} (h : n / 2 ^ 3 % 2 = bit r.viaCap) (hi : n / 16 % 2 ^ 6 = r.index.toNat) : dBoard n = r := by
  unfold dBoard
  rw [bv_eq hi, flag_eq h]

/-! ### The layouts of R65 -/

variable {op : Nat} {f1 : Reg → Instr} {f2 : Reg → Reg → Instr} {f3 : Reg → Reg → Reg → Instr}

/-- A short instruction in the R3 layout, once its decoder is known. -/
theorem short {n : Nat} {i : Instr} (h : n / 2 ^ 24 = op) (hn : n < 2 ^ 32) (hd : decodeAt op n (BitVec.ofNat 32 n) none = .ok i) :
    decodeList (w1 n) = .ok i := (decodeWords_at h hn none).trans hd

/-- A long instruction, once its decoder is known. -/
theorem long {n m : Nat} {i : Instr} (h : n / 2 ^ 24 = op) (hn : n < 2 ^ 32) (hm : m < 2 ^ 32)
    (hl : ∀ n w v, decodeAt op n w (some v) = decodeLong op n v.toNat) (hd : decodeLong op n m = .ok i) : decodeList (w2 n m) = .ok i := by
  refine (decodeWords_at h hn _).trans ((hl _ _ _).trans ?_)
  rw [show (BitVec.ofNat 32 m).toNat = m by rw [BitVec.toNat_ofNat, Nat.mod_eq_of_lt hm]]
  exact hd

theorem completion {k : Nat} {c : Completion} {f : Completion → Decoded} (hk : k < 4) : dCompletion (encComp k c) f = f c := by
  have := c.cap.isLt; have := c.ring.isLt; have := c.shape.isLt; have := scope_lt c.bscope; have := bit_lt c.barr; have := bit_lt c.notify; have := bit_lt c.fill
  refine okSome_eq (scope_code (m := c.bscope) (by (try simp only [fBits, encComp, Nat.pow_zero, Nat.div_one]); omega)) ((if_pos (by
    (repeat' with_reducible apply and_t) <;> first
      | (simp only [fX, fFlag, fBits, encComp, Nat.pow_zero, Nat.div_one, beq_iff_eq]; omega)
      | exact or_l rfl
      | (rw [flag_eq (b := false) (by simp only [encComp, Nat.pow_zero, Nat.div_one, show bit false = 0 from rfl]; omega)]; rfl))).trans (congrArg f ?_))
  rw [bv_eq (d := c.cap) (by (try simp only [fBits, encComp, Nat.pow_zero, Nat.div_one]); omega), flag_eq (b := c.barr) (by (try simp only [fBits, encComp, Nat.pow_zero, Nat.div_one]); omega), flag_eq (b := c.notify) (by (try simp only [fBits, encComp, Nat.pow_zero, Nat.div_one]); omega), flag_eq (b := c.fill) (by (try simp only [fBits, encComp, Nat.pow_zero, Nat.div_one]); omega),
    bv_eq (d := c.ring) (by (try simp only [fBits, encComp, Nat.pow_zero, Nat.div_one]); omega), bv_eq (d := c.shape) (by (try simp only [fBits, encComp, Nat.pow_zero, Nat.div_one]); omega)]
theorem pm_eq {n : Nat} {pm : PMod} (h : n / 2 ^ 6 % 2 ^ 3 = pm.p.toNat) (hz : n / 2 ^ 5 % 2 = bit pm.zero) : fPMod n = pm := by
  unfold fPMod
  rw [bv_eq h, flag_eq hz]

theorem r3 (d a b : Reg) {f : Reg → Reg → Reg → Instr} (hop : op < 256)
    (h : ∀ n w, decodeAt op n w none = dR3 n f) : decodeList (encR3 op d a b) = .ok (f d a b) := by
  have := d.isLt; have := a.isLt; have := b.isLt
  simp only [encR3]; exact short (op := op) (by (try simp only [fBits, wR3, xPM, Nat.pow_zero, Nat.div_one]); omega) (by (try simp only [fBits, wR3, xPM, Nat.pow_zero, Nat.div_one]); omega) ((h _ _).trans (okIf_eq (by simp only [fX, fFlag, fBits, wR3, xPM, Nat.pow_zero, Nat.div_one, Bool.and_eq_true, Bool.or_eq_true, Bool.not_eq_true', beq_iff_eq, beq_eq_false_iff_ne, decide_eq_true_eq, ne_eq]; omega) (by
    try simp only [fD, fA, fB, fImm]
    rw [bv_eq (d := d) (by (try simp only [wR3, xPM, Nat.pow_zero, Nat.div_one]); omega), bv_eq (d := a) (by (try simp only [wR3, xPM, Nat.pow_zero, Nat.div_one]); omega), bv_eq (d := b) (by (try simp only [wR3, xPM, Nat.pow_zero, Nat.div_one]); omega)])))

theorem da (d a : Reg) {f : Reg → Reg → Instr} (hop : op < 256)
    (h : ∀ n w, decodeAt op n w none = dDA n f) : decodeList (encR3 op d a 0) = .ok (f d a) := by
  have := d.isLt; have := a.isLt
  simp only [encR3, show BitVec.toNat (0 : Reg) = 0 from rfl]; exact short (op := op) (by (try simp only [fBits, wR3, xPM, Nat.pow_zero, Nat.div_one]); omega) (by (try simp only [fBits, wR3, xPM, Nat.pow_zero, Nat.div_one]); omega) ((h _ _).trans (okIf_eq (by simp only [fX, fFlag, fBits, wR3, xPM, Nat.pow_zero, Nat.div_one, Bool.and_eq_true, Bool.or_eq_true, Bool.not_eq_true', beq_iff_eq, beq_eq_false_iff_ne, decide_eq_true_eq, ne_eq]; omega) (by
    try simp only [fD, fA, fB, fImm]
    rw [bv_eq (d := d) (by (try simp only [wR3, xPM, Nat.pow_zero, Nat.div_one]); omega), bv_eq (d := a) (by (try simp only [wR3, xPM, Nat.pow_zero, Nat.div_one]); omega)])))

theorem onlyA (a : Reg) {f : Reg → Instr} (hop : op < 256)
    (h : ∀ n w, decodeAt op n w none = dOnlyA n f) : decodeList (encR3 op 0 a 0) = .ok (f a) := by
  have := a.isLt
  simp only [encR3, show BitVec.toNat (0 : Reg) = 0 from rfl]; exact short (op := op) (by (try simp only [fBits, wR3, xPM, Nat.pow_zero, Nat.div_one]); omega) (by (try simp only [fBits, wR3, xPM, Nat.pow_zero, Nat.div_one]); omega) ((h _ _).trans (okIf_eq (by simp only [fX, fFlag, fBits, wR3, xPM, Nat.pow_zero, Nat.div_one, Bool.and_eq_true, Bool.or_eq_true, Bool.not_eq_true', beq_iff_eq, beq_eq_false_iff_ne, decide_eq_true_eq, ne_eq]; omega) (by
    try simp only [fD, fA, fB, fImm]
    rw [bv_eq (d := a) (by (try simp only [wR3, xPM, Nat.pow_zero, Nat.div_one]); omega)])))

theorem onlyD (d : Reg) {f : Reg → Instr} (hop : op < 256)
    (h : ∀ n w, decodeAt op n w none = dOnlyD n f) : decodeList (encR3 op d 0 0) = .ok (f d) := by
  have := d.isLt
  simp only [encR3, show BitVec.toNat (0 : Reg) = 0 from rfl]; exact short (op := op) (by (try simp only [fBits, wR3, xPM, Nat.pow_zero, Nat.div_one]); omega) (by (try simp only [fBits, wR3, xPM, Nat.pow_zero, Nat.div_one]); omega) ((h _ _).trans (okIf_eq (by simp only [fX, fFlag, fBits, wR3, xPM, Nat.pow_zero, Nat.div_one, Bool.and_eq_true, Bool.or_eq_true, Bool.not_eq_true', beq_iff_eq, beq_eq_false_iff_ne, decide_eq_true_eq, ne_eq]; omega) (by
    try simp only [fD, fA, fB, fImm]
    rw [bv_eq (d := d) (by (try simp only [wR3, xPM, Nat.pow_zero, Nat.div_one]); omega)])))

theorem ri (d a : Reg) (i : BitVec 14) {f : Reg → Reg → BitVec 14 → Instr} (hop : op < 256)
    (h : ∀ n w, decodeAt op n w none = dRI n f) : decodeList (encRI op d a i) = .ok (f d a i) := by
  have := d.isLt; have := a.isLt; have := i.isLt
  simp only [encRI]; exact short (op := op) (by (try simp only [fBits, wRI, Nat.pow_zero, Nat.div_one]); omega) (by (try simp only [fBits, wRI, Nat.pow_zero, Nat.div_one]); omega) ((h _ _).trans (congrArg Except.ok (by
    try simp only [fD, fA, fB, fImm]
    rw [bv_eq (d := d) (by (try simp only [wRI, Nat.pow_zero, Nat.div_one]); omega), bv_eq (d := a) (by (try simp only [wRI, Nat.pow_zero, Nat.div_one]); omega), bv_eq (d := i) (by (try simp only [wRI, Nat.pow_zero, Nat.div_one]); omega)])))

theorem shift (d a : Reg) (i : BitVec 6) {f : Reg → Reg → BitVec 6 → Instr} (hop : op < 256)
    (h : ∀ n w, decodeAt op n w none = dSh n f) : decodeList (encSh op d a i) = .ok (f d a i) := by
  have := d.isLt; have := a.isLt; have := i.isLt
  simp only [encSh]; exact short (op := op) (by (try simp only [fBits, wRI, Nat.pow_zero, Nat.div_one]); omega) (by (try simp only [fBits, wRI, Nat.pow_zero, Nat.div_one]); omega) ((h _ _).trans (okIf_eq (by simp only [fX, fFlag, fBits, wRI, Nat.pow_zero, Nat.div_one, Bool.and_eq_true, Bool.or_eq_true, Bool.not_eq_true', beq_iff_eq, beq_eq_false_iff_ne, decide_eq_true_eq, ne_eq]; omega) (by
    try simp only [fD, fA, fB, fImm]
    rw [bv_eq (d := d) (by (try simp only [wRI, Nat.pow_zero, Nat.div_one]); omega), bv_eq (d := a) (by (try simp only [wRI, Nat.pow_zero, Nat.div_one]); omega), bv_eq (d := i) (by (try simp only [wRI, Nat.pow_zero, Nat.div_one]); omega)])))

theorem jmp (t : CodePos) {f : CodePos → Instr} (hop : op < 256)
    (h : ∀ n w, decodeAt op n w none = dJ n f) : decodeList (w1 (wJ op t.toNat)) = .ok (f t) := by
  have := t.isLt
  exact short (op := op) (by (try simp only [fBits, wJ, Nat.pow_zero, Nat.div_one]); omega) (by (try simp only [fBits, wJ, Nat.pow_zero, Nat.div_one]); omega) ((h _ _).trans (congrArg Except.ok (by
    try simp only [fD, fA, fB, fImm]
    rw [bv_eq (d := t) (by (try simp only [wJ, Nat.pow_zero, Nat.div_one]); omega)])))

theorem bare {i : Instr} (hop : op < 256)
    (h : ∀ n w, decodeAt op n w none = dNone n i) : decodeList (w1 (wR3 op 0 0 0 0)) = .ok (i) := by
  skip
  exact short (op := op) (by (try simp only [fBits, wR3, xPM, Nat.pow_zero, Nat.div_one]); omega) (by (try simp only [fBits, wR3, xPM, Nat.pow_zero, Nat.div_one]); omega) ((h _ _).trans (okIf_eq (by simp only [fX, fFlag, fBits, wR3, xPM, Nat.pow_zero, Nat.div_one, Bool.and_eq_true, Bool.or_eq_true, Bool.not_eq_true', beq_iff_eq, beq_eq_false_iff_ne, decide_eq_true_eq, ne_eq]; omega) rfl))

theorem ring (d : Reg) (k : KIdx) {f : Reg → KIdx → Instr} (hop : op < 256)
    (h : ∀ n w, decodeAt op n w none = dRing n f) : decodeList (encRing op d k) = .ok (f d k) := by
  have := d.isLt; have := k.isLt
  simp only [encRing]; exact short (op := op) (by (try simp only [fBits, wR3, xPM, Nat.pow_zero, Nat.div_one]); omega) (by (try simp only [fBits, wR3, xPM, Nat.pow_zero, Nat.div_one]); omega) ((h _ _).trans (okIf_eq (by simp only [fX, fFlag, fBits, wR3, xPM, Nat.pow_zero, Nat.div_one, Bool.and_eq_true, Bool.or_eq_true, Bool.not_eq_true', beq_iff_eq, beq_eq_false_iff_ne, decide_eq_true_eq, ne_eq]; omega) (by
    try simp only [fD, fA, fB, fImm]
    rw [bv_eq (d := d) (by (try simp only [wR3, xPM, Nat.pow_zero, Nat.div_one]); omega), bv_eq (d := k) (by (try simp only [wR3, xPM, Nat.pow_zero, Nat.div_one]); omega)])))

theorem bin (d a b : Reg) (pm : PMod) (m : RMode) (any : Bool) {f : Reg → Reg → Reg → PMod → RMode → Bool → Instr} (hop : op < 256)
    (h : ∀ n w, decodeAt op n w none = dBin n f) : decodeList (encBin op d a b pm m any) = .ok (f d a b pm m any) := by
  have := d.isLt; have := a.isLt; have := b.isLt; have := pm.p.isLt; have := bit_lt pm.zero; have := rmode_lt m; have := bit_lt any
  simp only [encBin]; exact short (op := op) (by (try simp only [fBits, wR3, xPM, Nat.pow_zero, Nat.div_one]); omega) (by (try simp only [fBits, wR3, xPM, Nat.pow_zero, Nat.div_one]); omega) ((h _ _).trans (okSome_eq (rmode_code (m := m) (by (try simp only [fBits, wR3, xPM, Nat.pow_zero, Nat.div_one]); omega)) (okIf_eq (by simp only [fX, fFlag, fBits, wR3, xPM, Nat.pow_zero, Nat.div_one, Bool.and_eq_true, Bool.or_eq_true, Bool.not_eq_true', beq_iff_eq, beq_eq_false_iff_ne, decide_eq_true_eq, ne_eq]; omega) (by
    try simp only [fD, fA, fB, fImm]
    rw [bv_eq (d := d) (by (try simp only [wR3, xPM, Nat.pow_zero, Nat.div_one]); omega), bv_eq (d := a) (by (try simp only [wR3, xPM, Nat.pow_zero, Nat.div_one]); omega), bv_eq (d := b) (by (try simp only [wR3, xPM, Nat.pow_zero, Nat.div_one]); omega), pm_eq (pm := pm) (by (try simp only [wR3, xPM, Nat.pow_zero, Nat.div_one]); omega) (by (try simp only [wR3, xPM, Nat.pow_zero, Nat.div_one]); omega), flag_eq (b := any) (by (try simp only [wR3, xPM, Nat.pow_zero, Nat.div_one]); omega)]))))

theorem binS (d a b : Reg) (pm : PMod) (m : RMode) {f : Reg → Reg → Reg → PMod → RMode → Instr} (hop : op < 256)
    (h : ∀ n w, decodeAt op n w none = dBinS n f) : decodeList (encBin op d a b pm m false) = .ok (f d a b pm m) := by
  have := d.isLt; have := a.isLt; have := b.isLt; have := pm.p.isLt; have := bit_lt pm.zero; have := rmode_lt m
  simp only [encBin, show bit false = 0 from rfl]; exact short (op := op) (by (try simp only [fBits, wR3, xPM, Nat.pow_zero, Nat.div_one]); omega) (by (try simp only [fBits, wR3, xPM, Nat.pow_zero, Nat.div_one]); omega) ((h _ _).trans (okSome_eq (rmode_code (m := m) (by (try simp only [fBits, wR3, xPM, Nat.pow_zero, Nat.div_one]); omega)) (okIf_eq (by simp only [fX, fFlag, fBits, wR3, xPM, Nat.pow_zero, Nat.div_one, Bool.and_eq_true, Bool.or_eq_true, Bool.not_eq_true', beq_iff_eq, beq_eq_false_iff_ne, decide_eq_true_eq, ne_eq]; omega) (by
    try simp only [fD, fA, fB, fImm]
    rw [bv_eq (d := d) (by (try simp only [wR3, xPM, Nat.pow_zero, Nat.div_one]); omega), bv_eq (d := a) (by (try simp only [wR3, xPM, Nat.pow_zero, Nat.div_one]); omega), bv_eq (d := b) (by (try simp only [wR3, xPM, Nat.pow_zero, Nat.div_one]); omega), pm_eq (pm := pm) (by (try simp only [wR3, xPM, Nat.pow_zero, Nat.div_one]); omega) (by (try simp only [wR3, xPM, Nat.pow_zero, Nat.div_one]); omega)]))))

theorem un (d a : Reg) (pm : PMod) (m : RMode) {f : Reg → Reg → PMod → RMode → Instr} (hop : op < 256)
    (h : ∀ n w, decodeAt op n w none = dUn n f) : decodeList (encUn op d a pm m) = .ok (f d a pm m) := by
  have := d.isLt; have := a.isLt; have := pm.p.isLt; have := bit_lt pm.zero; have := rmode_lt m
  simp only [encUn]; exact short (op := op) (by (try simp only [fBits, wR3, xPM, Nat.pow_zero, Nat.div_one]); omega) (by (try simp only [fBits, wR3, xPM, Nat.pow_zero, Nat.div_one]); omega) ((h _ _).trans (okSome_eq (rmode_code (m := m) (by (try simp only [fBits, wR3, xPM, Nat.pow_zero, Nat.div_one]); omega)) (okIf_eq (by simp only [fX, fFlag, fBits, wR3, xPM, Nat.pow_zero, Nat.div_one, Bool.and_eq_true, Bool.or_eq_true, Bool.not_eq_true', beq_iff_eq, beq_eq_false_iff_ne, decide_eq_true_eq, ne_eq]; omega) (by
    try simp only [fD, fA, fB, fImm]
    rw [bv_eq (d := d) (by (try simp only [wR3, xPM, Nat.pow_zero, Nat.div_one]); omega), bv_eq (d := a) (by (try simp only [wR3, xPM, Nat.pow_zero, Nat.div_one]); omega), pm_eq (pm := pm) (by (try simp only [wR3, xPM, Nat.pow_zero, Nat.div_one]); omega) (by (try simp only [wR3, xPM, Nat.pow_zero, Nat.div_one]); omega)]))))

theorem bcast (d : Reg) (a : FIdx) (pm : PMod) (m : RMode) {f : Reg → FIdx → PMod → RMode → Instr} (hop : op < 256)
    (h : ∀ n w, decodeAt op n w none = dBcast n f) : decodeList (w1 (wR3 op d.toNat a.toNat 0 (xPM pm + m.code * 2 ^ 2))) = .ok (f d a pm m) := by
  have := d.isLt; have := a.isLt; have := pm.p.isLt; have := bit_lt pm.zero; have := rmode_lt m
  exact short (op := op) (by (try simp only [fBits, wR3, xPM, Nat.pow_zero, Nat.div_one]); omega) (by (try simp only [fBits, wR3, xPM, Nat.pow_zero, Nat.div_one]); omega) ((h _ _).trans (okSome_eq (rmode_code (m := m) (by (try simp only [fBits, wR3, xPM, Nat.pow_zero, Nat.div_one]); omega)) (okIf_eq (by simp only [fX, fFlag, fBits, wR3, xPM, Nat.pow_zero, Nat.div_one, Bool.and_eq_true, Bool.or_eq_true, Bool.not_eq_true', beq_iff_eq, beq_eq_false_iff_ne, decide_eq_true_eq, ne_eq]; omega) (by
    try simp only [fD, fA, fB, fImm]
    rw [bv_eq (d := d) (by (try simp only [wR3, xPM, Nat.pow_zero, Nat.div_one]); omega), bv_eq (d := a) (by (try simp only [wR3, xPM, Nat.pow_zero, Nat.div_one]); omega), pm_eq (pm := pm) (by (try simp only [wR3, xPM, Nat.pow_zero, Nat.div_one]); omega) (by (try simp only [wR3, xPM, Nat.pow_zero, Nat.div_one]); omega)]))))

theorem regA (a : Reg) (r : AIdx) {f : Reg → AIdx → Instr} (hop : op < 256)
    (h : ∀ n w, decodeAt op n w none = dRegA n f) : decodeList (w1 (wR3 op 0 a.toNat 0 r.toNat)) = .ok (f a r) := by
  have := a.isLt; have := r.isLt
  exact short (op := op) (by (try simp only [fBits, wR3, xPM, Nat.pow_zero, Nat.div_one]); omega) (by (try simp only [fBits, wR3, xPM, Nat.pow_zero, Nat.div_one]); omega) ((h _ _).trans (okIf_eq (by simp only [fX, fFlag, fBits, wR3, xPM, Nat.pow_zero, Nat.div_one, Bool.and_eq_true, Bool.or_eq_true, Bool.not_eq_true', beq_iff_eq, beq_eq_false_iff_ne, decide_eq_true_eq, ne_eq]; omega) (by
    try simp only [fD, fA, fB, fImm]
    rw [bv_eq (d := a) (by (try simp only [wR3, xPM, Nat.pow_zero, Nat.div_one]); omega), bv_eq (d := r) (by (try simp only [wR3, xPM, Nat.pow_zero, Nat.div_one]); omega)])))

theorem dRed_tile {n w2 : Nat} {q x k : Bool} {f : Reg → PIdx → RedDest → Instr} {r : Decoded}
    (hg : (fBits n 9 5 == 0 && fBits n 0 6 == 0 && fBits w2 16 16 == 0) = true) (h0 : fBits w2 0 2 = 0)
    (h : okIf (fBits w2 2 10 == 0 && (q || fBits w2 12 4 == 0)) (f (fA n) (fPMod n).p (.tile (fD n) (BitVec.ofNat 4 (w2 / 2 ^ 12)))) = r) :
    dRed n w2 q x k f = r := by
  rw [dRed, if_pos hg, h0]; exact h
theorem dRed_freg {n w2 : Nat} {q x k : Bool} {f : Reg → PIdx → RedDest → Instr} {r : Decoded}
    (hg : (fBits n 9 5 == 0 && fBits n 0 6 == 0 && fBits w2 16 16 == 0) = true) (h0 : fBits w2 0 2 = 1)
    (h : okIf (fBits n 19 5 == 0 && fBits w2 2 6 == 0 && (x || fBits w2 12 4 == 0))
      (f (fA n) (fPMod n).p (.freg (BitVec.ofNat 4 (w2 / 2 ^ 8)) (BitVec.ofNat 4 (w2 / 2 ^ 12)))) = r) :
    dRed n w2 q x k f = r := by
  rw [dRed, if_pos hg, h0]; exact h
theorem dRed_bobbin {n w2 : Nat} {q x k : Bool} {f : Reg → PIdx → RedDest → Instr} {r : Decoded}
    (hg : (fBits n 9 5 == 0 && fBits n 0 6 == 0 && fBits w2 16 16 == 0) = true) (h0 : fBits w2 0 2 = 2)
    (h : okIf (k && fBits n 19 5 == 0 && fBits w2 8 8 == 0) (f (fA n) (fPMod n).p (.bobbin (BitVec.ofNat 6 (w2 / 4)))) = r) :
    dRed n w2 q x k f = r := by
  rw [dRed, if_pos hg, h0]; exact h

/-- A reduction (R135). -/
theorem red (ta : Reg) (p : PIdx) (dest : RedDest) (q x k : Bool) {f : Reg → PIdx → RedDest → Instr} (hop : op < 256)
    (hl : ∀ n w v, decodeAt op n w (some v) = decodeLong op n v.toNat) (h : ∀ n w2, decodeLong op n w2 = dRed n w2 q x k f)
    (hw : dest.wf q x k = true) : decodeList (encRed op ta p dest) = .ok (f ta p dest) := by
  have := ta.isLt; have := p.isLt
  cases dest with
  | tile td fq =>
    have := td.isLt; have := fq.isLt
    have hs : q = true ∨ fq.toNat = 0 := (Bool.or_eq_true _ _ ▸ hw : q = true ∨ (fq == 0) = true).imp id zero_of
    refine long (op := op) (by (try simp only [fBits, wR3, xPM, Nat.pow_zero, Nat.div_one]); omega) (by (try simp only [fBits, wR3, xPM, Nat.pow_zero, Nat.div_one]); omega) (by (try simp only [fBits, wR3, xPM, Nat.pow_zero, Nat.div_one]); omega) hl ((h _ _).trans (dRed_tile (by
    (repeat' with_reducible apply and_t) <;> first
      | (simp only [fX, fFlag, fBits, wR3, xPM, Nat.pow_zero, Nat.div_one, beq_iff_eq]; omega)
      | exact or_l rfl
      | (rw [flag_eq (b := false) (by simp only [wR3, xPM, Nat.pow_zero, Nat.div_one, show bit false = 0 from rfl]; omega)]; rfl)) (by (try simp only [fBits, wR3, xPM, Nat.pow_zero, Nat.div_one]); omega) (okIf_eq (by
    (repeat' with_reducible apply and_t) <;> first
      | (simp only [fX, fFlag, fBits, wR3, xPM, Nat.pow_zero, Nat.div_one, beq_iff_eq]; omega)
      | (apply decide_eq_true; simp only [fBits, wR3, xPM, Nat.pow_zero, Nat.div_one]; omega)
      | exact hs
      | exact hs.1
      | exact hs.2
      | exact hs.1.1
      | exact hs.1.2
      | exact or_r hs
      | (rw [flag_eq (b := w) (by simp only [wR3, xPM, Nat.pow_zero, Nat.div_one]; omega)]; exact hs)
      | (rcases hs with h | h
         · exact or_l h
         · exact or_r (by simp only [fBits, wR3, xPM, Nat.pow_zero, Nat.div_one, beq_iff_eq]; omega))) ?_)))
    simp only [fA, fD, fPMod]; rw [bv_eq (d := ta) (by (try simp only [wR3, xPM, Nat.pow_zero, Nat.div_one, show bit false = 0 from rfl, show bit true = 1 from rfl]); omega), bv_eq (d := p) (by (try simp only [wR3, xPM, Nat.pow_zero, Nat.div_one, show bit false = 0 from rfl, show bit true = 1 from rfl]); omega), bv_eq (d := td) (by (try simp only [wR3, xPM, Nat.pow_zero, Nat.div_one, show bit false = 0 from rfl, show bit true = 1 from rfl]); omega), bv_eq (d := fq) (by (try simp only [wR3, xPM, Nat.pow_zero, Nat.div_one, show bit false = 0 from rfl, show bit true = 1 from rfl]); omega)]
  | freg fd fx =>
    have := fd.isLt; have := fx.isLt
    have hs : x = true ∨ fx.toNat = 0 := (Bool.or_eq_true _ _ ▸ hw : x = true ∨ (fx == 0) = true).imp id zero_of
    refine long (op := op) (by (try simp only [fBits, wR3, xPM, Nat.pow_zero, Nat.div_one]); omega) (by (try simp only [fBits, wR3, xPM, Nat.pow_zero, Nat.div_one]); omega) (by (try simp only [fBits, wR3, xPM, Nat.pow_zero, Nat.div_one]); omega) hl ((h _ _).trans (dRed_freg (by
    (repeat' with_reducible apply and_t) <;> first
      | (simp only [fX, fFlag, fBits, wR3, xPM, Nat.pow_zero, Nat.div_one, beq_iff_eq]; omega)
      | exact or_l rfl
      | (rw [flag_eq (b := false) (by simp only [wR3, xPM, Nat.pow_zero, Nat.div_one, show bit false = 0 from rfl]; omega)]; rfl)) (by (try simp only [fBits, wR3, xPM, Nat.pow_zero, Nat.div_one]); omega) (okIf_eq (by
    (repeat' with_reducible apply and_t) <;> first
      | (simp only [fX, fFlag, fBits, wR3, xPM, Nat.pow_zero, Nat.div_one, beq_iff_eq]; omega)
      | (apply decide_eq_true; simp only [fBits, wR3, xPM, Nat.pow_zero, Nat.div_one]; omega)
      | exact hs
      | exact hs.1
      | exact hs.2
      | exact hs.1.1
      | exact hs.1.2
      | exact or_r hs
      | (rw [flag_eq (b := w) (by simp only [wR3, xPM, Nat.pow_zero, Nat.div_one]; omega)]; exact hs)
      | (rcases hs with h | h
         · exact or_l h
         · exact or_r (by simp only [fBits, wR3, xPM, Nat.pow_zero, Nat.div_one, beq_iff_eq]; omega))) ?_)))
    simp only [fA, fPMod]; rw [bv_eq (d := ta) (by (try simp only [wR3, xPM, Nat.pow_zero, Nat.div_one, show bit false = 0 from rfl, show bit true = 1 from rfl]); omega), bv_eq (d := p) (by (try simp only [wR3, xPM, Nat.pow_zero, Nat.div_one, show bit false = 0 from rfl, show bit true = 1 from rfl]); omega), bv_eq (d := fd) (by (try simp only [wR3, xPM, Nat.pow_zero, Nat.div_one, show bit false = 0 from rfl, show bit true = 1 from rfl]); omega), bv_eq (d := fx) (by (try simp only [wR3, xPM, Nat.pow_zero, Nat.div_one, show bit false = 0 from rfl, show bit true = 1 from rfl]); omega)]
  | bobbin b =>
    have := b.isLt
    have hs : k = true := hw
    refine long (op := op) (by (try simp only [fBits, wR3, xPM, Nat.pow_zero, Nat.div_one]); omega) (by (try simp only [fBits, wR3, xPM, Nat.pow_zero, Nat.div_one]); omega) (by (try simp only [fBits, wR3, xPM, Nat.pow_zero, Nat.div_one]); omega) hl ((h _ _).trans (dRed_bobbin (by
    (repeat' with_reducible apply and_t) <;> first
      | (simp only [fX, fFlag, fBits, wR3, xPM, Nat.pow_zero, Nat.div_one, beq_iff_eq]; omega)
      | exact or_l rfl
      | (rw [flag_eq (b := false) (by simp only [wR3, xPM, Nat.pow_zero, Nat.div_one, show bit false = 0 from rfl]; omega)]; rfl)) (by (try simp only [fBits, wR3, xPM, Nat.pow_zero, Nat.div_one]); omega) (okIf_eq (by
    (repeat' with_reducible apply and_t) <;> first
      | (simp only [fX, fFlag, fBits, wR3, xPM, Nat.pow_zero, Nat.div_one, beq_iff_eq]; omega)
      | (apply decide_eq_true; simp only [fBits, wR3, xPM, Nat.pow_zero, Nat.div_one]; omega)
      | exact hs
      | exact hs.1
      | exact hs.2
      | exact hs.1.1
      | exact hs.1.2
      | exact or_r hs
      | (rw [flag_eq (b := w) (by simp only [wR3, xPM, Nat.pow_zero, Nat.div_one]; omega)]; exact hs)
      | (rcases hs with h | h
         · exact or_l h
         · exact or_r (by simp only [fBits, wR3, xPM, Nat.pow_zero, Nat.div_one, beq_iff_eq]; omega))) ?_)))
    simp only [fA, fPMod]; rw [bv_eq (d := ta) (by (try simp only [wR3, xPM, Nat.pow_zero, Nat.div_one, show bit false = 0 from rfl, show bit true = 1 from rfl]); omega), bv_eq (d := p) (by (try simp only [wR3, xPM, Nat.pow_zero, Nat.div_one, show bit false = 0 from rfl, show bit true = 1 from rfl]); omega), bv_eq (d := b) (by (try simp only [wR3, xPM, Nat.pow_zero, Nat.div_one, show bit false = 0 from rfl, show bit true = 1 from rfl]); omega)]

end Sys2Proof.Laws

namespace Sys2Proof.Laws.RoundTrip
set_option Elab.async false
set_option linter.all false

/-- What is encoded is decoded again. -/
def Statement (i : Instr) : Prop := i.wf = true → encode i ≠ [] → decodeList (encode i) = .ok i

theorem nop  : Statement (.nop ) := fun _ _ => bare  (op := 0x1) (by decide) fun _ _ => rfl
theorem add (d : Reg) (a : Reg) (b : Reg) : Statement (.add d a b) := fun _ _ => r3 d a b (op := 0x2) (by decide) fun _ _ => rfl
theorem sub (d : Reg) (a : Reg) (b : Reg) : Statement (.sub d a b) := fun _ _ => r3 d a b (op := 0x3) (by decide) fun _ _ => rfl
theorem and (d : Reg) (a : Reg) (b : Reg) : Statement (.and d a b) := fun _ _ => r3 d a b (op := 0x4) (by decide) fun _ _ => rfl
theorem or (d : Reg) (a : Reg) (b : Reg) : Statement (.or d a b) := fun _ _ => r3 d a b (op := 0x5) (by decide) fun _ _ => rfl
theorem xor (d : Reg) (a : Reg) (b : Reg) : Statement (.xor d a b) := fun _ _ => r3 d a b (op := 0x6) (by decide) fun _ _ => rfl
theorem shl (d : Reg) (a : Reg) (b : Reg) : Statement (.shl d a b) := fun _ _ => r3 d a b (op := 0x7) (by decide) fun _ _ => rfl
theorem shr (d : Reg) (a : Reg) (b : Reg) : Statement (.shr d a b) := fun _ _ => r3 d a b (op := 0x8) (by decide) fun _ _ => rfl
theorem sra (d : Reg) (a : Reg) (b : Reg) : Statement (.sra d a b) := fun _ _ => r3 d a b (op := 0x9) (by decide) fun _ _ => rfl
theorem mul (d : Reg) (a : Reg) (b : Reg) : Statement (.mul d a b) := fun _ _ => r3 d a b (op := 0xa) (by decide) fun _ _ => rfl
theorem mulh (d : Reg) (a : Reg) (b : Reg) : Statement (.mulh d a b) := fun _ _ => r3 d a b (op := 0xb) (by decide) fun _ _ => rfl
theorem mulhn (d : Reg) (a : Reg) (b : Reg) : Statement (.mulhn d a b) := fun _ _ => r3 d a b (op := 0xc) (by decide) fun _ _ => rfl
theorem div (d : Reg) (a : Reg) (b : Reg) : Statement (.div d a b) := fun _ _ => r3 d a b (op := 0xd) (by decide) fun _ _ => rfl
theorem divn (d : Reg) (a : Reg) (b : Reg) : Statement (.divn d a b) := fun _ _ => r3 d a b (op := 0xe) (by decide) fun _ _ => rfl
theorem rem (d : Reg) (a : Reg) (b : Reg) : Statement (.rem d a b) := fun _ _ => r3 d a b (op := 0xf) (by decide) fun _ _ => rfl
theorem remn (d : Reg) (a : Reg) (b : Reg) : Statement (.remn d a b) := fun _ _ => r3 d a b (op := 0x10) (by decide) fun _ _ => rfl
theorem min (d : Reg) (a : Reg) (b : Reg) : Statement (.min d a b) := fun _ _ => r3 d a b (op := 0x11) (by decide) fun _ _ => rfl
theorem max (d : Reg) (a : Reg) (b : Reg) : Statement (.max d a b) := fun _ _ => r3 d a b (op := 0x12) (by decide) fun _ _ => rfl
theorem minn (d : Reg) (a : Reg) (b : Reg) : Statement (.minn d a b) := fun _ _ => r3 d a b (op := 0x13) (by decide) fun _ _ => rfl
theorem maxn (d : Reg) (a : Reg) (b : Reg) : Statement (.maxn d a b) := fun _ _ => r3 d a b (op := 0x14) (by decide) fun _ _ => rfl
theorem slt (d : Reg) (a : Reg) (b : Reg) : Statement (.slt d a b) := fun _ _ => r3 d a b (op := 0x15) (by decide) fun _ _ => rfl
theorem sltn (d : Reg) (a : Reg) (b : Reg) : Statement (.sltn d a b) := fun _ _ => r3 d a b (op := 0x16) (by decide) fun _ _ => rfl
theorem seq (d : Reg) (a : Reg) (b : Reg) : Statement (.seq d a b) := fun _ _ => r3 d a b (op := 0x17) (by decide) fun _ _ => rfl
theorem popc (d : Reg) (a : Reg) : Statement (.popc d a) := fun _ _ => da d a (op := 0x25) (by decide) fun _ _ => rfl
theorem clz (d : Reg) (a : Reg) : Statement (.clz d a) := fun _ _ => da d a (op := 0x26) (by decide) fun _ _ => rfl
theorem ctz (d : Reg) (a : Reg) : Statement (.ctz d a) := fun _ _ => da d a (op := 0x27) (by decide) fun _ _ => rfl
theorem addi (d : Reg) (a : Reg) (imm : BitVec 14) : Statement (.addi d a imm) := fun _ _ => ri d a imm (op := 0x18) (by decide) fun _ _ => rfl
theorem andi (d : Reg) (a : Reg) (imm : BitVec 14) : Statement (.andi d a imm) := fun _ _ => ri d a imm (op := 0x19) (by decide) fun _ _ => rfl
theorem ori (d : Reg) (a : Reg) (imm : BitVec 14) : Statement (.ori d a imm) := fun _ _ => ri d a imm (op := 0x1a) (by decide) fun _ _ => rfl
theorem xori (d : Reg) (a : Reg) (imm : BitVec 14) : Statement (.xori d a imm) := fun _ _ => ri d a imm (op := 0x1b) (by decide) fun _ _ => rfl
theorem slti (d : Reg) (a : Reg) (imm : BitVec 14) : Statement (.slti d a imm) := fun _ _ => ri d a imm (op := 0x1f) (by decide) fun _ _ => rfl
theorem shli (d : Reg) (a : Reg) (sh : BitVec 6) : Statement (.shli d a sh) := fun _ _ => shift d a sh (op := 0x1c) (by decide) fun _ _ => rfl
theorem shri (d : Reg) (a : Reg) (sh : BitVec 6) : Statement (.shri d a sh) := fun _ _ => shift d a sh (op := 0x1d) (by decide) fun _ _ => rfl
theorem srai (d : Reg) (a : Reg) (sh : BitVec 6) : Statement (.srai d a sh) := fun _ _ => shift d a sh (op := 0x1e) (by decide) fun _ _ => rfl
theorem b (target : CodePos) : Statement (.b target) := fun _ _ => jmp target (op := 0x28) (by decide) fun _ _ => rfl
theorem jal (target : CodePos) : Statement (.jal target) := fun _ _ => jmp target (op := 0x29) (by decide) fun _ _ => rfl
theorem jr (a : Reg) : Statement (.jr a) := fun _ _ => onlyA a (op := 0x2a) (by decide) fun _ _ => rfl
theorem ldb (d : Reg) (a : Reg) (off : BitVec 14) : Statement (.ldb d a off) := fun _ _ => ri d a off (op := 0x2e) (by decide) fun _ _ => rfl
theorem ldh (d : Reg) (a : Reg) (off : BitVec 14) : Statement (.ldh d a off) := fun _ _ => ri d a off (op := 0x2f) (by decide) fun _ _ => rfl
theorem ldw (d : Reg) (a : Reg) (off : BitVec 14) : Statement (.ldw d a off) := fun _ _ => ri d a off (op := 0x30) (by decide) fun _ _ => rfl
theorem ldd (d : Reg) (a : Reg) (off : BitVec 14) : Statement (.ldd d a off) := fun _ _ => ri d a off (op := 0x31) (by decide) fun _ _ => rfl
theorem ldbn (d : Reg) (a : Reg) (off : BitVec 14) : Statement (.ldbn d a off) := fun _ _ => ri d a off (op := 0x32) (by decide) fun _ _ => rfl
theorem ldhn (d : Reg) (a : Reg) (off : BitVec 14) : Statement (.ldhn d a off) := fun _ _ => ri d a off (op := 0x33) (by decide) fun _ _ => rfl
theorem ldwn (d : Reg) (a : Reg) (off : BitVec 14) : Statement (.ldwn d a off) := fun _ _ => ri d a off (op := 0x34) (by decide) fun _ _ => rfl
theorem stb (d : Reg) (a : Reg) (off : BitVec 14) : Statement (.stb d a off) := fun _ _ => ri d a off (op := 0x35) (by decide) fun _ _ => rfl
theorem sth (d : Reg) (a : Reg) (off : BitVec 14) : Statement (.sth d a off) := fun _ _ => ri d a off (op := 0x36) (by decide) fun _ _ => rfl
theorem stw (d : Reg) (a : Reg) (off : BitVec 14) : Statement (.stw d a off) := fun _ _ => ri d a off (op := 0x37) (by decide) fun _ _ => rfl
theorem std (d : Reg) (a : Reg) (off : BitVec 14) : Statement (.std d a off) := fun _ _ => ri d a off (op := 0x38) (by decide) fun _ _ => rfl
theorem exit  : Statement (.exit ) := fun _ _ => bare  (op := 0x42) (by decide) fun _ _ => rfl
theorem evret  : Statement (.evret ) := fun _ _ => bare  (op := 0x44) (by decide) fun _ _ => rfl
theorem yield  : Statement (.yield ) := fun _ _ => bare  (op := 0x46) (by decide) fun _ _ => rfl
theorem rclaim (d : Reg) (k : KIdx) : Statement (.rclaim d k) := fun _ _ => ring d k (op := 0x51) (by decide) fun _ _ => rfl
theorem rfill (d : Reg) (k : KIdx) : Statement (.rfill d k) := fun _ _ => ring d k (op := 0x52) (by decide) fun _ _ => rfl
theorem rwait (d : Reg) (k : KIdx) : Statement (.rwait d k) := fun _ _ => ring d k (op := 0x53) (by decide) fun _ _ => rfl
theorem rfree (d : Reg) (k : KIdx) : Statement (.rfree d k) := fun _ _ => ring d k (op := 0x54) (by decide) fun _ _ => rfl
theorem rstat (d : Reg) (k : KIdx) : Statement (.rstat d k) := fun _ _ => ring d k (op := 0x56) (by decide) fun _ _ => rfl
theorem htake (d : Reg) : Statement (.htake d) := fun _ _ => onlyD d (op := 0x58) (by decide) fun _ _ => rfl
theorem apop (d : Reg) : Statement (.apop d) := fun _ _ => onlyD d (op := 0x62) (by decide) fun _ _ => rfl
theorem twait (a : Reg) : Statement (.twait a) := fun _ _ => onlyA a (op := 0x68) (by decide) fun _ _ => rfl
theorem bwait (d : Reg) (a : Reg) : Statement (.bwait d a) := fun _ _ => da d a (op := 0x6b) (by decide) fun _ _ => rfl
theorem bfree (a : Reg) : Statement (.bfree a) := fun _ _ => onlyA a (op := 0x6c) (by decide) fun _ _ => rfl
theorem vadd (td : Reg) (ta : Reg) (tb : Reg) (pm : PMod) (mode : RMode) (any : Bool) : Statement (.vadd td ta tb pm mode any) := fun _ _ => bin td ta tb pm mode any (op := 0x75) (by decide) fun _ _ => rfl
theorem vsub (td : Reg) (ta : Reg) (tb : Reg) (pm : PMod) (mode : RMode) (any : Bool) : Statement (.vsub td ta tb pm mode any) := fun _ _ => bin td ta tb pm mode any (op := 0x76) (by decide) fun _ _ => rfl
theorem vmul (td : Reg) (ta : Reg) (tb : Reg) (pm : PMod) (mode : RMode) (any : Bool) : Statement (.vmul td ta tb pm mode any) := fun _ _ => bin td ta tb pm mode any (op := 0x77) (by decide) fun _ _ => rfl
theorem vfma (td : Reg) (ta : Reg) (tb : Reg) (pm : PMod) (mode : RMode) (any : Bool) : Statement (.vfma td ta tb pm mode any) := fun _ _ => bin td ta tb pm mode any (op := 0x78) (by decide) fun _ _ => rfl
theorem vmax (td : Reg) (ta : Reg) (tb : Reg) (pm : PMod) (mode : RMode) (any : Bool) : Statement (.vmax td ta tb pm mode any) := fun _ _ => bin td ta tb pm mode any (op := 0x79) (by decide) fun _ _ => rfl
theorem vmin (td : Reg) (ta : Reg) (tb : Reg) (pm : PMod) (mode : RMode) (any : Bool) : Statement (.vmin td ta tb pm mode any) := fun _ _ => bin td ta tb pm mode any (op := 0x7a) (by decide) fun _ _ => rfl
theorem vabs (td : Reg) (ta : Reg) (pm : PMod) (mode : RMode) : Statement (.vabs td ta pm mode) := fun _ _ => un td ta pm mode (op := 0x7b) (by decide) fun _ _ => rfl
theorem vneg (td : Reg) (ta : Reg) (pm : PMod) (mode : RMode) : Statement (.vneg td ta pm mode) := fun _ _ => un td ta pm mode (op := 0x7c) (by decide) fun _ _ => rfl
theorem vadds (td : Reg) (ta : Reg) (tb : Reg) (pm : PMod) (mode : RMode) : Statement (.vadds td ta tb pm mode) := fun _ _ => binS td ta tb pm mode (op := 0x7d) (by decide) fun _ _ => rfl
theorem vmuls (td : Reg) (ta : Reg) (tb : Reg) (pm : PMod) (mode : RMode) : Statement (.vmuls td ta tb pm mode) := fun _ _ => binS td ta tb pm mode (op := 0x7e) (by decide) fun _ _ => rfl
theorem vbcr (td : Reg) (f : FIdx) (pm : PMod) (mode : RMode) : Statement (.vbcr td f pm mode) := fun _ _ => bcast td f pm mode (op := 0x7f) (by decide) fun _ _ => rfl
theorem vbcc (td : Reg) (f : FIdx) (pm : PMod) (mode : RMode) : Statement (.vbcc td f pm mode) := fun _ _ => bcast td f pm mode (op := 0x80) (by decide) fun _ _ => rfl
theorem vexp2 (td : Reg) (ta : Reg) (pm : PMod) (mode : RMode) : Statement (.vexp2 td ta pm mode) := fun _ _ => un td ta pm mode (op := 0x82) (by decide) fun _ _ => rfl
theorem vlog2 (td : Reg) (ta : Reg) (pm : PMod) (mode : RMode) : Statement (.vlog2 td ta pm mode) := fun _ _ => un td ta pm mode (op := 0x83) (by decide) fun _ _ => rfl
theorem vrcp (td : Reg) (ta : Reg) (pm : PMod) (mode : RMode) : Statement (.vrcp td ta pm mode) := fun _ _ => un td ta pm mode (op := 0x84) (by decide) fun _ _ => rfl
theorem vrsq (td : Reg) (ta : Reg) (pm : PMod) (mode : RMode) : Statement (.vrsq td ta pm mode) := fun _ _ => un td ta pm mode (op := 0x85) (by decide) fun _ _ => rfl
theorem vsig (td : Reg) (ta : Reg) (pm : PMod) (mode : RMode) : Statement (.vsig td ta pm mode) := fun _ _ => un td ta pm mode (op := 0x86) (by decide) fun _ _ => rfl
theorem vtanh (td : Reg) (ta : Reg) (pm : PMod) (mode : RMode) : Statement (.vtanh td ta pm mode) := fun _ _ => un td ta pm mode (op := 0x87) (by decide) fun _ _ => rfl
theorem vsetrk (td : Reg) (ta : Reg) (tb : Reg) : Statement (.vsetrk td ta tb) := fun _ _ => r3 td ta tb (op := 0x96) (by decide) fun _ _ => rfl
theorem vstat (d : Reg) (ta : Reg) : Statement (.vstat d ta) := fun _ _ => da d ta (op := 0xa2) (by decide) fun _ _ => rfl
theorem vsmerge (td : Reg) (ta : Reg) (tb : Reg) : Statement (.vsmerge td ta tb) := fun _ _ => r3 td ta tb (op := 0xa3) (by decide) fun _ _ => rfl
theorem mloadn (a : Reg) : Statement (.mloadn a) := fun _ _ => onlyA a (op := 0xb0) (by decide) fun _ _ => rfl
theorem mregion (a : Reg) (r : AIdx) : Statement (.mregion a r) := fun _ _ => regA a r (op := 0xb4) (by decide) fun _ _ => rfl
theorem mscale (a : Reg) : Statement (.mscale a) := fun _ _ => onlyA a (op := 0xb5) (by decide) fun _ _ => rfl
theorem mwait  : Statement (.mwait ) := fun _ _ => bare  (op := 0xb7) (by decide) fun _ _ => rfl
theorem mstat (d : Reg) : Statement (.mstat d) := fun _ _ => onlyD d (op := 0xbb) (by decide) fun _ _ => rfl
theorem rampLimitUpdate (pkg : Nat) (die : Nat) : Statement (.rampLimitUpdate pkg die) := fun _ h => absurd rfl h
theorem cwait  : Statement (.cwait ) := fun _ _ => bare  (op := 0xd0) (by decide) fun _ _ => rfl
theorem cstat (d : Reg) : Statement (.cstat d) := fun _ _ => onlyD d (op := 0xd1) (by decide) fun _ _ => rfl
theorem drupeletPageState (index : Nat) : Statement (.drupeletPageState index) := fun _ h => absurd rfl h
theorem combinerForward (pkg : Nat) (die : Nat) (quad : Nat) : Statement (.combinerForward pkg die quad) := fun _ h => absurd rfl h
theorem pageWalk (pkg : Nat) (die : Nat) (ctx : Nat) (va : Nat) : Statement (.pageWalk pkg die ctx va) := fun _ h => absurd rfl h
theorem tlbInvalidate (pkg : Nat) (rec : BitVec 128) : Statement (.tlbInvalidate pkg rec) := fun _ h => absurd rfl h
theorem invalidationAck (pkg : Nat) (die : Nat) : Statement (.invalidationAck pkg die) := fun _ h => absurd rfl h
theorem demandFaultResolve (entryAddr : Nat) (entry : BitVec 64) : Statement (.demandFaultResolve entryAddr entry) := fun _ h => absurd rfl h
theorem reedSync (pkg : Nat) (die : Nat) (time : Nat) (bound : Nat) : Statement (.reedSync pkg die time bound) := fun _ h => absurd rfl h
theorem holdoverEntry (pkg : Nat) (die : Nat) : Statement (.holdoverEntry pkg die) := fun _ h => absurd rfl h
theorem timeUnlock (pkg : Nat) (die : Nat) : Statement (.timeUnlock pkg die) := fun _ h => absurd rfl h
theorem flitReplay (link : LinkId) : Statement (.flitReplay link) := fun _ h => absurd rfl h
theorem linkRetrain (link : LinkId) : Statement (.linkRetrain link) := fun _ h => absurd rfl h
theorem linkRecoveryTimeout (link : LinkId) : Statement (.linkRecoveryTimeout link) := fun _ h => absurd rfl h
theorem launchSubmit (packet : BitVec 1024) : Statement (.launchSubmit packet) := fun _ h => absurd rfl h
theorem launchAdmit (launch : Nat) : Statement (.launchAdmit launch) := fun _ h => absurd rfl h
theorem budgetExpiry (launch : Nat) : Statement (.budgetExpiry launch) := fun _ h => absurd rfl h
theorem gangPreemption (launch : Nat) : Statement (.gangPreemption launch) := fun _ h => absurd rfl h
theorem launchResume (launch : Nat) (budget : Option Nat) : Statement (.launchResume launch budget) := fun _ h => absurd rfl h
theorem hostStop (launch : Nat) : Statement (.hostStop launch) := fun _ h => absurd rfl h
theorem hostHalt (launch : Nat) : Statement (.hostHalt launch) := fun _ h => absurd rfl h
theorem launchRerun (launch : Nat) : Statement (.launchRerun launch) := fun _ h => absurd rfl h
theorem debugRecordArm (launch : Nat) (rec : List (BitVec 8)) : Statement (.debugRecordArm launch rec) := fun _ h => absurd rfl h
theorem unitStall (unit : Nat) : Statement (.unitStall unit) := fun _ h => absurd rfl h
theorem collectiveCreate (pkg : Nat) (rec : List (BitVec 8)) : Statement (.collectiveCreate pkg rec) := fun _ h => absurd rfl h
theorem collectiveDestroy (collid : Nat) : Statement (.collectiveDestroy collid) := fun _ h => absurd rfl h
theorem collComplete (collid : Nat) : Statement (.collComplete collid) := fun _ h => absurd rfl h
theorem collTimeout (collid : Nat) : Statement (.collTimeout collid) := fun _ h => absurd rfl h
theorem collAbort (collid : Nat) : Statement (.collAbort collid) := fun _ h => absurd rfl h
theorem collContribution (collid : Nat) (rank : Nat) (word : Nat) (value : BitVec 32) : Statement (.collContribution collid rank word value) := fun _ h => absurd rfl h
theorem allowanceRaise (launch : Nat) (cap : Nat) (amount : Nat) : Statement (.allowanceRaise launch cap amount) := fun _ h => absurd rfl h
theorem powerOn (pkg : Nat) : Statement (.powerOn pkg) := fun _ h => absurd rfl h
theorem recoveryImage (pkg : Nat) (image : List (BitVec 8)) : Statement (.recoveryImage pkg image) := fun _ h => absurd rfl h
theorem quoteRequest (pkg : Nat) (nonce : BitVec 384) (launch : Option Nat) : Statement (.quoteRequest pkg nonce launch) := fun _ h => absurd rfl h
theorem coreRetire (pkg : Nat) (die : Nat) (phys : Nat) : Statement (.coreRetire pkg die phys) := fun _ h => absurd rfl h
theorem hbmRowRetire (pkg : Nat) (fromPA : Nat) (toPA : Nat) (entryAddr : Nat) : Statement (.hbmRowRetire pkg fromPA toPA entryAddr) := fun _ h => absurd rfl h
theorem dlinkRecal (pkg : Nat) (n : Nat) : Statement (.dlinkRecal pkg n) := fun _ h => absurd rfl h
theorem hbmRecal (pkg : Nat) (stack : Nat) (channel : Nat) : Statement (.hbmRecal pkg stack channel) := fun _ h => absurd rfl h
theorem sahfinUpdate (pkg : Nat) : Statement (.sahfinUpdate pkg) := fun _ h => absurd rfl h
theorem packageReplace (pkg : Nat) : Statement (.packageReplace pkg) := fun _ h => absurd rfl h
theorem supplyStop (pkg : Nat) (die : Nat) (mv : Nat) : Statement (.supplyStop pkg die mv) := fun _ h => absurd rfl h
theorem thermalThrottle (pkg : Nat) (die : Nat) : Statement (.thermalThrottle pkg die) := fun _ h => absurd rfl h
theorem thermalStop (pkg : Nat) (die : Nat) : Statement (.thermalStop pkg die) := fun _ h => absurd rfl h
theorem clockLoss (pkg : Nat) (die : Nat) : Statement (.clockLoss pkg die) := fun _ h => absurd rfl h
theorem mgmtFailover (pkg : Nat) (core : Nat) : Statement (.mgmtFailover pkg core) := fun _ h => absurd rfl h
theorem hostReset (pkg : Nat) : Statement (.hostReset pkg) := fun _ h => absurd rfl h
theorem cxlDown (pkg : Nat) (expander : Nat) : Statement (.cxlDown pkg expander) := fun _ h => absurd rfl h
theorem stackFail (pkg : Nat) (stack : Nat) : Statement (.stackFail pkg stack) := fun _ h => absurd rfl h
theorem backgroundScrub (pkg : Nat) (place : ScrubPlace) (uncorrectable : Bool) : Statement (.backgroundScrub pkg place uncorrectable) := fun _ h => absurd rfl h
theorem retrainRecovery (link : LinkId) : Statement (.retrainRecovery link) := fun _ h => absurd rfl h
theorem ieee1588Sync (pkg : Nat) (time : Nat) (bound : Nat) : Statement (.ieee1588Sync pkg time bound) := fun _ h => absurd rfl h
theorem packageTimeEpoch (pkg : Nat) (time : Nat) : Statement (.packageTimeEpoch pkg time) := fun _ h => absurd rfl h
theorem onDemandRegister (ctx : Nat) (lo : Nat) (hi : Nat) : Statement (.onDemandRegister ctx lo hi) := fun _ h => absurd rfl h
theorem capabilityRevoke (launch : Nat) (cap : Nat) : Statement (.capabilityRevoke launch cap) := fun _ h => absurd rfl h
theorem bar2Access (pkg : Nat) (addr : Nat) (write : Option (BitVec 64)) : Statement (.bar2Access pkg addr write) := fun _ h => absurd rfl h
theorem powerLoss (pkg : Nat) : Statement (.powerLoss pkg) := fun _ h => absurd rfl h
theorem packagePowerCap (pkg : Nat) : Statement (.packagePowerCap pkg) := fun _ h => absurd rfl h
theorem eventDelivery  : Statement (.eventDelivery) := fun _ h => absurd rfl h
theorem evdlDeadline  : Statement (.evdlDeadline) := fun _ h => absurd rfl h
theorem releaseTokenAck  : Statement (.releaseTokenAck) := fun _ h => absurd rfl h
theorem fillMessage  : Statement (.fillMessage) := fun _ h => absurd rfl h
theorem freeCredit  : Statement (.freeCredit) := fun _ h => absurd rfl h
theorem barrierArrival  : Statement (.barrierArrival) := fun _ h => absurd rfl h
theorem atomicHomeApply  : Statement (.atomicHomeApply) := fun _ h => absurd rfl h
theorem atomicReply  : Statement (.atomicReply) := fun _ h => absurd rfl h
theorem boardHomeStep  : Statement (.boardHomeStep) := fun _ h => absurd rfl h
theorem twaitExpiry  : Statement (.twaitExpiry) := fun _ h => absurd rfl h
theorem bobbinContribution  : Statement (.bobbinContribution) := fun _ h => absurd rfl h
theorem nestStep  : Statement (.nestStep) := fun _ h => absurd rfl h
theorem drainRegion  : Statement (.drainRegion) := fun _ h => absurd rfl h
theorem shuttleWalk  : Statement (.shuttleWalk) := fun _ h => absurd rfl h
theorem commandPerformed  : Statement (.commandPerformed) := fun _ h => absurd rfl h
theorem cpageEntryReplace  : Statement (.cpageEntryReplace) := fun _ h => absurd rfl h
theorem cmcastCredit  : Statement (.cmcastCredit) := fun _ h => absurd rfl h
theorem cattnPageSend  : Statement (.cattnPageSend) := fun _ h => absurd rfl h
theorem loadReply  : Statement (.loadReply) := fun _ h => absurd rfl h
theorem lineFetch  : Statement (.lineFetch) := fun _ h => absurd rfl h
theorem dispatchStart  : Statement (.dispatchStart) := fun _ h => absurd rfl h
theorem dispatchStage  : Statement (.dispatchStage) := fun _ h => absurd rfl h
theorem dispatchPromote  : Statement (.dispatchPromote) := fun _ h => absurd rfl h
theorem dispatchRelease  : Statement (.dispatchRelease) := fun _ h => absurd rfl h
theorem homeAppliesWrite  : Statement (.homeAppliesWrite) := fun _ h => absurd rfl h
theorem remoteRingBind  : Statement (.remoteRingBind) := fun _ h => absurd rfl h
theorem addx (d : Reg) (a : Reg) (b : Reg) (sh : BitVec 3) : Statement (.addx d a b sh) := by
  intro hw _
  have := d.isLt; have := a.isLt; have := b.isLt; have := sh.isLt
  have key : ∀ n w, decodeAt 0x22 n w none = okIf (fBits n 3 6 == 0) (.addx (fD n) (fA n) (fB n) (BitVec.ofNat 3 n)) := fun _ _ => rfl
  exact short (op := 0x22) (by (try simp only [fBits, wR3, Nat.pow_zero, Nat.div_one]); omega) (by (try simp only [fBits, wR3, Nat.pow_zero, Nat.div_one]); omega) ((key _ _).trans
    (okIf_eq (by
    (repeat' with_reducible apply and_t) <;> first
      | (simp only [fX, fFlag, fBits, wR3, Nat.pow_zero, Nat.div_one, beq_iff_eq]; omega)
      | exact or_l rfl
      | (rw [flag_eq (b := false) (by simp only [wR3, Nat.pow_zero, Nat.div_one, show bit false = 0 from rfl]; omega)]; rfl)) (by
    congr 1 <;> first
      | rfl
      | exact bv_eq (by (try simp only [wR3, Nat.pow_zero, Nat.div_one]); omega)
      | exact pm_eq (by (try simp only [wR3, Nat.pow_zero, Nat.div_one]); omega) (by (try simp only [wR3, Nat.pow_zero, Nat.div_one]); omega)
      | exact flag_eq (by (try simp only [wR3, Nat.pow_zero, Nat.div_one]); omega)
      | exact bob_code (by (try simp only [wR3, Nat.pow_zero, Nat.div_one]); omega)
      | exact board_eq (by (try simp only [wR3, Nat.pow_zero, Nat.div_one]); omega) (by (try simp only [wR3, Nat.pow_zero, Nat.div_one]); omega))))

theorem li (d : Reg) (imm : BitVec 32) : Statement (.li d imm) := by
  intro hw _
  have := d.isLt; have := imm.isLt
  have key : ∀ n w2, decodeLong 0x20 n w2 = okIf (fBits n 0 19 == 0) (.li (fD n) (BitVec.ofNat 32 w2)) := fun _ _ => rfl
  exact long (op := 0x20) (by (try simp only [fBits, wRI, Nat.pow_zero, Nat.div_one]); omega) (by (try simp only [fBits, wRI, Nat.pow_zero, Nat.div_one]); omega) (by (try simp only [fBits, wRI, Nat.pow_zero, Nat.div_one]); omega) (fun _ _ _ => rfl) ((key _ _).trans
    (okIf_eq (by
    (repeat' with_reducible apply and_t) <;> first
      | (simp only [fX, fFlag, fBits, wRI, Nat.pow_zero, Nat.div_one, beq_iff_eq]; omega)
      | exact or_l rfl
      | (rw [flag_eq (b := false) (by simp only [wRI, Nat.pow_zero, Nat.div_one, show bit false = 0 from rfl]; omega)]; rfl)) (by
    congr 1 <;> first
      | rfl
      | exact bv_eq (by (try simp only [wRI, Nat.pow_zero, Nat.div_one]); omega)
      | exact pm_eq (by (try simp only [wRI, Nat.pow_zero, Nat.div_one]); omega) (by (try simp only [wRI, Nat.pow_zero, Nat.div_one]); omega)
      | exact flag_eq (by (try simp only [wRI, Nat.pow_zero, Nat.div_one]); omega)
      | exact bob_code (by (try simp only [wRI, Nat.pow_zero, Nat.div_one]); omega)
      | exact board_eq (by (try simp only [wRI, Nat.pow_zero, Nat.div_one]); omega) (by (try simp only [wRI, Nat.pow_zero, Nat.div_one]); omega))))

theorem lih (d : Reg) (imm : BitVec 32) : Statement (.lih d imm) := by
  intro hw _
  have := d.isLt; have := imm.isLt
  have key : ∀ n w2, decodeLong 0x21 n w2 = okIf (fBits n 0 19 == 0) (.lih (fD n) (BitVec.ofNat 32 w2)) := fun _ _ => rfl
  exact long (op := 0x21) (by (try simp only [fBits, wRI, Nat.pow_zero, Nat.div_one]); omega) (by (try simp only [fBits, wRI, Nat.pow_zero, Nat.div_one]); omega) (by (try simp only [fBits, wRI, Nat.pow_zero, Nat.div_one]); omega) (fun _ _ _ => rfl) ((key _ _).trans
    (okIf_eq (by
    (repeat' with_reducible apply and_t) <;> first
      | (simp only [fX, fFlag, fBits, wRI, Nat.pow_zero, Nat.div_one, beq_iff_eq]; omega)
      | exact or_l rfl
      | (rw [flag_eq (b := false) (by simp only [wRI, Nat.pow_zero, Nat.div_one, show bit false = 0 from rfl]; omega)]; rfl)) (by
    congr 1 <;> first
      | rfl
      | exact bv_eq (by (try simp only [wRI, Nat.pow_zero, Nat.div_one]); omega)
      | exact pm_eq (by (try simp only [wRI, Nat.pow_zero, Nat.div_one]); omega) (by (try simp only [wRI, Nat.pow_zero, Nat.div_one]); omega)
      | exact flag_eq (by (try simp only [wRI, Nat.pow_zero, Nat.div_one]); omega)
      | exact bob_code (by (try simp only [wRI, Nat.pow_zero, Nat.div_one]); omega)
      | exact board_eq (by (try simp only [wRI, Nat.pow_zero, Nat.div_one]); omega) (by (try simp only [wRI, Nat.pow_zero, Nat.div_one]); omega))))

theorem bext (d : Reg) (a : Reg) (len : BitVec 7) (pos : BitVec 6) : Statement (.bext d a len pos) := by
  intro hw _
  simp only [Instr.wf, Bool.and_eq_true, decide_eq_true_eq] at hw
  have hs := hw
  have := d.isLt; have := a.isLt; have := len.isLt; have := pos.isLt
  have key : ∀ n w2, decodeLong 0x23 n w2 = okIf (fBits n 0 14 == 0 && fBits w2 13 19 == 0 && 1 ≤ fBits w2 6 7 && fBits w2 6 7 ≤ 64 && fBits w2 0 6 + fBits w2 6 7 ≤ 64) (.bext (fD n) (fA n) (BitVec.ofNat 7 (w2 / 2 ^ 6)) (BitVec.ofNat 6 w2)) := fun _ _ => rfl
  exact long (op := 0x23) (by (try simp only [fBits, wR3, Nat.pow_zero, Nat.div_one]); omega) (by (try simp only [fBits, wR3, Nat.pow_zero, Nat.div_one]); omega) (by (try simp only [fBits, wR3, Nat.pow_zero, Nat.div_one]); omega) (fun _ _ _ => rfl) ((key _ _).trans
    (okIf_eq (by
    (repeat' with_reducible apply and_t) <;> first
      | (simp only [fX, fFlag, fBits, wR3, Nat.pow_zero, Nat.div_one, beq_iff_eq]; omega)
      | (apply decide_eq_true; simp only [fBits, wR3, Nat.pow_zero, Nat.div_one]; omega)
      | exact hs
      | exact hs.1
      | exact hs.2
      | exact hs.1.1
      | exact hs.1.2
      | exact or_r hs
      | (rw [flag_eq (b := w) (by simp only [wR3, Nat.pow_zero, Nat.div_one]; omega)]; exact hs)
      | (rcases hs with h | h
         · exact or_l h
         · exact or_r (by simp only [fBits, wR3, Nat.pow_zero, Nat.div_one, beq_iff_eq]; omega))) (by
    congr 1 <;> first
      | rfl
      | exact bv_eq (by (try simp only [wR3, Nat.pow_zero, Nat.div_one]); omega)
      | exact pm_eq (by (try simp only [wR3, Nat.pow_zero, Nat.div_one]); omega) (by (try simp only [wR3, Nat.pow_zero, Nat.div_one]); omega)
      | exact flag_eq (by (try simp only [wR3, Nat.pow_zero, Nat.div_one]); omega)
      | exact bob_code (by (try simp only [wR3, Nat.pow_zero, Nat.div_one]); omega)
      | exact board_eq (by (try simp only [wR3, Nat.pow_zero, Nat.div_one]); omega) (by (try simp only [wR3, Nat.pow_zero, Nat.div_one]); omega))))

theorem bins (d : Reg) (a : Reg) (len : BitVec 7) (pos : BitVec 6) : Statement (.bins d a len pos) := by
  intro hw _
  simp only [Instr.wf, Bool.and_eq_true, decide_eq_true_eq] at hw
  have hs := hw
  have := d.isLt; have := a.isLt; have := len.isLt; have := pos.isLt
  have key : ∀ n w2, decodeLong 0x24 n w2 = okIf (fBits n 0 14 == 0 && fBits w2 13 19 == 0 && 1 ≤ fBits w2 6 7 && fBits w2 6 7 ≤ 64 && fBits w2 0 6 + fBits w2 6 7 ≤ 64) (.bins (fD n) (fA n) (BitVec.ofNat 7 (w2 / 2 ^ 6)) (BitVec.ofNat 6 w2)) := fun _ _ => rfl
  exact long (op := 0x24) (by (try simp only [fBits, wR3, Nat.pow_zero, Nat.div_one]); omega) (by (try simp only [fBits, wR3, Nat.pow_zero, Nat.div_one]); omega) (by (try simp only [fBits, wR3, Nat.pow_zero, Nat.div_one]); omega) (fun _ _ _ => rfl) ((key _ _).trans
    (okIf_eq (by
    (repeat' with_reducible apply and_t) <;> first
      | (simp only [fX, fFlag, fBits, wR3, Nat.pow_zero, Nat.div_one, beq_iff_eq]; omega)
      | (apply decide_eq_true; simp only [fBits, wR3, Nat.pow_zero, Nat.div_one]; omega)
      | exact hs
      | exact hs.1
      | exact hs.2
      | exact hs.1.1
      | exact hs.1.2
      | exact or_r hs
      | (rw [flag_eq (b := w) (by simp only [wR3, Nat.pow_zero, Nat.div_one]; omega)]; exact hs)
      | (rcases hs with h | h
         · exact or_l h
         · exact or_r (by simp only [fBits, wR3, Nat.pow_zero, Nat.div_one, beq_iff_eq]; omega))) (by
    congr 1 <;> first
      | rfl
      | exact bv_eq (by (try simp only [wR3, Nat.pow_zero, Nat.div_one]); omega)
      | exact pm_eq (by (try simp only [wR3, Nat.pow_zero, Nat.div_one]); omega) (by (try simp only [wR3, Nat.pow_zero, Nat.div_one]); omega)
      | exact flag_eq (by (try simp only [wR3, Nat.pow_zero, Nat.div_one]); omega)
      | exact bob_code (by (try simp only [wR3, Nat.pow_zero, Nat.div_one]); omega)
      | exact board_eq (by (try simp only [wR3, Nat.pow_zero, Nat.div_one]); omega) (by (try simp only [wR3, Nat.pow_zero, Nat.div_one]); omega))))

theorem bc (cond : Cond) (a : Reg) (b : Reg) (target : CodePos) : Statement (.bc cond a b target) := by
  intro hw _
  have := cond_lt cond; have := a.isLt; have := b.isLt; have := target.isLt
  have key : ∀ n w2, decodeLong 0x2b n w2 = okSome (Cond.ofCode (fBits n 19 5)) fun c => if fX n == 0 then dTarget w2 (.bc c (fA n) (fB n)) else .error .reservedField := fun _ _ => rfl
  exact long (op := 0x2b) (by (try simp only [fBits, wR3, Nat.pow_zero, Nat.div_one]); omega) (by (try simp only [fBits, wR3, Nat.pow_zero, Nat.div_one]); omega) (by (try simp only [fBits, wR3, Nat.pow_zero, Nat.div_one]); omega) (fun _ _ _ => rfl) ((key _ _).trans
    (okSome_eq (cond_code (m := cond) (by (try simp only [fBits, wR3, Nat.pow_zero, Nat.div_one]); omega))
    ((if_pos (by
    (repeat' with_reducible apply and_t) <;> first
      | (simp only [fX, fFlag, fBits, wR3, Nat.pow_zero, Nat.div_one, beq_iff_eq]; omega)
      | exact or_l rfl
      | (rw [flag_eq (b := false) (by simp only [wR3, Nat.pow_zero, Nat.div_one, show bit false = 0 from rfl]; omega)]; rfl))).trans
    (okIf_eq (by
    (repeat' with_reducible apply and_t) <;> first
      | (simp only [fX, fFlag, fBits, wR3, Nat.pow_zero, Nat.div_one, beq_iff_eq]; omega)
      | exact or_l rfl
      | (rw [flag_eq (b := false) (by simp only [wR3, Nat.pow_zero, Nat.div_one, show bit false = 0 from rfl]; omega)]; rfl)) (by
    congr 1 <;> first
      | rfl
      | exact bv_eq (by (try simp only [wR3, Nat.pow_zero, Nat.div_one]); omega)
      | exact pm_eq (by (try simp only [wR3, Nat.pow_zero, Nat.div_one]); omega) (by (try simp only [wR3, Nat.pow_zero, Nat.div_one]); omega)
      | exact flag_eq (by (try simp only [wR3, Nat.pow_zero, Nat.div_one]); omega)
      | exact bob_code (by (try simp only [wR3, Nat.pow_zero, Nat.div_one]); omega)
      | exact board_eq (by (try simp only [wR3, Nat.pow_zero, Nat.div_one]); omega) (by (try simp only [wR3, Nat.pow_zero, Nat.div_one]); omega))))))

theorem bci (cond : Cond) (a : Reg) (imm : BitVec 14) (target : CodePos) : Statement (.bci cond a imm target) := by
  intro hw _
  have := cond_lt cond; have := a.isLt; have := imm.isLt; have := target.isLt
  have key : ∀ n w2, decodeLong 0x2c n w2 = okSome (Cond.ofCode (fBits n 19 5)) fun c => dTarget w2 (.bci c (fA n) (fImm n)) := fun _ _ => rfl
  exact long (op := 0x2c) (by (try simp only [fBits, wRI, Nat.pow_zero, Nat.div_one]); omega) (by (try simp only [fBits, wRI, Nat.pow_zero, Nat.div_one]); omega) (by (try simp only [fBits, wRI, Nat.pow_zero, Nat.div_one]); omega) (fun _ _ _ => rfl) ((key _ _).trans
    (okSome_eq (cond_code (m := cond) (by (try simp only [fBits, wRI, Nat.pow_zero, Nat.div_one]); omega))
    (okIf_eq (by
    (repeat' with_reducible apply and_t) <;> first
      | (simp only [fX, fFlag, fBits, wRI, Nat.pow_zero, Nat.div_one, beq_iff_eq]; omega)
      | exact or_l rfl
      | (rw [flag_eq (b := false) (by simp only [wRI, Nat.pow_zero, Nat.div_one, show bit false = 0 from rfl]; omega)]; rfl)) (by
    congr 1 <;> first
      | rfl
      | exact bv_eq (by (try simp only [wRI, Nat.pow_zero, Nat.div_one]); omega)
      | exact pm_eq (by (try simp only [wRI, Nat.pow_zero, Nat.div_one]); omega) (by (try simp only [wRI, Nat.pow_zero, Nat.div_one]); omega)
      | exact flag_eq (by (try simp only [wRI, Nat.pow_zero, Nat.div_one]); omega)
      | exact bob_code (by (try simp only [wRI, Nat.pow_zero, Nat.div_one]); omega)
      | exact board_eq (by (try simp only [wRI, Nat.pow_zero, Nat.div_one]); omega) (by (try simp only [wRI, Nat.pow_zero, Nat.div_one]); omega)))))

theorem loop (a : Reg) (last : CodePos) : Statement (.loop a last) := by
  intro hw _
  have := a.isLt; have := last.isLt
  have key : ∀ n w2, decodeLong 0x2d n w2 = if fBits n 19 5 == 0 && fBits n 0 14 == 0 then dTarget w2 (.loop (fA n)) else .error .reservedField := fun _ _ => rfl
  exact long (op := 0x2d) (by (try simp only [fBits, wRI, Nat.pow_zero, Nat.div_one]); omega) (by (try simp only [fBits, wRI, Nat.pow_zero, Nat.div_one]); omega) (by (try simp only [fBits, wRI, Nat.pow_zero, Nat.div_one]); omega) (fun _ _ _ => rfl) ((key _ _).trans
    ((if_pos (by
    (repeat' with_reducible apply and_t) <;> first
      | (simp only [fX, fFlag, fBits, wRI, Nat.pow_zero, Nat.div_one, beq_iff_eq]; omega)
      | exact or_l rfl
      | (rw [flag_eq (b := false) (by simp only [wRI, Nat.pow_zero, Nat.div_one, show bit false = 0 from rfl]; omega)]; rfl))).trans
    (okIf_eq (by
    (repeat' with_reducible apply and_t) <;> first
      | (simp only [fX, fFlag, fBits, wRI, Nat.pow_zero, Nat.div_one, beq_iff_eq]; omega)
      | exact or_l rfl
      | (rw [flag_eq (b := false) (by simp only [wRI, Nat.pow_zero, Nat.div_one, show bit false = 0 from rfl]; omega)]; rfl)) (by
    congr 1 <;> first
      | rfl
      | exact bv_eq (by (try simp only [wRI, Nat.pow_zero, Nat.div_one]); omega)
      | exact pm_eq (by (try simp only [wRI, Nat.pow_zero, Nat.div_one]); omega) (by (try simp only [wRI, Nat.pow_zero, Nat.div_one]); omega)
      | exact flag_eq (by (try simp only [wRI, Nat.pow_zero, Nat.div_one]); omega)
      | exact bob_code (by (try simp only [wRI, Nat.pow_zero, Nat.div_one]); omega)
      | exact board_eq (by (try simp only [wRI, Nat.pow_zero, Nat.div_one]); omega) (by (try simp only [wRI, Nat.pow_zero, Nat.div_one]); omega)))))

theorem csrr (d : Reg) (n : BitVec 12) : Statement (.csrr d n) := by
  intro hw _
  have := d.isLt; have := n.isLt
  have key : ∀ n w, decodeAt 0x39 n w none = okIf (fBits n 12 2 == 0 && fBits n 14 5 == 0) (.csrr (fD n) (BitVec.ofNat 12 n)) := fun _ _ => rfl
  exact short (op := 0x39) (by (try simp only [fBits, wRI, Nat.pow_zero, Nat.div_one]); omega) (by (try simp only [fBits, wRI, Nat.pow_zero, Nat.div_one]); omega) ((key _ _).trans
    (okIf_eq (by
    (repeat' with_reducible apply and_t) <;> first
      | (simp only [fX, fFlag, fBits, wRI, Nat.pow_zero, Nat.div_one, beq_iff_eq]; omega)
      | exact or_l rfl
      | (rw [flag_eq (b := false) (by simp only [wRI, Nat.pow_zero, Nat.div_one, show bit false = 0 from rfl]; omega)]; rfl)) (by
    congr 1 <;> first
      | rfl
      | exact bv_eq (by (try simp only [wRI, Nat.pow_zero, Nat.div_one]); omega)
      | exact pm_eq (by (try simp only [wRI, Nat.pow_zero, Nat.div_one]); omega) (by (try simp only [wRI, Nat.pow_zero, Nat.div_one]); omega)
      | exact flag_eq (by (try simp only [wRI, Nat.pow_zero, Nat.div_one]); omega)
      | exact bob_code (by (try simp only [wRI, Nat.pow_zero, Nat.div_one]); omega)
      | exact board_eq (by (try simp only [wRI, Nat.pow_zero, Nat.div_one]); omega) (by (try simp only [wRI, Nat.pow_zero, Nat.div_one]); omega))))

theorem csrx (d : Reg) (a : Reg) (n : BitVec 12) : Statement (.csrx d a n) := by
  intro hw _
  have := d.isLt; have := a.isLt; have := n.isLt
  have key : ∀ n w, decodeAt 0x3b n w none = okIf (fBits n 12 2 == 0) (.csrx (fD n) (fA n) (BitVec.ofNat 12 n)) := fun _ _ => rfl
  exact short (op := 0x3b) (by (try simp only [fBits, wRI, Nat.pow_zero, Nat.div_one]); omega) (by (try simp only [fBits, wRI, Nat.pow_zero, Nat.div_one]); omega) ((key _ _).trans
    (okIf_eq (by
    (repeat' with_reducible apply and_t) <;> first
      | (simp only [fX, fFlag, fBits, wRI, Nat.pow_zero, Nat.div_one, beq_iff_eq]; omega)
      | exact or_l rfl
      | (rw [flag_eq (b := false) (by simp only [wRI, Nat.pow_zero, Nat.div_one, show bit false = 0 from rfl]; omega)]; rfl)) (by
    congr 1 <;> first
      | rfl
      | exact bv_eq (by (try simp only [wRI, Nat.pow_zero, Nat.div_one]); omega)
      | exact pm_eq (by (try simp only [wRI, Nat.pow_zero, Nat.div_one]); omega) (by (try simp only [wRI, Nat.pow_zero, Nat.div_one]); omega)
      | exact flag_eq (by (try simp only [wRI, Nat.pow_zero, Nat.div_one]); omega)
      | exact bob_code (by (try simp only [wRI, Nat.pow_zero, Nat.div_one]); omega)
      | exact board_eq (by (try simp only [wRI, Nat.pow_zero, Nat.div_one]); omega) (by (try simp only [wRI, Nat.pow_zero, Nat.div_one]); omega))))

theorem trap (code : BitVec 14) : Statement (.trap code) := by
  intro hw _
  have := code.isLt
  have key : ∀ n w, decodeAt 0x3c n w none = okIf (fBits n 14 10 == 0) (.trap (fImm n)) := fun _ _ => rfl
  exact short (op := 0x3c) (by (try simp only [fBits, wRI, Nat.pow_zero, Nat.div_one]); omega) (by (try simp only [fBits, wRI, Nat.pow_zero, Nat.div_one]); omega) ((key _ _).trans
    (okIf_eq (by
    (repeat' with_reducible apply and_t) <;> first
      | (simp only [fX, fFlag, fBits, wRI, Nat.pow_zero, Nat.div_one, beq_iff_eq]; omega)
      | exact or_l rfl
      | (rw [flag_eq (b := false) (by simp only [wRI, Nat.pow_zero, Nat.div_one, show bit false = 0 from rfl]; omega)]; rfl)) (by
    congr 1 <;> first
      | rfl
      | exact bv_eq (by (try simp only [wRI, Nat.pow_zero, Nat.div_one]); omega)
      | exact pm_eq (by (try simp only [wRI, Nat.pow_zero, Nat.div_one]); omega) (by (try simp only [wRI, Nat.pow_zero, Nat.div_one]); omega)
      | exact flag_eq (by (try simp only [wRI, Nat.pow_zero, Nat.div_one]); omega)
      | exact bob_code (by (try simp only [wRI, Nat.pow_zero, Nat.div_one]); omega)
      | exact board_eq (by (try simp only [wRI, Nat.pow_zero, Nat.div_one]); omega) (by (try simp only [wRI, Nat.pow_zero, Nat.div_one]); omega))))

theorem fork (stream : Stream) (a : Reg) (b : Reg) (target : CodePos) : Statement (.fork stream a b target) := by
  intro hw _
  simp only [Instr.wf, Bool.and_eq_true, decide_eq_true_eq] at hw
  have hs := hw
  have := stream_lt stream; have := a.isLt; have := b.isLt; have := target.isLt
  have key : ∀ n w2, decodeLong 0x40 n w2 = okSome (Stream.ofCode (fBits n 19 5)) fun st => if st != .s && fX n == 0 then dTarget w2 (.fork st (fA n) (fB n)) else .error .reservedField := fun _ _ => rfl
  exact long (op := 0x40) (by (try simp only [fBits, wR3, Nat.pow_zero, Nat.div_one]); omega) (by (try simp only [fBits, wR3, Nat.pow_zero, Nat.div_one]); omega) (by (try simp only [fBits, wR3, Nat.pow_zero, Nat.div_one]); omega) (fun _ _ _ => rfl) ((key _ _).trans
    (okSome_eq (stream_code (m := stream) (by (try simp only [fBits, wR3, Nat.pow_zero, Nat.div_one]); omega))
    ((if_pos (by
    (repeat' with_reducible apply and_t) <;> first
      | (simp only [fX, fFlag, fBits, wR3, Nat.pow_zero, Nat.div_one, beq_iff_eq]; omega)
      | (apply decide_eq_true; simp only [fBits, wR3, Nat.pow_zero, Nat.div_one]; omega)
      | exact hs
      | exact hs.1
      | exact hs.2
      | exact hs.1.1
      | exact hs.1.2
      | exact or_r hs
      | (rw [flag_eq (b := w) (by simp only [wR3, Nat.pow_zero, Nat.div_one]; omega)]; exact hs)
      | (rcases hs with h | h
         · exact or_l h
         · exact or_r (by simp only [fBits, wR3, Nat.pow_zero, Nat.div_one, beq_iff_eq]; omega)))).trans
    (okIf_eq (by
    (repeat' with_reducible apply and_t) <;> first
      | (simp only [fX, fFlag, fBits, wR3, Nat.pow_zero, Nat.div_one, beq_iff_eq]; omega)
      | (apply decide_eq_true; simp only [fBits, wR3, Nat.pow_zero, Nat.div_one]; omega)
      | exact hs
      | exact hs.1
      | exact hs.2
      | exact hs.1.1
      | exact hs.1.2
      | exact or_r hs
      | (rw [flag_eq (b := w) (by simp only [wR3, Nat.pow_zero, Nat.div_one]; omega)]; exact hs)
      | (rcases hs with h | h
         · exact or_l h
         · exact or_r (by simp only [fBits, wR3, Nat.pow_zero, Nat.div_one, beq_iff_eq]; omega))) (by
    congr 1 <;> first
      | rfl
      | exact bv_eq (by (try simp only [wR3, Nat.pow_zero, Nat.div_one]); omega)
      | exact pm_eq (by (try simp only [wR3, Nat.pow_zero, Nat.div_one]); omega) (by (try simp only [wR3, Nat.pow_zero, Nat.div_one]); omega)
      | exact flag_eq (by (try simp only [wR3, Nat.pow_zero, Nat.div_one]); omega)
      | exact bob_code (by (try simp only [wR3, Nat.pow_zero, Nat.div_one]); omega)
      | exact board_eq (by (try simp only [wR3, Nat.pow_zero, Nat.div_one]); omega) (by (try simp only [wR3, Nat.pow_zero, Nat.div_one]); omega))))))

theorem join (m : Bool) (v : Bool) (c : Bool) : Statement (.join m v c) := by
  intro hw _
  simp only [Instr.wf, Bool.and_eq_true, decide_eq_true_eq] at hw
  have hs := hw
  have := bit_lt m; have := bit_lt v; have := bit_lt c
  have key : ∀ n w, decodeAt 0x41 n w none = okIf (fBits n 4 20 == 0 && fBits n 0 1 == 0) (.join (fFlag n 3) (fFlag n 2) (fFlag n 1)) := fun _ _ => rfl
  exact short (op := 0x41) (by (try simp only [fBits, wR3, Nat.pow_zero, Nat.div_one]); omega) (by (try simp only [fBits, wR3, Nat.pow_zero, Nat.div_one]); omega) ((key _ _).trans
    (okIf_eq (by
    (repeat' with_reducible apply and_t) <;> first
      | (simp only [fX, fFlag, fBits, wR3, Nat.pow_zero, Nat.div_one, beq_iff_eq]; omega)
      | (apply decide_eq_true; simp only [fBits, wR3, Nat.pow_zero, Nat.div_one]; omega)
      | exact hs
      | exact hs.1
      | exact hs.2
      | exact hs.1.1
      | exact hs.1.2
      | exact or_r hs
      | (rw [flag_eq (b := w) (by simp only [wR3, Nat.pow_zero, Nat.div_one]; omega)]; exact hs)
      | (rcases hs with h | h
         · exact or_l h
         · exact or_r (by simp only [fBits, wR3, Nat.pow_zero, Nat.div_one, beq_iff_eq]; omega))) (by
    congr 1 <;> first
      | rfl
      | exact bv_eq (by (try simp only [wR3, Nat.pow_zero, Nat.div_one]); omega)
      | exact pm_eq (by (try simp only [wR3, Nat.pow_zero, Nat.div_one]); omega) (by (try simp only [wR3, Nat.pow_zero, Nat.div_one]); omega)
      | exact flag_eq (by (try simp only [wR3, Nat.pow_zero, Nat.div_one]); omega)
      | exact bob_code (by (try simp only [wR3, Nat.pow_zero, Nat.div_one]); omega)
      | exact board_eq (by (try simp only [wR3, Nat.pow_zero, Nat.div_one]); omega) (by (try simp only [wR3, Nat.pow_zero, Nat.div_one]); omega))))

theorem catchEv (cls : EvClass) (handler : CodePos) : Statement (.catchEv cls handler) := by
  intro hw _
  have := class_lt cls; have := handler.isLt
  have key : ∀ n w2, decodeLong 0x43 n w2 = okSome (EvClass.ofCode (fBits n 19 5)) fun c => if fBits n 0 19 == 0 then dTarget w2 (.catchEv c) else .error .reservedField := fun _ _ => rfl
  exact long (op := 0x43) (by (try simp only [fBits, wR3, Nat.pow_zero, Nat.div_one]); omega) (by (try simp only [fBits, wR3, Nat.pow_zero, Nat.div_one]); omega) (by (try simp only [fBits, wR3, Nat.pow_zero, Nat.div_one]); omega) (fun _ _ _ => rfl) ((key _ _).trans
    (okSome_eq (class_code (m := cls) (by (try simp only [fBits, wR3, Nat.pow_zero, Nat.div_one]); omega))
    ((if_pos (by
    (repeat' with_reducible apply and_t) <;> first
      | (simp only [fX, fFlag, fBits, wR3, Nat.pow_zero, Nat.div_one, beq_iff_eq]; omega)
      | exact or_l rfl
      | (rw [flag_eq (b := false) (by simp only [wR3, Nat.pow_zero, Nat.div_one, show bit false = 0 from rfl]; omega)]; rfl))).trans
    (okIf_eq (by
    (repeat' with_reducible apply and_t) <;> first
      | (simp only [fX, fFlag, fBits, wR3, Nat.pow_zero, Nat.div_one, beq_iff_eq]; omega)
      | exact or_l rfl
      | (rw [flag_eq (b := false) (by simp only [wR3, Nat.pow_zero, Nat.div_one, show bit false = 0 from rfl]; omega)]; rfl)) (by
    congr 1 <;> first
      | rfl
      | exact bv_eq (by (try simp only [wR3, Nat.pow_zero, Nat.div_one]); omega)
      | exact pm_eq (by (try simp only [wR3, Nat.pow_zero, Nat.div_one]); omega) (by (try simp only [wR3, Nat.pow_zero, Nat.div_one]); omega)
      | exact flag_eq (by (try simp only [wR3, Nat.pow_zero, Nat.div_one]); omega)
      | exact bob_code (by (try simp only [wR3, Nat.pow_zero, Nat.div_one]); omega)
      | exact board_eq (by (try simp only [wR3, Nat.pow_zero, Nat.div_one]); omega) (by (try simp only [wR3, Nat.pow_zero, Nat.div_one]); omega))))))

theorem evmask (d : Reg) (mask : BitVec 4) : Statement (.evmask d mask) := by
  intro hw _
  have := d.isLt; have := mask.isLt
  have key : ∀ n w, decodeAt 0x45 n w none = okIf (fBits n 4 15 == 0) (.evmask (fD n) (BitVec.ofNat 4 n)) := fun _ _ => rfl
  exact short (op := 0x45) (by (try simp only [fBits, wRI, Nat.pow_zero, Nat.div_one]); omega) (by (try simp only [fBits, wRI, Nat.pow_zero, Nat.div_one]); omega) ((key _ _).trans
    (okIf_eq (by
    (repeat' with_reducible apply and_t) <;> first
      | (simp only [fX, fFlag, fBits, wRI, Nat.pow_zero, Nat.div_one, beq_iff_eq]; omega)
      | exact or_l rfl
      | (rw [flag_eq (b := false) (by simp only [wRI, Nat.pow_zero, Nat.div_one, show bit false = 0 from rfl]; omega)]; rfl)) (by
    congr 1 <;> first
      | rfl
      | exact bv_eq (by (try simp only [wRI, Nat.pow_zero, Nat.div_one]); omega)
      | exact pm_eq (by (try simp only [wRI, Nat.pow_zero, Nat.div_one]); omega) (by (try simp only [wRI, Nat.pow_zero, Nat.div_one]); omega)
      | exact flag_eq (by (try simp only [wRI, Nat.pow_zero, Nat.div_one]); omega)
      | exact bob_code (by (try simp only [wRI, Nat.pow_zero, Nat.div_one]); omega)
      | exact board_eq (by (try simp only [wRI, Nat.pow_zero, Nat.div_one]); omega) (by (try simp only [wRI, Nat.pow_zero, Nat.div_one]); omega))))

theorem qfence (queues : BitVec 4) : Statement (.qfence queues) := by
  intro hw _
  simp only [Instr.wf, Bool.and_eq_true, decide_eq_true_eq] at hw
  have hs := hw
  have := queues.isLt
  have key : ∀ n w, decodeAt 0x48 n w none = okIf (fBits n 4 20 == 0) (.qfence (BitVec.ofNat 4 n)) := fun _ _ => rfl
  exact short (op := 0x48) (by (try simp only [fBits, wR3, Nat.pow_zero, Nat.div_one]); omega) (by (try simp only [fBits, wR3, Nat.pow_zero, Nat.div_one]); omega) ((key _ _).trans
    (okIf_eq (by
    (repeat' with_reducible apply and_t) <;> first
      | (simp only [fX, fFlag, fBits, wR3, Nat.pow_zero, Nat.div_one, beq_iff_eq]; omega)
      | (apply decide_eq_true; simp only [fBits, wR3, Nat.pow_zero, Nat.div_one]; omega)
      | exact hs
      | exact hs.1
      | exact hs.2
      | exact hs.1.1
      | exact hs.1.2
      | exact or_r hs
      | (rw [flag_eq (b := w) (by simp only [wR3, Nat.pow_zero, Nat.div_one]; omega)]; exact hs)
      | (rcases hs with h | h
         · exact or_l h
         · exact or_r (by simp only [fBits, wR3, Nat.pow_zero, Nat.div_one, beq_iff_eq]; omega))) (by
    congr 1 <;> first
      | rfl
      | exact bv_eq (by (try simp only [wR3, Nat.pow_zero, Nat.div_one]); omega)
      | exact pm_eq (by (try simp only [wR3, Nat.pow_zero, Nat.div_one]); omega) (by (try simp only [wR3, Nat.pow_zero, Nat.div_one]); omega)
      | exact flag_eq (by (try simp only [wR3, Nat.pow_zero, Nat.div_one]); omega)
      | exact bob_code (by (try simp only [wR3, Nat.pow_zero, Nat.div_one]); omega)
      | exact board_eq (by (try simp only [wR3, Nat.pow_zero, Nat.div_one]); omega) (by (try simp only [wR3, Nat.pow_zero, Nat.div_one]); omega))))

theorem fence (kind : FenceKind) (scope : Scope) : Statement (.fence kind scope) := by
  intro hw _
  have := fence_lt kind; have := scope_lt scope
  have key : ∀ n w, decodeAt 0x50 n w none = okSome (FenceKind.ofCode (fBits n 3 2)) fun k => okSome (Scope.ofCode (fBits n 0 3)) fun sc => okIf (fBits n 5 19 == 0) (.fence k sc) := fun _ _ => rfl
  exact short (op := 0x50) (by (try simp only [fBits, wR3, Nat.pow_zero, Nat.div_one]); omega) (by (try simp only [fBits, wR3, Nat.pow_zero, Nat.div_one]); omega) ((key _ _).trans
    (okSome_eq (fence_code (m := kind) (by (try simp only [fBits, wR3, Nat.pow_zero, Nat.div_one]); omega))
    (okSome_eq (scope_code (m := scope) (by (try simp only [fBits, wR3, Nat.pow_zero, Nat.div_one]); omega))
    (okIf_eq (by
    (repeat' with_reducible apply and_t) <;> first
      | (simp only [fX, fFlag, fBits, wR3, Nat.pow_zero, Nat.div_one, beq_iff_eq]; omega)
      | exact or_l rfl
      | (rw [flag_eq (b := false) (by simp only [wR3, Nat.pow_zero, Nat.div_one, show bit false = 0 from rfl]; omega)]; rfl)) (by
    congr 1 <;> first
      | rfl
      | exact bv_eq (by (try simp only [wR3, Nat.pow_zero, Nat.div_one]); omega)
      | exact pm_eq (by (try simp only [wR3, Nat.pow_zero, Nat.div_one]); omega) (by (try simp only [wR3, Nat.pow_zero, Nat.div_one]); omega)
      | exact flag_eq (by (try simp only [wR3, Nat.pow_zero, Nat.div_one]); omega)
      | exact bob_code (by (try simp only [wR3, Nat.pow_zero, Nat.div_one]); omega)
      | exact board_eq (by (try simp only [wR3, Nat.pow_zero, Nat.div_one]); omega) (by (try simp only [wR3, Nat.pow_zero, Nat.div_one]); omega))))))

theorem rset (a : Reg) (b : Reg) (k : KIdx) : Statement (.rset a b k) := by
  intro hw _
  have := a.isLt; have := b.isLt; have := k.isLt
  have key : ∀ n w, decodeAt 0x55 n w none = okIf (fBits n 19 5 == 0 && fBits n 4 5 == 0) (.rset (fA n) (fB n) (BitVec.ofNat 4 n)) := fun _ _ => rfl
  exact short (op := 0x55) (by (try simp only [fBits, wR3, Nat.pow_zero, Nat.div_one]); omega) (by (try simp only [fBits, wR3, Nat.pow_zero, Nat.div_one]); omega) ((key _ _).trans
    (okIf_eq (by
    (repeat' with_reducible apply and_t) <;> first
      | (simp only [fX, fFlag, fBits, wR3, Nat.pow_zero, Nat.div_one, beq_iff_eq]; omega)
      | exact or_l rfl
      | (rw [flag_eq (b := false) (by simp only [wR3, Nat.pow_zero, Nat.div_one, show bit false = 0 from rfl]; omega)]; rfl)) (by
    congr 1 <;> first
      | rfl
      | exact bv_eq (by (try simp only [wR3, Nat.pow_zero, Nat.div_one]); omega)
      | exact pm_eq (by (try simp only [wR3, Nat.pow_zero, Nat.div_one]); omega) (by (try simp only [wR3, Nat.pow_zero, Nat.div_one]); omega)
      | exact flag_eq (by (try simp only [wR3, Nat.pow_zero, Nat.div_one]); omega)
      | exact bob_code (by (try simp only [wR3, Nat.pow_zero, Nat.div_one]); omega)
      | exact board_eq (by (try simp only [wR3, Nat.pow_zero, Nat.div_one]); omega) (by (try simp only [wR3, Nat.pow_zero, Nat.div_one]); omega))))

theorem hgive (a : Reg) (target : BitVec 2) : Statement (.hgive a target) := by
  intro hw _
  have := a.isLt; have := target.isLt
  have key : ∀ n w, decodeAt 0x57 n w none = okIf (fBits n 19 5 == 0 && fBits n 2 12 == 0) (.hgive (fA n) (BitVec.ofNat 2 n)) := fun _ _ => rfl
  exact short (op := 0x57) (by (try simp only [fBits, wR3, Nat.pow_zero, Nat.div_one]); omega) (by (try simp only [fBits, wR3, Nat.pow_zero, Nat.div_one]); omega) ((key _ _).trans
    (okIf_eq (by
    (repeat' with_reducible apply and_t) <;> first
      | (simp only [fX, fFlag, fBits, wR3, Nat.pow_zero, Nat.div_one, beq_iff_eq]; omega)
      | exact or_l rfl
      | (rw [flag_eq (b := false) (by simp only [wR3, Nat.pow_zero, Nat.div_one, show bit false = 0 from rfl]; omega)]; rfl)) (by
    congr 1 <;> first
      | rfl
      | exact bv_eq (by (try simp only [wR3, Nat.pow_zero, Nat.div_one]); omega)
      | exact pm_eq (by (try simp only [wR3, Nat.pow_zero, Nat.div_one]); omega) (by (try simp only [wR3, Nat.pow_zero, Nat.div_one]); omega)
      | exact flag_eq (by (try simp only [wR3, Nat.pow_zero, Nat.div_one]); omega)
      | exact bob_code (by (try simp only [wR3, Nat.pow_zero, Nat.div_one]); omega)
      | exact board_eq (by (try simp only [wR3, Nat.pow_zero, Nat.div_one]); omega) (by (try simp only [wR3, Nat.pow_zero, Nat.div_one]); omega))))

theorem bar (scope : Scope) : Statement (.bar scope) := by
  intro hw _
  have := scope_lt scope
  have key : ∀ n w, decodeAt 0x59 n w none = okSome (Scope.ofCode (fBits n 0 3)) fun sc => okIf (fBits n 3 21 == 0) (.bar sc) := fun _ _ => rfl
  exact short (op := 0x59) (by (try simp only [fBits, wR3, Nat.pow_zero, Nat.div_one]); omega) (by (try simp only [fBits, wR3, Nat.pow_zero, Nat.div_one]); omega) ((key _ _).trans
    (okSome_eq (scope_code (m := scope) (by (try simp only [fBits, wR3, Nat.pow_zero, Nat.div_one]); omega))
    (okIf_eq (by
    (repeat' with_reducible apply and_t) <;> first
      | (simp only [fX, fFlag, fBits, wR3, Nat.pow_zero, Nat.div_one, beq_iff_eq]; omega)
      | exact or_l rfl
      | (rw [flag_eq (b := false) (by simp only [wR3, Nat.pow_zero, Nat.div_one, show bit false = 0 from rfl]; omega)]; rfl)) (by
    congr 1 <;> first
      | rfl
      | exact bv_eq (by (try simp only [wR3, Nat.pow_zero, Nat.div_one]); omega)
      | exact pm_eq (by (try simp only [wR3, Nat.pow_zero, Nat.div_one]); omega) (by (try simp only [wR3, Nat.pow_zero, Nat.div_one]); omega)
      | exact flag_eq (by (try simp only [wR3, Nat.pow_zero, Nat.div_one]); omega)
      | exact bob_code (by (try simp only [wR3, Nat.pow_zero, Nat.div_one]); omega)
      | exact board_eq (by (try simp only [wR3, Nat.pow_zero, Nat.div_one]); omega) (by (try simp only [wR3, Nat.pow_zero, Nat.div_one]); omega)))))

theorem bara (d : Reg) (scope : Scope) : Statement (.bara d scope) := by
  intro hw _
  have := d.isLt; have := scope_lt scope
  have key : ∀ n w, decodeAt 0x5a n w none = okSome (Scope.ofCode (fBits n 0 3)) fun sc => okIf (fBits n 3 16 == 0) (.bara (fD n) sc) := fun _ _ => rfl
  exact short (op := 0x5a) (by (try simp only [fBits, wR3, Nat.pow_zero, Nat.div_one]); omega) (by (try simp only [fBits, wR3, Nat.pow_zero, Nat.div_one]); omega) ((key _ _).trans
    (okSome_eq (scope_code (m := scope) (by (try simp only [fBits, wR3, Nat.pow_zero, Nat.div_one]); omega))
    (okIf_eq (by
    (repeat' with_reducible apply and_t) <;> first
      | (simp only [fX, fFlag, fBits, wR3, Nat.pow_zero, Nat.div_one, beq_iff_eq]; omega)
      | exact or_l rfl
      | (rw [flag_eq (b := false) (by simp only [wR3, Nat.pow_zero, Nat.div_one, show bit false = 0 from rfl]; omega)]; rfl)) (by
    congr 1 <;> first
      | rfl
      | exact bv_eq (by (try simp only [wR3, Nat.pow_zero, Nat.div_one]); omega)
      | exact pm_eq (by (try simp only [wR3, Nat.pow_zero, Nat.div_one]); omega) (by (try simp only [wR3, Nat.pow_zero, Nat.div_one]); omega)
      | exact flag_eq (by (try simp only [wR3, Nat.pow_zero, Nat.div_one]); omega)
      | exact bob_code (by (try simp only [wR3, Nat.pow_zero, Nat.div_one]); omega)
      | exact board_eq (by (try simp only [wR3, Nat.pow_zero, Nat.div_one]); omega) (by (try simp only [wR3, Nat.pow_zero, Nat.div_one]); omega)))))

theorem bart (d : Reg) (a : Reg) (scope : Scope) : Statement (.bart d a scope) := by
  intro hw _
  have := d.isLt; have := a.isLt; have := scope_lt scope
  have key : ∀ n w, decodeAt 0x5b n w none = okSome (Scope.ofCode (fBits n 0 3)) fun sc => okIf (fBits n 3 11 == 0) (.bart (fD n) (fA n) sc) := fun _ _ => rfl
  exact short (op := 0x5b) (by (try simp only [fBits, wR3, Nat.pow_zero, Nat.div_one]); omega) (by (try simp only [fBits, wR3, Nat.pow_zero, Nat.div_one]); omega) ((key _ _).trans
    (okSome_eq (scope_code (m := scope) (by (try simp only [fBits, wR3, Nat.pow_zero, Nat.div_one]); omega))
    (okIf_eq (by
    (repeat' with_reducible apply and_t) <;> first
      | (simp only [fX, fFlag, fBits, wR3, Nat.pow_zero, Nat.div_one, beq_iff_eq]; omega)
      | exact or_l rfl
      | (rw [flag_eq (b := false) (by simp only [wR3, Nat.pow_zero, Nat.div_one, show bit false = 0 from rfl]; omega)]; rfl)) (by
    congr 1 <;> first
      | rfl
      | exact bv_eq (by (try simp only [wR3, Nat.pow_zero, Nat.div_one]); omega)
      | exact pm_eq (by (try simp only [wR3, Nat.pow_zero, Nat.div_one]); omega) (by (try simp only [wR3, Nat.pow_zero, Nat.div_one]); omega)
      | exact flag_eq (by (try simp only [wR3, Nat.pow_zero, Nat.div_one]); omega)
      | exact bob_code (by (try simp only [wR3, Nat.pow_zero, Nat.div_one]); omega)
      | exact board_eq (by (try simp only [wR3, Nat.pow_zero, Nat.div_one]); omega) (by (try simp only [wR3, Nat.pow_zero, Nat.div_one]); omega)))))

theorem aop (d : Reg) (a : Reg) (b : Reg) (op : AtomOp) (order : AOrder) (scope : Scope) (w : Bool) : Statement (.aop d a b op order scope w) := by
  intro hw _
  simp only [Instr.wf, Bool.and_eq_true, decide_eq_true_eq] at hw
  have hs := hw
  have := d.isLt; have := a.isLt; have := b.isLt; have := aop_lt op; have := order_lt order; have := scope_lt scope; have := bit_lt w
  have key : ∀ n w2, decodeLong 0x60 n w2 = okSome (AtomOp.ofCode (fBits w2 6 4)) fun o => okSome (AOrder.ofCode (fBits w2 4 2)) fun r => okSome (Scope.ofCode (fBits w2 1 3)) fun sc => okIf (fX n == 0 && fBits w2 10 22 == 0 && !(fFlag w2 0 && o.isFloat)) (.aop (fD n) (fA n) (fB n) o r sc (fFlag w2 0)) := fun _ _ => rfl
  exact long (op := 0x60) (by (try simp only [fBits, wR3, Nat.pow_zero, Nat.div_one]); omega) (by (try simp only [fBits, wR3, Nat.pow_zero, Nat.div_one]); omega) (by (try simp only [fBits, wR3, Nat.pow_zero, Nat.div_one]); omega) (fun _ _ _ => rfl) ((key _ _).trans
    (okSome_eq (aop_code (m := op) (by (try simp only [fBits, wR3, Nat.pow_zero, Nat.div_one]); omega))
    (okSome_eq (order_code (m := order) (by (try simp only [fBits, wR3, Nat.pow_zero, Nat.div_one]); omega))
    (okSome_eq (scope_code (m := scope) (by (try simp only [fBits, wR3, Nat.pow_zero, Nat.div_one]); omega))
    (okIf_eq (by
    (repeat' with_reducible apply and_t) <;> first
      | (simp only [fX, fFlag, fBits, wR3, Nat.pow_zero, Nat.div_one, beq_iff_eq]; omega)
      | (apply decide_eq_true; simp only [fBits, wR3, Nat.pow_zero, Nat.div_one]; omega)
      | exact hs
      | exact hs.1
      | exact hs.2
      | exact hs.1.1
      | exact hs.1.2
      | exact or_r hs
      | (rw [flag_eq (b := w) (by simp only [wR3, Nat.pow_zero, Nat.div_one]; omega)]; exact hs)
      | (rcases hs with h | h
         · exact or_l h
         · exact or_r (by simp only [fBits, wR3, Nat.pow_zero, Nat.div_one, beq_iff_eq]; omega))) (by
    congr 1 <;> first
      | rfl
      | exact bv_eq (by (try simp only [wR3, Nat.pow_zero, Nat.div_one]); omega)
      | exact pm_eq (by (try simp only [wR3, Nat.pow_zero, Nat.div_one]); omega) (by (try simp only [wR3, Nat.pow_zero, Nat.div_one]); omega)
      | exact flag_eq (by (try simp only [wR3, Nat.pow_zero, Nat.div_one]); omega)
      | exact bob_code (by (try simp only [wR3, Nat.pow_zero, Nat.div_one]); omega)
      | exact board_eq (by (try simp only [wR3, Nat.pow_zero, Nat.div_one]); omega) (by (try simp only [wR3, Nat.pow_zero, Nat.div_one]); omega)))))))

theorem acas (d : Reg) (a : Reg) (b : Reg) (cmp : Reg) (order : AOrder) (scope : Scope) (w : Bool) : Statement (.acas d a b cmp order scope w) := by
  intro hw _
  have := d.isLt; have := a.isLt; have := b.isLt; have := cmp.isLt; have := order_lt order; have := scope_lt scope; have := bit_lt w
  have key : ∀ n w2, decodeLong 0x61 n w2 = okSome (AOrder.ofCode (fBits w2 4 2)) fun r => okSome (Scope.ofCode (fBits w2 1 3)) fun sc => okIf (fX n == 0 && fBits w2 15 17 == 0 && fBits w2 6 4 == 0) (.acas (fD n) (fA n) (fB n) (BitVec.ofNat 5 (w2 / 2 ^ 10)) r sc (fFlag w2 0)) := fun _ _ => rfl
  exact long (op := 0x61) (by (try simp only [fBits, wR3, Nat.pow_zero, Nat.div_one]); omega) (by (try simp only [fBits, wR3, Nat.pow_zero, Nat.div_one]); omega) (by (try simp only [fBits, wR3, Nat.pow_zero, Nat.div_one]); omega) (fun _ _ _ => rfl) ((key _ _).trans
    (okSome_eq (order_code (m := order) (by (try simp only [fBits, wR3, Nat.pow_zero, Nat.div_one]); omega))
    (okSome_eq (scope_code (m := scope) (by (try simp only [fBits, wR3, Nat.pow_zero, Nat.div_one]); omega))
    (okIf_eq (by
    (repeat' with_reducible apply and_t) <;> first
      | (simp only [fX, fFlag, fBits, wR3, Nat.pow_zero, Nat.div_one, beq_iff_eq]; omega)
      | exact or_l rfl
      | (rw [flag_eq (b := false) (by simp only [wR3, Nat.pow_zero, Nat.div_one, show bit false = 0 from rfl]; omega)]; rfl)) (by
    congr 1 <;> first
      | rfl
      | exact bv_eq (by (try simp only [wR3, Nat.pow_zero, Nat.div_one]); omega)
      | exact pm_eq (by (try simp only [wR3, Nat.pow_zero, Nat.div_one]); omega) (by (try simp only [wR3, Nat.pow_zero, Nat.div_one]); omega)
      | exact flag_eq (by (try simp only [wR3, Nat.pow_zero, Nat.div_one]); omega)
      | exact bob_code (by (try simp only [wR3, Nat.pow_zero, Nat.div_one]); omega)
      | exact board_eq (by (try simp only [wR3, Nat.pow_zero, Nat.div_one]); omega) (by (try simp only [wR3, Nat.pow_zero, Nat.div_one]); omega))))))

theorem bpost (d : Reg) (a : Reg) (b : Reg) (board : BoardRef) (vm : BitVec 3) : Statement (.bpost d a b board vm) := by
  intro hw _
  have := d.isLt; have := a.isLt; have := b.isLt; have := board.index.isLt; have := bit_lt board.viaCap; have := vm.isLt
  have key : ∀ n w2, decodeLong 0x63 n w2 = okIf (fX n == 0 && fBits w2 10 22 == 0) (.bpost (fD n) (fA n) (fB n) (dBoard w2) (BitVec.ofNat 3 w2)) := fun _ _ => rfl
  exact long (op := 0x63) (by (try simp only [fBits, wR3, encBoard, Nat.pow_zero, Nat.div_one]); omega) (by (try simp only [fBits, wR3, encBoard, Nat.pow_zero, Nat.div_one]); omega) (by (try simp only [fBits, wR3, encBoard, Nat.pow_zero, Nat.div_one]); omega) (fun _ _ _ => rfl) ((key _ _).trans
    (okIf_eq (by
    (repeat' with_reducible apply and_t) <;> first
      | (simp only [fX, fFlag, fBits, wR3, encBoard, Nat.pow_zero, Nat.div_one, beq_iff_eq]; omega)
      | exact or_l rfl
      | (rw [flag_eq (b := false) (by simp only [wR3, encBoard, Nat.pow_zero, Nat.div_one, show bit false = 0 from rfl]; omega)]; rfl)) (by
    congr 1 <;> first
      | rfl
      | exact bv_eq (by (try simp only [wR3, encBoard, Nat.pow_zero, Nat.div_one]); omega)
      | exact pm_eq (by (try simp only [wR3, encBoard, Nat.pow_zero, Nat.div_one]); omega) (by (try simp only [wR3, encBoard, Nat.pow_zero, Nat.div_one]); omega)
      | exact flag_eq (by (try simp only [wR3, encBoard, Nat.pow_zero, Nat.div_one]); omega)
      | exact bob_code (by (try simp only [wR3, encBoard, Nat.pow_zero, Nat.div_one]); omega)
      | exact board_eq (by (try simp only [wR3, encBoard, Nat.pow_zero, Nat.div_one]); omega) (by (try simp only [wR3, encBoard, Nat.pow_zero, Nat.div_one]); omega))))

theorem blook (d : Reg) (board : BoardRef) (vm : BitVec 3) : Statement (.blook d board vm) := by
  intro hw _
  have := d.isLt; have := board.index.isLt; have := bit_lt board.viaCap; have := vm.isLt
  have key : ∀ n w2, decodeLong 0x64 n w2 = okIf (fBits n 0 19 == 0 && fBits w2 10 22 == 0) (.blook (fD n) (dBoard w2) (BitVec.ofNat 3 w2)) := fun _ _ => rfl
  exact long (op := 0x64) (by (try simp only [fBits, wR3, encBoard, Nat.pow_zero, Nat.div_one]); omega) (by (try simp only [fBits, wR3, encBoard, Nat.pow_zero, Nat.div_one]); omega) (by (try simp only [fBits, wR3, encBoard, Nat.pow_zero, Nat.div_one]); omega) (fun _ _ _ => rfl) ((key _ _).trans
    (okIf_eq (by
    (repeat' with_reducible apply and_t) <;> first
      | (simp only [fX, fFlag, fBits, wR3, encBoard, Nat.pow_zero, Nat.div_one, beq_iff_eq]; omega)
      | exact or_l rfl
      | (rw [flag_eq (b := false) (by simp only [wR3, encBoard, Nat.pow_zero, Nat.div_one, show bit false = 0 from rfl]; omega)]; rfl)) (by
    congr 1 <;> first
      | rfl
      | exact bv_eq (by (try simp only [wR3, encBoard, Nat.pow_zero, Nat.div_one]); omega)
      | exact pm_eq (by (try simp only [wR3, encBoard, Nat.pow_zero, Nat.div_one]); omega) (by (try simp only [wR3, encBoard, Nat.pow_zero, Nat.div_one]); omega)
      | exact flag_eq (by (try simp only [wR3, encBoard, Nat.pow_zero, Nat.div_one]); omega)
      | exact bob_code (by (try simp only [wR3, encBoard, Nat.pow_zero, Nat.div_one]); omega)
      | exact board_eq (by (try simp only [wR3, encBoard, Nat.pow_zero, Nat.div_one]); omega) (by (try simp only [wR3, encBoard, Nat.pow_zero, Nat.div_one]); omega))))

theorem bread (d : Reg) (b : Reg) (board : BoardRef) (vm : BitVec 3) : Statement (.bread d b board vm) := by
  intro hw _
  have := d.isLt; have := b.isLt; have := board.index.isLt; have := bit_lt board.viaCap; have := vm.isLt
  have key : ∀ n w2, decodeLong 0x65 n w2 = okIf (fX n == 0 && fBits n 14 5 == 0 && fBits w2 10 22 == 0) (.bread (fD n) (fB n) (dBoard w2) (BitVec.ofNat 3 w2)) := fun _ _ => rfl
  exact long (op := 0x65) (by (try simp only [fBits, wR3, encBoard, Nat.pow_zero, Nat.div_one]); omega) (by (try simp only [fBits, wR3, encBoard, Nat.pow_zero, Nat.div_one]); omega) (by (try simp only [fBits, wR3, encBoard, Nat.pow_zero, Nat.div_one]); omega) (fun _ _ _ => rfl) ((key _ _).trans
    (okIf_eq (by
    (repeat' with_reducible apply and_t) <;> first
      | (simp only [fX, fFlag, fBits, wR3, encBoard, Nat.pow_zero, Nat.div_one, beq_iff_eq]; omega)
      | exact or_l rfl
      | (rw [flag_eq (b := false) (by simp only [wR3, encBoard, Nat.pow_zero, Nat.div_one, show bit false = 0 from rfl]; omega)]; rfl)) (by
    congr 1 <;> first
      | rfl
      | exact bv_eq (by (try simp only [wR3, encBoard, Nat.pow_zero, Nat.div_one]); omega)
      | exact pm_eq (by (try simp only [wR3, encBoard, Nat.pow_zero, Nat.div_one]); omega) (by (try simp only [wR3, encBoard, Nat.pow_zero, Nat.div_one]); omega)
      | exact flag_eq (by (try simp only [wR3, encBoard, Nat.pow_zero, Nat.div_one]); omega)
      | exact bob_code (by (try simp only [wR3, encBoard, Nat.pow_zero, Nat.div_one]); omega)
      | exact board_eq (by (try simp only [wR3, encBoard, Nat.pow_zero, Nat.div_one]); omega) (by (try simp only [wR3, encBoard, Nat.pow_zero, Nat.div_one]); omega))))

theorem bround (d : Reg) (board : BoardRef) : Statement (.bround d board) := by
  intro hw _
  have := d.isLt; have := board.index.isLt; have := bit_lt board.viaCap
  have key : ∀ n w2, decodeLong 0x66 n w2 = okIf (fBits n 0 19 == 0 && fBits w2 10 22 == 0 && fBits w2 0 3 == 0) (.bround (fD n) (dBoard w2)) := fun _ _ => rfl
  exact long (op := 0x66) (by (try simp only [fBits, wR3, encBoard, Nat.pow_zero, Nat.div_one]); omega) (by (try simp only [fBits, wR3, encBoard, Nat.pow_zero, Nat.div_one]); omega) (by (try simp only [fBits, wR3, encBoard, Nat.pow_zero, Nat.div_one]); omega) (fun _ _ _ => rfl) ((key _ _).trans
    (okIf_eq (by
    (repeat' with_reducible apply and_t) <;> first
      | (simp only [fX, fFlag, fBits, wR3, encBoard, Nat.pow_zero, Nat.div_one, beq_iff_eq]; omega)
      | exact or_l rfl
      | (rw [flag_eq (b := false) (by simp only [wR3, encBoard, Nat.pow_zero, Nat.div_one, show bit false = 0 from rfl]; omega)]; rfl)) (by
    congr 1 <;> first
      | rfl
      | exact bv_eq (by (try simp only [wR3, encBoard, Nat.pow_zero, Nat.div_one]); omega)
      | exact pm_eq (by (try simp only [wR3, encBoard, Nat.pow_zero, Nat.div_one]); omega) (by (try simp only [wR3, encBoard, Nat.pow_zero, Nat.div_one]); omega)
      | exact flag_eq (by (try simp only [wR3, encBoard, Nat.pow_zero, Nat.div_one]); omega)
      | exact bob_code (by (try simp only [wR3, encBoard, Nat.pow_zero, Nat.div_one]); omega)
      | exact board_eq (by (try simp only [wR3, encBoard, Nat.pow_zero, Nat.div_one]); omega) (by (try simp only [wR3, encBoard, Nat.pow_zero, Nat.div_one]); omega))))

theorem tread (d : Reg) (b : Reg) : Statement (.tread d b) := by
  intro hw _
  have := d.isLt; have := b.isLt
  have key : ∀ n w, decodeAt 0x67 n w none = okIf (fX n == 0 && fBits n 14 5 == 0) (.tread (fD n) (fB n)) := fun _ _ => rfl
  simp only [encode, encR3, show BitVec.toNat (0 : Reg) = 0 from rfl]
  exact short (op := 0x67) (by (try simp only [fBits, wR3, Nat.pow_zero, Nat.div_one]); omega) (by (try simp only [fBits, wR3, Nat.pow_zero, Nat.div_one]); omega) ((key _ _).trans
    (okIf_eq (by
    (repeat' with_reducible apply and_t) <;> first
      | (simp only [fX, fFlag, fBits, wR3, Nat.pow_zero, Nat.div_one, beq_iff_eq]; omega)
      | exact or_l rfl
      | (rw [flag_eq (b := false) (by simp only [wR3, Nat.pow_zero, Nat.div_one, show bit false = 0 from rfl]; omega)]; rfl)) (by
    congr 1 <;> first
      | rfl
      | exact bv_eq (by (try simp only [wR3, Nat.pow_zero, Nat.div_one]); omega)
      | exact pm_eq (by (try simp only [wR3, Nat.pow_zero, Nat.div_one]); omega) (by (try simp only [wR3, Nat.pow_zero, Nat.div_one]); omega)
      | exact flag_eq (by (try simp only [wR3, Nat.pow_zero, Nat.div_one]); omega)
      | exact bob_code (by (try simp only [wR3, Nat.pow_zero, Nat.div_one]); omega)
      | exact board_eq (by (try simp only [wR3, Nat.pow_zero, Nat.div_one]); omega) (by (try simp only [wR3, Nat.pow_zero, Nat.div_one]); omega))))

theorem bopen (d : Reg) (a : Reg) (b : Reg) (index : BitVec 6) (kind : BobKind) : Statement (.bopen d a b index kind) := by
  intro hw _
  have := d.isLt; have := a.isLt; have := b.isLt; have := index.isLt; have := bob_lt kind
  have key : ∀ n w, decodeAt 0x69 n w none = okIf (fBits n 8 1 == 0) (.bopen (fD n) (fA n) (fB n) (BitVec.ofNat 6 (n / 4)) (BobKind.ofCode n)) := fun _ _ => rfl
  exact short (op := 0x69) (by (try simp only [fBits, wR3, Nat.pow_zero, Nat.div_one]); omega) (by (try simp only [fBits, wR3, Nat.pow_zero, Nat.div_one]); omega) ((key _ _).trans
    (okIf_eq (by
    (repeat' with_reducible apply and_t) <;> first
      | (simp only [fX, fFlag, fBits, wR3, Nat.pow_zero, Nat.div_one, beq_iff_eq]; omega)
      | exact or_l rfl
      | (rw [flag_eq (b := false) (by simp only [wR3, Nat.pow_zero, Nat.div_one, show bit false = 0 from rfl]; omega)]; rfl)) (by
    congr 1 <;> first
      | rfl
      | exact bv_eq (by (try simp only [wR3, Nat.pow_zero, Nat.div_one]); omega)
      | exact pm_eq (by (try simp only [wR3, Nat.pow_zero, Nat.div_one]); omega) (by (try simp only [wR3, Nat.pow_zero, Nat.div_one]); omega)
      | exact flag_eq (by (try simp only [wR3, Nat.pow_zero, Nat.div_one]); omega)
      | exact bob_code (by (try simp only [wR3, Nat.pow_zero, Nat.div_one]); omega)
      | exact board_eq (by (try simp only [wR3, Nat.pow_zero, Nat.div_one]); omega) (by (try simp only [wR3, Nat.pow_zero, Nat.div_one]); omega))))

theorem vshape (td : Reg) (rows : BitVec 8) (cols : BitVec 8) (tag : Tag) : Statement (.vshape td rows cols tag) := by
  intro hw _
  simp only [Instr.wf, Bool.and_eq_true, decide_eq_true_eq] at hw
  have hs := hw
  have := td.isLt; have := rows.isLt; have := cols.isLt; have := tag_lt tag
  have key : ∀ n w2, decodeLong 0x70 n w2 = okSome (Tag.ofCode (fBits w2 16 5)) fun tag => okIf (fBits n 0 19 == 0 && fBits w2 21 11 == 0) (.vshape (fD n) (BitVec.ofNat 8 w2) (BitVec.ofNat 8 (w2 / 2 ^ 8)) tag) := fun _ _ => rfl
  exact long (op := 0x70) (by (try simp only [fBits, wR3, Nat.pow_zero, Nat.div_one]); omega) (by (try simp only [fBits, wR3, Nat.pow_zero, Nat.div_one]); omega) (by (try simp only [fBits, wR3, Nat.pow_zero, Nat.div_one]); omega) (fun _ _ _ => rfl) ((key _ _).trans
    (okSome_eq (tag_code (t := tag) (by (try simp only [fBits, wR3, Nat.pow_zero, Nat.div_one]); omega) (bne_iff_ne.mp hw))
    (okIf_eq (by
    (repeat' with_reducible apply and_t) <;> first
      | (simp only [fX, fFlag, fBits, wR3, Nat.pow_zero, Nat.div_one, beq_iff_eq]; omega)
      | (apply decide_eq_true; simp only [fBits, wR3, Nat.pow_zero, Nat.div_one]; omega)
      | exact hs
      | exact hs.1
      | exact hs.2
      | exact hs.1.1
      | exact hs.1.2
      | exact or_r hs
      | (rw [flag_eq (b := w) (by simp only [wR3, Nat.pow_zero, Nat.div_one]; omega)]; exact hs)
      | (rcases hs with h | h
         · exact or_l h
         · exact or_r (by simp only [fBits, wR3, Nat.pow_zero, Nat.div_one, beq_iff_eq]; omega))) (by
    congr 1 <;> first
      | rfl
      | exact bv_eq (by (try simp only [wR3, Nat.pow_zero, Nat.div_one]); omega)
      | exact pm_eq (by (try simp only [wR3, Nat.pow_zero, Nat.div_one]); omega) (by (try simp only [wR3, Nat.pow_zero, Nat.div_one]); omega)
      | exact flag_eq (by (try simp only [wR3, Nat.pow_zero, Nat.div_one]); omega)
      | exact bob_code (by (try simp only [wR3, Nat.pow_zero, Nat.div_one]); omega)
      | exact board_eq (by (try simp only [wR3, Nat.pow_zero, Nat.div_one]); omega) (by (try simp only [wR3, Nat.pow_zero, Nat.div_one]); omega)))))

theorem vld (td : Reg) (ta : Reg) (tb : Reg) (pm : PMod) (side : Reg) (tag : Tag) (rows : BitVec 8) (cols : BitVec 8) : Statement (.vld td ta tb pm side tag rows cols) := by
  intro hw _
  simp only [Instr.wf, Bool.and_eq_true, decide_eq_true_eq] at hw
  have hs : tag.isBlock = true ∨ side.toNat = 0 := (Bool.or_eq_true _ _ ▸ hw.2 : tag.isBlock = true ∨ (side == 0) = true).imp id zero_of
  have := td.isLt; have := ta.isLt; have := tb.isLt; have := pm.p.isLt; have := bit_lt pm.zero; have := side.isLt; have := tag_lt tag; have := rows.isLt; have := cols.isLt
  have key : ∀ n w2, decodeLong 0x71 n w2 = okSome (Tag.ofCode (fBits w2 0 5)) fun tag => okIf (fBits w2 21 11 == 0 && (tag.isBlock || fBits n 0 5 == 0)) (.vld (fD n) (fA n) (fB n) (fPMod n) (BitVec.ofNat 5 n) tag (BitVec.ofNat 8 (w2 / 2 ^ 5)) (BitVec.ofNat 8 (w2 / 2 ^ 13))) := fun _ _ => rfl
  exact long (op := 0x71) (by (try simp only [fBits, wR3, xPM, Nat.pow_zero, Nat.div_one]); omega) (by (try simp only [fBits, wR3, xPM, Nat.pow_zero, Nat.div_one]); omega) (by (try simp only [fBits, wR3, xPM, Nat.pow_zero, Nat.div_one]); omega) (fun _ _ _ => rfl) ((key _ _).trans
    (okSome_eq (tag_code (t := tag) (by (try simp only [fBits, wR3, xPM, Nat.pow_zero, Nat.div_one]); omega) (bne_iff_ne.mp hw.1))
    (okIf_eq (by
    (repeat' with_reducible apply and_t) <;> first
      | (simp only [fX, fFlag, fBits, wR3, xPM, Nat.pow_zero, Nat.div_one, beq_iff_eq]; omega)
      | (apply decide_eq_true; simp only [fBits, wR3, xPM, Nat.pow_zero, Nat.div_one]; omega)
      | exact hs
      | exact hs.1
      | exact hs.2
      | exact hs.1.1
      | exact hs.1.2
      | exact or_r hs
      | (rw [flag_eq (b := w) (by simp only [wR3, xPM, Nat.pow_zero, Nat.div_one]; omega)]; exact hs)
      | (rcases hs with h | h
         · exact or_l h
         · exact or_r (by simp only [fBits, wR3, xPM, Nat.pow_zero, Nat.div_one, beq_iff_eq]; omega))) (by
    congr 1 <;> first
      | rfl
      | exact bv_eq (by (try simp only [wR3, xPM, Nat.pow_zero, Nat.div_one]); omega)
      | exact pm_eq (by (try simp only [wR3, xPM, Nat.pow_zero, Nat.div_one]); omega) (by (try simp only [wR3, xPM, Nat.pow_zero, Nat.div_one]); omega)
      | exact flag_eq (by (try simp only [wR3, xPM, Nat.pow_zero, Nat.div_one]); omega)
      | exact bob_code (by (try simp only [wR3, xPM, Nat.pow_zero, Nat.div_one]); omega)
      | exact board_eq (by (try simp only [wR3, xPM, Nat.pow_zero, Nat.div_one]); omega) (by (try simp only [wR3, xPM, Nat.pow_zero, Nat.div_one]); omega)))))

theorem vst (td : Reg) (ta : Reg) (tb : Reg) (p : PIdx) (side : Reg) : Statement (.vst td ta tb p side) := by
  intro hw _
  have := td.isLt; have := ta.isLt; have := tb.isLt; have := p.isLt; have := side.isLt
  have key : ∀ n w, decodeAt 0x72 n w none = okIf (!fFlag n 5) (.vst (fD n) (fA n) (fB n) (fPMod n).p (BitVec.ofNat 5 n)) := fun _ _ => rfl
  exact short (op := 0x72) (by (try simp only [fBits, wR3, Nat.pow_zero, Nat.div_one]); omega) (by (try simp only [fBits, wR3, Nat.pow_zero, Nat.div_one]); omega) ((key _ _).trans
    (okIf_eq (by
    (repeat' with_reducible apply and_t) <;> first
      | (simp only [fX, fFlag, fBits, wR3, Nat.pow_zero, Nat.div_one, beq_iff_eq]; omega)
      | exact or_l rfl
      | (rw [flag_eq (b := false) (by simp only [wR3, Nat.pow_zero, Nat.div_one, show bit false = 0 from rfl]; omega)]; rfl)) (by
    congr 1 <;> first
      | rfl
      | exact bv_eq (by (try simp only [wR3, Nat.pow_zero, Nat.div_one]); omega)
      | exact pm_eq (by (try simp only [wR3, Nat.pow_zero, Nat.div_one]); omega) (by (try simp only [wR3, Nat.pow_zero, Nat.div_one]); omega)
      | exact flag_eq (by (try simp only [wR3, Nat.pow_zero, Nat.div_one]); omega)
      | exact bob_code (by (try simp only [wR3, Nat.pow_zero, Nat.div_one]); omega)
      | exact board_eq (by (try simp only [wR3, Nat.pow_zero, Nat.div_one]); omega) (by (try simp only [wR3, Nat.pow_zero, Nat.div_one]); omega))))

theorem vmov (td : Reg) (ta : Reg) (pm : PMod) : Statement (.vmov td ta pm) := by
  intro hw _
  have := td.isLt; have := ta.isLt; have := pm.p.isLt; have := bit_lt pm.zero
  have key : ∀ n w, decodeAt 0x74 n w none = okIf (fBits n 9 5 == 0 && fBits n 0 5 == 0) (.vmov (fD n) (fA n) (fPMod n)) := fun _ _ => rfl
  exact short (op := 0x74) (by (try simp only [fBits, wR3, xPM, Nat.pow_zero, Nat.div_one]); omega) (by (try simp only [fBits, wR3, xPM, Nat.pow_zero, Nat.div_one]); omega) ((key _ _).trans
    (okIf_eq (by
    (repeat' with_reducible apply and_t) <;> first
      | (simp only [fX, fFlag, fBits, wR3, xPM, Nat.pow_zero, Nat.div_one, beq_iff_eq]; omega)
      | exact or_l rfl
      | (rw [flag_eq (b := false) (by simp only [wR3, xPM, Nat.pow_zero, Nat.div_one, show bit false = 0 from rfl]; omega)]; rfl)) (by
    congr 1 <;> first
      | rfl
      | exact bv_eq (by (try simp only [wR3, xPM, Nat.pow_zero, Nat.div_one]); omega)
      | exact pm_eq (by (try simp only [wR3, xPM, Nat.pow_zero, Nat.div_one]); omega) (by (try simp only [wR3, xPM, Nat.pow_zero, Nat.div_one]); omega)
      | exact flag_eq (by (try simp only [wR3, xPM, Nat.pow_zero, Nat.div_one]); omega)
      | exact bob_code (by (try simp only [wR3, xPM, Nat.pow_zero, Nat.div_one]); omega)
      | exact board_eq (by (try simp only [wR3, xPM, Nat.pow_zero, Nat.div_one]); omega) (by (try simp only [wR3, xPM, Nat.pow_zero, Nat.div_one]); omega))))

theorem vcvt (td : Reg) (ta : Reg) (tag : Tag) (pm : PMod) (mode : RMode) : Statement (.vcvt td ta tag pm mode) := by
  intro hw _
  simp only [Instr.wf, Bool.and_eq_true, decide_eq_true_eq] at hw
  have hs := hw
  have := td.isLt; have := ta.isLt; have := tag_lt tag; have := pm.p.isLt; have := bit_lt pm.zero; have := rmode_lt mode
  have key : ∀ n w, decodeAt 0x81 n w none = okSome (RMode.ofCode (fBits n 2 3)) fun m => okSome (Tag.ofCode (fBits n 9 5)) fun g => okIf (fBits n 0 2 == 0) (.vcvt (fD n) (fA n) g (fPMod n) m) := fun _ _ => rfl
  exact short (op := 0x81) (by (try simp only [fBits, wR3, xPM, Nat.pow_zero, Nat.div_one]); omega) (by (try simp only [fBits, wR3, xPM, Nat.pow_zero, Nat.div_one]); omega) ((key _ _).trans
    (okSome_eq (rmode_code (m := mode) (by (try simp only [fBits, wR3, xPM, Nat.pow_zero, Nat.div_one]); omega))
    (okSome_eq (tag_code (t := tag) (by (try simp only [fBits, wR3, xPM, Nat.pow_zero, Nat.div_one]); omega) (bne_iff_ne.mp hw))
    (okIf_eq (by
    (repeat' with_reducible apply and_t) <;> first
      | (simp only [fX, fFlag, fBits, wR3, xPM, Nat.pow_zero, Nat.div_one, beq_iff_eq]; omega)
      | (apply decide_eq_true; simp only [fBits, wR3, xPM, Nat.pow_zero, Nat.div_one]; omega)
      | exact hs
      | exact hs.1
      | exact hs.2
      | exact hs.1.1
      | exact hs.1.2
      | exact or_r hs
      | (rw [flag_eq (b := w) (by simp only [wR3, xPM, Nat.pow_zero, Nat.div_one]; omega)]; exact hs)
      | (rcases hs with h | h
         · exact or_l h
         · exact or_r (by simp only [fBits, wR3, xPM, Nat.pow_zero, Nat.div_one, beq_iff_eq]; omega))) (by
    congr 1 <;> first
      | rfl
      | exact bv_eq (by (try simp only [wR3, xPM, Nat.pow_zero, Nat.div_one]); omega)
      | exact pm_eq (by (try simp only [wR3, xPM, Nat.pow_zero, Nat.div_one]); omega) (by (try simp only [wR3, xPM, Nat.pow_zero, Nat.div_one]); omega)
      | exact flag_eq (by (try simp only [wR3, xPM, Nat.pow_zero, Nat.div_one]); omega)
      | exact bob_code (by (try simp only [wR3, xPM, Nat.pow_zero, Nat.div_one]); omega)
      | exact board_eq (by (try simp only [wR3, xPM, Nat.pow_zero, Nat.div_one]); omega) (by (try simp only [wR3, xPM, Nat.pow_zero, Nat.div_one]); omega))))))

theorem vcmp (pd : PIdx) (ta : Reg) (tb : Reg) (pm : PMod) (cmp : VCmp) (any : Bool) : Statement (.vcmp pd ta tb pm cmp any) := by
  intro hw _
  have := pd.isLt; have := ta.isLt; have := tb.isLt; have := pm.p.isLt; have := bit_lt pm.zero; have := cmp_lt cmp; have := bit_lt any
  have key : ∀ n w, decodeAt 0x88 n w none = okSome (VCmp.ofCode (fBits n 2 3)) fun c => okIf (fBits n 22 2 == 0 && !fFlag n 0) (.vcmp (BitVec.ofNat 3 (n / 2 ^ 19)) (fA n) (fB n) (fPMod n) c (fFlag n 1)) := fun _ _ => rfl
  exact short (op := 0x88) (by (try simp only [fBits, wR3, xPM, Nat.pow_zero, Nat.div_one]); omega) (by (try simp only [fBits, wR3, xPM, Nat.pow_zero, Nat.div_one]); omega) ((key _ _).trans
    (okSome_eq (cmp_code (m := cmp) (by (try simp only [fBits, wR3, xPM, Nat.pow_zero, Nat.div_one]); omega))
    (okIf_eq (by
    (repeat' with_reducible apply and_t) <;> first
      | (simp only [fX, fFlag, fBits, wR3, xPM, Nat.pow_zero, Nat.div_one, beq_iff_eq]; omega)
      | exact or_l rfl
      | (rw [flag_eq (b := false) (by simp only [wR3, xPM, Nat.pow_zero, Nat.div_one, show bit false = 0 from rfl]; omega)]; rfl)) (by
    congr 1 <;> first
      | rfl
      | exact bv_eq (by (try simp only [wR3, xPM, Nat.pow_zero, Nat.div_one]); omega)
      | exact pm_eq (by (try simp only [wR3, xPM, Nat.pow_zero, Nat.div_one]); omega) (by (try simp only [wR3, xPM, Nat.pow_zero, Nat.div_one]); omega)
      | exact flag_eq (by (try simp only [wR3, xPM, Nat.pow_zero, Nat.div_one]); omega)
      | exact bob_code (by (try simp only [wR3, xPM, Nat.pow_zero, Nat.div_one]); omega)
      | exact board_eq (by (try simp only [wR3, xPM, Nat.pow_zero, Nat.div_one]); omega) (by (try simp only [wR3, xPM, Nat.pow_zero, Nat.div_one]); omega)))))

theorem vsel (td : Reg) (ta : Reg) (tb : Reg) (p : PIdx) (any : Bool) : Statement (.vsel td ta tb p any) := by
  intro hw _
  have := td.isLt; have := ta.isLt; have := tb.isLt; have := p.isLt; have := bit_lt any
  have key : ∀ n w, decodeAt 0x89 n w none = okIf (fBits n 2 4 == 0 && !fFlag n 0) (.vsel (fD n) (fA n) (fB n) (fPMod n).p (fFlag n 1)) := fun _ _ => rfl
  exact short (op := 0x89) (by (try simp only [fBits, wR3, Nat.pow_zero, Nat.div_one]); omega) (by (try simp only [fBits, wR3, Nat.pow_zero, Nat.div_one]); omega) ((key _ _).trans
    (okIf_eq (by
    (repeat' with_reducible apply and_t) <;> first
      | (simp only [fX, fFlag, fBits, wR3, Nat.pow_zero, Nat.div_one, beq_iff_eq]; omega)
      | exact or_l rfl
      | (rw [flag_eq (b := false) (by simp only [wR3, Nat.pow_zero, Nat.div_one, show bit false = 0 from rfl]; omega)]; rfl)) (by
    congr 1 <;> first
      | rfl
      | exact bv_eq (by (try simp only [wR3, Nat.pow_zero, Nat.div_one]); omega)
      | exact pm_eq (by (try simp only [wR3, Nat.pow_zero, Nat.div_one]); omega) (by (try simp only [wR3, Nat.pow_zero, Nat.div_one]); omega)
      | exact flag_eq (by (try simp only [wR3, Nat.pow_zero, Nat.div_one]); omega)
      | exact bob_code (by (try simp only [wR3, Nat.pow_zero, Nat.div_one]); omega)
      | exact board_eq (by (try simp only [wR3, Nat.pow_zero, Nat.div_one]); omega) (by (try simp only [wR3, Nat.pow_zero, Nat.div_one]); omega))))

theorem vpset (pd : PIdx) (pa : PIdx) (pb : PIdx) (tt : BitVec 4) : Statement (.vpset pd pa pb tt) := by
  intro hw _
  have := pd.isLt; have := pa.isLt; have := pb.isLt; have := tt.isLt
  have key : ∀ n w, decodeAt 0x8a n w none = okIf (fBits n 22 2 == 0 && fBits n 17 2 == 0 && fBits n 12 2 == 0 && fBits n 4 5 == 0) (.vpset (BitVec.ofNat 3 (n / 2 ^ 19)) (BitVec.ofNat 3 (n / 2 ^ 14)) (BitVec.ofNat 3 (n / 2 ^ 9)) (BitVec.ofNat 4 n)) := fun _ _ => rfl
  exact short (op := 0x8a) (by (try simp only [fBits, wR3, Nat.pow_zero, Nat.div_one]); omega) (by (try simp only [fBits, wR3, Nat.pow_zero, Nat.div_one]); omega) ((key _ _).trans
    (okIf_eq (by
    (repeat' with_reducible apply and_t) <;> first
      | (simp only [fX, fFlag, fBits, wR3, Nat.pow_zero, Nat.div_one, beq_iff_eq]; omega)
      | exact or_l rfl
      | (rw [flag_eq (b := false) (by simp only [wR3, Nat.pow_zero, Nat.div_one, show bit false = 0 from rfl]; omega)]; rfl)) (by
    congr 1 <;> first
      | rfl
      | exact bv_eq (by (try simp only [wR3, Nat.pow_zero, Nat.div_one]); omega)
      | exact pm_eq (by (try simp only [wR3, Nat.pow_zero, Nat.div_one]); omega) (by (try simp only [wR3, Nat.pow_zero, Nat.div_one]); omega)
      | exact flag_eq (by (try simp only [wR3, Nat.pow_zero, Nat.div_one]); omega)
      | exact bob_code (by (try simp only [wR3, Nat.pow_zero, Nat.div_one]); omega)
      | exact board_eq (by (try simp only [wR3, Nat.pow_zero, Nat.div_one]); omega) (by (try simp only [wR3, Nat.pow_zero, Nat.div_one]); omega))))

theorem vctopk (pd : PIdx) (ta : Reg) (tb : Reg) (pm : PMod) : Statement (.vctopk pd ta tb pm) := by
  intro hw _
  have := pd.isLt; have := ta.isLt; have := tb.isLt; have := pm.p.isLt; have := bit_lt pm.zero
  have key : ∀ n w, decodeAt 0x90 n w none = okIf (fBits n 22 2 == 0 && fBits n 0 5 == 0) (.vctopk (BitVec.ofNat 3 (n / 2 ^ 19)) (fA n) (fB n) (fPMod n)) := fun _ _ => rfl
  exact short (op := 0x90) (by (try simp only [fBits, wR3, xPM, Nat.pow_zero, Nat.div_one]); omega) (by (try simp only [fBits, wR3, xPM, Nat.pow_zero, Nat.div_one]); omega) ((key _ _).trans
    (okIf_eq (by
    (repeat' with_reducible apply and_t) <;> first
      | (simp only [fX, fFlag, fBits, wR3, xPM, Nat.pow_zero, Nat.div_one, beq_iff_eq]; omega)
      | exact or_l rfl
      | (rw [flag_eq (b := false) (by simp only [wR3, xPM, Nat.pow_zero, Nat.div_one, show bit false = 0 from rfl]; omega)]; rfl)) (by
    congr 1 <;> first
      | rfl
      | exact bv_eq (by (try simp only [wR3, xPM, Nat.pow_zero, Nat.div_one]); omega)
      | exact pm_eq (by (try simp only [wR3, xPM, Nat.pow_zero, Nat.div_one]); omega) (by (try simp only [wR3, xPM, Nat.pow_zero, Nat.div_one]); omega)
      | exact flag_eq (by (try simp only [wR3, xPM, Nat.pow_zero, Nat.div_one]); omega)
      | exact bob_code (by (try simp only [wR3, xPM, Nat.pow_zero, Nat.div_one]); omega)
      | exact board_eq (by (try simp only [wR3, xPM, Nat.pow_zero, Nat.div_one]); omega) (by (try simp only [wR3, xPM, Nat.pow_zero, Nat.div_one]); omega))))

theorem vtrans (td : Reg) (ta : Reg) (pm : PMod) : Statement (.vtrans td ta pm) := by
  intro hw _
  have := td.isLt; have := ta.isLt; have := pm.p.isLt; have := bit_lt pm.zero
  have key : ∀ n w, decodeAt 0x91 n w none = okIf (fBits n 9 5 == 0 && fBits n 0 5 == 0) (.vtrans (fD n) (fA n) (fPMod n)) := fun _ _ => rfl
  exact short (op := 0x91) (by (try simp only [fBits, wR3, xPM, Nat.pow_zero, Nat.div_one]); omega) (by (try simp only [fBits, wR3, xPM, Nat.pow_zero, Nat.div_one]); omega) ((key _ _).trans
    (okIf_eq (by
    (repeat' with_reducible apply and_t) <;> first
      | (simp only [fX, fFlag, fBits, wR3, xPM, Nat.pow_zero, Nat.div_one, beq_iff_eq]; omega)
      | exact or_l rfl
      | (rw [flag_eq (b := false) (by simp only [wR3, xPM, Nat.pow_zero, Nat.div_one, show bit false = 0 from rfl]; omega)]; rfl)) (by
    congr 1 <;> first
      | rfl
      | exact bv_eq (by (try simp only [wR3, xPM, Nat.pow_zero, Nat.div_one]); omega)
      | exact pm_eq (by (try simp only [wR3, xPM, Nat.pow_zero, Nat.div_one]); omega) (by (try simp only [wR3, xPM, Nat.pow_zero, Nat.div_one]); omega)
      | exact flag_eq (by (try simp only [wR3, xPM, Nat.pow_zero, Nat.div_one]); omega)
      | exact bob_code (by (try simp only [wR3, xPM, Nat.pow_zero, Nat.div_one]); omega)
      | exact board_eq (by (try simp only [wR3, xPM, Nat.pow_zero, Nat.div_one]); omega) (by (try simp only [wR3, xPM, Nat.pow_zero, Nat.div_one]); omega))))

theorem vacc (td : Reg) (a : AIdx) (pm : PMod) : Statement (.vacc td a pm) := by
  intro hw _
  have := td.isLt; have := a.isLt; have := pm.p.isLt; have := bit_lt pm.zero
  have key : ∀ n w, decodeAt 0x92 n w none = okIf (fBits n 17 2 == 0 && fBits n 9 5 == 0 && fBits n 0 5 == 0) (.vacc (fD n) (BitVec.ofNat 3 (n / 2 ^ 14)) (fPMod n)) := fun _ _ => rfl
  exact short (op := 0x92) (by (try simp only [fBits, wR3, xPM, Nat.pow_zero, Nat.div_one]); omega) (by (try simp only [fBits, wR3, xPM, Nat.pow_zero, Nat.div_one]); omega) ((key _ _).trans
    (okIf_eq (by
    (repeat' with_reducible apply and_t) <;> first
      | (simp only [fX, fFlag, fBits, wR3, xPM, Nat.pow_zero, Nat.div_one, beq_iff_eq]; omega)
      | exact or_l rfl
      | (rw [flag_eq (b := false) (by simp only [wR3, xPM, Nat.pow_zero, Nat.div_one, show bit false = 0 from rfl]; omega)]; rfl)) (by
    congr 1 <;> first
      | rfl
      | exact bv_eq (by (try simp only [wR3, xPM, Nat.pow_zero, Nat.div_one]); omega)
      | exact pm_eq (by (try simp only [wR3, xPM, Nat.pow_zero, Nat.div_one]); omega) (by (try simp only [wR3, xPM, Nat.pow_zero, Nat.div_one]); omega)
      | exact flag_eq (by (try simp only [wR3, xPM, Nat.pow_zero, Nat.div_one]); omega)
      | exact bob_code (by (try simp only [wR3, xPM, Nat.pow_zero, Nat.div_one]); omega)
      | exact board_eq (by (try simp only [wR3, xPM, Nat.pow_zero, Nat.div_one]); omega) (by (try simp only [wR3, xPM, Nat.pow_zero, Nat.div_one]); omega))))

theorem vtoacc (a : AIdx) (ta : Reg) (p : PIdx) : Statement (.vtoacc a ta p) := by
  intro hw _
  have := a.isLt; have := ta.isLt; have := p.isLt
  have key : ∀ n w, decodeAt 0x93 n w none = okIf (fBits n 22 2 == 0 && fBits n 9 5 == 0 && fBits n 0 6 == 0) (.vtoacc (BitVec.ofNat 3 (n / 2 ^ 19)) (fA n) (fPMod n).p) := fun _ _ => rfl
  exact short (op := 0x93) (by (try simp only [fBits, wR3, Nat.pow_zero, Nat.div_one]); omega) (by (try simp only [fBits, wR3, Nat.pow_zero, Nat.div_one]); omega) ((key _ _).trans
    (okIf_eq (by
    (repeat' with_reducible apply and_t) <;> first
      | (simp only [fX, fFlag, fBits, wR3, Nat.pow_zero, Nat.div_one, beq_iff_eq]; omega)
      | exact or_l rfl
      | (rw [flag_eq (b := false) (by simp only [wR3, Nat.pow_zero, Nat.div_one, show bit false = 0 from rfl]; omega)]; rfl)) (by
    congr 1 <;> first
      | rfl
      | exact bv_eq (by (try simp only [wR3, Nat.pow_zero, Nat.div_one]); omega)
      | exact pm_eq (by (try simp only [wR3, Nat.pow_zero, Nat.div_one]); omega) (by (try simp only [wR3, Nat.pow_zero, Nat.div_one]); omega)
      | exact flag_eq (by (try simp only [wR3, Nat.pow_zero, Nat.div_one]); omega)
      | exact bob_code (by (try simp only [wR3, Nat.pow_zero, Nat.div_one]); omega)
      | exact board_eq (by (try simp only [wR3, Nat.pow_zero, Nat.div_one]); omega) (by (try simp only [wR3, Nat.pow_zero, Nat.div_one]); omega))))

theorem vsetrs (td : Reg) (tb : Reg) (desc : BitVec 32) : Statement (.vsetrs td tb desc) := by
  intro hw _
  have := td.isLt; have := tb.isLt; have := desc.isLt
  have key : ∀ n w2, decodeLong 0x94 n w2 = okIf (fBits n 14 5 == 0 && fX n == 0) (.vsetrs (fD n) (fB n) (BitVec.ofNat 32 w2)) := fun _ _ => rfl
  exact long (op := 0x94) (by (try simp only [fBits, wR3, Nat.pow_zero, Nat.div_one]); omega) (by (try simp only [fBits, wR3, Nat.pow_zero, Nat.div_one]); omega) (by (try simp only [fBits, wR3, Nat.pow_zero, Nat.div_one]); omega) (fun _ _ _ => rfl) ((key _ _).trans
    (okIf_eq (by
    (repeat' with_reducible apply and_t) <;> first
      | (simp only [fX, fFlag, fBits, wR3, Nat.pow_zero, Nat.div_one, beq_iff_eq]; omega)
      | exact or_l rfl
      | (rw [flag_eq (b := false) (by simp only [wR3, Nat.pow_zero, Nat.div_one, show bit false = 0 from rfl]; omega)]; rfl)) (by
    congr 1 <;> first
      | rfl
      | exact bv_eq (by (try simp only [wR3, Nat.pow_zero, Nat.div_one]); omega)
      | exact pm_eq (by (try simp only [wR3, Nat.pow_zero, Nat.div_one]); omega) (by (try simp only [wR3, Nat.pow_zero, Nat.div_one]); omega)
      | exact flag_eq (by (try simp only [wR3, Nat.pow_zero, Nat.div_one]); omega)
      | exact bob_code (by (try simp only [wR3, Nat.pow_zero, Nat.div_one]); omega)
      | exact board_eq (by (try simp only [wR3, Nat.pow_zero, Nat.div_one]); omega) (by (try simp only [wR3, Nat.pow_zero, Nat.div_one]); omega))))

theorem vsetcs (td : Reg) (tb : Reg) (desc : BitVec 32) : Statement (.vsetcs td tb desc) := by
  intro hw _
  have := td.isLt; have := tb.isLt; have := desc.isLt
  have key : ∀ n w2, decodeLong 0x95 n w2 = okIf (fBits n 14 5 == 0 && fX n == 0) (.vsetcs (fD n) (fB n) (BitVec.ofNat 32 w2)) := fun _ _ => rfl
  exact long (op := 0x95) (by (try simp only [fBits, wR3, Nat.pow_zero, Nat.div_one]); omega) (by (try simp only [fBits, wR3, Nat.pow_zero, Nat.div_one]); omega) (by (try simp only [fBits, wR3, Nat.pow_zero, Nat.div_one]); omega) (fun _ _ _ => rfl) ((key _ _).trans
    (okIf_eq (by
    (repeat' with_reducible apply and_t) <;> first
      | (simp only [fX, fFlag, fBits, wR3, Nat.pow_zero, Nat.div_one, beq_iff_eq]; omega)
      | exact or_l rfl
      | (rw [flag_eq (b := false) (by simp only [wR3, Nat.pow_zero, Nat.div_one, show bit false = 0 from rfl]; omega)]; rfl)) (by
    congr 1 <;> first
      | rfl
      | exact bv_eq (by (try simp only [wR3, Nat.pow_zero, Nat.div_one]); omega)
      | exact pm_eq (by (try simp only [wR3, Nat.pow_zero, Nat.div_one]); omega) (by (try simp only [wR3, Nat.pow_zero, Nat.div_one]); omega)
      | exact flag_eq (by (try simp only [wR3, Nat.pow_zero, Nat.div_one]); omega)
      | exact bob_code (by (try simp only [wR3, Nat.pow_zero, Nat.div_one]); omega)
      | exact board_eq (by (try simp only [wR3, Nat.pow_zero, Nat.div_one]); omega) (by (try simp only [wR3, Nat.pow_zero, Nat.div_one]); omega))))

theorem vresolve (td : Reg) (mode : RMode) : Statement (.vresolve td mode) := by
  intro hw _
  have := td.isLt; have := rmode_lt mode
  have key : ∀ n w, decodeAt 0x97 n w none = okSome (RMode.ofCode (fBits n 2 3)) fun m => okIf (fBits n 5 14 == 0 && fBits n 0 2 == 0) (.vresolve (fD n) m) := fun _ _ => rfl
  exact short (op := 0x97) (by (try simp only [fBits, wR3, Nat.pow_zero, Nat.div_one]); omega) (by (try simp only [fBits, wR3, Nat.pow_zero, Nat.div_one]); omega) ((key _ _).trans
    (okSome_eq (rmode_code (m := mode) (by (try simp only [fBits, wR3, Nat.pow_zero, Nat.div_one]); omega))
    (okIf_eq (by
    (repeat' with_reducible apply and_t) <;> first
      | (simp only [fX, fFlag, fBits, wR3, Nat.pow_zero, Nat.div_one, beq_iff_eq]; omega)
      | exact or_l rfl
      | (rw [flag_eq (b := false) (by simp only [wR3, Nat.pow_zero, Nat.div_one, show bit false = 0 from rfl]; omega)]; rfl)) (by
    congr 1 <;> first
      | rfl
      | exact bv_eq (by (try simp only [wR3, Nat.pow_zero, Nat.div_one]); omega)
      | exact pm_eq (by (try simp only [wR3, Nat.pow_zero, Nat.div_one]); omega) (by (try simp only [wR3, Nat.pow_zero, Nat.div_one]); omega)
      | exact flag_eq (by (try simp only [wR3, Nat.pow_zero, Nat.div_one]); omega)
      | exact bob_code (by (try simp only [wR3, Nat.pow_zero, Nat.div_one]); omega)
      | exact board_eq (by (try simp only [wR3, Nat.pow_zero, Nat.div_one]); omega) (by (try simp only [wR3, Nat.pow_zero, Nat.div_one]); omega)))))

theorem vgetslot (d : Reg) (ta : Reg) (sel : SlotSel) : Statement (.vgetslot d ta sel) := by
  intro hw _
  have := d.isLt; have := ta.isLt; have := sel_lt sel
  have key : ∀ n w, decodeAt 0x98 n w none = okSome (SlotSel.ofCode (fBits n 0 3)) fun sel => okIf (fBits n 3 11 == 0) (.vgetslot (fD n) (fA n) sel) := fun _ _ => rfl
  exact short (op := 0x98) (by (try simp only [fBits, wR3, Nat.pow_zero, Nat.div_one]); omega) (by (try simp only [fBits, wR3, Nat.pow_zero, Nat.div_one]); omega) ((key _ _).trans
    (okSome_eq (sel_code (m := sel) (by (try simp only [fBits, wR3, Nat.pow_zero, Nat.div_one]); omega))
    (okIf_eq (by
    (repeat' with_reducible apply and_t) <;> first
      | (simp only [fX, fFlag, fBits, wR3, Nat.pow_zero, Nat.div_one, beq_iff_eq]; omega)
      | exact or_l rfl
      | (rw [flag_eq (b := false) (by simp only [wR3, Nat.pow_zero, Nat.div_one, show bit false = 0 from rfl]; omega)]; rfl)) (by
    congr 1 <;> first
      | rfl
      | exact bv_eq (by (try simp only [wR3, Nat.pow_zero, Nat.div_one]); omega)
      | exact pm_eq (by (try simp only [wR3, Nat.pow_zero, Nat.div_one]); omega) (by (try simp only [wR3, Nat.pow_zero, Nat.div_one]); omega)
      | exact flag_eq (by (try simp only [wR3, Nat.pow_zero, Nat.div_one]); omega)
      | exact bob_code (by (try simp only [wR3, Nat.pow_zero, Nat.div_one]); omega)
      | exact board_eq (by (try simp only [wR3, Nat.pow_zero, Nat.div_one]); omega) (by (try simp only [wR3, Nat.pow_zero, Nat.div_one]); omega)))))

theorem vputslot (td : Reg) (a : Reg) (sel : SlotSel) : Statement (.vputslot td a sel) := by
  intro hw _
  have := td.isLt; have := a.isLt; have := sel_lt sel
  have key : ∀ n w, decodeAt 0x99 n w none = okSome (SlotSel.ofCode (fBits n 0 3)) fun sel => okIf (fBits n 3 11 == 0) (.vputslot (fD n) (fA n) sel) := fun _ _ => rfl
  exact short (op := 0x99) (by (try simp only [fBits, wR3, Nat.pow_zero, Nat.div_one]); omega) (by (try simp only [fBits, wR3, Nat.pow_zero, Nat.div_one]); omega) ((key _ _).trans
    (okSome_eq (sel_code (m := sel) (by (try simp only [fBits, wR3, Nat.pow_zero, Nat.div_one]); omega))
    (okIf_eq (by
    (repeat' with_reducible apply and_t) <;> first
      | (simp only [fX, fFlag, fBits, wR3, Nat.pow_zero, Nat.div_one, beq_iff_eq]; omega)
      | exact or_l rfl
      | (rw [flag_eq (b := false) (by simp only [wR3, Nat.pow_zero, Nat.div_one, show bit false = 0 from rfl]; omega)]; rfl)) (by
    congr 1 <;> first
      | rfl
      | exact bv_eq (by (try simp only [wR3, Nat.pow_zero, Nat.div_one]); omega)
      | exact pm_eq (by (try simp only [wR3, Nat.pow_zero, Nat.div_one]); omega) (by (try simp only [wR3, Nat.pow_zero, Nat.div_one]); omega)
      | exact flag_eq (by (try simp only [wR3, Nat.pow_zero, Nat.div_one]); omega)
      | exact bob_code (by (try simp only [wR3, Nat.pow_zero, Nat.div_one]); omega)
      | exact board_eq (by (try simp only [wR3, Nat.pow_zero, Nat.div_one]); omega) (by (try simp only [wR3, Nat.pow_zero, Nat.div_one]); omega)))))

theorem vstrict (td : Reg) (clr : Bool) : Statement (.vstrict td clr) := by
  intro hw _
  have := td.isLt; have := bit_lt clr
  have key : ∀ n w, decodeAt 0x9a n w none = okIf (fBits n 1 18 == 0) (.vstrict (fD n) (fFlag n 0)) := fun _ _ => rfl
  exact short (op := 0x9a) (by (try simp only [fBits, wR3, Nat.pow_zero, Nat.div_one]); omega) (by (try simp only [fBits, wR3, Nat.pow_zero, Nat.div_one]); omega) ((key _ _).trans
    (okIf_eq (by
    (repeat' with_reducible apply and_t) <;> first
      | (simp only [fX, fFlag, fBits, wR3, Nat.pow_zero, Nat.div_one, beq_iff_eq]; omega)
      | exact or_l rfl
      | (rw [flag_eq (b := false) (by simp only [wR3, Nat.pow_zero, Nat.div_one, show bit false = 0 from rfl]; omega)]; rfl)) (by
    congr 1 <;> first
      | rfl
      | exact bv_eq (by (try simp only [wR3, Nat.pow_zero, Nat.div_one]); omega)
      | exact pm_eq (by (try simp only [wR3, Nat.pow_zero, Nat.div_one]); omega) (by (try simp only [wR3, Nat.pow_zero, Nat.div_one]); omega)
      | exact flag_eq (by (try simp only [wR3, Nat.pow_zero, Nat.div_one]); omega)
      | exact bob_code (by (try simp only [wR3, Nat.pow_zero, Nat.div_one]); omega)
      | exact board_eq (by (try simp only [wR3, Nat.pow_zero, Nat.div_one]); omega) (by (try simp only [wR3, Nat.pow_zero, Nat.div_one]); omega))))

theorem vfld (f : FIdx) (a : Reg) : Statement (.vfld f a) := by
  intro hw _
  have := f.isLt; have := a.isLt
  have key : ∀ n w, decodeAt 0x9b n w none = okIf (fBits n 23 1 == 0 && fBits n 0 14 == 0) (.vfld (BitVec.ofNat 4 (n / 2 ^ 19)) (fA n)) := fun _ _ => rfl
  exact short (op := 0x9b) (by (try simp only [fBits, wR3, Nat.pow_zero, Nat.div_one]); omega) (by (try simp only [fBits, wR3, Nat.pow_zero, Nat.div_one]); omega) ((key _ _).trans
    (okIf_eq (by
    (repeat' with_reducible apply and_t) <;> first
      | (simp only [fX, fFlag, fBits, wR3, Nat.pow_zero, Nat.div_one, beq_iff_eq]; omega)
      | exact or_l rfl
      | (rw [flag_eq (b := false) (by simp only [wR3, Nat.pow_zero, Nat.div_one, show bit false = 0 from rfl]; omega)]; rfl)) (by
    congr 1 <;> first
      | rfl
      | exact bv_eq (by (try simp only [wR3, Nat.pow_zero, Nat.div_one]); omega)
      | exact pm_eq (by (try simp only [wR3, Nat.pow_zero, Nat.div_one]); omega) (by (try simp only [wR3, Nat.pow_zero, Nat.div_one]); omega)
      | exact flag_eq (by (try simp only [wR3, Nat.pow_zero, Nat.div_one]); omega)
      | exact bob_code (by (try simp only [wR3, Nat.pow_zero, Nat.div_one]); omega)
      | exact board_eq (by (try simp only [wR3, Nat.pow_zero, Nat.div_one]); omega) (by (try simp only [wR3, Nat.pow_zero, Nat.div_one]); omega))))

theorem vfst (f : FIdx) (a : Reg) : Statement (.vfst f a) := by
  intro hw _
  have := f.isLt; have := a.isLt
  have key : ∀ n w, decodeAt 0x9c n w none = okIf (fBits n 23 1 == 0 && fBits n 0 14 == 0) (.vfst (BitVec.ofNat 4 (n / 2 ^ 19)) (fA n)) := fun _ _ => rfl
  exact short (op := 0x9c) (by (try simp only [fBits, wR3, Nat.pow_zero, Nat.div_one]); omega) (by (try simp only [fBits, wR3, Nat.pow_zero, Nat.div_one]); omega) ((key _ _).trans
    (okIf_eq (by
    (repeat' with_reducible apply and_t) <;> first
      | (simp only [fX, fFlag, fBits, wR3, Nat.pow_zero, Nat.div_one, beq_iff_eq]; omega)
      | exact or_l rfl
      | (rw [flag_eq (b := false) (by simp only [wR3, Nat.pow_zero, Nat.div_one, show bit false = 0 from rfl]; omega)]; rfl)) (by
    congr 1 <;> first
      | rfl
      | exact bv_eq (by (try simp only [wR3, Nat.pow_zero, Nat.div_one]); omega)
      | exact pm_eq (by (try simp only [wR3, Nat.pow_zero, Nat.div_one]); omega) (by (try simp only [wR3, Nat.pow_zero, Nat.div_one]); omega)
      | exact flag_eq (by (try simp only [wR3, Nat.pow_zero, Nat.div_one]); omega)
      | exact bob_code (by (try simp only [wR3, Nat.pow_zero, Nat.div_one]); omega)
      | exact board_eq (by (try simp only [wR3, Nat.pow_zero, Nat.div_one]); omega) (by (try simp only [wR3, Nat.pow_zero, Nat.div_one]); omega))))

theorem vfop (fd : FIdx) (fa : FIdx) (fb : FIdx) (op : FOp) : Statement (.vfop fd fa fb op) := by
  intro hw _
  simp only [Instr.wf, Bool.and_eq_true, decide_eq_true_eq] at hw
  have hs : (!op.isUnary) = true ∨ fb.toNat = 0 := (Bool.or_eq_true _ _ ▸ hw : (!op.isUnary) = true ∨ (fb == 0) = true).imp id zero_of
  have := fd.isLt; have := fa.isLt; have := fb.isLt; have := fop_lt op
  have key : ∀ n w, decodeAt 0x9d n w none = okSome (FOp.ofCode (fBits n 0 4)) fun o => okIf (fBits n 23 1 == 0 && fBits n 18 1 == 0 && fBits n 13 1 == 0 && fBits n 4 5 == 0 && (!o.isUnary || fBits n 9 4 == 0)) (.vfop (BitVec.ofNat 4 (n / 2 ^ 19)) (BitVec.ofNat 4 (n / 2 ^ 14)) (BitVec.ofNat 4 (n / 2 ^ 9)) o) := fun _ _ => rfl
  exact short (op := 0x9d) (by (try simp only [fBits, wR3, Nat.pow_zero, Nat.div_one]); omega) (by (try simp only [fBits, wR3, Nat.pow_zero, Nat.div_one]); omega) ((key _ _).trans
    (okSome_eq (fop_code (m := op) (by (try simp only [fBits, wR3, Nat.pow_zero, Nat.div_one]); omega))
    (okIf_eq (by
    (repeat' with_reducible apply and_t) <;> first
      | (simp only [fX, fFlag, fBits, wR3, Nat.pow_zero, Nat.div_one, beq_iff_eq]; omega)
      | (apply decide_eq_true; simp only [fBits, wR3, Nat.pow_zero, Nat.div_one]; omega)
      | exact hs
      | exact hs.1
      | exact hs.2
      | exact hs.1.1
      | exact hs.1.2
      | exact or_r hs
      | (rw [flag_eq (b := w) (by simp only [wR3, Nat.pow_zero, Nat.div_one]; omega)]; exact hs)
      | (rcases hs with h | h
         · exact or_l h
         · exact or_r (by simp only [fBits, wR3, Nat.pow_zero, Nat.div_one, beq_iff_eq]; omega))) (by
    congr 1 <;> first
      | rfl
      | exact bv_eq (by (try simp only [wR3, Nat.pow_zero, Nat.div_one]); omega)
      | exact pm_eq (by (try simp only [wR3, Nat.pow_zero, Nat.div_one]); omega) (by (try simp only [wR3, Nat.pow_zero, Nat.div_one]); omega)
      | exact flag_eq (by (try simp only [wR3, Nat.pow_zero, Nat.div_one]); omega)
      | exact bob_code (by (try simp only [wR3, Nat.pow_zero, Nat.div_one]); omega)
      | exact board_eq (by (try simp only [wR3, Nat.pow_zero, Nat.div_one]); omega) (by (try simp only [wR3, Nat.pow_zero, Nat.div_one]); omega)))))

theorem vscl (td : Reg) (ta : Reg) (f : FIdx) (pm : PMod) (mode : RMode) (cols : Bool) : Statement (.vscl td ta f pm mode cols) := by
  intro hw _
  have := td.isLt; have := ta.isLt; have := f.isLt; have := pm.p.isLt; have := bit_lt pm.zero; have := rmode_lt mode; have := bit_lt cols
  have key : ∀ n w, decodeAt 0x9e n w none = okSome (RMode.ofCode (fBits n 2 3)) fun m => okIf (fBits n 13 1 == 0 && !fFlag n 1) (.vscl (fD n) (fA n) (BitVec.ofNat 4 (n / 2 ^ 9)) (fPMod n) m (fFlag n 0)) := fun _ _ => rfl
  exact short (op := 0x9e) (by (try simp only [fBits, wR3, xPM, Nat.pow_zero, Nat.div_one]); omega) (by (try simp only [fBits, wR3, xPM, Nat.pow_zero, Nat.div_one]); omega) ((key _ _).trans
    (okSome_eq (rmode_code (m := mode) (by (try simp only [fBits, wR3, xPM, Nat.pow_zero, Nat.div_one]); omega))
    (okIf_eq (by
    (repeat' with_reducible apply and_t) <;> first
      | (simp only [fX, fFlag, fBits, wR3, xPM, Nat.pow_zero, Nat.div_one, beq_iff_eq]; omega)
      | exact or_l rfl
      | (rw [flag_eq (b := false) (by simp only [wR3, xPM, Nat.pow_zero, Nat.div_one, show bit false = 0 from rfl]; omega)]; rfl)) (by
    congr 1 <;> first
      | rfl
      | exact bv_eq (by (try simp only [wR3, xPM, Nat.pow_zero, Nat.div_one]); omega)
      | exact pm_eq (by (try simp only [wR3, xPM, Nat.pow_zero, Nat.div_one]); omega) (by (try simp only [wR3, xPM, Nat.pow_zero, Nat.div_one]); omega)
      | exact flag_eq (by (try simp only [wR3, xPM, Nat.pow_zero, Nat.div_one]); omega)
      | exact bob_code (by (try simp only [wR3, xPM, Nat.pow_zero, Nat.div_one]); omega)
      | exact board_eq (by (try simp only [wR3, xPM, Nat.pow_zero, Nat.div_one]); omega) (by (try simp only [wR3, xPM, Nat.pow_zero, Nat.div_one]); omega)))))

theorem vrope (td : Reg) (ta : Reg) (f : FIdx) (pm : PMod) (mode : RMode) : Statement (.vrope td ta f pm mode) := by
  intro hw _
  have := td.isLt; have := ta.isLt; have := f.isLt; have := pm.p.isLt; have := bit_lt pm.zero; have := rmode_lt mode
  have key : ∀ n w, decodeAt 0x9f n w none = okSome (RMode.ofCode (fBits n 2 3)) fun m => okIf (fBits n 13 1 == 0 && fBits n 0 2 == 0) (.vrope (fD n) (fA n) (BitVec.ofNat 4 (n / 2 ^ 9)) (fPMod n) m) := fun _ _ => rfl
  exact short (op := 0x9f) (by (try simp only [fBits, wR3, xPM, Nat.pow_zero, Nat.div_one]); omega) (by (try simp only [fBits, wR3, xPM, Nat.pow_zero, Nat.div_one]); omega) ((key _ _).trans
    (okSome_eq (rmode_code (m := mode) (by (try simp only [fBits, wR3, xPM, Nat.pow_zero, Nat.div_one]); omega))
    (okIf_eq (by
    (repeat' with_reducible apply and_t) <;> first
      | (simp only [fX, fFlag, fBits, wR3, xPM, Nat.pow_zero, Nat.div_one, beq_iff_eq]; omega)
      | exact or_l rfl
      | (rw [flag_eq (b := false) (by simp only [wR3, xPM, Nat.pow_zero, Nat.div_one, show bit false = 0 from rfl]; omega)]; rfl)) (by
    congr 1 <;> first
      | rfl
      | exact bv_eq (by (try simp only [wR3, xPM, Nat.pow_zero, Nat.div_one]); omega)
      | exact pm_eq (by (try simp only [wR3, xPM, Nat.pow_zero, Nat.div_one]); omega) (by (try simp only [wR3, xPM, Nat.pow_zero, Nat.div_one]); omega)
      | exact flag_eq (by (try simp only [wR3, xPM, Nat.pow_zero, Nat.div_one]); omega)
      | exact bob_code (by (try simp only [wR3, xPM, Nat.pow_zero, Nat.div_one]); omega)
      | exact board_eq (by (try simp only [wR3, xPM, Nat.pow_zero, Nat.div_one]); omega) (by (try simp only [wR3, xPM, Nat.pow_zero, Nat.div_one]); omega)))))

theorem vgather (td : Reg) (ta : Reg) (tb : Reg) (pm : PMod) : Statement (.vgather td ta tb pm) := by
  intro hw _
  have := td.isLt; have := ta.isLt; have := tb.isLt; have := pm.p.isLt; have := bit_lt pm.zero
  have key : ∀ n w, decodeAt 0xa0 n w none = okIf (fBits n 0 5 == 0) (.vgather (fD n) (fA n) (fB n) (fPMod n)) := fun _ _ => rfl
  exact short (op := 0xa0) (by (try simp only [fBits, wR3, xPM, Nat.pow_zero, Nat.div_one]); omega) (by (try simp only [fBits, wR3, xPM, Nat.pow_zero, Nat.div_one]); omega) ((key _ _).trans
    (okIf_eq (by
    (repeat' with_reducible apply and_t) <;> first
      | (simp only [fX, fFlag, fBits, wR3, xPM, Nat.pow_zero, Nat.div_one, beq_iff_eq]; omega)
      | exact or_l rfl
      | (rw [flag_eq (b := false) (by simp only [wR3, xPM, Nat.pow_zero, Nat.div_one, show bit false = 0 from rfl]; omega)]; rfl)) (by
    congr 1 <;> first
      | rfl
      | exact bv_eq (by (try simp only [wR3, xPM, Nat.pow_zero, Nat.div_one]); omega)
      | exact pm_eq (by (try simp only [wR3, xPM, Nat.pow_zero, Nat.div_one]); omega) (by (try simp only [wR3, xPM, Nat.pow_zero, Nat.div_one]); omega)
      | exact flag_eq (by (try simp only [wR3, xPM, Nat.pow_zero, Nat.div_one]); omega)
      | exact bob_code (by (try simp only [wR3, xPM, Nat.pow_zero, Nat.div_one]); omega)
      | exact board_eq (by (try simp only [wR3, xPM, Nat.pow_zero, Nat.div_one]); omega) (by (try simp only [wR3, xPM, Nat.pow_zero, Nat.div_one]); omega))))

theorem vscat (td : Reg) (ta : Reg) (tb : Reg) (p : PIdx) : Statement (.vscat td ta tb p) := by
  intro hw _
  have := td.isLt; have := ta.isLt; have := tb.isLt; have := p.isLt
  have key : ∀ n w, decodeAt 0xa1 n w none = okIf (fBits n 0 6 == 0) (.vscat (fD n) (fA n) (fB n) (fPMod n).p) := fun _ _ => rfl
  exact short (op := 0xa1) (by (try simp only [fBits, wR3, Nat.pow_zero, Nat.div_one]); omega) (by (try simp only [fBits, wR3, Nat.pow_zero, Nat.div_one]); omega) ((key _ _).trans
    (okIf_eq (by
    (repeat' with_reducible apply and_t) <;> first
      | (simp only [fX, fFlag, fBits, wR3, Nat.pow_zero, Nat.div_one, beq_iff_eq]; omega)
      | exact or_l rfl
      | (rw [flag_eq (b := false) (by simp only [wR3, Nat.pow_zero, Nat.div_one, show bit false = 0 from rfl]; omega)]; rfl)) (by
    congr 1 <;> first
      | rfl
      | exact bv_eq (by (try simp only [wR3, Nat.pow_zero, Nat.div_one]); omega)
      | exact pm_eq (by (try simp only [wR3, Nat.pow_zero, Nat.div_one]); omega) (by (try simp only [wR3, Nat.pow_zero, Nat.div_one]); omega)
      | exact flag_eq (by (try simp only [wR3, Nat.pow_zero, Nat.div_one]); omega)
      | exact bob_code (by (try simp only [wR3, Nat.pow_zero, Nat.div_one]); omega)
      | exact board_eq (by (try simp only [wR3, Nat.pow_zero, Nat.div_one]); omega) (by (try simp only [wR3, Nat.pow_zero, Nat.div_one]); omega))))

theorem mnest (a : Reg) (level : BitVec 3) : Statement (.mnest a level) := by
  intro hw _
  simp only [Instr.wf, Bool.and_eq_true, decide_eq_true_eq] at hw
  have hs := hw
  have := a.isLt; have := level.isLt
  have key : ∀ n w, decodeAt 0xb1 n w none = okIf (fBits n 19 5 == 0 && fBits n 3 11 == 0 && fBits n 0 3 < 6) (.mnest (fA n) (BitVec.ofNat 3 n)) := fun _ _ => rfl
  exact short (op := 0xb1) (by (try simp only [fBits, wR3, Nat.pow_zero, Nat.div_one]); omega) (by (try simp only [fBits, wR3, Nat.pow_zero, Nat.div_one]); omega) ((key _ _).trans
    (okIf_eq (by
    (repeat' with_reducible apply and_t) <;> first
      | (simp only [fX, fFlag, fBits, wR3, Nat.pow_zero, Nat.div_one, beq_iff_eq]; omega)
      | (apply decide_eq_true; simp only [fBits, wR3, Nat.pow_zero, Nat.div_one]; omega)
      | exact hs
      | exact hs.1
      | exact hs.2
      | exact hs.1.1
      | exact hs.1.2
      | exact or_r hs
      | (rw [flag_eq (b := w) (by simp only [wR3, Nat.pow_zero, Nat.div_one]; omega)]; exact hs)
      | (rcases hs with h | h
         · exact or_l h
         · exact or_r (by simp only [fBits, wR3, Nat.pow_zero, Nat.div_one, beq_iff_eq]; omega))) (by
    congr 1 <;> first
      | rfl
      | exact bv_eq (by (try simp only [wR3, Nat.pow_zero, Nat.div_one]); omega)
      | exact pm_eq (by (try simp only [wR3, Nat.pow_zero, Nat.div_one]); omega) (by (try simp only [wR3, Nat.pow_zero, Nat.div_one]); omega)
      | exact flag_eq (by (try simp only [wR3, Nat.pow_zero, Nat.div_one]); omega)
      | exact bob_code (by (try simp only [wR3, Nat.pow_zero, Nat.div_one]); omega)
      | exact board_eq (by (try simp only [wR3, Nat.pow_zero, Nat.div_one]); omega) (by (try simp only [wR3, Nat.pow_zero, Nat.div_one]); omega))))

theorem mstep (d : Reg) (a : Reg) (b : Reg) (level : BitVec 3) : Statement (.mstep d a b level) := by
  intro hw _
  simp only [Instr.wf, Bool.and_eq_true, decide_eq_true_eq] at hw
  have hs := hw
  have := d.isLt; have := a.isLt; have := b.isLt; have := level.isLt
  have key : ∀ n w, decodeAt 0xb2 n w none = okIf (fBits n 3 6 == 0 && fBits n 0 3 < 6) (.mstep (fD n) (fA n) (fB n) (BitVec.ofNat 3 n)) := fun _ _ => rfl
  exact short (op := 0xb2) (by (try simp only [fBits, wR3, Nat.pow_zero, Nat.div_one]); omega) (by (try simp only [fBits, wR3, Nat.pow_zero, Nat.div_one]); omega) ((key _ _).trans
    (okIf_eq (by
    (repeat' with_reducible apply and_t) <;> first
      | (simp only [fX, fFlag, fBits, wR3, Nat.pow_zero, Nat.div_one, beq_iff_eq]; omega)
      | (apply decide_eq_true; simp only [fBits, wR3, Nat.pow_zero, Nat.div_one]; omega)
      | exact hs
      | exact hs.1
      | exact hs.2
      | exact hs.1.1
      | exact hs.1.2
      | exact or_r hs
      | (rw [flag_eq (b := w) (by simp only [wR3, Nat.pow_zero, Nat.div_one]; omega)]; exact hs)
      | (rcases hs with h | h
         · exact or_l h
         · exact or_r (by simp only [fBits, wR3, Nat.pow_zero, Nat.div_one, beq_iff_eq]; omega))) (by
    congr 1 <;> first
      | rfl
      | exact bv_eq (by (try simp only [wR3, Nat.pow_zero, Nat.div_one]); omega)
      | exact pm_eq (by (try simp only [wR3, Nat.pow_zero, Nat.div_one]); omega) (by (try simp only [wR3, Nat.pow_zero, Nat.div_one]); omega)
      | exact flag_eq (by (try simp only [wR3, Nat.pow_zero, Nat.div_one]); omega)
      | exact bob_code (by (try simp only [wR3, Nat.pow_zero, Nat.div_one]); omega)
      | exact board_eq (by (try simp only [wR3, Nat.pow_zero, Nat.div_one]); omega) (by (try simp only [wR3, Nat.pow_zero, Nat.div_one]); omega))))

theorem mzero (r : AIdx) : Statement (.mzero r) := by
  intro hw _
  have := r.isLt
  have key : ∀ n w, decodeAt 0xb8 n w none = okIf (fBits n 3 21 == 0) (.mzero (BitVec.ofNat 3 n)) := fun _ _ => rfl
  exact short (op := 0xb8) (by (try simp only [fBits, wR3, Nat.pow_zero, Nat.div_one]); omega) (by (try simp only [fBits, wR3, Nat.pow_zero, Nat.div_one]); omega) ((key _ _).trans
    (okIf_eq (by
    (repeat' with_reducible apply and_t) <;> first
      | (simp only [fX, fFlag, fBits, wR3, Nat.pow_zero, Nat.div_one, beq_iff_eq]; omega)
      | exact or_l rfl
      | (rw [flag_eq (b := false) (by simp only [wR3, Nat.pow_zero, Nat.div_one, show bit false = 0 from rfl]; omega)]; rfl)) (by
    congr 1 <;> first
      | rfl
      | exact bv_eq (by (try simp only [wR3, Nat.pow_zero, Nat.div_one]); omega)
      | exact pm_eq (by (try simp only [wR3, Nat.pow_zero, Nat.div_one]); omega) (by (try simp only [wR3, Nat.pow_zero, Nat.div_one]); omega)
      | exact flag_eq (by (try simp only [wR3, Nat.pow_zero, Nat.div_one]); omega)
      | exact bob_code (by (try simp only [wR3, Nat.pow_zero, Nat.div_one]); omega)
      | exact board_eq (by (try simp only [wR3, Nat.pow_zero, Nat.div_one]); omega) (by (try simp only [wR3, Nat.pow_zero, Nat.div_one]); omega))))

theorem mdrain (a : Reg) (b : Reg) (r : AIdx) (tag : Tag) (rmode : RMode) (mode : DrainMode) : Statement (.mdrain a b r tag rmode mode) := by
  intro hw _
  simp only [Instr.wf, Bool.and_eq_true, decide_eq_true_eq] at hw
  have hs := hw
  have := a.isLt; have := b.isLt; have := r.isLt; have := tag_lt tag; have := rmode_lt rmode; have := drain_lt mode
  have key : ∀ n w2, decodeLong 0xb9 n w2 = okSome (Tag.ofCode (fBits w2 5 5)) fun tag => okSome (RMode.ofCode (fBits w2 2 3)) fun rm => okSome (DrainMode.ofCode (fBits w2 0 2)) fun dm => okIf (fBits n 19 5 == 0 && fBits n 3 6 == 0 && fBits w2 10 22 == 0) (.mdrain (fA n) (fB n) (BitVec.ofNat 3 n) tag rm dm) := fun _ _ => rfl
  exact long (op := 0xb9) (by (try simp only [fBits, wR3, Nat.pow_zero, Nat.div_one]); omega) (by (try simp only [fBits, wR3, Nat.pow_zero, Nat.div_one]); omega) (by (try simp only [fBits, wR3, Nat.pow_zero, Nat.div_one]); omega) (fun _ _ _ => rfl) ((key _ _).trans
    (okSome_eq (tag_code (t := tag) (by (try simp only [fBits, wR3, Nat.pow_zero, Nat.div_one]); omega) (bne_iff_ne.mp hw))
    (okSome_eq (rmode_code (m := rmode) (by (try simp only [fBits, wR3, Nat.pow_zero, Nat.div_one]); omega))
    (okSome_eq (drain_code (m := mode) (by (try simp only [fBits, wR3, Nat.pow_zero, Nat.div_one]); omega))
    (okIf_eq (by
    (repeat' with_reducible apply and_t) <;> first
      | (simp only [fX, fFlag, fBits, wR3, Nat.pow_zero, Nat.div_one, beq_iff_eq]; omega)
      | (apply decide_eq_true; simp only [fBits, wR3, Nat.pow_zero, Nat.div_one]; omega)
      | exact hs
      | exact hs.1
      | exact hs.2
      | exact hs.1.1
      | exact hs.1.2
      | exact or_r hs
      | (rw [flag_eq (b := w) (by simp only [wR3, Nat.pow_zero, Nat.div_one]; omega)]; exact hs)
      | (rcases hs with h | h
         · exact or_l h
         · exact or_r (by simp only [fBits, wR3, Nat.pow_zero, Nat.div_one, beq_iff_eq]; omega))) (by
    congr 1 <;> first
      | rfl
      | exact bv_eq (by (try simp only [wR3, Nat.pow_zero, Nat.div_one]); omega)
      | exact pm_eq (by (try simp only [wR3, Nat.pow_zero, Nat.div_one]); omega) (by (try simp only [wR3, Nat.pow_zero, Nat.div_one]); omega)
      | exact flag_eq (by (try simp only [wR3, Nat.pow_zero, Nat.div_one]); omega)
      | exact bob_code (by (try simp only [wR3, Nat.pow_zero, Nat.div_one]); omega)
      | exact board_eq (by (try simp only [wR3, Nat.pow_zero, Nat.div_one]); omega) (by (try simp only [wR3, Nat.pow_zero, Nat.div_one]); omega)))))))

theorem mprog (n : BitVec 4) : Statement (.mprog n) := by
  intro hw _
  have := n.isLt
  have key : ∀ n w, decodeAt 0xba n w none = okIf (fBits n 4 20 == 0) (.mprog (BitVec.ofNat 4 n)) := fun _ _ => rfl
  exact short (op := 0xba) (by (try simp only [fBits, wR3, Nat.pow_zero, Nat.div_one]); omega) (by (try simp only [fBits, wR3, Nat.pow_zero, Nat.div_one]); omega) ((key _ _).trans
    (okIf_eq (by
    (repeat' with_reducible apply and_t) <;> first
      | (simp only [fX, fFlag, fBits, wR3, Nat.pow_zero, Nat.div_one, beq_iff_eq]; omega)
      | exact or_l rfl
      | (rw [flag_eq (b := false) (by simp only [wR3, Nat.pow_zero, Nat.div_one, show bit false = 0 from rfl]; omega)]; rfl)) (by
    congr 1 <;> first
      | rfl
      | exact bv_eq (by (try simp only [wR3, Nat.pow_zero, Nat.div_one]); omega)
      | exact pm_eq (by (try simp only [wR3, Nat.pow_zero, Nat.div_one]); omega) (by (try simp only [wR3, Nat.pow_zero, Nat.div_one]); omega)
      | exact flag_eq (by (try simp only [wR3, Nat.pow_zero, Nat.div_one]); omega)
      | exact bob_code (by (try simp only [wR3, Nat.pow_zero, Nat.div_one]); omega)
      | exact board_eq (by (try simp only [wR3, Nat.pow_zero, Nat.div_one]); omega) (by (try simp only [wR3, Nat.pow_zero, Nat.div_one]); omega))))

theorem cshape (a : Reg) (entry : BitVec 4) : Statement (.cshape a entry) := by
  intro hw _
  have := a.isLt; have := entry.isLt
  have key : ∀ n w, decodeAt 0xc8 n w none = okIf (fBits n 19 5 == 0 && fBits n 4 10 == 0) (.cshape (fA n) (BitVec.ofNat 4 n)) := fun _ _ => rfl
  exact short (op := 0xc8) (by (try simp only [fBits, wR3, Nat.pow_zero, Nat.div_one]); omega) (by (try simp only [fBits, wR3, Nat.pow_zero, Nat.div_one]); omega) ((key _ _).trans
    (okIf_eq (by
    (repeat' with_reducible apply and_t) <;> first
      | (simp only [fX, fFlag, fBits, wR3, Nat.pow_zero, Nat.div_one, beq_iff_eq]; omega)
      | exact or_l rfl
      | (rw [flag_eq (b := false) (by simp only [wR3, Nat.pow_zero, Nat.div_one, show bit false = 0 from rfl]; omega)]; rfl)) (by
    congr 1 <;> first
      | rfl
      | exact bv_eq (by (try simp only [wR3, Nat.pow_zero, Nat.div_one]); omega)
      | exact pm_eq (by (try simp only [wR3, Nat.pow_zero, Nat.div_one]); omega) (by (try simp only [wR3, Nat.pow_zero, Nat.div_one]); omega)
      | exact flag_eq (by (try simp only [wR3, Nat.pow_zero, Nat.div_one]); omega)
      | exact bob_code (by (try simp only [wR3, Nat.pow_zero, Nat.div_one]); omega)
      | exact board_eq (by (try simp only [wR3, Nat.pow_zero, Nat.div_one]); omega) (by (try simp only [wR3, Nat.pow_zero, Nat.div_one]); omega))))

theorem ccopy (a : Reg) (b : Reg) (comp : Completion) : Statement (.ccopy a b comp) := by
  intro hw _
  simp only [Instr.wf, Bool.and_eq_true, decide_eq_true_eq] at hw
  have hs := hw
  have := a.isLt; have := b.isLt; have := comp.cap.isLt; have := comp.ring.isLt; have := comp.shape.isLt; have := scope_lt comp.bscope; have := bit_lt comp.barr; have := bit_lt comp.notify; have := bit_lt comp.fill
  have key : ∀ n w2, decodeLong 0xc9 n w2 = dCopy n w2 false .ccopy := fun _ _ => rfl
  exact long (op := 0xc9) (by (try simp only [fBits, wR3, encComp, Nat.pow_zero, Nat.div_one]); omega) (by (try simp only [fBits, wR3, encComp, Nat.pow_zero, Nat.div_one]); omega) (by (try simp only [fBits, wR3, encComp, Nat.pow_zero, Nat.div_one]); omega) (fun _ _ _ => rfl) ((key _ _).trans
    ((completion (by decide)).trans (okIf_eq (by
    (repeat' with_reducible apply and_t) <;> first
      | (simp only [fX, fFlag, fBits, wR3, encComp, Nat.pow_zero, Nat.div_one, beq_iff_eq]; omega)
      | (apply decide_eq_true; simp only [fBits, wR3, encComp, Nat.pow_zero, Nat.div_one]; omega)
      | exact hs
      | exact hs.1
      | exact hs.2
      | exact hs.1.1
      | exact hs.1.2
      | exact or_r hs
      | (rw [flag_eq (b := w) (by simp only [wR3, encComp, Nat.pow_zero, Nat.div_one]; omega)]; exact hs)
      | (rcases hs with h | h
         · exact or_l h
         · exact or_r (by simp only [fBits, wR3, encComp, Nat.pow_zero, Nat.div_one, beq_iff_eq]; omega))) (by
    congr 1 <;> first
      | rfl
      | exact bv_eq (by (try simp only [wR3, encComp, Nat.pow_zero, Nat.div_one]); omega)
      | exact pm_eq (by (try simp only [wR3, encComp, Nat.pow_zero, Nat.div_one]); omega) (by (try simp only [wR3, encComp, Nat.pow_zero, Nat.div_one]); omega)
      | exact flag_eq (by (try simp only [wR3, encComp, Nat.pow_zero, Nat.div_one]); omega)
      | exact bob_code (by (try simp only [wR3, encComp, Nat.pow_zero, Nat.div_one]); omega)
      | exact board_eq (by (try simp only [wR3, encComp, Nat.pow_zero, Nat.div_one]); omega) (by (try simp only [wR3, encComp, Nat.pow_zero, Nat.div_one]); omega)))))

theorem cpush (a : Reg) (b : Reg) (comp : Completion) : Statement (.cpush a b comp) := by
  intro hw _
  have := a.isLt; have := b.isLt; have := comp.cap.isLt; have := comp.ring.isLt; have := comp.shape.isLt; have := scope_lt comp.bscope; have := bit_lt comp.barr; have := bit_lt comp.notify; have := bit_lt comp.fill
  have key : ∀ n w2, decodeLong 0xca n w2 = dCopy n w2 true .cpush := fun _ _ => rfl
  exact long (op := 0xca) (by (try simp only [fBits, wR3, encComp, Nat.pow_zero, Nat.div_one]); omega) (by (try simp only [fBits, wR3, encComp, Nat.pow_zero, Nat.div_one]); omega) (by (try simp only [fBits, wR3, encComp, Nat.pow_zero, Nat.div_one]); omega) (fun _ _ _ => rfl) ((key _ _).trans
    ((completion (by decide)).trans (okIf_eq (by
    (repeat' with_reducible apply and_t) <;> first
      | (simp only [fX, fFlag, fBits, wR3, encComp, Nat.pow_zero, Nat.div_one, beq_iff_eq]; omega)
      | exact or_l rfl
      | (rw [flag_eq (b := false) (by simp only [wR3, encComp, Nat.pow_zero, Nat.div_one, show bit false = 0 from rfl]; omega)]; rfl)) (by
    congr 1 <;> first
      | rfl
      | exact bv_eq (by (try simp only [wR3, encComp, Nat.pow_zero, Nat.div_one]); omega)
      | exact pm_eq (by (try simp only [wR3, encComp, Nat.pow_zero, Nat.div_one]); omega) (by (try simp only [wR3, encComp, Nat.pow_zero, Nat.div_one]); omega)
      | exact flag_eq (by (try simp only [wR3, encComp, Nat.pow_zero, Nat.div_one]); omega)
      | exact bob_code (by (try simp only [wR3, encComp, Nat.pow_zero, Nat.div_one]); omega)
      | exact board_eq (by (try simp only [wR3, encComp, Nat.pow_zero, Nat.div_one]); omega) (by (try simp only [wR3, encComp, Nat.pow_zero, Nat.div_one]); omega)))))

theorem cpull (a : Reg) (b : Reg) (comp : Completion) : Statement (.cpull a b comp) := by
  intro hw _
  have := a.isLt; have := b.isLt; have := comp.cap.isLt; have := comp.ring.isLt; have := comp.shape.isLt; have := scope_lt comp.bscope; have := bit_lt comp.barr; have := bit_lt comp.notify; have := bit_lt comp.fill
  have key : ∀ n w2, decodeLong 0xcb n w2 = dCopy n w2 true .cpull := fun _ _ => rfl
  exact long (op := 0xcb) (by (try simp only [fBits, wR3, encComp, Nat.pow_zero, Nat.div_one]); omega) (by (try simp only [fBits, wR3, encComp, Nat.pow_zero, Nat.div_one]); omega) (by (try simp only [fBits, wR3, encComp, Nat.pow_zero, Nat.div_one]); omega) (fun _ _ _ => rfl) ((key _ _).trans
    ((completion (by decide)).trans (okIf_eq (by
    (repeat' with_reducible apply and_t) <;> first
      | (simp only [fX, fFlag, fBits, wR3, encComp, Nat.pow_zero, Nat.div_one, beq_iff_eq]; omega)
      | exact or_l rfl
      | (rw [flag_eq (b := false) (by simp only [wR3, encComp, Nat.pow_zero, Nat.div_one, show bit false = 0 from rfl]; omega)]; rfl)) (by
    congr 1 <;> first
      | rfl
      | exact bv_eq (by (try simp only [wR3, encComp, Nat.pow_zero, Nat.div_one]); omega)
      | exact pm_eq (by (try simp only [wR3, encComp, Nat.pow_zero, Nat.div_one]); omega) (by (try simp only [wR3, encComp, Nat.pow_zero, Nat.div_one]); omega)
      | exact flag_eq (by (try simp only [wR3, encComp, Nat.pow_zero, Nat.div_one]); omega)
      | exact bob_code (by (try simp only [wR3, encComp, Nat.pow_zero, Nat.div_one]); omega)
      | exact board_eq (by (try simp only [wR3, encComp, Nat.pow_zero, Nat.div_one]); omega) (by (try simp only [wR3, encComp, Nat.pow_zero, Nat.div_one]); omega)))))

theorem cmcast (a : Reg) (b : Reg) (comp : Completion) : Statement (.cmcast a b comp) := by
  intro hw _
  simp only [Instr.wf, Bool.and_eq_true, decide_eq_true_eq] at hw
  have hs := hw
  have := a.isLt; have := b.isLt; have := comp.cap.isLt; have := comp.ring.isLt; have := comp.shape.isLt; have := scope_lt comp.bscope; have := bit_lt comp.barr; have := bit_lt comp.notify; have := bit_lt comp.fill
  have key : ∀ n w2, decodeLong 0xcc n w2 = dCompletion w2 fun c => okIf (fBits n 19 5 == 0 && fX n == 0 && fBits w2 20 2 == 0 && !c.fill && c.ring == 0) (.cmcast (fA n) (fB n) c) := fun _ _ => rfl
  exact long (op := 0xcc) (by (try simp only [fBits, wR3, encComp, Nat.pow_zero, Nat.div_one]); omega) (by (try simp only [fBits, wR3, encComp, Nat.pow_zero, Nat.div_one]); omega) (by (try simp only [fBits, wR3, encComp, Nat.pow_zero, Nat.div_one]); omega) (fun _ _ _ => rfl) ((key _ _).trans
    ((completion (by omega)).trans
    (okIf_eq (by
    (repeat' with_reducible apply and_t) <;> first
      | (simp only [fX, fFlag, fBits, wR3, encComp, Nat.pow_zero, Nat.div_one, beq_iff_eq]; omega)
      | (apply decide_eq_true; simp only [fBits, wR3, encComp, Nat.pow_zero, Nat.div_one]; omega)
      | exact hs
      | exact hs.1
      | exact hs.2
      | exact hs.1.1
      | exact hs.1.2
      | exact or_r hs
      | (rw [flag_eq (b := w) (by simp only [wR3, encComp, Nat.pow_zero, Nat.div_one]; omega)]; exact hs)
      | (rcases hs with h | h
         · exact or_l h
         · exact or_r (by simp only [fBits, wR3, encComp, Nat.pow_zero, Nat.div_one, beq_iff_eq]; omega))) (by
    congr 1 <;> first
      | rfl
      | exact bv_eq (by (try simp only [wR3, encComp, Nat.pow_zero, Nat.div_one]); omega)
      | exact pm_eq (by (try simp only [wR3, encComp, Nat.pow_zero, Nat.div_one]); omega) (by (try simp only [wR3, encComp, Nat.pow_zero, Nat.div_one]); omega)
      | exact flag_eq (by (try simp only [wR3, encComp, Nat.pow_zero, Nat.div_one]); omega)
      | exact bob_code (by (try simp only [wR3, encComp, Nat.pow_zero, Nat.div_one]); omega)
      | exact board_eq (by (try simp only [wR3, encComp, Nat.pow_zero, Nat.div_one]); omega) (by (try simp only [wR3, encComp, Nat.pow_zero, Nat.div_one]); omega)))))

theorem cpage (a : Reg) (b : Reg) (comp : Completion) : Statement (.cpage a b comp) := by
  intro hw _
  simp only [Instr.wf, Bool.and_eq_true, decide_eq_true_eq] at hw
  have hs := hw
  have := a.isLt; have := b.isLt; have := comp.cap.isLt; have := comp.ring.isLt; have := comp.shape.isLt; have := scope_lt comp.bscope; have := bit_lt comp.barr; have := bit_lt comp.notify; have := bit_lt comp.fill
  have key : ∀ n w2, decodeLong 0xce n w2 = dCopy n w2 false .cpage := fun _ _ => rfl
  exact long (op := 0xce) (by (try simp only [fBits, wR3, encComp, Nat.pow_zero, Nat.div_one]); omega) (by (try simp only [fBits, wR3, encComp, Nat.pow_zero, Nat.div_one]); omega) (by (try simp only [fBits, wR3, encComp, Nat.pow_zero, Nat.div_one]); omega) (fun _ _ _ => rfl) ((key _ _).trans
    ((completion (by decide)).trans (okIf_eq (by
    (repeat' with_reducible apply and_t) <;> first
      | (simp only [fX, fFlag, fBits, wR3, encComp, Nat.pow_zero, Nat.div_one, beq_iff_eq]; omega)
      | (apply decide_eq_true; simp only [fBits, wR3, encComp, Nat.pow_zero, Nat.div_one]; omega)
      | exact hs
      | exact hs.1
      | exact hs.2
      | exact hs.1.1
      | exact hs.1.2
      | exact or_r hs
      | (rw [flag_eq (b := w) (by simp only [wR3, encComp, Nat.pow_zero, Nat.div_one]; omega)]; exact hs)
      | (rcases hs with h | h
         · exact or_l h
         · exact or_r (by simp only [fBits, wR3, encComp, Nat.pow_zero, Nat.div_one, beq_iff_eq]; omega))) (by
    congr 1 <;> first
      | rfl
      | exact bv_eq (by (try simp only [wR3, encComp, Nat.pow_zero, Nat.div_one]); omega)
      | exact pm_eq (by (try simp only [wR3, encComp, Nat.pow_zero, Nat.div_one]); omega) (by (try simp only [wR3, encComp, Nat.pow_zero, Nat.div_one]); omega)
      | exact flag_eq (by (try simp only [wR3, encComp, Nat.pow_zero, Nat.div_one]); omega)
      | exact bob_code (by (try simp only [wR3, encComp, Nat.pow_zero, Nat.div_one]); omega)
      | exact board_eq (by (try simp only [wR3, encComp, Nat.pow_zero, Nat.div_one]); omega) (by (try simp only [wR3, encComp, Nat.pow_zero, Nat.div_one]); omega)))))

theorem cred (a : Reg) (b : Reg) (op : CredOp) (comp : Completion) : Statement (.cred a b op comp) := by
  intro hw _
  simp only [Instr.wf, Bool.and_eq_true, decide_eq_true_eq] at hw
  have hs := hw
  have := a.isLt; have := b.isLt; have := cred_lt op; have := comp.cap.isLt; have := comp.ring.isLt; have := comp.shape.isLt; have := scope_lt comp.bscope; have := bit_lt comp.barr; have := bit_lt comp.notify; have := bit_lt comp.fill
  have key : ∀ n w2, decodeLong 0xcd n w2 = dCompletion w2 fun c => okSome (CredOp.ofCode (fBits w2 20 2)) fun o => okIf (fBits n 19 5 == 0 && fX n == 0 && c.cap == 0) (.cred (fA n) (fB n) o c) := fun _ _ => rfl
  exact long (op := 0xcd) (by (try simp only [fBits, wR3, encComp, Nat.pow_zero, Nat.div_one]); omega) (by (try simp only [fBits, wR3, encComp, Nat.pow_zero, Nat.div_one]); omega) (by (try simp only [fBits, wR3, encComp, Nat.pow_zero, Nat.div_one]); omega) (fun _ _ _ => rfl) ((key _ _).trans
    ((completion (by omega)).trans
    (okSome_eq (cred_code (m := op) (by (try simp only [fBits, wR3, encComp, Nat.pow_zero, Nat.div_one]); omega))
    (okIf_eq (by
    (repeat' with_reducible apply and_t) <;> first
      | (simp only [fX, fFlag, fBits, wR3, encComp, Nat.pow_zero, Nat.div_one, beq_iff_eq]; omega)
      | (apply decide_eq_true; simp only [fBits, wR3, encComp, Nat.pow_zero, Nat.div_one]; omega)
      | exact hs
      | exact hs.1
      | exact hs.2
      | exact hs.1.1
      | exact hs.1.2
      | exact or_r hs
      | (rw [flag_eq (b := w) (by simp only [wR3, encComp, Nat.pow_zero, Nat.div_one]; omega)]; exact hs)
      | (rcases hs with h | h
         · exact or_l h
         · exact or_r (by simp only [fBits, wR3, encComp, Nat.pow_zero, Nat.div_one, beq_iff_eq]; omega))) (by
    congr 1 <;> first
      | rfl
      | exact bv_eq (by (try simp only [wR3, encComp, Nat.pow_zero, Nat.div_one]); omega)
      | exact pm_eq (by (try simp only [wR3, encComp, Nat.pow_zero, Nat.div_one]); omega) (by (try simp only [wR3, encComp, Nat.pow_zero, Nat.div_one]); omega)
      | exact flag_eq (by (try simp only [wR3, encComp, Nat.pow_zero, Nat.div_one]); omega)
      | exact bob_code (by (try simp only [wR3, encComp, Nat.pow_zero, Nat.div_one]); omega)
      | exact board_eq (by (try simp only [wR3, encComp, Nat.pow_zero, Nat.div_one]); omega) (by (try simp only [wR3, encComp, Nat.pow_zero, Nat.div_one]); omega))))))

theorem ccode (d : Reg) (a : Reg) (b : Reg) (comp : Completion) : Statement (.ccode d a b comp) := by
  intro hw _
  simp only [Instr.wf, Bool.and_eq_true, decide_eq_true_eq] at hw
  have hs := hw
  have := d.isLt; have := a.isLt; have := b.isLt; have := comp.cap.isLt; have := comp.ring.isLt; have := comp.shape.isLt; have := scope_lt comp.bscope; have := bit_lt comp.barr; have := bit_lt comp.notify; have := bit_lt comp.fill
  have key : ∀ n w2, decodeLong 0xcf n w2 = dCompletion w2 fun c => okIf (fX n == 0 && fBits w2 20 2 == 0 && c.cap == 0 && c.shape == 0) (.ccode (fD n) (fA n) (fB n) c) := fun _ _ => rfl
  exact long (op := 0xcf) (by (try simp only [fBits, wR3, encComp, Nat.pow_zero, Nat.div_one]); omega) (by (try simp only [fBits, wR3, encComp, Nat.pow_zero, Nat.div_one]); omega) (by (try simp only [fBits, wR3, encComp, Nat.pow_zero, Nat.div_one]); omega) (fun _ _ _ => rfl) ((key _ _).trans
    ((completion (by omega)).trans
    (okIf_eq (by
    (repeat' with_reducible apply and_t) <;> first
      | (simp only [fX, fFlag, fBits, wR3, encComp, Nat.pow_zero, Nat.div_one, beq_iff_eq]; omega)
      | (apply decide_eq_true; simp only [fBits, wR3, encComp, Nat.pow_zero, Nat.div_one]; omega)
      | exact hs
      | exact hs.1
      | exact hs.2
      | exact hs.1.1
      | exact hs.1.2
      | exact or_r hs
      | (rw [flag_eq (b := w) (by simp only [wR3, encComp, Nat.pow_zero, Nat.div_one]; omega)]; exact hs)
      | (rcases hs with h | h
         · exact or_l h
         · exact or_r (by simp only [fBits, wR3, encComp, Nat.pow_zero, Nat.div_one, beq_iff_eq]; omega))) (by
    congr 1 <;> first
      | rfl
      | exact bv_eq (by (try simp only [wR3, encComp, Nat.pow_zero, Nat.div_one]); omega)
      | exact pm_eq (by (try simp only [wR3, encComp, Nat.pow_zero, Nat.div_one]); omega) (by (try simp only [wR3, encComp, Nat.pow_zero, Nat.div_one]); omega)
      | exact flag_eq (by (try simp only [wR3, encComp, Nat.pow_zero, Nat.div_one]); omega)
      | exact bob_code (by (try simp only [wR3, encComp, Nat.pow_zero, Nat.div_one]); omega)
      | exact board_eq (by (try simp only [wR3, encComp, Nat.pow_zero, Nat.div_one]); omega) (by (try simp only [wR3, encComp, Nat.pow_zero, Nat.div_one]); omega)))))

theorem cattn (d : Reg) (a : Reg) (b : Reg) (comp : Completion) : Statement (.cattn d a b comp) := by
  intro hw _
  simp only [Instr.wf, Bool.and_eq_true, decide_eq_true_eq] at hw
  have hs := hw
  have := d.isLt; have := a.isLt; have := b.isLt; have := comp.cap.isLt; have := comp.ring.isLt; have := comp.shape.isLt; have := scope_lt comp.bscope; have := bit_lt comp.barr; have := bit_lt comp.notify; have := bit_lt comp.fill
  have key : ∀ n w2, decodeLong 0xd2 n w2 = dCompletion w2 fun c => okIf (fX n == 0 && fBits w2 20 2 == 0 && c.cap == 0 && c.shape == 0 && c.fill) (.cattn (fD n) (fA n) (fB n) c) := fun _ _ => rfl
  exact long (op := 0xd2) (by (try simp only [fBits, wR3, encComp, Nat.pow_zero, Nat.div_one]); omega) (by (try simp only [fBits, wR3, encComp, Nat.pow_zero, Nat.div_one]); omega) (by (try simp only [fBits, wR3, encComp, Nat.pow_zero, Nat.div_one]); omega) (fun _ _ _ => rfl) ((key _ _).trans
    ((completion (by omega)).trans
    (okIf_eq (by
    (repeat' with_reducible apply and_t) <;> first
      | (simp only [fX, fFlag, fBits, wR3, encComp, Nat.pow_zero, Nat.div_one, beq_iff_eq]; omega)
      | (apply decide_eq_true; simp only [fBits, wR3, encComp, Nat.pow_zero, Nat.div_one]; omega)
      | exact hs
      | exact hs.1
      | exact hs.2
      | exact hs.1.1
      | exact hs.1.2
      | exact or_r hs
      | (rw [flag_eq (b := w) (by simp only [wR3, encComp, Nat.pow_zero, Nat.div_one]; omega)]; exact hs)
      | (rcases hs with h | h
         · exact or_l h
         · exact or_r (by simp only [fBits, wR3, encComp, Nat.pow_zero, Nat.div_one, beq_iff_eq]; omega))) (by
    congr 1 <;> first
      | rfl
      | exact bv_eq (by (try simp only [wR3, encComp, Nat.pow_zero, Nat.div_one]); omega)
      | exact pm_eq (by (try simp only [wR3, encComp, Nat.pow_zero, Nat.div_one]); omega) (by (try simp only [wR3, encComp, Nat.pow_zero, Nat.div_one]); omega)
      | exact flag_eq (by (try simp only [wR3, encComp, Nat.pow_zero, Nat.div_one]); omega)
      | exact bob_code (by (try simp only [wR3, encComp, Nat.pow_zero, Nat.div_one]); omega)
      | exact board_eq (by (try simp only [wR3, encComp, Nat.pow_zero, Nat.div_one]); omega) (by (try simp only [wR3, encComp, Nat.pow_zero, Nat.div_one]); omega)))))


theorem neg_of {c : Prop} [Decidable c] {x y z : Instr} (h : ¬ c) (e : y = z) : (if c then x else y) = z := (if_neg h).trans e

theorem csrw (a : Reg) (n : BitVec 12) : Statement (.csrw a n) := by
  intro hw _
  simp only [Instr.wf, Bool.and_eq_true, bne_iff_ne, ne_eq] at hw
  have h5 : n.toNat ≠ 5 := fun h => hw.1 (BitVec.eq_of_toNat_eq (by simpa using h))
  have h6 : n.toNat ≠ 6 := fun h => hw.2 (BitVec.eq_of_toNat_eq (by simpa using h))
  have := a.isLt; have := n.isLt
  have key : ∀ n w, decodeAt 0x3A n w none = okIf (fBits n 12 2 == 0 && fBits n 19 5 == 0) (if fBits n 0 12 == 6 then .srseedWrite (fA n) else if fBits n 0 12 == 5 then .retmodeWrite (fA n) else .csrw (fA n) (BitVec.ofNat 12 n)) := fun _ _ => rfl
  exact short (op := 0x3A) (by (try simp only [fBits, wRI, Nat.pow_zero, Nat.div_one]); omega) (by (try simp only [fBits, wRI, Nat.pow_zero, Nat.div_one]); omega) ((key _ _).trans <| okIf_eq (by
    (repeat' with_reducible apply and_t) <;> first
      | (simp only [fX, fFlag, fBits, wRI, Nat.pow_zero, Nat.div_one, beq_iff_eq]; omega)
      | exact or_l rfl
      | (rw [flag_eq (b := false) (by simp only [wRI, Nat.pow_zero, Nat.div_one, show bit false = 0 from rfl]; omega)]; rfl))
    (neg_of (by simp only [fBits, wRI, Nat.pow_zero, Nat.div_one, beq_iff_eq] <;> omega) (neg_of (by simp only [fBits, wRI, Nat.pow_zero, Nat.div_one, beq_iff_eq] <;> omega) (by
    congr 1 <;> first
      | rfl
      | exact bv_eq (by (try simp only [wRI, Nat.pow_zero, Nat.div_one]); omega)
      | exact pm_eq (by (try simp only [wRI, Nat.pow_zero, Nat.div_one]); omega) (by (try simp only [wRI, Nat.pow_zero, Nat.div_one]); omega)
      | exact flag_eq (by (try simp only [wRI, Nat.pow_zero, Nat.div_one]); omega)
      | exact bob_code (by (try simp only [wRI, Nat.pow_zero, Nat.div_one]); omega)
      | exact board_eq (by (try simp only [wRI, Nat.pow_zero, Nat.div_one]); omega) (by (try simp only [wRI, Nat.pow_zero, Nat.div_one]); omega)))))

theorem srseedWrite (a : Reg) : Statement (.srseedWrite a) := by
  intro _ _
  have := a.isLt
  have key : ∀ n w, decodeAt 0x3A n w none = okIf (fBits n 12 2 == 0 && fBits n 19 5 == 0) (if fBits n 0 12 == 6 then .srseedWrite (fA n) else if fBits n 0 12 == 5 then .retmodeWrite (fA n) else .csrw (fA n) (BitVec.ofNat 12 n)) := fun _ _ => rfl
  exact short (op := 0x3A) (by (try simp only [fBits, wRI, Nat.pow_zero, Nat.div_one]); omega) (by (try simp only [fBits, wRI, Nat.pow_zero, Nat.div_one]); omega) ((key _ _).trans <| okIf_eq (by
    (repeat' with_reducible apply and_t) <;> first
      | (simp only [fX, fFlag, fBits, wRI, Nat.pow_zero, Nat.div_one, beq_iff_eq]; omega)
      | exact or_l rfl
      | (rw [flag_eq (b := false) (by simp only [wRI, Nat.pow_zero, Nat.div_one, show bit false = 0 from rfl]; omega)]; rfl))
    ((if_pos (by simp only [fBits, wRI, Nat.pow_zero, Nat.div_one, beq_iff_eq] <;> omega)).trans (by
    congr 1 <;> first
      | rfl
      | exact bv_eq (by (try simp only [wRI, Nat.pow_zero, Nat.div_one]); omega)
      | exact pm_eq (by (try simp only [wRI, Nat.pow_zero, Nat.div_one]); omega) (by (try simp only [wRI, Nat.pow_zero, Nat.div_one]); omega)
      | exact flag_eq (by (try simp only [wRI, Nat.pow_zero, Nat.div_one]); omega)
      | exact bob_code (by (try simp only [wRI, Nat.pow_zero, Nat.div_one]); omega)
      | exact board_eq (by (try simp only [wRI, Nat.pow_zero, Nat.div_one]); omega) (by (try simp only [wRI, Nat.pow_zero, Nat.div_one]); omega))))

theorem retmodeWrite (a : Reg) : Statement (.retmodeWrite a) := by
  intro _ _
  have := a.isLt
  have key : ∀ n w, decodeAt 0x3A n w none = okIf (fBits n 12 2 == 0 && fBits n 19 5 == 0) (if fBits n 0 12 == 6 then .srseedWrite (fA n) else if fBits n 0 12 == 5 then .retmodeWrite (fA n) else .csrw (fA n) (BitVec.ofNat 12 n)) := fun _ _ => rfl
  exact short (op := 0x3A) (by (try simp only [fBits, wRI, Nat.pow_zero, Nat.div_one]); omega) (by (try simp only [fBits, wRI, Nat.pow_zero, Nat.div_one]); omega) ((key _ _).trans <| okIf_eq (by
    (repeat' with_reducible apply and_t) <;> first
      | (simp only [fX, fFlag, fBits, wRI, Nat.pow_zero, Nat.div_one, beq_iff_eq]; omega)
      | exact or_l rfl
      | (rw [flag_eq (b := false) (by simp only [wRI, Nat.pow_zero, Nat.div_one, show bit false = 0 from rfl]; omega)]; rfl))
    (neg_of (by simp only [fBits, wRI, Nat.pow_zero, Nat.div_one, beq_iff_eq] <;> omega) ((if_pos (by simp only [fBits, wRI, Nat.pow_zero, Nat.div_one, beq_iff_eq] <;> omega)).trans (by
    congr 1 <;> first
      | rfl
      | exact bv_eq (by (try simp only [wRI, Nat.pow_zero, Nat.div_one]); omega)
      | exact pm_eq (by (try simp only [wRI, Nat.pow_zero, Nat.div_one]); omega) (by (try simp only [wRI, Nat.pow_zero, Nat.div_one]); omega)
      | exact flag_eq (by (try simp only [wRI, Nat.pow_zero, Nat.div_one]); omega)
      | exact bob_code (by (try simp only [wRI, Nat.pow_zero, Nat.div_one]); omega)
      | exact board_eq (by (try simp only [wRI, Nat.pow_zero, Nat.div_one]); omega) (by (try simp only [wRI, Nat.pow_zero, Nat.div_one]); omega)))))

theorem bcontFreg (a : Reg) (p : PIdx) (f : FIdx) : Statement (.bcontFreg a p f) := by
  intro _ _
  have := a.isLt; have := p.isLt; have := f.isLt
  have key : ∀ n w, decodeAt 0x6A n w none = if fFlag n 8 then okIf (fBits n 19 5 == 0 && fBits n 7 1 == 0 && fBits n 0 4 == 0) (.bcontMem (fA n) (fB n) (BitVec.ofNat 3 (n / 16))) else okIf (fBits n 19 5 == 0 && fBits n 7 7 == 0) (.bcontFreg (fA n) (BitVec.ofNat 3 (n / 16)) (BitVec.ofNat 4 n)) := fun _ _ => rfl
  exact short (op := 0x6A) (by (try simp only [fBits, wR3, Nat.pow_zero, Nat.div_one]); omega) (by (try simp only [fBits, wR3, Nat.pow_zero, Nat.div_one]); omega) ((key _ _).trans <| (if_neg (by rw [flag_eq (b := false) (by (try simp only [wR3, Nat.pow_zero, Nat.div_one, show bit false = 0 from rfl, show bit true = 1 from rfl]); omega)]; decide)).trans
    (okIf_eq (by
    (repeat' with_reducible apply and_t) <;> first
      | (simp only [fX, fFlag, fBits, wR3, Nat.pow_zero, Nat.div_one, beq_iff_eq]; omega)
      | exact or_l rfl
      | (rw [flag_eq (b := false) (by simp only [wR3, Nat.pow_zero, Nat.div_one, show bit false = 0 from rfl]; omega)]; rfl)) (by
    congr 1 <;> first
      | rfl
      | exact bv_eq (by (try simp only [wR3, Nat.pow_zero, Nat.div_one]); omega)
      | exact pm_eq (by (try simp only [wR3, Nat.pow_zero, Nat.div_one]); omega) (by (try simp only [wR3, Nat.pow_zero, Nat.div_one]); omega)
      | exact flag_eq (by (try simp only [wR3, Nat.pow_zero, Nat.div_one]); omega)
      | exact bob_code (by (try simp only [wR3, Nat.pow_zero, Nat.div_one]); omega)
      | exact board_eq (by (try simp only [wR3, Nat.pow_zero, Nat.div_one]); omega) (by (try simp only [wR3, Nat.pow_zero, Nat.div_one]); omega))))

theorem bcontMem (a b : Reg) (p : PIdx) : Statement (.bcontMem a b p) := by
  intro _ _
  have := a.isLt; have := b.isLt; have := p.isLt
  have key : ∀ n w, decodeAt 0x6A n w none = if fFlag n 8 then okIf (fBits n 19 5 == 0 && fBits n 7 1 == 0 && fBits n 0 4 == 0) (.bcontMem (fA n) (fB n) (BitVec.ofNat 3 (n / 16))) else okIf (fBits n 19 5 == 0 && fBits n 7 7 == 0) (.bcontFreg (fA n) (BitVec.ofNat 3 (n / 16)) (BitVec.ofNat 4 n)) := fun _ _ => rfl
  exact short (op := 0x6A) (by (try simp only [fBits, wR3, Nat.pow_zero, Nat.div_one]); omega) (by (try simp only [fBits, wR3, Nat.pow_zero, Nat.div_one]); omega) ((key _ _).trans <| (if_pos (flag_eq (b := true) (by (try simp only [wR3, Nat.pow_zero, Nat.div_one, show bit false = 0 from rfl, show bit true = 1 from rfl]); omega))).trans
    (okIf_eq (by
    (repeat' with_reducible apply and_t) <;> first
      | (simp only [fX, fFlag, fBits, wR3, Nat.pow_zero, Nat.div_one, beq_iff_eq]; omega)
      | exact or_l rfl
      | (rw [flag_eq (b := false) (by simp only [wR3, Nat.pow_zero, Nat.div_one, show bit false = 0 from rfl]; omega)]; rfl)) (by
    congr 1 <;> first
      | rfl
      | exact bv_eq (by (try simp only [wR3, Nat.pow_zero, Nat.div_one]); omega)
      | exact pm_eq (by (try simp only [wR3, Nat.pow_zero, Nat.div_one]); omega) (by (try simp only [wR3, Nat.pow_zero, Nat.div_one]); omega)
      | exact flag_eq (by (try simp only [wR3, Nat.pow_zero, Nat.div_one]); omega)
      | exact bob_code (by (try simp only [wR3, Nat.pow_zero, Nat.div_one]); omega)
      | exact board_eq (by (try simp only [wR3, Nat.pow_zero, Nat.div_one]); omega) (by (try simp only [wR3, Nat.pow_zero, Nat.div_one]); omega))))

theorem vzeroKeep (td : Reg) (pm : PMod) : Statement (.vzeroKeep td pm) := by
  intro _ _
  have := td.isLt; have := pm.p.isLt; have := bit_lt pm.zero
  have key : ∀ n w, decodeAt 0x73 n w none = if fFlag n 0 then okIf (fBits n 1 18 == 0) (.vzeroEmpty (fD n)) else okIf (fBits n 9 10 == 0 && fBits n 0 5 == 0) (.vzeroKeep (fD n) (fPMod n)) := fun _ _ => rfl
  exact short (op := 0x73) (by (try simp only [fBits, wR3, xPM, Nat.pow_zero, Nat.div_one]); omega) (by (try simp only [fBits, wR3, xPM, Nat.pow_zero, Nat.div_one]); omega) ((key _ _).trans <| (if_neg (by rw [flag_eq (b := false) (by (try simp only [wR3, xPM, Nat.pow_zero, Nat.div_one, show bit false = 0 from rfl, show bit true = 1 from rfl]); omega)]; decide)).trans
    (okIf_eq (by
    (repeat' with_reducible apply and_t) <;> first
      | (simp only [fX, fFlag, fBits, wR3, xPM, Nat.pow_zero, Nat.div_one, beq_iff_eq]; omega)
      | exact or_l rfl
      | (rw [flag_eq (b := false) (by simp only [wR3, xPM, Nat.pow_zero, Nat.div_one, show bit false = 0 from rfl]; omega)]; rfl)) (by
    congr 1 <;> first
      | rfl
      | exact bv_eq (by (try simp only [wR3, xPM, Nat.pow_zero, Nat.div_one]); omega)
      | exact pm_eq (by (try simp only [wR3, xPM, Nat.pow_zero, Nat.div_one]); omega) (by (try simp only [wR3, xPM, Nat.pow_zero, Nat.div_one]); omega)
      | exact flag_eq (by (try simp only [wR3, xPM, Nat.pow_zero, Nat.div_one]); omega)
      | exact bob_code (by (try simp only [wR3, xPM, Nat.pow_zero, Nat.div_one]); omega)
      | exact board_eq (by (try simp only [wR3, xPM, Nat.pow_zero, Nat.div_one]); omega) (by (try simp only [wR3, xPM, Nat.pow_zero, Nat.div_one]); omega))))

theorem vzeroEmpty (td : Reg) : Statement (.vzeroEmpty td) := by
  intro _ _
  have := td.isLt
  have key : ∀ n w, decodeAt 0x73 n w none = if fFlag n 0 then okIf (fBits n 1 18 == 0) (.vzeroEmpty (fD n)) else okIf (fBits n 9 10 == 0 && fBits n 0 5 == 0) (.vzeroKeep (fD n) (fPMod n)) := fun _ _ => rfl
  exact short (op := 0x73) (by (try simp only [fBits, wR3, Nat.pow_zero, Nat.div_one]); omega) (by (try simp only [fBits, wR3, Nat.pow_zero, Nat.div_one]); omega) ((key _ _).trans <| (if_pos (flag_eq (b := true) (by (try simp only [wR3, Nat.pow_zero, Nat.div_one, show bit false = 0 from rfl, show bit true = 1 from rfl]); omega))).trans
    (okIf_eq (by
    (repeat' with_reducible apply and_t) <;> first
      | (simp only [fX, fFlag, fBits, wR3, Nat.pow_zero, Nat.div_one, beq_iff_eq]; omega)
      | exact or_l rfl
      | (rw [flag_eq (b := false) (by simp only [wR3, Nat.pow_zero, Nat.div_one, show bit false = 0 from rfl]; omega)]; rfl)) (by
    congr 1 <;> first
      | rfl
      | exact bv_eq (by (try simp only [wR3, Nat.pow_zero, Nat.div_one]); omega)
      | exact pm_eq (by (try simp only [wR3, Nat.pow_zero, Nat.div_one]); omega) (by (try simp only [wR3, Nat.pow_zero, Nat.div_one]); omega)
      | exact flag_eq (by (try simp only [wR3, Nat.pow_zero, Nat.div_one]); omega)
      | exact bob_code (by (try simp only [wR3, Nat.pow_zero, Nat.div_one]); omega)
      | exact board_eq (by (try simp only [wR3, Nat.pow_zero, Nat.div_one]); omega) (by (try simp only [wR3, Nat.pow_zero, Nat.div_one]); omega))))

theorem mgo (extra : Option FIdx) : Statement (.mgo extra) := by
  intro _ _
  cases extra with
  | none =>
    have key : ∀ n w, decodeAt 0xB6 n w none = okIf (fBits n 5 19 == 0 && (fFlag n 4 || fBits n 0 4 == 0)) (.mgo (if fFlag n 4 then some (BitVec.ofNat 4 n) else none)) := fun _ _ => rfl
    refine short (op := 0xB6) (by decide) (by decide) ((key _ _).trans <| okIf_eq ?_ ?_)
    · decide
    · rfl
  | some f =>
    have := f.isLt
    have h4 := flag_eq (n := wR3 0xB6 0 0 0 (2 ^ 4 + f.toNat)) (lo := 4) (b := true) (by (try simp only [wR3, Nat.pow_zero, Nat.div_one, show bit false = 0 from rfl, show bit true = 1 from rfl]); omega)
    have key : ∀ n w, decodeAt 0xB6 n w none = okIf (fBits n 5 19 == 0 && (fFlag n 4 || fBits n 0 4 == 0)) (.mgo (if fFlag n 4 then some (BitVec.ofNat 4 n) else none)) := fun _ _ => rfl
    refine short (op := 0xB6) (by (try simp only [fBits, wR3, Nat.pow_zero, Nat.div_one]); omega) (by (try simp only [fBits, wR3, Nat.pow_zero, Nat.div_one]); omega) ((key _ _).trans <| okIf_eq (and_t (by simp only [fBits, wR3, Nat.pow_zero, Nat.div_one, beq_iff_eq]; omega) (or_l h4)) ?_)
    rw [h4, bv_eq (d := f) (by (try simp only [wR3, Nat.pow_zero, Nat.div_one, show bit false = 0 from rfl, show bit true = 1 from rfl]); omega)]
    rfl

theorem mslot (a : Reg) (r : BitVec 3) (sel : SlotSel) : Statement (.mslot a r sel) := by
  intro _ _
  have := a.isLt; have := r.isLt; have := sel_lt sel
  have key : ∀ n w, decodeAt 0xBC n w none = okSome (SlotSel.ofCode (fBits n 5 1 * 4 + fBits n 3 2)) fun sel => okIf (fBits n 19 5 == 0 && fBits n 6 8 == 0) (.mslot (fA n) (BitVec.ofNat 3 n) sel) := fun _ _ => rfl
  exact short (op := 0xBC) (by (try simp only [fBits, wR3, Nat.pow_zero, Nat.div_one]); omega) (by (try simp only [fBits, wR3, Nat.pow_zero, Nat.div_one]); omega) ((key _ _).trans <| okSome_eq (sel_code (m := sel) (by (try simp only [fBits, wR3, Nat.pow_zero, Nat.div_one]); omega)) (okIf_eq (by
    (repeat' with_reducible apply and_t) <;> first
      | (simp only [fX, fFlag, fBits, wR3, Nat.pow_zero, Nat.div_one, beq_iff_eq]; omega)
      | exact or_l rfl
      | (rw [flag_eq (b := false) (by simp only [wR3, Nat.pow_zero, Nat.div_one, show bit false = 0 from rfl]; omega)]; rfl)) (by
    congr 1 <;> first
      | rfl
      | exact bv_eq (by (try simp only [wR3, Nat.pow_zero, Nat.div_one]); omega)
      | exact pm_eq (by (try simp only [wR3, Nat.pow_zero, Nat.div_one]); omega) (by (try simp only [wR3, Nat.pow_zero, Nat.div_one]); omega)
      | exact flag_eq (by (try simp only [wR3, Nat.pow_zero, Nat.div_one]); omega)
      | exact bob_code (by (try simp only [wR3, Nat.pow_zero, Nat.div_one]); omega)
      | exact board_eq (by (try simp only [wR3, Nat.pow_zero, Nat.div_one]); omega) (by (try simp only [wR3, Nat.pow_zero, Nat.div_one]); omega))))

theorem mopnd (isB : Bool) (op : MOperand) : Statement (.mopnd isB op) := by
  intro hw _
  have := bit_lt isB
  cases op with
  | tile t src =>
    have := t.isLt; have := scale_lt src
    have key : ∀ n w2, decodeLong 0xB3 n w2 = dMopnd n w2 := fun _ _ => rfl
    exact long (op := 0xB3) (by (try simp only [fBits, wR3, Nat.pow_zero, Nat.div_one]); omega) (by (try simp only [fBits, wR3, Nat.pow_zero, Nat.div_one]); omega) (by (try simp only [fBits, wR3, Nat.pow_zero, Nat.div_one]); omega) (fun _ _ _ => rfl) ((key _ _).trans ((if_pos (by
    (repeat' with_reducible apply and_t) <;> first
      | (simp only [fX, fFlag, fBits, wR3, Nat.pow_zero, Nat.div_one, beq_iff_eq]; omega)
      | exact or_l rfl
      | (rw [flag_eq (b := false) (by simp only [wR3, Nat.pow_zero, Nat.div_one, show bit false = 0 from rfl]; omega)]; rfl))).trans
      (okSome_eq (scale_code (m := src) (by (try simp only [fBits, wR3, Nat.pow_zero, Nat.div_one]); omega)) ((if_pos (flag_eq (b := true) (by (try simp only [wR3, Nat.pow_zero, Nat.div_one, show bit false = 0 from rfl, show bit true = 1 from rfl]); omega))).trans (okIf_eq (by
    (repeat' with_reducible apply and_t) <;> first
      | (simp only [fX, fFlag, fBits, wR3, Nat.pow_zero, Nat.div_one, beq_iff_eq]; omega)
      | exact or_l rfl
      | (rw [flag_eq (b := false) (by simp only [wR3, Nat.pow_zero, Nat.div_one, show bit false = 0 from rfl]; omega)]; rfl))
        (by rw [flag_eq (b := isB) (by (try simp only [wR3, Nat.pow_zero, Nat.div_one, show bit false = 0 from rfl, show bit true = 1 from rfl]); omega), bv_eq (d := t) (by (try simp only [wR3, Nat.pow_zero, Nat.div_one, show bit false = 0 from rfl, show bit true = 1 from rfl]); omega)]))))))
  | addr a ld tag src table =>
    simp only [Instr.wf, Bool.and_eq_true] at hw
    have hs : (src == ScaleSrc.table) = true ∨ table.toNat = 0 :=
      (Bool.or_eq_true _ _ ▸ hw.2 : (src == ScaleSrc.table) = true ∨ (table == 0) = true).imp id zero_of
    have := a.isLt; have := ld.isLt; have := tag_lt tag; have := scale_lt src; have := table.isLt
    have key : ∀ n w2, decodeLong 0xB3 n w2 = dMopnd n w2 := fun _ _ => rfl
    exact long (op := 0xB3) (by (try simp only [fBits, wR3, Nat.pow_zero, Nat.div_one]); omega) (by (try simp only [fBits, wR3, Nat.pow_zero, Nat.div_one]); omega) (by (try simp only [fBits, wR3, Nat.pow_zero, Nat.div_one]); omega) (fun _ _ _ => rfl) ((key _ _).trans ((if_pos (by
    (repeat' with_reducible apply and_t) <;> first
      | (simp only [fX, fFlag, fBits, wR3, Nat.pow_zero, Nat.div_one, beq_iff_eq]; omega)
      | exact or_l rfl
      | (rw [flag_eq (b := false) (by simp only [wR3, Nat.pow_zero, Nat.div_one, show bit false = 0 from rfl]; omega)]; rfl))).trans
      (okSome_eq (scale_code (m := src) (by (try simp only [fBits, wR3, Nat.pow_zero, Nat.div_one]); omega)) ((if_neg (by rw [flag_eq (b := false) (by (try simp only [wR3, Nat.pow_zero, Nat.div_one, show bit false = 0 from rfl, show bit true = 1 from rfl]); omega)]; decide)).trans
        (okSome_eq (tag_code (t := tag) (by (try simp only [fBits, wR3, Nat.pow_zero, Nat.div_one]); omega) (bne_iff_ne.mp hw.1)) (okIf_eq (by
    (repeat' with_reducible apply and_t) <;> first
      | (simp only [fX, fFlag, fBits, wR3, Nat.pow_zero, Nat.div_one, beq_iff_eq]; omega)
      | (apply decide_eq_true; simp only [fBits, wR3, Nat.pow_zero, Nat.div_one]; omega)
      | exact hs
      | exact hs.1
      | exact hs.2
      | exact hs.1.1
      | exact hs.1.2
      | exact or_r hs
      | (rw [flag_eq (b := w) (by simp only [wR3, Nat.pow_zero, Nat.div_one]; omega)]; exact hs)
      | (rcases hs with h | h
         · exact or_l h
         · exact or_r (by simp only [fBits, wR3, Nat.pow_zero, Nat.div_one, beq_iff_eq]; omega)))
          (by simp only [fA, fB]; rw [flag_eq (b := isB) (by (try simp only [wR3, Nat.pow_zero, Nat.div_one, show bit false = 0 from rfl, show bit true = 1 from rfl]); omega), bv_eq (d := a) (by (try simp only [wR3, Nat.pow_zero, Nat.div_one, show bit false = 0 from rfl, show bit true = 1 from rfl]); omega), bv_eq (d := ld) (by (try simp only [wR3, Nat.pow_zero, Nat.div_one, show bit false = 0 from rfl, show bit true = 1 from rfl]); omega), bv_eq (d := table) (by (try simp only [wR3, Nat.pow_zero, Nat.div_one, show bit false = 0 from rfl, show bit true = 1 from rfl]); omega)])))))))

theorem illegalOpcode (w : Word32) : Statement (.illegalOpcode w) := by
  intro hw _
  simp only [Instr.wf] at hw
  exact if_pos hw

theorem privilegedOpcode (w : Word32) : Statement (.privilegedOpcode w) := by
  intro hw _
  simp only [Instr.wf] at hw
  have h : unlistedOpcode (w.toNat / 2 ^ 24) = false := by
    have h1 : 0xE0 ≤ w.toNat / 2 ^ 24 ∧ w.toNat / 2 ^ 24 ≤ 0xEF := by
      simpa only [privilegedOp, Bool.and_eq_true, decide_eq_true_eq] using hw
    simp only [unlistedOpcode, Bool.or_eq_false_iff, Bool.and_eq_false_iff, beq_eq_false_iff_ne, decide_eq_false_iff_not]
    omega
  exact (if_neg (by rw [h]; decide)).trans (if_pos hw)
theorem vrsum (ta : Reg) (p : PIdx) (dest : RedDest) : Statement (.vrsum ta p dest) := fun hw _ => red ta p dest true false true (op := 0x8B) (by decide) (fun _ _ _ => rfl) (fun _ _ => rfl) hw
theorem vrmax (ta : Reg) (p : PIdx) (dest : RedDest) : Statement (.vrmax ta p dest) := fun hw _ => red ta p dest false false true (op := 0x8C) (by decide) (fun _ _ _ => rfl) (fun _ _ => rfl) hw
theorem vrmaxi (ta : Reg) (p : PIdx) (dest : RedDest) : Statement (.vrmaxi ta p dest) := fun hw _ => red ta p dest true true false (op := 0x8D) (by decide) (fun _ _ _ => rfl) (fun _ _ => rfl) hw
theorem vcsum (ta : Reg) (p : PIdx) (dest : RedDest) : Statement (.vcsum ta p dest) := fun hw _ => red ta p dest true false true (op := 0x8E) (by decide) (fun _ _ _ => rfl) (fun _ _ => rfl) hw
theorem vcmax (ta : Reg) (p : PIdx) (dest : RedDest) : Statement (.vcmax ta p dest) := fun hw _ => red ta p dest false false true (op := 0x8F) (by decide) (fun _ _ _ => rfl) (fun _ _ => rfl) hw

end Sys2Proof.Laws.RoundTrip
end

