-- ==== Sys2Proof/Tests/Slice0.lean ====
section
/-! SUPPORT. Tests. Words and results are the manual's own instances and tables, or calculated from its rules by hand;
each witness shows a state and operands that meet the hypotheses of a statement. -/
namespace Sys2Proof.Tests
set_option Elab.async false
set_option linter.all false
open Sys2Proof Sys2Proof.Machine

/-! ### Well-formed instructions (R66): one ill-formed term for each check -/

theorem test_ill_formed : ([
    .bext 1 2 0 0, .bext 1 2 65 0, .bext 1 2 33 32, .bins 1 2 0 0, .bins 1 2 65 0, .bins 1 2 64 1,
    .csrw 1 5, .csrw 1 6, .fork .s 1 2 0x11, .aop 1 2 3 .fadd32 .rlx .core true,
    .vshape 1 0 0 .empty, .vld 1 2 3 ⟨0, false⟩ 0 .empty 0 0, .vld 1 2 3 ⟨0, false⟩ 4 .fp32 0 0, .vcvt 1 2 .empty ⟨0, false⟩ .rne,
    .vrsum 1 0 (.freg 1 1), .vcsum 1 0 (.freg 1 1), .vrmax 1 0 (.tile 2 1), .vrmax 1 0 (.freg 2 1), .vcmax 1 0 (.tile 2 1),
    .vcmax 1 0 (.freg 2 1), .vrmaxi 1 0 (.bobbin 1), .vfop 1 2 3 .rcp, .mnest 1 6, .mstep 1 2 3 6,
    .mopnd true (.addr 1 2 .empty .none 0), .mopnd true (.addr 1 2 .fp32 .none 3), .mdrain 1 2 0 .empty .rne .st,
    .ccopy 1 2 ⟨1, .core, false, false, false, 0, 0⟩, .cred 1 2 .add32 ⟨1, .core, false, false, false, 0, 0⟩,
    .cpage 1 2 ⟨1, .core, false, false, false, 0, 0⟩, .cmcast 1 2 ⟨1, .core, false, false, true, 0, 0⟩,
    .cmcast 1 2 ⟨1, .core, false, false, false, 1, 0⟩, .ccode 1 2 3 ⟨1, .core, false, false, false, 0, 0⟩,
    .ccode 1 2 3 ⟨0, .core, false, false, false, 0, 1⟩, .cattn 1 2 3 ⟨1, .core, false, false, true, 0, 0⟩,
    .cattn 1 2 3 ⟨0, .core, false, false, true, 0, 1⟩, .cattn 1 2 3 ⟨0, .core, false, false, false, 0, 0⟩,
    .illegalOpcode 0x01000000, .privilegedOpcode 0xF0000000, .rampLimitUpdate 0 4, .pageWalk 64 0 0 0, .combinerForward 0 0 7,
    .coreRetire 0 0 26, .flitReplay (.dlink 0 4), .linkRetrain (.hlink 0 4), .retrainRecovery (.weft 0 18),
    .linkRecoveryTimeout (.host 64), .dlinkRecal 0 4, .stackFail 0 8, .hbmRecal 0 8 0, .mgmtFailover 0 4, .cxlDown 0 16, .unitStall 23,
    .powerOn 64, .onDemandRegister 0 1 0] : List Instr).all (fun i => !i.wf) = true := by decide

/-! ### Decoding: the instances that the manual writes out, family by family; each word is encoded again -/

/-- A word, or two, stands for an instruction, and the instruction encodes to it. -/
def stands (w v : Nat) (i : Instr) : Bool :=
  let l : List Word32 := if longOpcode (w / 2 ^ 24) then [BitVec.ofNat 32 w, BitVec.ofNat 32 v] else [BitVec.ofNat 32 w]
  (match decodeList l with
   | .ok j => j == i
   | .error _ => false) && encode i == l && decodeTableWord 64 (v * 2 ^ 32 + w) == some i && i.wf

/-- R89, R93, R96, R98: the scalar instances. -/
theorem test_words_scalar : ([
    (0x02108200, 0, .add 2 2 1), (0x22190A03, 0, .addx 3 4 5 3), (0x2541C000, 0, .popc 8 7), (0x18293FFD, 0, .addi 5 4 (-3)),
    (0x1C084004, 0, .shli 1 1 4), (0x20080000, 5, .li 1 5), (0x21080000, 0xFE000000, .lih 1 0xFE000000),
    (0x23088000, 0x210, .bext 1 2 8 16), (0x28000123, 0, .b 0x123), (0x2900000F, 0, .jal 0xF), (0x2A07C000, 0, .jr 31),
    (0x2B104400, 0x123, .bc .lt 1 2 0x123), (0x2C00C007, 0x29, .bci .eq 3 7 0x29), (0x2D014000, 0xC, .loop 5 0xC),
    (0x30190010, 0, .ldw 3 4 16), (0x34390000, 0, .ldwn 7 4 0), (0x37293FF8, 0, .stw 5 4 (-8)), (0x39080003, 0, .csrr 1 3),
    (0x3A018006, 0, .srseedWrite 6), (0x3B100003, 0, .csrx 2 0 3)] : List (Nat × Nat × Instr)).all
    (fun x => stands x.1 x.2.1 x.2.2) = true := by decide

/-- R103, R109: the instances of stream control and events. -/
theorem test_words_control : ([
    (0x4100000E, 0, .join true true true), (0x41000004, 0, .join false true false), (0x42000000, 0, .exit), (0x46000000, 0, .yield),
    (0x4800000F, 0, .qfence 0xF), (0x4800000A, 0, .qfence 0xA), (0x43180000, 0, .catchEv .deadline 0), (0x44000000, 0, .evret),
    (0x45280002, 0, .evmask 5 2)] : List (Nat × Nat × Instr)).all (fun x => stands x.1 x.2.1 x.2.2) = true := by decide

/-- R124, R130, R134, R138, R142, R148: the tile instances. -/
theorem test_words_tile : ([
    (0x75184400, 0, .vadd 3 1 2 ⟨0, false⟩ .rne false), (0x751844A4, 0, .vadd 3 1 2 ⟨2, true⟩ .rtz false),
    (0x70200000, 0x00013F0F, .vshape 4 15 63 .bf16), (0x71090A00, 0x6040, .vld 1 4 5 ⟨0, false⟩ 0 .fp32 2 3),
    (0x72090A00, 0, .vst 1 4 5 0 0), (0x73300000, 0, .vzeroKeep 6 ⟨0, false⟩), (0x73300001, 0, .vzeroEmpty 6),
    (0x74104000, 0, .vmov 2 1 ⟨0, false⟩), (0xA0290C00, 0, .vgather 5 4 6 ⟨0, false⟩), (0xA1290C00, 0, .vscat 5 4 6 0),
    (0x9B190000, 0, .vfld 3 4), (0x9C098000, 0, .vfst 1 6), (0x78184400, 0, .vfma 3 1 2 ⟨0, false⟩ .rne false),
    (0x79184402, 0, .vmax 3 1 2 ⟨0, false⟩ .rne true), (0x7C108000, 0, .vneg 2 2 ⟨0, false⟩ .rne),
    (0x7E109200, 0, .vmuls 2 2 9 ⟨0, false⟩ .rne), (0x7F20C000, 0, .vbcr 4 3 ⟨0, false⟩ .rne),
    (0x9E104601, 0, .vscl 2 1 3 ⟨0, false⟩ .rne true), (0x81404610, 0, .vcvt 8 1 .e4m3 ⟨0, false⟩ .sr),
    (0x82398000, 0, .vexp2 7 6 ⟨0, false⟩ .rne), (0x88104408, 0, .vcmp 2 1 2 ⟨0, false⟩ .lt false), (0x892844C0, 0, .vsel 5 1 2 3 false),
    (0x8A184408, 0, .vpset 3 1 2 8), (0x90204E00, 0, .vctopk 4 1 7 ⟨0, false⟩), (0x8B484000, 0, .vrsum 1 0 (.tile 9 0)),
    (0x8B004000, 0x16, .vrsum 1 0 (.bobbin 5)), (0x8D004000, 0x2101, .vrmaxi 1 0 (.freg 1 2)), (0x8F484000, 0, .vcmax 1 0 (.tile 9 0)),
    (0x91104000, 0, .vtrans 2 1 ⟨0, false⟩), (0x92508000, 0, .vacc 10 2 ⟨0, false⟩), (0x93128000, 0, .vtoacc 2 10 0),
    (0x94080000, 0x83200000, .vsetrs 1 0 0x83200000), (0x96094C00, 0, .vsetrk 1 5 6), (0x98184001, 0, .vgetslot 3 1 .cs),
    (0x9908C004, 0, .vputslot 1 3 .cm), (0x97080000, 0, .vresolve 1 .rne), (0x9A080000, 0, .vstrict 1 false),
    (0xA2104000, 0, .vstat 2 1)] : List (Nat × Nat × Instr)).all (fun x => stands x.1 x.2.1 x.2.2) = true := by decide

/-- R168: the matrix instances. -/
theorem test_words_matrix : ([
    (0xB0010000, 0, .mloadn 4), (0xB1014001, 0, .mnest 5 1), (0xB2394C00, 0, .mstep 7 5 6 0),
    (0xB3021201, 0x00014813, .mopnd true (.addr 8 9 .e4m3b16 .table 10)), (0xB3000000, 0xE0, .mopnd false (.tile 3 .none)),
    (0xB4010002, 0, .mregion 4 2), (0xB5024000, 0, .mscale 9), (0xB6000000, 0, .mgo none), (0xB6000015, 0, .mgo (some 5)),
    (0xB7000000, 0, .mwait), (0xB8000002, 0, .mzero 2), (0xB9029602, 0x20, .mdrain 10 11 2 .bf16 .rne .st),
    (0xB9031A01, 0x62, .mdrain 12 13 1 .e4m3 .rne .kv), (0xBA000001, 0, .mprog 1), (0xBB180000, 0, .mstat 3),
    (0xBC01800A, 0, .mslot 6 2 .cs), (0xBC018022, 0, .mslot 6 2 .cm)] : List (Nat × Nat × Instr)).all
    (fun x => stands x.1 x.2.1 x.2.2) = true := by decide

/-- R178, R183, R185, R187, R192, R197, R199, R203: the instances of memory and synchronisation. -/
theorem test_words_sync : ([
    (0x50000010, 0, .fence .rel .core), (0x5000001B, 0, .fence .full .pkg), (0x50000008, 0, .fence .acq .core),
    (0x50000012, 0, .fence .rel .die), (0x5000001D, 0, .fence .full .sys), (0x51200002, 0, .rclaim 4 2), (0x52000002, 0, .rfill 0 2),
    (0x53280002, 0, .rwait 5 2), (0x54000002, 0, .rfree 0 2), (0x55018E02, 0, .rset 6 7 2), (0x56180002, 0, .rstat 3 2),
    (0x57010001, 0, .hgive 4 1), (0x58280000, 0, .htake 5), (0x59000000, 0, .bar .core), (0x59000003, 0, .bar .pkg),
    (0x5A200002, 0, .bara 4 .die), (0x5B310002, 0, .bart 6 4 .die), (0x60190A00, 1, .aop 3 4 5 .add .rlx .core true),
    (0x60010A00, 0x66, .aop 0 4 5 .fadd32 .rel .pkg false), (0x61190A00, 0x1834, .acas 3 4 5 6 .ar .die false), (0x62380000, 0, .apop 7),
    (0x63190A00, 0x21, .bpost 3 4 5 ⟨false, 2⟩ 1), (0x63190A00, 0x79, .bpost 3 4 5 ⟨true, 7⟩ 1), (0x64180000, 0x21, .blook 3 ⟨false, 2⟩ 1),
    (0x65300A00, 0x21, .bread 6 5 ⟨false, 2⟩ 1), (0x66180000, 0x20, .bround 3 ⟨false, 2⟩), (0x67200A00, 0, .tread 4 5),
    (0x68018000, 0, .twait 6), (0x69214C0C, 0, .bopen 4 5 6 3 .sum), (0x69214C0E, 0, .bopen 4 5 6 3 .max), (0x6A010003, 0, .bcontFreg 4 0 3),
    (0x6A010023, 0, .bcontFreg 4 2 3), (0x6A010F00, 0, .bcontMem 4 7 0), (0x6B290000, 0, .bwait 5 4), (0x6C010000, 0, .bfree 4)] :
    List (Nat × Nat × Instr)).all (fun x => stands x.1 x.2.1 x.2.2) = true := by decide

/-- R221: the shuttle instances. -/
theorem test_words_shuttle : ([
    (0xC8010001, 0, .cshape 4 1), (0xC9010A00, 3, .ccopy 4 5 ⟨0, .core, false, false, false, 0, 3⟩),
    (0xC9014C00, 0x101, .ccopy 5 6 ⟨0, .core, false, false, true, 0, 1⟩), (0xC9000000, 0x1C0F, .ccopy 0 0 ⟨0, .pkg, true, false, false, 0, 15⟩),
    (0xCA018E00, 0x14111, .cpush 6 7 ⟨5, .core, false, false, true, 1, 1⟩), (0xCB018E00, 0x14202, .cpull 6 7 ⟨5, .core, false, true, false, 0, 2⟩),
    (0xCC011200, 0x18002, .cmcast 4 9 ⟨6, .core, false, false, false, 0, 2⟩), (0xCD010A00, 2, .cred 4 5 .fadd32 ⟨0, .core, false, false, false, 0, 2⟩),
    (0xCD010A00, 0x200202, .cred 4 5 .add64 ⟨0, .core, false, true, false, 0, 2⟩), (0xCE010A00, 1, .cpage 4 5 ⟨0, .core, false, false, false, 0, 1⟩),
    (0xCF190A00, 0, .ccode 3 4 5 ⟨0, .core, false, false, false, 0, 0⟩), (0xD0000000, 0, .cwait), (0xD1180000, 0, .cstat 3),
    (0xD2310A00, 0x130, .cattn 6 4 5 ⟨0, .core, false, false, true, 3, 0⟩)] : List (Nat × Nat × Instr)).all
    (fun x => stands x.1 x.2.1 x.2.2) = true := by decide

/-- R65, R69, R72 to R78: the instructions that the manual gives no instance of, field by field; R70: the range that names
no instruction. -/
theorem test_words_fields :
    stands (0x03#8 ++ 31#5 ++ 1#5 ++ 2#5 ++ 0#9 : BitVec 32).toNat 0 (.sub 31 1 2) = true ∧
    stands (0x0B#8 ++ 1#5 ++ 2#5 ++ 3#5 ++ 0#9 : BitVec 32).toNat 0 (.mulh 1 2 3) = true ∧
    stands (0x17#8 ++ 1#5 ++ 2#5 ++ 3#5 ++ 0#9 : BitVec 32).toNat 0 (.seq 1 2 3) = true ∧
    stands (0x1F#8 ++ 1#5 ++ 2#5 ++ 0x2000#14 : BitVec 32).toNat 0 (.slti 1 2 0x2000) = true ∧
    stands (0x24#8 ++ 1#5 ++ 2#5 ++ 0#14 : BitVec 32).toNat (0#19 ++ 64#7 ++ 0#6 : BitVec 32).toNat (.bins 1 2 64 0) = true ∧
    stands (0x38#8 ++ 1#5 ++ 2#5 ++ 0x3FFF#14 : BitVec 32).toNat 0 (.std 1 2 0x3FFF) = true ∧
    stands (0x3A#8 ++ 0#5 ++ 6#5 ++ 5#14 : BitVec 32).toNat 0 (.retmodeWrite 6) = true ∧
    stands (0x3C#8 ++ 0#10 ++ 0x3FFF#14 : BitVec 32).toNat 0 (.trap 0x3FFF) = true ∧
    stands (0x40#8 ++ 3#5 ++ 1#5 ++ 2#5 ++ 0#9 : BitVec 32).toNat 0x123 (.fork .c 1 2 0x123) = true ∧
    stands (0x7A#8 ++ 3#5 ++ 1#5 ++ 2#5 ++ 7#3 ++ 1#1 ++ 4#3 ++ 1#1 ++ 0#1 : BitVec 32).toNat 0 (.vmin 3 1 2 ⟨7, true⟩ .sr true) = true ∧
    stands (0x8C#8 ++ 0#5 ++ 1#5 ++ 0#5 ++ 2#3 ++ 0#6 : BitVec 32).toNat (0#16 ++ 0#4 ++ 15#4 ++ 0#6 ++ 1#2 : BitVec 32).toNat (.vrmax 1 2 (.freg 15 0)) = true ∧
    stands (0x8E#8 ++ 0#5 ++ 1#5 ++ 0#5 ++ 0#9 : BitVec 32).toNat (0#24 ++ 63#6 ++ 2#2 : BitVec 32).toNat (.vcsum 1 0 (.bobbin 63)) = true ∧
    stands (0x95#8 ++ 1#5 ++ 0#5 ++ 2#5 ++ 0#9 : BitVec 32).toNat 0x40000000 (.vsetcs 1 2 0x40000000) = true ∧
    stands (0x9D#8 ++ 1#5 ++ 2#5 ++ 0#5 ++ 5#9 : BitVec 32).toNat 0 (.vfop 1 2 0 .rcp) = true ∧
    stands (0x9F#8 ++ 1#5 ++ 2#5 ++ 3#5 ++ 0#9 : BitVec 32).toNat 0 (.vrope 1 2 3 ⟨0, false⟩ .rne) = true ∧
    stands (0xA3#8 ++ 1#5 ++ 2#5 ++ 3#5 ++ 0#9 : BitVec 32).toNat 0 (.vsmerge 1 2 3) = true ∧
    stands 0xEF000000 0 (.privilegedOpcode 0xEF000000) = true ∧ stands 0x47000000 0 (.illegalOpcode 0x47000000) = true ∧ stands 0 0 (.illegalOpcode 0) = true := by
  decide

/-- R66: a non-zero unused field, a register beyond its file, and a reserved code are refused by name. -/
theorem test_words_refused : ([
    (0x02108201, 0), (0x01000001, 0), (0x2541C200, 0), (0x2B304400, 0x123), (0x2B104400, 0x01000123), (0x40000000, 0x11),
    (0x50000000, 0), (0x50000006 + 8, 0), (0x41000001, 0), (0x48000010, 0), (0x9B840000, 0), (0x88104408 + 0x14, 0), (0xB1014006, 0),
    (0xB9029602, 0x23), (0xC9010A00, 0x00400003), (0xC9010A00, 0x00004003), (0xCD010A00, 0x00300002), (0x8D004000, 2), (0x8B484000, 3),
    (0x70200000, 0x00143F0F), (0x9D04000A, 0)] : List (Nat × Nat)).all
    (fun x => match decodeWords (BitVec.ofNat 32 x.1) (some (BitVec.ofNat 32 x.2)) with
      | .error .reservedField => true
      | _ => false) = true := by decide
theorem test_word_truncated : (match decodeWords 0x20080000 none with | .error .truncated => true | _ => false) = true := by decide


/-! ### Small states -/

/-- A member alone on the machine, `nop` next in its S stream, everything reserved for it. -/
def tS : State := State.reset.withFetchWord 32 0x01000000
/-- The same with another stream current; its own streams are idle. -/
def tOn (st : Stream) : State := { tS with cur := st }
def tV : State := tOn .v
def tM : State := tOn .m
def tC : State := tOn .c

def setReg (r : Reg) (v : Word) (s : State) : State := modCtx (fun c => { c with regs := vput (k := 5) c.regs r v }) s
def setRegs (l : List (Reg × Word)) (s : State) : State := l.foldl (fun t x => setReg x.1 x.2 t) s
def poisonReg (r : Reg) (s : State) : State := modCtx (fun c => { c with poison := setBit c.poison r.toNat true }) s
def onMember (f : Member → Member) (s : State) : State := modM f s

/-- A code line of a stream with some slots, TERM set. -/
def codeLine (st : Stream) (slots : List Word32) : Vector Word32 16 :=
  (Vector.ofFn fun i : Fin 16 => if i.val = 0 then BitVec.ofNat 32 (st.code * 2 ^ 30 + 2 ^ 29 + slots.length * 2 ^ 25)
    else nth slots (i.val - 1) 0)
def putLine (n : Nat) (l : Vector Word32 16) (s : State) : State :=
  { s with me := { s.me with imem := storeWrite s.me.imem (64 * n) (l.toList.flatMap bytesOfWord) } }
/-- A page of level 0 mapped from a VA, its leaf held by the die. -/
def mapPage (va : Nat) (leaf : BitVec 64) (s : State) : State :=
  { s with dies := s.dies.map fun d => if d.pkg == 0 && d.die == 0 then { d with leaves := ⟨1, va, 0, leaf⟩ :: d.leaves } else d }
/-- A leaf of HBM from a frame, readable and writable (R316). -/
def rwLeaf (frame : Nat) : BitVec 64 := BitVec.ofNat 64 (2 * 2 ^ 62 + frame * 2 ^ 16 + 3)
/-- A leaf of a DET page. -/
def detLeaf (frame : Nat) : BitVec 64 := BitVec.ofNat 64 (2 * 2 ^ 62 + frame * 2 ^ 16 + 2 ^ 5 + 3)

def isOk {ε α : Type} : Except ε α → Bool
  | .ok _ => true
  | .error _ => false
def spotsOf (r : Eff (List Spot)) : List Spot := match r with | .ok l => l | .error _ => []

theorem tS_delivered : AllDelivered tS := ⟨rfl, fun _ => rfl⟩
theorem tV_delivered : AllDelivered tV := ⟨rfl, fun _ => rfl⟩
theorem tC_delivered : AllDelivered tC := ⟨rfl, fun _ => rfl⟩

/-! ### Witnesses: a state and operands that meet the hypotheses of each statement -/

def tInts : State := setRegs [(1, 0x8000000000000000#64), (2, 0xFFFFFFFFFFFFFFFF#64)] tS
theorem witness_IntegerOperations : readable 1 tInts = true ∧ readable 2 tInts = true ∧ rawReg tInts 2 ≠ 0 := by decide +kernel
theorem witness_DivisionCorners : (readable 1 tInts = true ∧ readable 3 tInts = true ∧ rawReg tInts 3 = 0) ∧
    readable 2 tInts = true ∧ rawReg tInts 1 = 0x8000000000000000#64 ∧ rawReg tInts 2 = 0xFFFFFFFFFFFFFFFF#64 := by decide +kernel
theorem witness_ScalarUnary : readable 1 tInts = true := by decide +kernel
/-- Lengths and positions at both ends of their ranges, and just beyond. -/
theorem witness_BitFields : (readable 1 tInts = true ∧ readable 2 tInts = true) ∧
    (1 ≤ (64 : BitVec 7).toNat ∧ (0 : BitVec 6).toNat + (64 : BitVec 7).toNat ≤ 64) ∧
    (1 ≤ (1 : BitVec 7).toNat ∧ (63 : BitVec 6).toNat + (1 : BitVec 7).toNat ≤ 64) ∧
    64 < (65 : BitVec 7).toNat ∧ 64 < (63 : BitVec 6).toNat + (2 : BitVec 7).toNat := by decide +kernel
theorem witness_PoisonIsConsumed : let s := poisonReg 2 tS
    regPoison s 2 = true ∧ awaited s 2 = false ∧ readable 1 s = true ∧ direct s = true := by decide +kernel
theorem witness_DecodeEncodeAgree : (Instr.add 1 2 3).wf = true ∧ encode (.add 1 2 3) ≠ [] ∧
    decodeWords 0x02088600#32 (some 0#32) = .ok (.add 1 2 3) ∧ longOpcode ((0x02088600#32).toNat / 2 ^ 24) = false :=
  ⟨by decide, by decide, rfl, by decide⟩
/-- A `nop` in S, a `li` of two words, an unlisted and a privileged opcode, and a tile instruction in V's queue. -/
def tLi : State := State.reset.withFetchWord 64 0x0000000520080000
def tEntry : QEntry := ⟨.v, 0, ⟨[], []⟩, false, 0, none, { StreamCtx.start with state := .running, pend := .run, pc := 1, line := codeLine .v [0x73300001] }⟩
def tQueue : State := { onMember (fun m => { m with iq := [tEntry], age := 1 }) tV with turn := .queue .v }
theorem witness_StepRunsDecoded :
    (∀ p ∈ [(tS, Stream.s), (tLi, .s), (State.reset.withFetchWord 32 0x3D000000, .s), (State.reset.withFetchWord 32 0xE0000000, .c)],
      let s := p.1
      s.agenda = [] ∧ s.turn = .stream p.2 ∧ s.cur = p.2 ∧ ready s.me p.2 = true ∧ (s.me.m.found.any fun x => x.1.who.stream == p.2) = false ∧
      (ctx s).pend = .run ∧ codeBreak p.2 (ctx s).pc s = none ∧ maskBreak (vat (k := 4) (ctx s).line 1) s = none ∧
      slotOf (ctx s).pc = 1 ∧ 1 < lineCount (ctx s).line) ∧
    decodeWords (vat (k := 4) (ctx tLi).line 1) (some (vat (k := 4) (ctx tLi).line 2)) = .ok (.li 1 5) ∧ opcodeLegalIn 0x20 false .s = true ∧
    unlistedOpcode 0x3D = true ∧ (unlistedOpcode 0xE0 = false ∧ privilegedOp 0xE0 = true) ∧
    (tQueue.agenda = [] ∧ tQueue.turn = .queue .v ∧ entryNow .v tQueue = some tEntry ∧ decodeSlot .v tEntry.ctx = .instr (.vzeroEmpty 6)) :=
  ⟨by decide +kernel, rfl, by decide, by decide, by decide, by decide, by decide, by decide +kernel, rfl⟩
theorem witness_LineEntry :
    isOk (fetchLine .s 1 tS) = true ∧
    (let s := modCtx (fun c => { c with pend := .enter }) tS
     (ctx s).pend = .enter ∧ isOk (fetchLine s.cur (ctx s).pc s) = true) ∧
    (let s := modCtx (fun c => { c with pend := .enter, pc := 0 }) tS
     (ctx s).pend = .enter ∧ (match fetchLine s.cur (ctx s).pc s with | .error (.fault f) => f.cause == .slotCount | _ => false) = true) ∧
    (ctx (modCtx (fun c => { c with pend := .chainEnd }) tS)).pend = .chainEnd ∧
    -- the continuation attempted again: a poisoned line, a line with TERM, and one without
    (let s := modCtx (fun c => { c with pend := .again }) tS
     (ctx s).pend = .again ∧ linePoisoned 0 { s with me := { s.me with imemPoison := [0] } } = true ∧
     linePoisoned 0 s = false ∧ lineTerm (readLine 0 s) = true ∧ lineTerm (readLine 3 s) = false ∧ linePoisoned 3 s = false) := by decide +kernel

/-- Line 1 holds two slots of S, line 2 one of V. -/
def tLines : State := putLine 2 (codeLine .v [0x01000000]) (putLine 1 (codeLine .s [0x01000000, 0x01000000]) (setRegs [(1, 0x12), (2, 0x13), (3, 0x1000000), (4, 0x21)] tS))
/-- At a target in another line, with each condition's outcomes; at its last slot and the slot behind it; at the first position
that has no 24 bits. -/
theorem witness_Transfers : readable 1 tLines = true ∧ readable 2 tLines = true ∧ isOk (targetLine 0x12 tLines) = true ∧
    rawReg tLines 1 = (0x12 : CodePos).zeroExtend 64 ∧ (rawReg tLines 1).slt (rawReg tLines 2) = true ∧ rawReg tLines 1 ≠ rawReg tLines 2 ∧
    2 ^ 24 ≤ (rawReg tLines 3).toNat ∧
    (lineOf 0x13 ≠ lineOf (ctx tLines).pc ∧ lineOf 0x13 < 135168 ∧ inRanges (lineOf 0x13) tLines = true ∧ overlayBusy (lineOf 0x13) tLines = false ∧
      linePoisoned (lineOf 0x13) tLines = false ∧ bits (linkWord (readLine (lineOf 0x13) tLines)) 24 20 = 0 ∧
      lineCount (readLine (lineOf 0x13) tLines) < slotOf 0x13 ∧ rawReg tLines 2 = (0x13 : CodePos).zeroExtend 64) ∧
    (lineOf 0x21 ≠ lineOf (ctx tLines).pc ∧ inRanges (lineOf 0x21) tLines = true ∧ overlayBusy (lineOf 0x21) tLines = false ∧
      linePoisoned (lineOf 0x21) tLines = false ∧ bits (linkWord (readLine (lineOf 0x21) tLines)) 24 20 = 0 ∧ 1 ≤ slotOf 0x21 ∧
      slotOf 0x21 ≤ lineCount (readLine (lineOf 0x21) tLines) ∧ bits (linkWord (readLine (lineOf 0x21) tLines)) 31 30 ≠ tLines.cur.code) := by
  decide +kernel
/-- A count and a count of 0; three records, and four; a record on its last iteration and one with two left. -/
theorem witness_Loops : let r : LoopRec := ⟨1, 1, 2, 2⟩
    readable 1 tLines = true ∧ isOk (targetLine 0x12 tLines) = true ∧ rawReg tLines 1 ≠ 0 ∧ rawReg tLines 5 = 0 ∧
    (modCtx (fun c => { c with loops := [r, r, r] }) tLines |> fun s => (ctx s).loops.length < 4) ∧
    (modCtx (fun c => { c with loops := [r, r, r, r] }) tLines |> fun s => 4 ≤ (ctx s).loops.length) ∧
    (1 < r.rem.toNat ∧ r.e = (ctx tLines).pc) ∧ ({ r with rem := 1 } : LoopRec).rem.toNat ≤ 1 ∧
    slotOf (ctx tLines).pc + 1 - 1 < lineCount (ctx tLines).line ∧ lineCount (ctx tLines).line ≤ slotOf (ctx tLines).pc + 2 - 1 ∧
    lineTerm (ctx tLines).line = true ∧
    (let c := { ctx tLines with line := Vector.replicate 16 0#32, pc := 0 }
     c.loops = [] ∧ lineCount c.line = slotOf c.pc + 1 - 1 ∧ lineTerm c.line = false) ∧
    (let s := modCtx (fun c => { c with line := codeLine .s (List.replicate 4 0x01000000) }) tLines
     (match following (ctx s).line (lineOf (ctx s).pc) (slotOf (ctx s).pc + 1) with | .here p => p == nextPos 2 s | _ => false) = true) := by decide +kernel

/-- A leaf of HBM of an order, and one of an expander. -/
def ordLeaf (frame ord : Nat) : BitVec 64 := BitVec.ofNat 64 (2 * 2 ^ 62 + frame * 2 ^ 16 + ord * 4 + 3)
def cxlLeaf (frame : Nat) : BitVec 64 := BitVec.ofNat 64 (2 * 2 ^ 62 + 1 * 2 ^ 52 + frame * 2 ^ 16 + 3)
def collLeaf (frame id : Nat) : BitVec 64 := BitVec.ofNat 64 (2 * 2 ^ 62 + frame * 2 ^ 16 + id * 2 ^ 8 + 2 ^ 7 + 3)
/-- STRONG, RC, UNORD and DET pages, one of an expander that is down, and one of a collective. -/
def tOrders : State :=
  let s := mapPage 0x50000 (collLeaf 0x60 7) (mapPage 0x40000 (cxlLeaf (2 ^ 26)) (mapPage 0x30000 (detLeaf 0x50)
    (mapPage 0x20000 (ordLeaf 0x40 2) (mapPage 0x10000 (ordLeaf 0x30 1) (mapPage 0 (ordLeaf 0x20 0)
      (setRegs [(1, 8), (2, 0x10008), (3, 0x20008), (4, 0x30008), (5, 0x40008), (6, 0x50008), (7, 0x3F800000)] tS))))))
  { s with pkgs := s.pkgs.map fun p => { p with config := List.replicate 0xA0 0 ++ natToBytes 8 (2 ^ 42) ++ natToBytes 8 (2 ^ 30), cxlUp := 0xFFFE },
           colls := [⟨0, [7, 1, 0, 0] ++ natToBytes 4 1 ++ natToBytes 4 16384 ++ List.replicate 0x14 0 ++ List.replicate 8 0 ++ natToBytes 8 0x600000, 0, 0, [], false, [], false⟩] }
/-- The leaf and key of an access that stands in one place of memory. -/
def oneSpot (r : Eff (List Spot)) : Option (BitVec 64 × Nat × Nat) := match r with
  | .ok [(.mem leaf key, n)] => some (leaf, key, n)
  | _ => none

/-- The last bytes of the scratchpad, and the first. -/
def tSpad : State := setRegs [(1, 0xFE000000002FFFF8#64), (2, 0xFE00000000000000#64), (3, 0x1122334455667788#64), (4, 0xFE000000002FFFF9#64)] tS
theorem witness_ScalarLoads : ∀ a ∈ ([1, 2] : List Reg), readable a tSpad = true ∧ direct tSpad = true ∧
    (rawReg tSpad a).toNat % 8 = 0 ∧ accessNow (accessFoot .read (rawReg tSpad a).toNat 8) tSpad = true ∧
    isOk (resolve { dir := .read } (rawReg tSpad a).toNat 8 tSpad) = true ∧
    spotsFree (spotsOf (resolve { dir := .read } (rawReg tSpad a).toNat 8 tSpad)) tSpad = true ∧
    (readSpots tSpad (spotsOf (resolve { dir := .read } (rawReg tSpad a).toNat 8 tSpad))).2.2 = 0 := by decide +kernel
/-- Accesses of memory at once, and one of an UNORD page. -/
theorem witness_ScalarLoads_memory :
    (∀ a ∈ ([1, 2, 3] : List Reg), readable a tOrders = true ∧ direct tOrders = true ∧
      accessNow (accessFoot .read (rawReg tOrders a).toNat 4) tOrders = true ∧
      (readSpots tOrders (spotsOf (resolve { dir := .read, det := true, coll := true } (rawReg tOrders a).toNat 4 tOrders))).2.2 = 0) ∧
    (∀ a ∈ ([1, 2] : List Reg), let r := resolve { dir := .read, det := true, coll := true } (rawReg tOrders a).toNat 4 tOrders
      ((oneSpot r).map fun x => leafOrd x.1 != 2) = some true ∧ spotsFree (spotsOf r) tOrders = true) ∧
    ((oneSpot (resolve { dir := .read, det := true, coll := true } (rawReg tOrders 3).toNat 4 tOrders)).map fun x => leafOrd x.1) = some 2 ∧
    entryFree tOrders = true := by decide +kernel
theorem witness_ScalarStores : ∀ a ∈ ([1, 2] : List Reg), readable a tSpad = true ∧ readable 3 tSpad = true ∧ direct tSpad = true ∧
    canonical tSpad = true ∧ (rawReg tSpad a).toNat % 8 = 0 ∧ accessNow (accessFoot .write (rawReg tSpad a).toNat 8) tSpad = true ∧
    isOk (resolve { dir := .write } (rawReg tSpad a).toNat 8 tSpad) = true ∧
    plainSpots (spotsOf (resolve { dir := .write } (rawReg tSpad a).toNat 8 tSpad)) = true ∧
    spotsOf (resolve { dir := .write } (rawReg tSpad 1).toNat 8 tSpad) = [(.spad 0 0x2FFFF8, 8)] := by decide +kernel
/-- STRONG, RC and UNORD pages; a page of an expander that is down; a DET page and a COLL page. -/
theorem witness_ScalarStores_memory :
    readable 7 tOrders = true ∧ direct tOrders = true ∧ canonical tOrders = true ∧ runs tOrders.me tOrders.me.cur.launch tOrders.me.cur.member = true ∧
    entryFree tOrders = true ∧
    (∀ a ∈ ([1, 2, 3, 4, 5, 6] : List Reg), readable a tOrders = true ∧ (rawReg tOrders a).toNat % 4 = 0 ∧
      accessNow (accessFoot .write (rawReg tOrders a).toNat 4) tOrders = true) ∧
    (∀ p ∈ ([(1, 0, false), (2, 1, false), (3, 2, false), (5, 0, true)] : List (Reg × Nat × Bool)),
      let r := resolve { dir := .write, det := true, coll := true } (rawReg tOrders p.1).toNat 4 tOrders
      ((oneSpot r).map fun x => (leafOrd x.1, cxlDead x.2.1 tOrders)) = some (p.2.1, p.2.2) ∧ plainSpots (spotsOf r) = true ∧
      (p.2.2 = false → spotsFree (spotsOf r) tOrders = true)) ∧
    ((oneSpot (resolve { dir := .write, det := true, coll := true } (rawReg tOrders 4).toNat 4 tOrders)).map fun x =>
      leafDet x.1 && routeFree (accessClass x.1 4 tOrders) (keyRoute x.2.1 tOrders) tOrders && isOk (detStore (leafDetw x.1) ((rawReg tOrders 7).setWidth 32)))
      = some true ∧
    ((oneSpot (resolve { dir := .write, det := true, coll := true } (rawReg tOrders 6).toNat 4 tOrders)).map fun x =>
      !leafDet x.1 && leafColl x.1 && (match findColl (leafCollid x.1) tOrders with
        | some c => !c.aborted && collWord c x.2.1 tOrders == some (0, 2) && routeFree (accessClass x.1 4 tOrders) (keyRoute x.2.1 tOrders ++ weftRoute x.2.1 c tOrders) tOrders
        | none => false)) = some true := by decide +kernel
/-- A page at VA 0, another on a tier, the first address that is not canonical, and the first byte beyond the reservation. -/
def tMem : State := mapPage 0x10000 (BitVec.ofNat 64 (2 * 2 ^ 62 + 2 * 2 ^ 52 + 3)) (mapPage 0 (rwLeaf 0x10) (setRegs [(1, 8), (2, 5), (3, 0x20)] tS))
theorem witness_AddressChecks :
    (0xFE00000000300000 / 2 ^ 56 = 0xFE ∧ resSpad tMem < 0xFE00000000300000 % 2 ^ 56 + 1) ∧
    (0xFE000000002FFFFF / 2 ^ 56 = 0xFE ∧ 0xFE000000002FFFFF % 2 ^ 56 + 1 ≤ resSpad tMem ∧ tMem.me.buffers = []) ∧
    (2 ^ 52 / 2 ^ 56 ≠ 0xFE ∧ 2 ^ 52 / 2 ^ 56 ≠ 0xFD) ∧
    (match translate 0xFFFF tMem with
     | .ok (e, _) => leafTier e != 2 && permitted { dir := .read } e && !leafDet e
     | .error _ => false) = true ∧
    (match translate 0x10000 tMem with | .ok (e, _) => leafTier e == 2 | .error _ => false) = true ∧
    permitted { dir := .write } (BitVec.ofNat 64 (2 * 2 ^ 62 + 1)) = false ∧
    (match translate 0x30002 tOrders with
     | .ok (e, _) => leafTier e != 2 && permitted { dir := .read, det := true } e && leafDet e
     | .error _ => false) = true ∧ 0x30002 % 4 ≠ 0 ∧
    (readable 2 tMem = true ∧ readable 1 tMem = true ∧ direct tMem = true ∧ (rawReg tMem 2 + (0 : BitVec 14).signExtend 64).toNat % 8 ≠ 0) := by decide +kernel

theorem witness_CsrReads : queueQuiet tS.cur tS = true ∧ 0x00B < (0xC : BitVec 12).toNat ∧ 0x00B < (0xFFF : BitVec 12).toNat := by decide +kernel
/-- The largest value of each writable CSR and the one beyond it; a deadline one nanosecond ahead, and one at the present. -/
def tCsr : State := setRegs [(1, 31), (2, 32), (3, 15), (4, 16), (5, 0xFFFFFF), (6, 0x1000000), (7, 1), (8, 2)] tS
theorem witness_CsrWrites : (∀ a ∈ ([1, 2, 3, 4, 5, 6, 7, 8, 9] : List Reg), readable a tCsr = true) ∧ queueQuiet tCsr.cur tCsr = true ∧
    (rawReg tCsr 1).toNat < 2 ^ 5 ∧ 2 ^ 5 ≤ (rawReg tCsr 2).toNat ∧ (rawReg tCsr 3).toNat < 2 ^ 4 ∧ 2 ^ 4 ≤ (rawReg tCsr 4).toNat ∧
    (rawReg tCsr 5).toNat < 2 ^ 24 ∧ 2 ^ 24 ≤ (rawReg tCsr 6).toNat ∧ timeNs tCsr < (rawReg tCsr 7).toNat ∧ (rawReg tCsr 9).toNat ≤ timeNs tCsr ∧
    drawsDone tCsr.me.m = true ∧ returnsArrived tCsr.me.m = true ∧ (rawReg tCsr 7).toNat < 2 := by decide +kernel
theorem witness_TrapFaults : ownEmpty tS.cur tS = true := by decide +kernel
/-- A stream of the running launch, one whose queue holds an older entry, and a fault on a page registered as on demand. -/
theorem witness_FaultTaken :
    (∀ s ∈ [tS, tQueue], ((findLaunch s.me.cur.launch s).map (·.phase)) = some .running) ∧
    isDemand { cause := .divideByZero } = false ∧ ownEmpty .s tS = true ∧ tQueue.me.m.perform = none ∧ ownEmpty .v tQueue = false ∧
    isDemand { cause := .notPresent, addr := 0x10000, absent := true } = true ∧
    onDemandHas tS.me.cur.ctx 0x10000 { tS with onDemand := [(1, 0x10000, 0x1FFFF)] } = true := by decide +kernel
/-- M, V and C idle; a V stream; a line of M to fork to; the last of the four members of a launch to end, and the first. -/
def tFork : State := putLine 1 (codeLine .m [0x01000000]) tS
def tEnded (n : Nat) : State :=
  { onMember (fun m => { m with ended := n == 4 }) tS with
    others := (upTo 3).map fun i => { tS.me with idx := i + 1, cur := { tS.me.cur with member := i + 1 }, m := { Member.start with ended := decide (i < n) } } }
theorem witness_StreamControl :
    (∀ st ∈ [Stream.m, .v, .c], (memberCtx tS.me.m st).state = .idle ∧ queueQuiet st tS = true) ∧ tS.cur = .s ∧ tV.cur ≠ .s ∧
    (isOk (fetchLine .m 0x11 tFork) = true ∧ Stream.m ≠ tFork.cur ∧ (memberCtx tFork.me.m .m).state = .idle) ∧
    (∀ n ∈ [3, 4], ((myLaunch (tEnded n)).map fun l => (l.number, packetMembers l.packet)) = some (1, 4) ∧
      (tEnded n).me.cur.launch = 1 ∧
      ((allCores (tEnded n)).filter fun c => c.cur.state == .active && c.cur.launch == 1 && c.m.ended).length = n) := by decide +kernel
/-- An event of each delivery: one caught, one uncaught; a handler to return from; a deadline that has come. -/
def tEvent (cls : EvClass) (h : CodePos) : State :=
  onMember (fun m => { m with events := { m.events with handlers := vput (k := 2) m.events.handlers (classIdx cls) h,
                                                        queues := vput (k := 2) m.events.queues (classIdx cls) [7] } }) tS
theorem witness_Events :
    isOk (fetchLine .s 1 tS) = true ∧ tS.me.m.events.inHandler = false ∧
    (let s := onMember (fun m => { m with events := { m.events with inHandler := true }, csrs := { m.csrs with evpc := 1 } }) tS
     s.cur = .s ∧ undebugged s = true ∧ s.me.m.events.inHandler = true ∧ isOk (targetLine s.me.m.csrs.evpc s) = true) ∧
    (∀ k ∈ [EvClass.tier, .deadline], let s := tEvent k 0x11
      mayTake s = true ∧ pendingClass s.me.m = some k ∧ vat (k := 2) s.me.m.events.queues (classIdx k) = [7] ∧
      vat (k := 2) s.me.m.events.handlers (classIdx k) ≠ 0) ∧
    (let s := onMember (fun m => { m with events := { m.events with mask := 0xF } }) tS
     ∀ k ∈ [EvClass.tier, .notify, .sealed, .deadline], s.me.m.events.mask.getLsbD k.code = true) ∧
    (let s := tEvent .tier 0
     mayTake s = true ∧ pendingClass s.me.m = some .tier ∧ vat (k := 2) s.me.m.events.handlers (classIdx .tier) = 0) ∧
    (let s := onMember (fun m => { m with csrs := { m.csrs with evdl := 0 } }) tS
     s.me.m.csrs.evdl ≠ 0xFFFFFFFFFFFFFFFF#64 ∧ s.me.m.csrs.evdl.toNat ≤ timeNs s) := by decide +kernel
/-- An event of a class that has no handler. -/
theorem witness_Events_discarded : let s := tEvent .deadline 0
    s.cur = .s ∧ undebugged s = true ∧ mayTake s = true ∧ pendingClass s.me.m = some .deadline ∧
    vat (k := 2) s.me.m.events.handlers (classIdx .deadline) = 0 ∧ (vat (k := 2) s.me.m.events.queues (classIdx .deadline)).length ≤ 16 := by decide +kernel

/-! #### Ordering, rings, handles, barriers -/

/-- Nothing waits in the combiner. -/
theorem none_combined {s : State} (h : combined s = []) : ∀ w ∈ combined s, cxlDead w.key s = false := by rw [h]; exact fun _ h => nomatch h
theorem tS_covered (sc : Scope) : Covered sc tS := ⟨by decide +kernel, by decide +kernel, tS_delivered, by cases sc <;> decide +kernel, none_combined (by decide +kernel)⟩
theorem tV_covered (sc : Scope) : Covered sc tV := ⟨by decide +kernel, by decide +kernel, tV_delivered, by cases sc <;> decide +kernel, none_combined (by decide +kernel)⟩
/-- A lost message behind an older loss, a lost store. -/
def tLost : State := onMember (fun m => { m with losses := Vector.replicate 4 [⟨.linkDown, 8, 8, 1, .sys, 0⟩, ⟨.remoteStoreLost, 16, 8, 1, .sys, 0⟩], age := 1 }) tS
theorem witness_FencesComplete_lost : AllDelivered tLost ∧ (∀ w ∈ combined tLost, cxlDead w.key tLost = false) :=
  ⟨⟨rfl, fun _ => rfl⟩, none_combined rfl⟩
theorem witness_FencesComplete : Covered .core tS ∧ Covered .die tS ∧ wide .die = true ∧ wide .quad = false ∧
    (queueDone tLost = true ∧ behindMark tLost = false ∧ (coveredLosses .sys tLost).map (·.cause) = [.linkDown, .remoteStoreLost]) ∧
    (0xF : BitVec 4) ≠ 0 ∧ (ctx tS).mark = none ∧ (∀ st ∈ [Stream.s, .m, .v, .c], queueQuiet st tS = true) :=
  ⟨tS_covered _, tS_covered _, by decide +kernel⟩
/-- A ring of two slots of 64 bytes, each state at its head and tail. -/
def tRing (slots : List SlotState) (claims holds : List Nat) (s : State) : State :=
  onMember (fun m => { m with rings := vput (k := 4) m.rings 15 { Ring.unconfigured with
    cfg := 0x0000000100000040#64, base := 0xFE00000000000000#64, slots := slots, claims := claims, holds := holds } }) s
theorem witness_LocalRings : let r := fun s => ringOf (State.me s).m 15
    (15 : KIdx).toNat < resRings tS ∧
    (let s := tRing [.free, .free] [] [] tS
     ringSet (r s) = true ∧ ringRemote (r s) = false ∧ (r s).bound = none ∧ slotState (r s) (r s).tail = .free ∧ (r s).claims = [] ∧ (r s).holds = []) ∧
    oldestClaim (r (tRing [.claimed, .claimed] [1, 0] [] tS)) = some 1 ∧
    (let s := tRing [.filled, .free] [] [] tS; slotState (r s) (r s).head = .filled) ∧
    (let s := tRing [.held, .free] [] [0] tS; (r s).holds = [0] ∧ (r s).mfrom = []) := by decide +kernel
theorem tRing_covered : Covered .core (tRing [.claimed, .claimed] [1, 0] [] tS) := ⟨by decide +kernel, by decide +kernel, ⟨rfl, fun _ => rfl⟩, by decide +kernel, none_combined (by decide +kernel)⟩
/-- A proxy of a ring of another member, with a slot claimed, or held. -/
def tProxy (cfg : Word) (r : Ring) : State :=
  onMember (fun m => { m with rings := vput (k := 4) m.rings 0 { r with cfg := cfg, bound := some (.proxy 1 1 3) } }) tS
theorem tProxy_covered (cfg : Word) (r : Ring) : Covered .sys (tProxy cfg r) :=
  ⟨rfl, rfl, ⟨rfl, fun _ => rfl⟩, rfl, none_combined rfl⟩
/-- A free register, the largest ring that fits at the end of the scratchpad; a proxy of a ring of another member. -/
theorem witness_RingRegisters :
    (let s := setRegs [(1, 0xFE00000000000000#64), (2, 0x0000000200100000#64)] tS
     let r := ringOf s.me.m 15
     readable 1 s = true ∧ readable 2 s = true ∧ allFree r = true ∧ ringNamed 15 s.me.m = false ∧ r.bound = none ∧ ringCfgOk (rawReg s 2) = true ∧
     flag (rawReg s 2) 47 = false ∧ ringSet r = false ∧ (rawReg s 1).toNat / 2 ^ 56 = 0xFE ∧ (rawReg s 1).toNat % 64 = 0 ∧
     (rawReg s 1).toNat % 2 ^ 56 + (bits (rawReg s 2) 39 32 + 1) * bits (rawReg s 2) 20 0 ≤ resSpad s ∧ s.colls = []) ∧
    allFree (ringOf (tRing [.free, .filled] [] [] tS).me.m 15) = false ∧
    (let s := { tS with launches := [{ fullLaunch with packet := BitVec.ofNat 1024 (fullPacket.toNat - 2 ^ (64 + 37)) }] }
     resRings s ≤ (15 : KIdx).toNat ∧ (14 : KIdx).toNat < resRings s) ∧
    (let s := tProxy 0x0000800100000040#64 { Ring.unconfigured with slots := [.claimed, .free], claims := [0] }
     let r := ringOf s.me.m 0
     ringSet r = true ∧ r.bound = some (.proxy 1 1 3) ∧ r.mfrom = [] ∧ ringRemote r = true ∧ oldestClaim r = some 0) ∧
    (let s := tProxy 0x0000000100000040#64 { Ring.unconfigured with slots := [.held, .free], holds := [0] }
     let r := ringOf s.me.m 0
     ringSet r = true ∧ r.bound = some (.proxy 1 1 3) ∧ r.mfrom = [] ∧ ringRemote r = false ∧ r.holds = [0]) := by decide +kernel
/-- A buffer that ends with the reservation, for core 1 of the quad; one of a core that is not there. -/
def tQuad : State := { setRegs [(1, 0x2FFFC0 + 1 * 2 ^ 22), (2, 1 * 2 ^ 38 + 1 * 2 ^ 22), (3, 0x2FFF80 + 2 * 2 ^ 22), (4, 0x300000 + 1 * 2 ^ 22)] tS with
  others := [{ tS.me with idx := 1, cur := { tS.me.cur with member := 1 } }] }
/-- The same with buffers registered, and with another neighbour. -/
def tGiven (l : List Buffer) : State := modCore (fun c => { c with buffers := l }) tQuad
def tNeighbour (f : Core → Core) (s : State) : State := { s with others := s.others.map f }
/-- No buffer of the handle stands at its owner; the neighbour is a member of the launch with n handles in its inbox. -/
def unknown (h : Word) (s : State) : Bool := match sibling s (handleOwner h) with | some o => o.buffers.all (·.handle != h) | none => true
def receives (n : Nat) (s : State) : Bool := match sibling s 1 with
  | some c => c.cur.state == .active && c.cur.launch == s.me.cur.launch && c.inbox.length == n
  | none => false
def holderOf (h : Word) (s : State) : Option Nat := (sibling s (handleOwner h)).bind fun o => (o.buffers.find? fun x => x.handle == h).map (·.holder)
theorem witness_BufferHandles : readable 1 tQuad = true ∧
    (let h := rawReg tQuad 1
     handleWf h = true ∧ handleOwner h = tQuad.me.idx ∧ unknown h tQuad = true ∧ tQuad.me.buffers = [] ∧ handleOff h + handleLen h ≤ resSpad tQuad ∧
     (1 : BitVec 2).toNat ≠ tQuad.me.idx ∧ receives 0 tQuad = true ∧ held (handleFoot h) (tGiven [⟨h, 0, 0⟩]) = false ∧ receives 16 (tNeighbour (fun c => { c with inbox := List.replicate 16 0 }) tQuad) = true ∧
     -- registered and held by the core: for the neighbour, and for itself
     (let s := tGiven [⟨h, 0, 0⟩]; holderOf h s = some s.me.idx ∧ receives 0 s = true ∧ held (handleFoot h) s = false ∧ (0 : BitVec 2).toNat = s.me.idx) ∧
     -- held by another core; as the 17th buffer; for a core that is no member of the launch
     holderOf h (tGiven [⟨h, 1, 0⟩]) = some 1 ∧
     (let s := tGiven ((upTo 16).map fun i => ⟨BitVec.ofNat 64 (64 * i + 2 ^ 22), 0, 0⟩)
      unknown h s = true ∧ (s.me.buffers.all fun b => !meets (handleOff h) (handleLen h) (handleOff b.handle) (handleLen b.handle)) = true ∧ s.me.buffers.length = 16) ∧
     (sibling (tNeighbour (fun c => { c with cur := Bind.empty }) tQuad) 1).map (·.cur.state) = some .empty) ∧
    -- of another core; beyond the reservation; over another buffer; not in form
    (let h := rawReg tQuad 2; handleWf h = true ∧ unknown h tQuad = true ∧ handleOwner h ≠ tQuad.me.idx) ∧
    (let h := rawReg tQuad 4; handleWf h = true ∧ unknown h tQuad = true ∧ handleOwner h = tQuad.me.idx ∧ resSpad tQuad < handleOff h + handleLen h) ∧
    (let h := rawReg tQuad 3
     let s := tGiven [⟨rawReg tQuad 1, 0, 0⟩]
     handleWf h = true ∧ unknown h s = true ∧ meets (handleOff h) (handleLen h) (handleOff (rawReg s 1)) (handleLen (rawReg s 1)) = true) ∧
    handleWf 0 = false ∧ (modCore (fun c => { c with inbox := [5] }) tS).me.inbox = 5 :: [] ∧ tS.me.inbox = [] := by decide +kernel
theorem witness_BufferHandles_own : sibling tQuad tQuad.me.idx = some tQuad.me ∧ Covered .quad tQuad :=
  ⟨by unfold sibling findCore; exact if_pos (by decide +kernel),
   by decide +kernel, by decide +kernel, ⟨rfl, fun _ => rfl⟩, by decide +kernel, none_combined (by decide +kernel)⟩
/-- A barrier in the state that is given. -/
def tBarrier (b : Barrier) : State := { tS with launches := [{ fullLaunch with barriers := [b] }] }
theorem witness_Barriers : readable 1 tS = true ∧ (Scope.core ≠ .sys ∧ hostTakesPart (packet tS) = false) ∧
    ((ctx tS).arrived = none ∧ Covered .core tS ∧
      (let r := arrive .core (released .core tS)
       phaseLost (myBarrier .core r.2) r.2.me.cur.member r.1 = false ∧
       passed (BitVec.ofNat 32 (seenGen (myBarrier .core r.2) r.2.me.cur.member)) r.1 = true)) ∧
    (let s := modCtx (fun c => { c with arrived := some (.core, 0) }) (arrive .core tS).2
     (ctx s).arrived = some (.core, 0) ∧ phaseLost (myBarrier .core s) 0 0 = false ∧
     passed (BitVec.ofNat 32 (seenGen (myBarrier .core s) 0)) 0 = true) ∧
    -- an arrival of the phase was lost; the release of this member was; the release is on its way
    (phaseLost (myBarrier .core (tBarrier { newBarrier .core (0, 0, 1) with lost := [0] })) 0 0 = true ∧
     phaseLost (myBarrier .core (tBarrier { newBarrier .core (0, 0, 1) with gen := 1, missed := [(0, 0)] })) 0 0 = true ∧
     seenGen (myBarrier .core (tBarrier { newBarrier .core (0, 0, 1) with gen := 1, behind := [(0, 0)] })) 0 = 0) ∧
    (1 ∈ [0, 1] ∧ ∀ p ∈ [0, 1], 0 ≤ arrivalCount (newBarrier .quad (0, 0, 0)) p) :=
  ⟨by decide +kernel, by decide +kernel, ⟨by decide +kernel, tS_covered _, by decide +kernel⟩, by decide +kernel, by decide +kernel, by decide +kernel⟩

/-! #### Atomics, boards, time, bobbins -/

/-- Memory and a DET page, both mapped and writable. -/
def tAtom : State := mapPage 0x10000 (detLeaf 0x80) (mapPage 0 (rwLeaf 0x10) (setRegs [(1, 8), (2, 5), (3, 0), (4, 0x10000)] tS))
theorem witness_AtomicOperations :
    (leafDet (rwLeaf 0x10) = false ∧ anyMark tAtom.memPoison 0x100000 8 = false) ∧
    anyMark [0x8000] 0x100000 8 = true ∧
    (0 = (0 : Word).toNat % 2 ^ (8 * atomSize (.cas 0) false) ∧ 0 ≠ (5 : Word).toNat % 2 ^ (8 * atomSize (.cas 5) false)) ∧
    (leafDet (detLeaf 0x80) = true ∧ anyMark tAtom.memPoison 0x800000 32 = false ∧
      isOk (detAdd (leafDetw (detLeaf 0x80)) 0x3F800000 (detAt 0x800000 tAtom)) = true ∧ isOk (detStore (leafDetw (detLeaf 0x80)) 0x3F800000) = true) ∧
    -- infinities that meet; 1 + 1; a NaN and a number
    (xisNan (xadd false (x32 0x7F800000) (x32 0xFF800000)) = true ∧ xisNan (xadd false (x32 0x3F800000) (x32 0x3F800000)) = false ∧
      isNan32 0x7FC00000 = true ∧ isNan32 0x80000000 = false) := by decide +kernel
theorem witness_AtomicsComplete : readable 1 tAtom = true ∧ readable 2 tAtom = true ∧ readable 3 tAtom = true ∧ undebugged tAtom = true ∧
    AllDelivered tAtom ∧ combined tAtom = [] ∧ Covered .pkg tAtom ∧ tAtom.me.m.returns.length < 64 ∧ queueDone tAtom = true ∧ behindMark tAtom = false ∧
    isOk (atomPlace (.op .add) false (rawReg tAtom 1).toNat tAtom) = true ∧ isOk (atomPlace (.op .fadd32) false (rawReg tAtom 4).toNat tAtom) = true ∧
    (match atomPlace (.op .add) false (rawReg tAtom 1).toNat tAtom with
     | .ok (leaf, key) => [tAtom, released .pkg tAtom].all fun base => [false, true].all fun d =>
        let t := cachePage (noteWritten key base) (rawReg tAtom 1).toNat
        isOk (atomAt (.op .add) false leaf key (rawReg tAtom 2) d t) && isOk (atomAt (.op .add) false leaf key (rawReg tAtom 2) d (ordered t))
     | .error _ => false) = true ∧
    (onMember (fun m => { m with returns := [(0, some (5, false))] }) tS).me.m.returns = (0, some (5, false)) :: [] ∧ tS.me.m.returns = [] :=
  ⟨by decide +kernel, by decide +kernel, by decide +kernel, by decide +kernel, ⟨rfl, fun _ => rfl⟩, by decide +kernel,
   ⟨by decide +kernel, by decide +kernel, ⟨rfl, fun _ => rfl⟩, by decide +kernel, none_combined (by decide +kernel)⟩, by decide +kernel⟩
/-- A board of two participants; posted by nobody, by this member, and complete; and a view of it. -/
def tBoard (mask : BitVec 64) (owner : Option Nat) (round : Word32) (s : State) : State :=
  { s with launches := [{ fullLaunch with boards := [⟨2, false, mask, round, Vector.replicate 64 owner, Vector.replicate 64 0, Vector.replicate 64 0⟩] }] }
theorem witness_Boards : let ref : BoardRef := ⟨false, 0⟩
    (∀ s ∈ [tBoard 0 none 0 (setRegs [(1, 7), (2, 1)] tS), tBoard 3 (some 0) 0 (setRegs [(1, 7), (2, 1)] tS)],
      readable 1 s = true ∧ readable 2 s = true ∧ isOk (findBoard ref s) = true ∧ isOk (useBoard ref s) = true ∧
      isOk (findBoard ref (released (boardScope ref) s)) = true ∧
      (match useBoard ref (released (boardScope ref) s), findBoard ref s with
       | .ok u, .ok b => (match boardAt ref u with | .ok c => c == b | .error _ => false)
       | _, _ => false) = true ∧ (rawReg s 2).toNat < 2) ∧
    (([(0, false), (3, true)] : List (BitVec 64 × Bool)).all (fun x => match findBoard ref (tBoard x.1 (some 0) 0 tS) with
      | .ok b => b.mask.getLsbD 1 == x.2 && vat (k := 6) b.owners 1 == some 0 && b.round == lastRound ref tS && (x.2 == false || boardLevel b == b.p)
      | .error _ => false) = true) ∧
    (match findBoard ref (tBoard 0 none 1 tS) with | .ok b => b.round == lastRound ref tS + 1 | .error _ => false) = true ∧
    (let s := onMember (fun m => { m with views := vput (k := 3) m.views 7 (some ⟨1, 0, ref⟩) }) tS
     (vat (k := 3) s.me.m.views 7).map (·.board) = some ref) := by decide +kernel
theorem witness_Boards_covered : Covered (boardScope ⟨false, 0⟩) (tBoard 0 none 0 tS) ∧ AllDelivered (tBoard 0 none 0 tS) :=
  ⟨⟨by decide +kernel, by decide +kernel, ⟨rfl, fun _ => rfl⟩, by decide +kernel, none_combined (by decide +kernel)⟩, ⟨rfl, fun _ => rfl⟩⟩

/-- The die at a count, locked or not; a member stalled at its `twait`. -/
def tDie (time : TimeState) (count bound sync : Nat) (s : State) : State :=
  { s with dies := s.dies.map fun d => if d.die == 0 then { d with on := true, time := time, count := count, bound := bound, lastSync := sync } else d }
def tWait (time : TimeState) : State :=
  tDie time (10 * 65536) 100 0 (modCtx (fun c => { c with state := .stalled, line := codeLine .s [0x68004000] }) (setReg 1 10 tS))
theorem witness_TimeAndRamp :
    (let s := tDie .locked (10 * 65536) 100 0 (setRegs [(1, 10), (2, 11)] tS)
     readable 1 s = true ∧ readable 2 s = true ∧ timeLocked s = true ∧ (rawReg s 1).toNat ≤ counter s / 2 ^ 16 ∧ counter s / 2 ^ 16 < (rawReg s 2).toNat) ∧
    timeLocked tS = false ∧ podMember 0 tS = false ∧
    ((findPkg 0 { tS with pkgs := tS.pkgs.map fun p => { p with inPod := true, ethUp := 1 } }).map fun p => (p.inPod, p.ethUp)) = some (true, 1) ∧
    -- a sync that locks the die, and one that comes too far from the grandmaster
    (let s := tDie .unlocked 65536000 0 0 tS
     routeUp (hubRoute 0 0 s) s = true ∧ routeDead (hubRoute 0 0 s) s = false ∧ ((findDie 0 0 s).map (·.on)) = some true ∧
     (∀ p ∈ [(65536000, true), (0, false)], let u := { s with pkgs := s.pkgs.map fun q => { q with gmTime := p.1 } }
       ((findPkg 0 u).map fun q => decide (max 0 (asymmetry q + 80 + 0 + toPs (apart 65536000 q.gmTime)) + toPs 0 ≤ 3000) &&
         decide (toPs (apart 65536000 q.gmTime) ≤ 1400)) = some p.2)) ∧
    (∀ t ∈ [TimeState.locked, .unlocked], twaitAt (tWait t) = some 10 ∧ ready (tWait t).me .s = true ∧ (10 : Word).toNat ≤ timeNs (tWait t)) ∧
    timeLocked (tWait .locked) = true ∧ timeLocked (tWait .unlocked) = false ∧
    (findDie 0 0 (tDie .locked 262144000 100 0 tS)).map (fun d => decide (262144000 ≤ d.count - d.lastSync)) = some true ∧
    (findDie 0 0 (tDie .holdover 262144000 1000001 0 tS)).map (fun d => decide (1000000 < dieBound d)) = some true := by decide +kernel

/-- A bobbin of two words, and its name. -/
def tBob (st : BobState) (s : State) : State :=
  onMember (fun m => { m with bobbins := vput (k := 6) m.bobbins 63 ⟨st, .sum, 2, 2, 1, true, [0, 0]⟩ }) (setRegs [(1, 63), (2, 0xFE00000000000000#64), (3, 256), (4, 0x1FFFFFFFF#64)] s)
theorem witness_Bobbins :
    (readable 3 (tBob .free tV) = true ∧ readable 4 (tBob .free tV) = true ∧ direct (tBob .free tV) = true ∧ (rawReg (tBob .free tV) 3).toNat ≤ 256 ∧
      bits (rawReg (tBob .free tV) 4) 31 0 ≠ 0 ∧ bits (rawReg (tBob .free tV) 4) 63 33 = 0 ∧ (63 : BitVec 6).toNat < resBobbins tV ∧
      (bobbinOf tV.me.m 63).state = .free) ∧
    (∀ st ∈ [BobState.opened, .sealed, .faulted], let s := tBob st tV
      (match bobbinName (rawReg s 1) s with | .ok (h, i) => h == 0 && i == 63 && (homeBobbin h i s).state == st | .error _ => false) = true ∧
      plainFreg 15 s = true ∧ held ⟨[.freg 15], []⟩ s = false ∧ s.cur ≠ .s ∧ (rawReg s 2).toNat % 4 = 0 ∧ (rawReg s 2).toNat / 2 ^ 56 = 0xFE ∧
      (rawReg s 2).toNat % 2 ^ 56 + 4 * (homeBobbin 0 63 s).len ≤ resSpad s ∧
      held (accessFoot .read (rawReg s 2).toNat (4 * (homeBobbin 0 63 s).len)) s = false ∧
      isOk (bcontElements .sum (predOf s 0) (rawReg s 2).toNat s (upTo 2)) = true ∧ 0 = s.me.cur.member ∧ liveSlots 63 s.me.m = 0) ∧
    (let s := setReg 2 2 (tBob .sealed tS)
     s.cur = .s ∧ isOk (bobbinName (rawReg s 1) s) = true ∧ (rawReg s 2).toNat % 4 ≠ 0) ∧
    (let b := bobbinOf (tBob .opened tV).me.m 63
     b.vals.length = b.len ∧ b.state = .opened ∧ b.received < b.expected ∧ b.received + 1 = b.expected) := by decide +kernel

/-! #### Tiles -/

/-- FP32 tiles of 2 × 2 in t1 and t2, BF16 in t3, I32 in t4, MX in t5; t31 empty; a pending row scale in t6, whose slot names f15. -/
def tTile (tag : Tag) (elems : List Word) (side : List Byte) (slots : Slots) : Tile := ⟨tag, 2, 2, elems, side, slots, false, false⟩
def tTiles : State :=
  let rs : BitVec 64 := BitVec.ofNat 64 (2 ^ 62 + 15 * 2 ^ 44 + 0x3F800000)
  putTile 1 (tTile .fp32 [0x3F800000, 0x40000000, 0x40400000, 0x40800000] [] Slots.none)
    (putTile 2 (tTile .fp32 [0x3F800000, 0x3F800000, 0x3F800000, 0x3F800000] [] Slots.none)
    (putTile 3 (tTile .bf16 [0x3F80, 0x4000, 0x4040, 0x4080] [] Slots.none)
    (putTile 4 (tTile .i32 [0, 1, 2, 3] [] Slots.none)
    (putTile 6 (tTile .fp32 [0x3F800000, 0x40000000, 0x40400000, 0x40800000] [] { Slots.none with rs := rs })
    (putTile 7 (tTile .i8 [1, 2, 3, 4] [] Slots.none)
    (setRegs [(1, 0xFE00000000000000#64), (2, 8), (3, 2), (4, 0x40000000), (5, rs), (6, 256)] tV))))))
theorem witness_TileWriteMask : blockLen Tag.fp32 = 0 ∧ (blockLen Tag.mxe4m3 ≠ 0 ∧ pendingSlots (tileOf tTiles 6).slots = true) := by decide +kernel
theorem witness_TileArithmetic :
    (direct tTiles = true ∧ undebugged tTiles = true ∧ hasTile 31 tTiles = true ∧ hasTile 1 tTiles = true ∧ hasTile 2 tTiles = true ∧
      held ⟨[], [.tile 31]⟩ tTiles = false ∧ (tileOf tTiles 1).tag ≠ .empty ∧ readable 4 tTiles = true ∧ plainFreg 15 tTiles = true ∧
      held ⟨[.freg 15], []⟩ tTiles = false) ∧
    (∀ p ∈ [planSum 1 2 tTiles, planProduct 1 2 tTiles, planNone [1, 2], planNone [31, 1, 2]], isOk (prepared p [1, 2] .rne tTiles) = true ∧
      (match prepared p [1, 2] .rne tTiles with
       | .ok (_, u) => !held ⟨[], [.tile 31]⟩ u && undebugged u && !isIntTile (tileOf u 1)
       | .error _ => false) = true) ∧
    isFloatTag (tileOf tTiles 1).tag = true ∧ isIntTag (tileOf tTiles 4).tag = true ∧ pendingSlots (tileOf tTiles 4).slots = false ∧
    isOk (prepared (planSum 4 4 tTiles) [4, 4] .rne tTiles) = true ∧ isOk (prepared (planScale 4 tTiles) [4] .rne tTiles) = true ∧
    isFloatTag (tileOf tTiles 3).tag = true ∧ (tileOf tTiles 3).rows = (tileOf tTiles 1).rows ∧ (tileOf tTiles 3).cols = (tileOf tTiles 1).cols := by decide +kernel
theorem witness_TileArithmetic_siblings : siblings false (tileOf tTiles 1) (tileOf tTiles 2) ∧ siblings true (tileOf tTiles 1) (tileOf tTiles 3) ∧
    siblings false (tileOf tTiles 4) (tileOf tTiles 4) := by unfold siblings; decide +kernel
/-- The largest shapes of a tag without blocks; a conversion to BF16; a transposed block tag. -/
theorem witness_TileShapes :
    (direct tTiles = true ∧ undebugged tTiles = true ∧ hasTile 31 tTiles = true ∧ hasTile 1 tTiles = true ∧ held ⟨[], [.tile 31]⟩ tTiles = false) ∧
    legalShape .e4m3 16 256 = true ∧ legalShape .fp32 1 1 = true ∧ legalShape .e4m3 17 256 = false ∧ (tileOf tTiles 1).tag ≠ .empty ∧
    (tileOf tTiles 1).poison = false ∧ blockLen (tileOf tTiles 1).tag = 0 ∧ pendingSlots (tileOf tTiles 6).slots = true ∧ legalShape .mxe4m3 32 32 = true ∧
    blockLen .mxe4m3 ≠ 0 ∧ legalShape .bf16 (tileOf tTiles 1).rows (tileOf tTiles 1).cols = true ∧ isOk (prepared (planNone [1]) [1] .rne tTiles) = true ∧
    (isIntTag (tileOf tTiles 4).tag = true ∧ isIntTag .i8 = true ∧ isOk (prepared (planNone [4]) [4] .rne tTiles) = true) := by decide +kernel
theorem witness_Predicates :
    (direct tTiles = true ∧ hasTile 1 tTiles = true ∧ hasTile 2 tTiles = true ∧ hasTile 31 tTiles = true ∧ arithTag (tileOf tTiles 1).tag = true ∧
      (tileOf tTiles 1).tag ≠ .empty ∧ isOk (carryOut (planNone [1, 2]) [1, 2] tTiles) = true ∧ isFloatTag (tileOf tTiles 1).tag = true) ∧
    (match carryOut (planNone [1, 2]) [1, 2] tTiles with | .ok u => !held ⟨[], [.tile 31]⟩ u && undebugged u | .error _ => false) = true ∧
    (∀ r ∈ ([3, 6] : List Reg), readable r tTiles = true ∧ 1 ≤ (rawReg tTiles r).toNat ∧ (rawReg tTiles r).toNat ≤ 256) := by decide +kernel
theorem witness_TileReductions :
    (direct tTiles = true ∧ undebugged tTiles = true ∧ hasTile 1 tTiles = true ∧ hasTile 31 tTiles = true ∧ hasFreg 15 tTiles = true ∧ hasFreg 0 tTiles = true ∧
      held ⟨[], [.freg 15]⟩ tTiles = false ∧ held ⟨[], [.freg 15, .freg 0]⟩ tTiles = false ∧ held ⟨[], [.tile 31]⟩ tTiles = false ∧
      held ⟨[], [.tile 31, .freg 0]⟩ tTiles = false ∧ held ⟨[], []⟩ tTiles = false ∧ rankOne (tileOf tTiles 1).slots = false) ∧
    (∀ col ∈ [false, true], isOk (linesOf 1 0 col (.freg 15 0) [.sum, .sumsq] id tTiles) = true ∧ isOk (linesOf 1 0 col (.tile 31 0) [.sum, .sumsq] (withoutPassed col) tTiles) = true ∧
      isOk (linesOf 1 0 col (.freg 15 0) [.max] id tTiles) = true ∧ isOk (linesOf 1 0 col (.tile 31 0) [.max] id tTiles) = true) ∧
    (∀ k ∈ [BobKind.sum, .sumsq], let s := onMember (fun m => { m with bobbins := vput (k := 6) m.bobbins 0 ⟨.opened, k, 2, 2, 1, true, [0, 0]⟩ }) tTiles
      (bobbinOf s.me.m 0).kind = k ∧ isOk (linesOf 1 0 false (.bobbin 0) [.sum, .sumsq] id s) = true) ∧
    (let s := onMember (fun m => { m with bobbins := vput (k := 6) m.bobbins 0 ⟨.opened, .max, 2, 2, 1, true, [0, 0]⟩ }) tTiles
     isOk (linesOf 1 0 true (.bobbin 0) [.max] id s) = true) ∧
    (isOk (linesOf 1 0 false (.freg 15 0) [.max] id tTiles) = true ∧ isOk (linesOf 1 0 false (.tile 31 0) [.max] id tTiles) = true) := by decide +kernel
theorem witness_TileSlots :
    (direct tTiles = true ∧ undebugged tTiles = true ∧ hasTile 1 tTiles = true ∧ readable 5 tTiles = true ∧ readable 4 tTiles = true ∧ held ⟨[], [.tile 1]⟩ tTiles = false ∧
      isFloatTag (tileOf tTiles 1).tag = true ∧ (rawReg tTiles 4).toNat < 2 ^ 32 ∧ (tileOf tTiles 1).rows * (tileOf tTiles 1).cols ≤ 2048 ∧
      (tileOf tTiles 1).poison = false ∧ pendingSlots (tileOf tTiles 1).slots = false) ∧
    (let t := tileOf tTiles 6
     pendingSlots t.slots = true ∧ slotsReserved tTiles t.slots = true ∧ slotsPoisoned tTiles.me.m t.slots = false ∧ held ⟨slotsFoot t.slots, [.tile 6]⟩ tTiles = false ∧
     isOk (evalSlots tTiles.me.m t.slots t.rows t.cols) = true) ∧
    slotKind 0 = 0 ∧ (let d := rawReg tTiles 5; bits d 43 32 = 0 ∧ slotOp d < 5 ∧ slotKind d = 1) ∧
    (tileOf tTiles 31).tag = .empty ∧ (tileOf tTiles 1).rows ≤ 256 := by decide +kernel
theorem witness_TileSlots_allowed : slotAllowed (rawReg tTiles 5) (tileOf tTiles 1).rows (tileOf tTiles 1) tTiles ∧ slotAllowed 0 2 (tileOf tTiles 1) tTiles := by
  unfold slotAllowed; decide +kernel
/-- A region of 2 × 2 at the last rows and columns. -/
def tRegion : BitVec 64 := BitVec.ofNat 64 (254 + 254 * 2 ^ 8 + 1 * 2 ^ 16 + 1 * 2 ^ 24 + 1 * 2 ^ 32 + 1 * 2 ^ 40 + 16 * 2 ^ 48)
def tAcc (st : Stream) : State := { onMember (fun m => { m with regions := vput (k := 3) m.regions 7 ⟨some tRegion, Slots.none, false, false⟩ }) tTiles with cur := st }
theorem witness_AccumulatorCopies : (let s := tAcc .v
    direct s = true ∧ undebugged s = true ∧ hasTile 1 s = true ∧ hasRegion 7 s = true ∧ (regionOf s.me.m 7).desc = some tRegion ∧
    held ⟨[regionUnit s.me.m 7], []⟩ s = false ∧ held ⟨[], [.tile 1]⟩ s = false ∧ held ⟨[], [regionUnit s.me.m 7]⟩ s = false ∧
    isFloatTag (tileOf s 1).tag = true ∧ (tileOf s 1).poison = false ∧ (tileOf s 1).rows = dRows tRegion ∧ (tileOf s 1).cols = dCols tRegion ∧
    (rawWords (tileOf s 1)).length = (tileOf s 1).rows * (tileOf s 1).cols ∧ dCol0 tRegion + dCols tRegion ≤ 256 ∧ canonical s = true ∧ dRows tRegion * dCols tRegion ≤ 2048) := by
  decide +kernel
/-- Bytes put into the scratchpad. -/
def spadPut (off : Nat) (b : List Byte) (s : State) : State := modCore (fun c => { c with spad := storeWrite c.spad off b }) s
def memPut (key : Nat) (b : List Byte) (s : State) : State := { s with mem := storeWrite s.mem key b }
def rowsOf (r : Eff (List RowAccess × List RowAccess)) : List RowAccess × List RowAccess := match r with | .ok x => x | .error _ => ([], [])
/-- The rows' bytes are read at once, and no read of them was lost. -/
def reaches (l : List RowAccess) (s : State) : Bool := spotsFree (rowsSpots l) s && !readWasLost (rowsSpots l) s
def indexesOf (r : Eff (List RowAccess)) : List RowAccess := match r with | .ok x => x | .error _ => []
/-- A PACK page: the directory entry of a plain block of FP4 zeros in its first entry (R326 to R328). -/
def tPack : State :=
  memPut 0x101000 (natToBytes 4 0x42444C47 ++ [7, 0, 0, 0] ++ natToBytes 4 2048 ++ natToBytes 2 4096)
    (memPut 0x100000 (natToBytes 8 (2 ^ 62 + 0x100 * 2 ^ 16 + 2064)) (mapPage 0 (BitVec.ofNat 64 (2 * 2 ^ 62 + 0x10 * 2 ^ 16 + 2 ^ 6 + 3)) tTiles))
theorem witness_TileMemory :
    (direct tTiles = true ∧ nothingBefore tTiles = true ∧ undebugged tTiles = true ∧ hasTile 31 tTiles = true ∧ readable 1 tTiles = true ∧ readable 2 tTiles = true ∧ readable 0 tTiles = true ∧
      held ⟨[], [.tile 31]⟩ tTiles = false ∧ inPackPage (rawReg tTiles 1).toNat tTiles = false ∧ legalShape .fp32 2 2 = true) ∧
    (let r := rowsOf (tileRows .read .fp32 (predOf tTiles 0) 2 2 (rawReg tTiles 1) (rawReg tTiles 2) 0 tTiles)
     r.1.length = 2 ∧ reaches r.1 tTiles = true ∧ reaches r.2 tTiles = true ∧ held (rowsFoot .read (r.1 ++ r.2)) tTiles = false ∧
     rowsConds (readRows tTiles (rowBytes .fp32 2) r.1) = 0) ∧
    (let r := rowsOf (tileRows .write .fp32 (predOf tTiles 0) 2 2 (rawReg tTiles 1) (rawReg tTiles 2) 0 tTiles)
     (tileOf tTiles 1).tag ≠ .empty ∧ isOk (carryOut (planNone [1]) [1] tTiles) = true ∧ held (rowsFoot .write (r.1 ++ r.2)) tTiles = false ∧
     reaches r.1 tTiles = true ∧ plainSpots (rowsSpots r.1) = true ∧ plainSpots (rowsSpots r.2) = true ∧
     isOk (storeRows .fp32 (predOf tTiles 0) 2 (tileOf tTiles 1).elems.toArray (r.1.zip (List.range 2)) tTiles) = true) ∧
    (let i := tileOf tTiles 4
     let r := indexesOf (indexRows .read .fp32 (predOf tTiles 0) (rawReg tTiles 1) i.elems tTiles)
     let w := indexesOf (indexRows .write .fp32 (predOf tTiles 0) (rawReg tTiles 1) i.elems tTiles)
     i.tag = .i32 ∧ i.poison = false ∧ isByteTag (tileOf tTiles 1).tag = true ∧ i.rows = (tileOf tTiles 1).rows ∧ i.cols = (tileOf tTiles 1).cols ∧
     (rawReg tTiles 1).toNat % 4 = 0 ∧ r.length = 4 ∧ reaches r tTiles = true ∧ held (rowsFoot .read r) tTiles = false ∧
     rowsConds (readRows tTiles 4 r) = 0 ∧ held (rowsFoot .write w) tTiles = false ∧ plainSpots (rowsSpots w) = true) := by decide +kernel
theorem witness_TileMemory_packed : inPackPage 0 tPack = true ∧ isOk (readBlock .e2m1 0 tPack) = true := by decide +kernel
theorem witness_FactorRegisters : nothingBefore tTiles = true ∧
    (∀ f ∈ ([15, 0, 1] : List FIdx), hasFreg f tTiles = true ∧ plainFreg f tTiles = true) ∧ readable 1 tTiles = true ∧ (rawReg tTiles 1).toNat % 64 = 0 ∧
    held ⟨bytesUnit (rawReg tTiles 1).toNat 1024, [.freg 15]⟩ tTiles = false ∧ held ⟨[.freg 15], bytesUnit (rawReg tTiles 1).toNat 1024⟩ tTiles = false ∧
    isOk (loadBytes { dir := .read, det := true, coll := true, noPack := true } (rawReg tTiles 1).toNat 1024 tTiles) = true ∧
    (let spots := spotsOf (resolve { dir := .write, det := true, coll := true, noPack := true } (rawReg tTiles 1).toNat 1024 tTiles)
     spots.length = 1 ∧ plainSpots spots = true) ∧
    held ⟨[.freg 0, .freg 1], [.freg 15]⟩ tTiles = false ∧ held ⟨[.freg 0, .freg 1], []⟩ tTiles = false ∧
    ((tileOf tTiles 1).cols % 2 = 0 ∧ isOk (prepared (planNone [1]) [1] .rne tTiles) = true) ∧
    ((tileOf tTiles 2).tag = .fp32 ∧ (tileOf tTiles 2).rows = (tileOf tTiles 1).rows ∧ (tileOf tTiles 2).cols = (tileOf tTiles 1).cols ∧ (tileOf tTiles 1).cols ≠ 1 ∧
      isOk (carryOut (planNone [1, 2]) [1, 2] tTiles) = true) := by decide +kernel

/-! #### The matrix engine -/

/-- The region of AccumulatorCopies with depth 2, and a nest of one step over BF16 tiles. -/
def tDesc : BitVec 64 := BitVec.ofNat 64 (254 + 254 * 2 ^ 8 + 1 * 2 ^ 16 + 1 * 2 ^ 24 + 1 * 2 ^ 32 + 1 * 2 ^ 40 + 2 * 2 ^ 48)
def tMat : State :=
  setRegs [(1, 0xFFFFFFFF), (2, 0x100000000), (3, tDesc), (4, 0xFE00000000000000#64), (5, 0x3F800000)]
    { onMember (fun m => { m with
        regions := vput (k := 3) m.regions 7 ⟨some tDesc, Slots.none, false, true⟩,
        shadow := { Nest.default with opA := .tile 3 .none, opB := .tile 3 .none, dest := 7 } }) tTiles with cur := .m }
def tNest : Walk := ⟨tMat.me.m.shadow, none, 3, 0, false, 1⟩
theorem witness_MatrixSetup :
    (∀ r ∈ ([1, 2, 3, 4, 5] : List Reg), readable r tMat = true) ∧ (5 : BitVec 3).toNat < 6 ∧ (rawReg tMat 1).toNat < 2 ^ 32 ∧ 2 ^ 32 ≤ (rawReg tMat 2).toNat ∧
    hasTile 31 tMat = true ∧
    ((rawReg tMat 4).toNat % 64 = 0 ∧ queueDone tMat = true ∧ behindMark tMat = false ∧ held (accessFoot .read (rawReg tMat 4).toNat 256) tMat = false ∧
      (match loadBytes { dir := .read } (rawReg tMat 4).toNat 256 tMat with
        | .ok (bytes, _, _) => (match imageNest bytes with | .ok q => nestReserved q tMat | .error _ => false)
        | .error _ => false) = true) ∧
    (hasRegion 7 tMat = true ∧ accessesDone tMat = true ∧ held ⟨[regionUnit tMat.me.m 7], [regionUnit tMat.me.m 7]⟩ tMat = false ∧ held ⟨[], [regionRect 7 (rawReg tMat 3)]⟩ tMat = false ∧
      (let x := rawReg tMat 3
       dRow0 x + dRows x ≤ 256 ∧ dCol0 x + dCols x ≤ 256 ∧ dSRows x ≤ dRows x ∧ dSCols x ≤ dCols x ∧ dDepth x ≠ 0)) ∧
    queueRoom .m tMat = true := by decide +kernel
theorem witness_MatrixCommands : readable 4 tMat = true ∧ readable 5 tMat = true ∧ nestBusy tMat.me.m = false ∧ queueRoom .m tMat = true ∧ hasFreg 15 tMat = true ∧
    held (nestFoot { tNest with profile := 0 } tMat.me.m) tMat = false ∧ isOk (nestChecks tMat.me.m.shadow none tMat) = true ∧
    (hasRegion 7 tMat = true ∧ behindMark tMat = false ∧ accessesDone tMat = true ∧ held ⟨[regionUnit tMat.me.m 7], [regionUnit tMat.me.m 7]⟩ tMat = false ∧
      (regionOf tMat.me.m 7).desc = some tDesc ∧ canonical tMat = true ∧ dCol0 tDesc + dCols tDesc ≤ 256) ∧
    isOk (needSlotWrite .cm (rawReg tMat 5) (dRows tDesc) (dCols tDesc) true tMat) = true ∧
    (blockLen .bf16 = 0 ∧ (rawReg tMat 4).toNat % 32 = 0) := by decide +kernel
/-- Key and value tables of one page of four tokens of dimension 16, the page in HBM; a ring that takes their records (R333, R334). -/
def tTables (s : State) : State :=
  onMember (fun m => { m with rings := vput (k := 4) m.rings 0 { Ring.unconfigured with
      cfg := 0x0000000100000100#64, base := 0xFE00000000100000#64, slots := [.free, .free] } })
    (spadPut 0x1000 (natToBytes 32 (0xFE00000000002000 * 2 ^ 192 + 4 * 2 ^ 128 + 1 * 2 ^ 48 + 16 * 2 ^ 32 + 3 * 2 ^ 19 + 2))
      (spadPut 0x2000 (natToBytes 32 (4 * 2 ^ 128 + 1 * 2 ^ 48 + 16 * 2 ^ 32 + 3 * 2 ^ 19 + 2 ^ 16 + 2)) s))
/-- A nest at the head of the queue; one with a rank-one operand; and a drain of the region, its shape record in the scratchpad
(R208, R210). -/
def tStep : State := onMember (fun m => { m with mq := [.nest 0], active := some tNest, age := 1 }) tMat
def tRankOne : State :=
  let k : BitVec 64 := 2 ^ 62 + 0x3F800000#64
  let n := { tMat.me.m.shadow with opA := .tile 8 .none }
  putTile 8 (tTile .bf16 [0x3F80, 0x4000, 0x4040, 0x4080] [] { Slots.none with rp := k, cq := k })
    (onMember (fun m => { m with mq := [.nest 0], active := some { tNest with nest := n, x := some 15 }, age := 1 }) tMat)
def tDrain : Drain := ⟨0, 7, 0xFE00000000001000#64, 0xFE00000000000000#64, .fp32, .rne, .st, false, 0, 0, 1⟩
def tRecordOf (bnd org : Nat) : Nat := 2 * 2 ^ 240 + 2 * 2 ^ 224 + 1 * 2 ^ 208 + bnd * 2 ^ 192 + org * 2 ^ 160 + 8 * 2 ^ 32
def tDraining : State := spadPut 0 (natToBytes 32 (tRecordOf 0 0)) (onMember (fun m => { m with mq := [.drain tDrain], age := 1 }) tMat)
/-- The operands of the step of a walk can be loaded, and its window lies in the region. -/
def stepLoads (w : Walk) (s : State) : Bool :=
  let v := asM w.pos s
  let n := w.nest
  match (regionOf s.me.m n.dest).desc with
  | none => false
  | some d =>
    let ro := dotDigits (walkDigits w) (n.sc.toList.map rowStep)
    let co := dotDigits (walkDigits w) (n.sc.toList.map colStep)
    isOk (loadOperand false n.opA (dotDigits (walkDigits w) (n.sa.toList.map (·.toInt))) (dSRows d) (dDepth d) v) &&
    isOk (loadOperand true n.opB (dotDigits (walkDigits w) (n.sb.toList.map (·.toInt))) (dSCols d) (dDepth d) v) &&
    (!extraRow n v || (match opTileOf n.opA v with | some t => isOk (loadExtra t v) | none => false)) &&
    regionAgrees (regionOf s.me.m n.dest) (nestSlots n w.x v) (w.profile.toNat == 5) && decide (dCol0 d + dCols d ≤ 256) &&
    decide (0 ≤ ro) && decide (0 ≤ co) && decide (ro + dSRows d ≤ dRows d) && decide (co + dSCols d ≤ dCols d)
theorem witness_MatrixEngine :
    (∀ s ∈ [tStep, tRankOne], s.me.m.mq = .nest 0 :: [] ∧ canonical s = true ∧ undebugged s = true ∧
      (match s.me.m.active with | some w => stepLoads w s | none => false) = true) ∧
    ((tStep.me.m.active.map fun w => extraRow w.nest (asM 1 tStep)) = some false ∧ (tRankOne.me.m.active.map fun w => extraRow w.nest (asM 1 tRankOne)) = some true) ∧
    (let w := { tNest with nest := { tNest.nest with sc := Vector.replicate 6 1, n := Vector.replicate 6 2 }, done := 1 }
     (match asCommand .m w.pos (performStep w) tStep with | .error (.fault f) => f.cause == .regionRange | _ => false) = true) := by decide +kernel
/-- What a drain asks of the state before it takes its region. -/
def drainStarts (dr : Drain) (s : State) : Bool :=
  let v := asM dr.pos s
  let g := regionOf s.me.m dr.region
  match g.desc, drainRecord dr v with
  | some d, .ok h => !heldEntry (drainFoot dr v) .m dr.age v && isOk (needClean v [g.slots]) && isOk (evalSlots v.me.m g.slots (dRows d) (dCols d)) &&
      decide (dCol0 d + dCols d ≤ 256) && (if dr.mode == .kv then isOk (readAppend dr d h (wordCached [(dr.b.toNat, 32)] v)) else drainRecordOk h d dr.tag)
  | _, _ => false
/-- Every element or row of the drain that has taken its region can be written. -/
def drainEnds (dr : Drain) (s : State) : Bool :=
  match (regionOf s.me.m dr.region).desc with
  | none => false
  | some d => match asCommand .m dr.pos (startDrain dr d) s with
    | .error _ => false
    | .ok t => match currentDrain t with
      | none => false
      | some q => q.done == 0 && (match drainRecord q t with
        | .error _ => false
        | .ok h => if q.mode == .kv then (match readAppend q d h t with
              | .ok (tab, angles) => isOk ((List.range (dRows d)).foldlM (fun x i => asCommand .m q.pos (appendAt q d h tab angles i) x) t)
              | .error _ => false)
            else isOk ((List.range (dRows d * dCols d)).foldlM (fun x n => asCommand .m q.pos (drainAt q d h n) x) t))
/-- A region of two rows of 16 columns and the append of it, one pair rotated, to the page of tTables (R171). -/
def tKvDesc : BitVec 64 := BitVec.ofNat 64 (254 + 240 * 2 ^ 8 + 1 * 2 ^ 16 + 15 * 2 ^ 24 + 1 * 2 ^ 32 + 15 * 2 ^ 40 + 2 * 2 ^ 48)
def tKv : Drain := { tDrain with tag := .e4m3, mode := .kv }
def tAppending : State :=
  spadPut 0 (natToBytes 32 (1 * 2 ^ 128 + 0xFE00000000003000 * 2 ^ 64)) (tTables (onMember (fun m => { m with
    mq := [.drain tKv], age := 1, regions := vput (k := 3) m.regions 7 ⟨some tKvDesc, Slots.none, false, true⟩ }) tMat))
theorem witness_DrainEffects :
    (∀ p ∈ [(tDrain, tDraining), (tKv, tAppending)], p.2.me.m.mq = .drain p.1 :: [] ∧ p.1.taken = false ∧ p.1.done = 0 ∧
      canonical p.2 = true ∧ undebugged p.2 = true ∧ drainStarts p.1 p.2 = true ∧ drainEnds p.1 p.2 = true) ∧
    -- a record that is not in form
    (match asCommand .m 1 (startDrain tDrain tDesc) (spadPut 31 [9] tDraining) with | .error (.fault f) => f.cause == .shapeRecord | _ => false) = true ∧
    -- elements inside the tensor and outside it; a block tag; a whole row
    (let h := BitVec.ofNat 256 (tRecordOf 1 0)
     shExt0 h = dCols tDesc ∧ 0 ∈ drainCols h 0 ∧ 1 ∉ drainCols h 0 ∧ elemBits .fp32 % 8 = 0 ∧ 0xFE00000000001000 % 4 = 0 ∧
     isOk (needNoStraddle (drainAcc tDrain) 0xFE00000000001000 4 tDraining) = true ∧ elemBits .e2m1 % 8 ≠ 0 ∧ blockLen .e2m1 = 0 ∧ 1 < dCols tDesc ∧
     dCols tKvDesc % blockLen .e4m3b16 = 0 ∧ 0 < dCols tKvDesc / blockLen .e4m3b16) ∧
    -- narrow rows in the scratchpad: one that ends its row, one that does not
    (∀ p ∈ ([(.e2m1, 0, 0, 1), (.e3m2, 0, 0, 3), (.e2m1, 2, 1, 1)] : List (Tag × Nat × Nat × Nat)),
      let q := { tDrain with tag := p.1 }
      let h := BitVec.ofNat 256 (tRecordOf p.2.1 p.2.2.1)
      let l := drainCols h 0
      (match l.head?, l.getLast? with
       | some j0, some j1 =>
         let w := elemBits p.1
         let lo : Int := (shOrg0 h + j0) * w / 8
         decide ((p.2.2.2 : Int) = (if endsRow h j1 then narrowBytes w (shOrg0 h + j1 + 1) else ((shOrg0 h + j1) * w + w - 1) / 8 + 1) - lo) &&
         (match resolve (drainAcc q) (wrap64 (drainRowBase q h 0 + lo)).toNat p.2.2.2 tDraining with | .ok [(.spad _ _, n)] => n == p.2.2.2 | _ => false)
       | _, _ => false) = true ∧ isOk (drainNarrow q h 0 l (fun _ => 0) tDraining) = true) ∧
    -- a KV row
    (2 * 1 ≤ dCols tKvDesc ∧ (match readTable 0xFE00000000001000 tAppending with
      | .ok tab => decide (0 / kvT tab.head < kvEntries tab.head) && (match readEntry tab.addr 0 tAppending with
        | .ok (e, p) => !p && entryOk e && entryTier e == 0 && isOk (writePhysical (entryFrame e) (List.replicate 16 0) (wordCached [(entryAddr tab.addr 0, 8)] tAppending))
        | .error _ => false)
      | .error _ => false) = true) := by decide +kernel
theorem witness_DotProducts :
    (let a : OpBlock := ⟨.i8, #[#[xofInt (-128), xofInt 127]], #[]⟩
     ∀ k < 2, opElem a 0 k = xofInt (if k = 0 then -128 else 127)) ∧
    (let a : OpBlock := ⟨.bf16, #[#[xzero, xzero]], #[]⟩
     blockLen a.tag = 0 ∧ ∀ k < 2, opElem a 0 k = xzero) ∧
    -- 1 and 1.5, significand bits of weight 2^-7: finite, the largest exponent 0
    (let a : OpBlock := ⟨.bf16, #[#[.fin false 128 (-7), .fin true 192 (-7)]], #[]⟩
     opMant a = 7 ∧ opElem a 0 0 = .fin false 128 (0 - opMant a) ∧ opElem a 0 1 = .fin true 192 (0 - opMant a) ∧ 128 * 128 ≠ 0) ∧
    -- half-groups of an operand with blocks of 16: elements of both at the ends of the ranges
    (let a : OpBlock := ⟨.e2m1b16, #[(Array.replicate 17 (.fin false 2 (-1)))], #[#[xone, xone]]⟩
     opMant a = 1 ∧ (∀ k < 17, opElem a 0 k = .fin false 2 (0 - opMant a)) ∧ opScale a 0 0 = xone ∧ opScale a 0 16 = xone) ∧
    -- a NaN product, a NaN scale, infinities of one sign and of both
    (let a : OpBlock := ⟨.e2m1b16, #[#[.nan, .inf true, .inf false, xone]], #[#[.nan]]⟩
     xmul (opElem a 0 0) (opElem a 0 3) = .nan ∧ xmul (opScale a 0 0) (opScale a 0 0) = .nan ∧
     xmul (opElem a 0 1) (opElem a 0 3) = .inf true ∧ xmul (opElem a 0 2) (opElem a 0 3) = .inf false) := by decide +kernel

/-! #### The shuttle -/

def tCap (e : Nat) (group : List (BitVec 64)) (s : State) : State :=
  { s with launches := [{ fullLaunch with caps := [⟨BitVec.ofNat 256 e, false, group, []⟩] }] }
def tComp (fill : Bool) : Completion := ⟨0, .core, false, false, fill, 0, 0⟩
def tShut : State := tTables (setRegs [(1, 0xFE00000000000000#64), (2, 0xFE00000000000040#64), (3, 0xFE00000000001000#64), (4, 2 ^ 32), (5, 1), (6, 0x1000)] tC)
theorem witness_ShuttleCommands :
    (∀ r ∈ ([1, 2, 3, 4, 5, 6, 7] : List Reg), readable r tShut = true) ∧ queueRoom .c tShut = true ∧ isOk (fillTarget (tComp false) tShut) = true ∧
    -- a record of one element of 8 bytes, and an empty one
    (let h : BitVec 256 := BitVec.ofNat 256 (1 * 2 ^ 240 + 1 * 2 ^ 224 + 1 * 2 ^ 208 + 3 * 2 ^ 141)
     shCount h = 1 ∧ oddWalk (shE h) [rawReg tShut 1, rawReg tShut 2] (strides h) = none ∧ shE h = credBytes .add64 ∧ pageShapeOk h = true ∧
     oddWalk (shE h) [rawReg tShut 1] (pageStrides h) = none ∧ (rawReg tShut 1).toNat % 64 = 0 ∧ (rawReg tShut 2).toNat % 8 = 0) ∧ shCount 0 = 0 ∧
    -- lines of the code store, and none
    (linesPresent (rawReg tShut 6).toNat 1 = true ∧ inRanges (rawReg tShut 6).toNat tShut = true) ∧ rawReg tShut 7 = 0 ∧
    (let s := tCap (64 * 2 ^ 160 + 1 * 2 ^ 128 + 2 ^ 5 + 2 ^ 4 + 3) [] tShut
     isOk (transferCap 0 capWrite s) = true ∧ isOk (transferCap 0 capRead s) = true ∧ isOk (consumeCap 0 s) = true) ∧
    (let s := tCap (1 * 2 ^ 128 + 2 ^ 6 + 2 ^ 5 + 5) [0] tShut
     (match capEntry 0 s with
      | .ok e => capKind e == 5 && capMcast e && capAllowance e != 0 && (maskBits (rawReg s 5)).all (· < capGroup e)
      | .error _ => false) = true ∧ rawReg s 5 ≠ 0 ∧
     (match capAt 0 s with
      | some c => mcastFits c (mcastState c s) 0 s (maskBits (rawReg s 5)) && isOk (waitCredits 0 c (mcastState c s) s (maskBits (rawReg s 5)))
      | none => false) = true ∧ isOk (consumeCap 0 s) = true) ∧
    (match needRing 0 tShut with | .ok r => !ringRemote r && !ringBound r && isOk (needRecordFits r (rawReg tShut 3).toNat tShut) | .error _ => false) = true ∧
    ((rawReg tShut 3).toNat % 32 = 0 ∧ (rawReg tShut 1).toNat / 2 ^ 56 = 0xFE ∧ (rawReg tShut 1).toNat % 2 ^ 56 < resSpad tShut) ∧
    (match readRecord (rawReg tShut 1).toNat tShut with | .ok (r, _) => bits r 139 128 == 0 && decide (bits r 143 141 < 4) | .error _ => false) = true ∧
    (let s := spadPut 16 [1] tShut
     (match readRecord (rawReg s 1).toNat s with | .ok (r, _) => bits r 139 128 != 0 | .error _ => false) = true) ∧
    queueQuiet tShut.cur tShut = true ∧ queueLength .c tShut ≤ 64 := by decide +kernel
def tCmd (k : CmdKind) (a b : Word) (walked : Bool) : Cmd :=
  { age := 0, kind := k, a := a, b := b, shape := BitVec.ofNat 256 (1 * 2 ^ 240 + 1 * 2 ^ 224 + 1 * 2 ^ 208 + 3 * 2 ^ 141), comp := ⟨0, .core, false, true, false, 0, 0⟩,
    slot := none, progress := 0, walked := walked, read := [], jobs := [], lost := [], pos := 1 }
def tCmds (c : Cmd) : State := onMember (fun m => { m with cq := [c], age := 1 }) (mapPage 0 (rwLeaf 0x10) tShut)
/-- The launch has recorded that a page of the command is damaged. -/
def tDamaged (c : Cmd) : State :=
  let s := tCmds c
  { s with launches := s.launches.map fun l => { l with records := [recordOf s .c 1 1 { cause := .drupeletFault }] } }
def tAttn : Cmd := tCmd (.attn 0xFE00000000001000#64) 0xFE00000000000000#64 (2 ^ 32) false
theorem witness_ShuttleEngine :
    (let c := tCmd .copy 0xFE00000000000000#64 0xFE00000000000040#64 false
     isAttn c = false ∧ (match asCommand .c c.pos (cmdStart c) (tCmds c) with
      | .ok t => (match t.me.m.cq with
        | q :: _ => !q.walked && (walkElems cmdUnit (cmdUnits q - q.progress) q.progress t).stop.isNone
        | [] => false)
      | .error _ => false) = true) ∧
    (let c := tCmd .copy 0xFE00000000000000#64 0xFE00000000000040#64 true
     cmdWalked c = true ∧ isOk (asCommand .c c.pos (performCmd c) (tCmds c)) = true ∧ c.kind = .copy ∧ combined (tCmds c) = [] ∧ c.comp.notify = true ∧
     (vat (k := 2) (tCmds c).me.m.events.queues 1).length < 16) ∧
    (let c := { tCmd .page 0 0xFE00000000000040#64 true with read := [5 * 2 ^ 6] }
     isOk (asCommand .c c.pos (replaceEntry c (5 * 2 ^ 6)) (tCmds c)) = true) ∧
    (isAttn tAttn = true ∧ tAttn.progress < attnCount tAttn ∧
      (match asCommand .c tAttn.pos (attnStart tAttn) (tCmds tAttn) with
       | .ok t => (match t.me.m.cq with
         | c :: _ => decide (c.progress < attnCount c) && !c.read.isEmpty && (match asCommand .c c.pos (sendPage c) t with
           | .ok u => (match u.me.m.cq with
             | d :: _ => (match d.jobs with | j :: _ => !pageFaulted d u && isOk (asCommand .c d.pos (finishPage d j) u) | [] => false)
             | [] => false)
           | .error _ => false)
         | [] => false)
       | .error _ => false) = true) ∧
    (let c := { tAttn with jobs := [⟨0, 0, 0, 0⟩] }
     (tDamaged c).me.m.cq = [c] ∧ pageFaulted c (tDamaged c) = true) ∧
    (let h : BitVec 256 := BitVec.ofNat 256 (1 * 2 ^ 240 + 1 * 2 ^ 224 + 1 * 2 ^ 208)
     0 < shExt0 h ∧ 0 < shExt1 h ∧ 0 < shExt2 h ∧ shSrcSide h = false ∧ shSrcSide (h ||| BitVec.ofNat 256 (2 ^ 140)) = true) := by decide +kernel

/-- One command that copies a row of two 8-byte elements from one place of an RC page to another, clipped at `bnd` on a side. -/
def tCopy (org bnd side : Nat) : Cmd :=
  { tCmd .copy 0x10000 0x10040 false with shape := BitVec.ofNat 256 (2 * 2 ^ 240 + 1 * 2 ^ 224 + 1 * 2 ^ 208 + bnd * 2 ^ 192 + org * 2 ^ 160 + 3 * 2 ^ 141 + side * 2 ^ 140) }
def tCopies (c : Cmd) : State := mapPage 0x10000 (rwLeaf 0x10 ||| 4) (tCmds c)
/-- Element n of a copy meets what the statement asks of it: its source, its destination in an RC page. -/
def copyMeets (c : Cmd) (n : Nat) : Bool :=
  let s := tCopies c
  let x := elemAt c.shape c.a c.b n
  let e := shE c.shape
  let v := modCtx (fun k => { k with pc := c.pos }) { s with cur := .c }
  s.me.m.cq == [c] && canonical s && isOk (needRunWhole true true (putAcc e) false c n v) &&
    (!x.inside || match resolve (getAcc e) x.src.toNat e v with
      | .ok ss => plainSpots ss && !readWasLost ss v
      | .error _ => false) &&
    match resolve (putAcc e) x.dst.toNat e (if x.inside then cached x.src.toNat e v else v) with
      | .ok [(.mem leaf key, k)] => k == e && plainSpots [(.mem leaf key, e)] && leafOrd leaf == 1 && inQuadOf s (.mem leaf key)
      | _ => false
theorem witness_ShuttleEngine_element :
    AllDelivered (tCopies (tCopy 0 0 0)) ∧ AllDelivered (tCopies (tCopy 1 1 0)) ∧ AllDelivered (tCopies (tCopy 1 1 1)) ∧
    (copyMeets (tCopy 0 0 0) 0 && copyMeets (tCopy 0 0 0) 1 && copyMeets (tCopy 1 1 1) 0 && copyMeets (tCopy 1 1 0) 0 &&
      (elemAt (tCopy 0 0 0).shape 0 0 1).inside && !(elemAt (tCopy 1 1 1).shape 0 0 0).inside && shSrcSide (tCopy 1 1 1).shape &&
      !(elemAt (tCopy 1 1 0).shape 0 0 0).inside && !shSrcSide (tCopy 1 1 0).shape) = true :=
  ⟨⟨rfl, fun _ => rfl⟩, ⟨rfl, fun _ => rfl⟩, ⟨rfl, fun _ => rfl⟩, by decide +kernel⟩

/-! #### Messages, the memory system, links -/

def tWho : Who := ⟨1, 0, .s⟩
def tMsg (b : Body) : Msg := ⟨tWho, 1, [.dlink 0 0], .pkg, 0, .tc1, none, 0, b, false⟩
def tSent (b : Body) (s : State) : State := { s with inFlight := [tMsg b] }
/-- The message that i would deliver. -/
def found (i : Instr) (s : State) : Option Body := (s.inFlight.find? fun x => deliveryStep x.body == i && deliverable x s).map (·.body)
theorem witness_Messages :
    (∀ p ∈ ([(.fill 1 0 0 0, .fillMessage), (.credit 1 0 0 0, .freeCredit), (.collCredit 0 0 0, .freeCredit), (.mcredit 1 0 0, .cmcastCredit), (.arrival .quad, .barrierArrival),
        (.collFill 7 0 1 0 0 0 [], .fillMessage), (.release .quad 1, .barrierArrival),
        (.write 0x100000 [1] false, .homeAppliesWrite), (.detWrite (detLeaf 0x80) 0x800000 0x3F800000, .homeAppliesWrite), (.collWrite 7 0 0 1, .homeAppliesWrite),
        (.copyWrite 1 0 0 [1] false, .homeAppliesWrite), (.hostWrite 0 [1], .homeAppliesWrite), (.load 3 false (rwLeaf 0x10) 0x100000 8 false, .loadReply),
        (.fetch 0x100000 8, .loadReply), (.atomicReply 5 false (.direct 3), .atomicReply),
        (.atomic (.op .add) false (rwLeaf 0x10) 0x100000 1 .none, .atomicHomeApply), (.atomic (.op .add) false (rwLeaf 0x10) 0x100000 1 (.queued 0), .atomicHomeApply),
        (.token, .releaseTokenAck), (.boardLook ⟨false, 0⟩ 0 3, .boardHomeStep), (.boardReply (.refused .boardRound) none 3, .boardHomeStep),
        (.bobbin 0 63 [0, 0] false, .bobbinContribution), (.bobbin 0 63 [0, 0] true, .bobbinContribution), (.bind 1 0 0 0 0 0, .remoteRingBind)] : List (Body × Instr)),
      found p.2 (tSent p.1 tS) = some p.1) ∧
    isOk (detStore (leafDetw (detLeaf 0x80)) 0x3F800000) = true ∧
    (∀ r ∈ [true, false], (match atomAt (.op .add) false (rwLeaf 0x10) 0x100000 1 r tS with | .ok x => x.conds == 0 && !x.poison | .error _ => false) = true) ∧
    boardRequest (.boardLook ⟨false, 0⟩ 0 3) = some (⟨false, 0⟩, some 0, 3) ∧
    (match memberOf 1 0 (tBob .opened tS) with | some m => isOk (needOpen (bobbinOf m 63)) | none => false) = true := by decide +kernel
/-- A combined write; a page whose table stands in memory; an invalidation of the context; a member that waits for a page. -/
def tCombined : State := { tS with combiners := [⟨0, 0, 0, [⟨tWho, 1, 0x100000, [1], false, 0, .tc1⟩]⟩] }
def tTableMem : State :=
  { memPut (8 * 8191) (natToBytes 8 (2 ^ 62 + 0x200000)) (memPut 0x200000 (natToBytes 8 (2 * 2 ^ 62 + 0x4000 * 2 ^ 16 + 3)) tS) with onDemand := [] }
/-- A whole context; and one page of it. -/
def tInval : BitVec 128 := BitVec.ofNat 128 (1 * 2 ^ 64)
def tInvalPage : BitVec 128 := BitVec.ofNat 128 (1 * 2 ^ 100 + 1 * 2 ^ 64)
def tRecorded (dies : List Nat) : State := { tS with pkgs := tS.pkgs.map fun p => { p with directory := [⟨1, 0, 0, dies⟩] } }
/-- Requests that await dies of a list. -/
def tInvaling (dies : List Nat) : State := { tS with inval := [⟨0, tInval, dies⟩] }
def tDemand : State := onMember (fun m => { m with demand := some (recordOf tS .s 1 1 { cause := .notPresent, addr := BitVec.ofNat 64 (8191 * 2 ^ 39) }) }) tTableMem
theorem witness_TranslationAndHostWindow :
    (match tCombined.combiners.find? (isCombiner 0 0 0) with | some k => !k.writes.isEmpty | none => false) = true ∧ cxlDead 0x100000 tCombined = false ∧
    (let r := routeTo 0 0 0 (homeDie 0x100000) tCombined
     routeFreeFor tWho .tc1 r tCombined = true ∧ forwardedOver r 0x100000 1 tCombined = false) ∧
    ((launchOfCtx 1 tTableMem).isSome = true ∧ isOk (walkIn 0 (packetRoot fullPacket) (8191 * 2 ^ 39) tTableMem) = true) ∧
    -- dies that a request goes to: for a whole context, for a page without a record, for one with; and none
    ((findPkg 0 tS).isSome = true ∧ (tS.dies.any fun d => d.pkg == 0 && d.die == 0 && d.on) = true ∧ invalCount tInval = 0 ∧
      (match findPkg 0 tS with | some p => allRecorded p tInvalPage | none => true) = false ∧
      ((findPkg 0 (tRecorded [0])).map fun p => allRecorded p tInvalPage && p.directory.any fun x => recordHits tInvalPage x && x.dies.contains 0) = some true ∧
      invalOk tInval = true ∧ invalOk tInvalPage = true ∧ invalDies 0 tInvalPage (tRecorded []) = [] ∧ invalDies 0 tInvalPage (tRecorded [0]) = [0]) ∧
    (∀ ds ∈ [[0], [0, 1]], (tInvaling ds).inval = ⟨0, tInval, ds⟩ :: [] ∧ 0 ∈ ds ∧ (allCores (tInvaling ds)).any waitsForPage = false ∧ dieBusy 0 0 (drainDie 0 0 (dropInval 0 0 tInval (tInvaling ds))) = false) ∧
    -- a new entry over one that is no leaf, and over a leaf, for which a request sets out
    (waitsForPage tDemand.me = true ∧ tDemand.me.m.demand.isSome = true ∧
      ∀ a ∈ [0, 0x200000], let old : BitVec 64 := BitVec.ofNat 64 (bytesToNat (storeRead tDemand.mem (memKey 0 a) 8))
        let e := if a == 0 then 0 else 2 * 2 ^ 62 + 0x8000 * 2 ^ 16 + 3
        let u := homeWrite (memKey 0 a) (natToBytes 8 e) false tDemand
        decide (leafType old = 2) = (a != 0) ∧
        (match translate (8191 * 2 ^ 39) (if leafType old = 2 then requestInval 0 (pageInval 1 (8191 * 2 ^ 39)) u else u) with | .ok (e, _) => leafTier e != 2 | .error _ => false) = true) ∧
    ((findPkg 0 tS).map fun p => (inHbm p 0 8, inHbm p (2 ^ 39 - 8) 8, inHbm p (2 ^ 39 - 7) 8)) = some (true, true, false) := by decide +kernel
theorem witness_LinkService :
    (let s := setLink (.dlink 0 1) .up tS
     linkOf (.dlink 0 1) s = .up ∧ linkOf (.dlink 0 1) (setLink (.dlink 0 1) (.replaying (replayLimit 0 tS)) s) = .replaying (replayLimit 0 tS) ∧
     linkOf (.dlink 0 1) (setLink (.dlink 0 1) .retraining s) = .retraining ∧ ∀ d ∈ linkEnds 1, linkOf (.hlink 0 d) s = .up) ∧
    (∀ b ∈ ([.write 0x100000 [1] false, .fetch 0x100000 8, .load 3 false (rwLeaf 0x10) 0x100000 8 false] : List Body),
      let s := setLink (.dlink 0 0) .failed (tSent b tS)
      linkOf (.dlink 0 0) s = .failed ∧ s.inFlight = [tMsg b] ∧ LinkId.dlink 0 0 ∈ (tMsg b).route ∧ (tMsg b).who.stream ≠ .c) := by decide +kernel

/-! #### Launches, dispatch, collectives -/

/-- The packet of the small states with a page-table root, and without boards and capabilities. -/
def tPacket : BitVec 1024 := BitVec.ofNat 1024 (fullPacket.toNat + 2 ^ (8 * 0x28) - 64 * 2 ^ (64 + 30) - 64 * 2 ^ (64 + 23))
def tCore (i q : Nat) (spare : Option Nat) : Core := Core.idle 0 0 (4 * q + i) q i spare
/-- A package that serves, with one quad and a spare core on its first die. -/
def tHost : State :=
  { State.reset with
    agenda := [], me := tCore 0 0 none, others := [tCore 1 0 none, tCore 2 0 none, tCore 3 0 none, tCore 0 6 (some 0)],
    pkgs := [{ Package.off 0 with stage := .serving, stackUp := 0xFF, mgmtUp := 0xF }],
    dies := [{ Die.off 0 0 with on := true, mv := 600, mhz := 2000, time := .locked, lastSync := 1, count := 1 }] }
def tNew : Launch := newLaunch tPacket tHost
def tWaiting : State := { tHost with launches := [tNew], nextLaunch := 2 }
def tCapped : State := { tHost with launches := [{ tNew with phase := .running, place := [(0, 0, 0)], caps := [⟨BitVec.ofNat 256 (1 * 2 ^ 128 + 3), false, [], []⟩] }] }
/-- A launch with a pod board, its capability and its board list in a page of its own (R270). -/
def tPodLaunch : Launch :=
  { tNew with packet := BitVec.ofNat 1024 (fullPacket.toNat + 2 ^ (8 * 0x28) - 63 * 2 ^ (64 + 30) - 63 * 2 ^ (64 + 23) + 0x40 * 2 ^ (8 * 0x68)) }
def tPod (taken : Bool) : State :=
  { mapPage 0 (rwLeaf 0x10) (memPut 0x100000 (natToBytes 32 (1 * 2 ^ 112 + 2 ^ 7 + 4)) (memPut 0x100040 [0x82] tHost)) with
    launches := [tPodLaunch], podBoards := if taken then [(⟨0, 0, 0, 0, 9⟩, freshBoard 2 true)] else [] }
/-- The table of the board list's page stands in a die that a link leads to, which retrains. -/
def tPodFar : State :=
  let s := { tHost with launches := [{ tPodLaunch with packet := BitVec.ofNat 1024 (tPodLaunch.packet.toNat + 2 ^ (8 * 0x28) * (2 ^ 37 - 1)) }] }
  { s with links := (dieRoute 0 0 1 s).map fun l => ⟨l, .retraining⟩ }
/-- A launch of a higher class, without a range of the code store. -/
def tHigher : Launch := { newLaunch (BitVec.ofNat 1024 (tPacket.toNat + 7 * 2 ^ (32 + 9) - 131072 * 2 ^ (8 * 0x20))) tHost with number := 2 }
theorem witness_LaunchAdmission : (packetOk tPacket = true ∧ fitsIdle (newLaunch tPacket tHost) tHost = true) ∧ packetOk 0 = false ∧
    (∀ p ∈ [(tNew, tWaiting, true), (tPodLaunch, tPod false, true), (tPodLaunch, tPod true, false)], let l := p.1; let s := p.2.1
      findLaunch 1 s = some l ∧ waits l = true ∧ l.phase = .waiting ∧ atClassHead l s = true ∧ outranked l s = false ∧ victimsFor l s = some [] ∧
      placeFor l [] s = some [(0, 0, 0)] ∧ (match admitted l [(0, 0, 0)] s with | .ok x => podFree x [] s == p.2.2 | .error _ => false) = true) ∧
    -- a list that cannot be read for now
    (tPodFar.launches.map (·.phase) = [.waiting] ∧ ∀ l ∈ tPodFar.launches, findLaunch 1 tPodFar = some l ∧ waits l = true ∧
      atClassHead l tPodFar = true ∧ outranked l tPodFar = false ∧ victimsFor l tPodFar = some [] ∧ placeFor l [] tPodFar = some [(0, 0, 0)] ∧
      (match admitted l [(0, 0, 0)] tPodFar with | .error e => refusal e == none | .ok _ => false) = true) ∧
    outranked tNew { tWaiting with launches := [tNew, tHigher] } = true ∧
    (let h := tHigher
     let v : Launch := { tNew with packet := 0, phase := .running, place := [(0, 0, 0)] }
     let busy := fun (c : Core) => { c with cur := { c.cur with state := .active, launch := 1 } }
     victimsFor h { tHost with launches := [v, h], me := busy tHost.me, others := tHost.others.map busy } = some [1]) ∧
    ((findLaunch 1 tCapped).map fun l => (l.caps[0]?).map fun c => decide (capAllowance c.entry = 1)) = some (some true) ∧
    debugOk (List.replicate 0xC0 0) = true ∧ debugOk [] = false := by decide +kernel
def tRunning (phase : LaunchPhase) (used : Nat) : State :=
  { tHost with launches := [{ tNew with phase := phase, place := [(0, 0, 0)], used := used, fields := [0, 1, 2, 3] }],
               others := [], me := { tHost.me with cur := { tHost.me.cur with state := .active, launch := 1, ctx := 1 } } }
def tSection (n : Nat) : Saved := ⟨n, sectionLength tPacket, 0, .s, false, [], [], Member.start, [], [], [], [], [], []⟩
def tSavedLaunch : Launch := { tNew with phase := .saved, place := [(0, 0, 0)], keeps := [(0, 0)], fields := [0, 1, 2, 3], saved := (upTo 4).map tSection }
def tSavedState : State := { tHost with launches := [tSavedLaunch] }
/-- What a gang stop has done before it saves. -/
def tStopped (s : State) : State := match findLaunch 1 s with | some l => setPhase 1 .stopping (stopMembers l s) | none => s
/-- A member whose page lies on a die that it cannot reach (R340). -/
def tFarPage : State :=
  let s := modCore (fun c => { c with m := { c.m with cq := [{ tAttn with jobs := [⟨0, 0, BitVec.ofNat 64 (2 ^ 37), BitVec.ofNat 64 (2 ^ 37)⟩] }] } }) (tRunning .running 0)
  { s with links := (dieRoute 0 0 1 s).map fun l => ⟨l, .retraining⟩ }
/-- The launch's package is not there. -/
def tNoPlace : State := { tRunning .running 0 with pkgs := [] }
theorem witness_LaunchStopAndResume_stop :
    (let s := tRunning .running (4294967295 * 65536000)
     ((findLaunch 1 s).map fun l => (l.phase, budgetSpent l s)) = some (.running, true) ∧ s.others.isEmpty = true ∧ s.me.m.cq.isEmpty = true ∧
     s.me.m.found.isEmpty = true ∧ s.me.cur.state = .active ∧ s.me.cur.launch = 1) ∧
    ((findLaunch 1 (tRunning .stopping 0)).map (·.phase)) = some .stopping ∧
    (∀ s ∈ [tRunning .running 0, tNoPlace], jobsOpen 1 (tStopped s) = false ∧ contributing 1 (tStopped s) = false) ∧
    jobsOpen 1 (tStopped tFarPage) = true ∧
    contributing 1 (tStopped { tRunning .running 0 with inFlight := [⟨⟨1, 0, .s⟩, 1, [], .pkg, 0, .tc0, none, 0, .bobbin 0 63 [0] false, false⟩] }) = true := by
  decide +kernel
/-- The image has a place, whatever the free value is, where one of the places that are tried is free. -/
theorem spot_of_free {l : Launch} {s : State} {p : Package} {a : Nat} (h : findPkg (imagePkg l) s = some p) (ha : a ∈ frameTries p 4096 s)
    (hf : (a != 0 && frameFree p 4096 a (imageBytes l) s) = true) : ∃ x, (imageSpot l s).1 = some x := by
  rw [← Option.isSome_iff_exists]
  simp only [imageSpot, h]
  exact List.find?_isSome.2 ⟨a, List.mem_cons_of_mem _ ha, hf⟩
theorem witness_LaunchStopAndResume_place :
    (∃ l, findLaunch 1 (tRunning .running 0) = some l ∧ ∃ x, (imageSpot l (recordStop 1 (tStopped (tRunning .running 0)))).1 = some x) ∧
    (∃ l, findLaunch 1 tNoPlace = some l ∧ (imageSpot l (recordStop 1 (tStopped tNoPlace))).1 = none) :=
  ⟨⟨(tRunning .running 0).launches.headD tNew, by decide +kernel,
      spot_of_free (p := tHost.pkgs.headD (Package.off 0)) (a := 2 ^ 36) (by decide +kernel) (by decide +kernel) (by decide +kernel)⟩,
    ⟨tNoPlace.launches.headD tNew, by decide +kernel, by decide +kernel⟩⟩
theorem witness_LaunchStopAndResume_resume :
    (let l := tSavedLaunch
     findLaunch 1 tSavedState = some l ∧ l.phase = .saved ∧ (l.saved.any fun v => v.m.demand.isSome) = false ∧ (l.saved.any fun v => v.unreadable) = false ∧
     imageFault (readImage l tSavedState) = none ∧ l.fields ≠ [] ∧ atClassHead l tSavedState = true ∧ outranked l tSavedState = false ∧ victimsFor l tSavedState = some [] ∧ placeFor l [] tSavedState = some [(0, 0, 0)] ∧
     outranked l { tSavedState with launches := [l, tHigher] } = true ∧
     (imageFault (readImage { l with saved := [{ tSection 0 with length := 0 }] } tSavedState)).isSome = true ∧
     (({ l with saved := [{ tSection 0 with unreadable := true }] } : Launch).saved.any fun v => v.unreadable) = true) ∧
    (let l := { tSavedLaunch with saved := [], barriers := [], records := [], used := 0, cause := none, image := 0, boardImages := [], podImages := [], caps := [], boards := [], submitted := sahfinTime tSavedState }
     let again := fun s : State => unholdPreloads 1 (discardAll (preloadsOver 1 true s) none { s with inFlight := s.inFlight.filterMap (rerunMsg 1) })
     placeFor l [] (again { tSavedState with others := [] }) = none ∧ placeFor l [] (again tSavedState) = some [(0, 0, 0)] ∧
     (match admitted l [(0, 0, 0)] (again tSavedState) with | .ok x => podFree x [] (again tSavedState) | .error _ => false) = true) := by decide +kernel
def tBound (st : BindState) (staged : Bool) (s : State) : State := { s with me := { s.me with cur := { s.me.cur with state := st, launch := 1, staged := staged } } }
theorem witness_Dispatch :
    (let s := tBound .ready false tSavedState
     s.me.cur.state = .ready ∧ ((findLaunch s.me.cur.launch s).map fun l => l.phase != .ended && (l.saved.find? fun v => v.member == s.me.cur.member).isSome) = some true) ∧
    (∀ g ∈ [true, false], let s := tBound .ready g (tRunning .running 0)
     s.me.cur.state = .ready ∧ ((findLaunch s.me.cur.launch s).map fun l =>
       (l.phase != .ended && (l.saved.find? fun v => v.member == s.me.cur.member).isNone, packetField l.packet 0x40 8, hasDist l.packet)) = some (true, 0, false)) ∧
    (let s := { tRunning .running 0 with me := { (tRunning .running 0).me with next := { Bind.empty with state := .staging, launch := 1 } } }
     s.me.next.state = .staging ∧ ((findLaunch s.me.next.launch s).map fun l => packetField l.packet 0x40 8) = some 0) ∧
    (let s := { tHost with me := { tHost.me with next := { Bind.empty with state := .ready } } }
     s.me.next.state = .ready ∧ s.me.cur.state = .empty) ∧
    (let s := tRunning .ended 0
     s.me.cur.state = .active ∧ ((findLaunch s.me.cur.launch s).map (·.phase)) = some .ended) := by decide +kernel
/-- A record of two ranks and 32 bytes (R353); and a collective of it. -/
def tRecord : List Byte := [7, 1, 1, 0] ++ natToBytes 4 1 ++ natToBytes 4 32 ++ List.replicate (0x14 + 32) 0
def tColl (contribs : List (Nat × Nat × Word32)) : Coll :=
  ⟨0, tRecord, 0, 0, contribs, false, List.replicate 2 ⟨true, 0, [.free], none, 0⟩, false⟩
def tFull : List (Nat × Nat × Word32) := (upTo 2).flatMap fun r => (upTo 32).map fun w => (r, w, 1)
theorem witness_Collectives : collOk tRecord = true ∧ collOk [] = false ∧
    (let s := { tHost with colls := [tColl [(0, 0, 1)]] }
     ((findColl 7 s).map fun c => (c.aborted, (c.ranks[1]?).map (·.waiting), decide ((0, 0, 1) ∈ c.contribs))) = some (false, some none, true)) ∧
    (let c := { tColl [] with ranks := List.replicate 2 ⟨true, 0, [.filled], some (List.replicate 64 0), 0⟩ }
     c.aborted = false ∧ (c.ranks[0]?).map (·.waiting) = some (some (List.replicate 64 0))) ∧ Memory.wf tHost.hostMem = true ∧
    (let c := tColl tFull
     c.contribs.length = collRankCount c * collLen c) ∧
    (let s := { tHost with colls := [tColl []], dies := [{ Die.off 0 0 with on := true, count := 65536000 }] }
     ((findColl 7 s).map fun c => collLate (sahfinTime s) c) = some true) ∧ collOp (tColl []) = 1 := by decide +kernel

/-! #### Boot, repair, machine events -/

def tPkg (stage : BootStage) : Package := { Package.off 0 with stage := stage, inPod := true, image := natToBytes 4 1 ++ natToBytes 4 104 ++ List.replicate 96 0 }
theorem witness_BootAndFlash :
    (∀ st ∈ [BootStage.off, .recovery, .serving], (findPkg 0 { tHost with pkgs := [tPkg st] }).map (fun p => (p.stage, p.inPod)) = some (st, true)) ∧
    (∀ x ∈ [true, false], replacing { tHost with pkgs := [{ tPkg .serving with leaving := x }] } = x) ∧
    (∀ p ∈ [(LaunchPhase.running, true), (.ended, false)], runsOn 0 { tRunning p.1 0 with pkgs := [tPkg .serving] } = p.2) ∧
    ((findLaunch 1 (tRunning .running 0)).map fun l => (l.phase, l.place.any fun q => q.1 == 0)) = some (.running, true) := by decide +kernel
/-- Whether a signature verifies is a free value: an image whose signature does is in order. -/
theorem witness_BootAndFlash_image (h : Config.ecdsaVerifies 1 (Config.sha384 ((tPkg .recovery).image.take 8 ++ (tPkg .recovery).image.drop 104))
    (((tPkg .recovery).image.drop 8).take 96) = true) : imageOk (tPkg .recovery) (tPkg .recovery).image = true := by
  unfold imageOk
  rw [h]
  decide +kernel
def tOnPkg (f : Package → Package) (s : State) : State := { s with pkgs := s.pkgs.map f }
/-- The page of a row, with its entry at 0x200000. -/
def tRow : State := memPut 0x200000 (natToBytes 8 (rwLeaf 0x10).toNat) tHost
def tMoving : Moving := ⟨0, 0, 2 ^ 52, 0, 0, 0x200000, rwLeaf 0x10, 0x210000, 0x100000⟩
theorem witness_Repair :
    ((findPkg 0 tHost).isSome = true ∧ canonical tHost = true) ∧
    -- a core at rest; one of a running launch, with a spare and without; one that is out of use and not listed
    ((findCore (fun c => c.pkg == 0 && c.die == 0 && c.phys == 1) tHost).map fun c => (c.retired, c.cur.state)) = some (false, .empty) ∧
    (let s := tBound .active false { tHost with launches := [{ tNew with phase := .running }] }
     s.me.retired = false ∧ s.me.cur.state ≠ .empty ∧ launchPhase s.me.cur.launch s = some .running ∧
     launchPhase s.me.cur.launch (setPhase 1 .stopping s) = some .stopping ∧
     ((findPkg 0 s).map fun p => (spareLeft p 0 (retiredCoreEntry 0 0) s, spareLeft p 0 (retiredCoreEntry 0 0) { s with others := [] })) = some (true, false)) ∧
    (let s := tOnPkg (standOut (retiredCoreEntry 0 0)) { tHost with me := { tHost.me with retired := true } }
     s.me.retired = true ∧ ((findPkg 0 s).map fun p => decide (retiredCoreEntry 0 0 ∈ p.outOfUse)) = some true) ∧
    -- a row with a page in it; the page on the move, its dies waited for and heard; the row out of use and not listed
    canonical tRow = true ∧ ((findPkg 0 tRow).map fun p =>
      let e := retiredRowEntry 0x100000
      let ls := launchLeaves 0 tRow ++ if p.again.contains e then [] else namedLeaf 0 0x200000 (launchLeaves 0 tRow) tRow
      let span := pagesSpan (pagesIn 0x100000 (2 ^ 16) 0 ls)
      p.stage == .serving && inHbm p 0x100000 1 && p.moving.isEmpty && !p.outOfUse.contains e &&
      !(pagesIn 0x100000 (2 ^ 16) 0 ls).isEmpty && frameFree p span.2 (moveTo p e 0x210000 span.2 tRow) span.2 tRow) = some true ∧
    (∀ x ∈ [true, false], let s := tOnPkg (fun p => { p with moving := [tMoving] }) { tRow with inval := if x then [] else [⟨0, 0, [0]⟩] }
      ((findPkg 0 s).map fun p => (p.moving.length, moveReady p s)) = some (1, x)) ∧
    memKey 0 0x200000 + 8 ≤ memKey 0 0x210000 ∧
    ((findPkg 0 (tOnPkg (standOut (retiredRowEntry 0x100000)) tRow)).map fun p => (p.moving.isEmpty, p.outOfUse.contains (retiredRowEntry 0x100000))) = some (true, true) := by
  decide +kernel
theorem witness_MachineEvents :
    (let s := tRunning .running 0
     ((findLaunch 1 s).map fun l => (l.phase, l.place.any fun p => p.1 == 0)) = some (.running, true) ∧ s.me.cur.state = .active ∧ s.me.cur.launch = 1 ∧
     onDie 0 0 s.me = true ∧ onPkg 0 s.me = true) ∧
    (539 < 540 ∧ 720 < 721 ∧ 540 ≤ 720) ∧ ((findPkg 0 tHost).map fun p => p.mgmtUp.getLsbD 3) = some true ∧
    (let s := memPut 0 (natToBytes 8 (2 ^ 62 + 0x200000)) (memPut 0x200000 (natToBytes 8 (2 * 2 ^ 62 + 0x4000 * 2 ^ 16 + 3)) tHost)
     reachesStack 0 0 tNew s = true) := by decide +kernel
theorem witness_MachineEvents_runs : boundOn 1 (onDie 0 0) (tRunning .running 0) ∧ boundOn 1 (onPkg 0) (tRunning .running 0) :=
  ⟨⟨(tRunning .running 0).me, List.mem_cons_self, by decide +kernel⟩, ⟨(tRunning .running 0).me, List.mem_cons_self, by decide +kernel⟩⟩
theorem witness_StoresStayCanonical : canonical tS = true ∧ (match step tS with | .next _ => true | _ => false) = true := by decide +kernel

/-! ### One step of each family: results by hand from the rules -/

/-- The state after an instruction; the state itself where the model has none. -/
def after (i : Instr) (s : State) : State := match exec i s with | .next t => t | .fault _ => s | .refused _ => s
def gives (i : Instr) (d : Reg) (s : State) : Word := rawReg (after i s) d
/-- The causes that the host has been told of. -/
def causes (s : State) : List Cause := s.hostLog.filterMap fun e => match e with | .fault r => some r.cause | _ => none
def elems (t : Reg) (s : State) : List Word := (tileOf s t).elems

def tNums : State := setRegs [(1, 0x8000000000000001#64), (2, 0xFFFFFFFFFFFFFFFF#64), (3, 65), (4, 7)] tS
/-- R85: wraps, shift amounts modulo 64, high products, comparisons of both kinds. -/
theorem test_integer : ([(.add 9 1 2, 0x8000000000000000), (.sub 9 3 4, 58), (.and 9 1 3, 1), (.or 9 3 4, 0x47), (.xor 9 3 4, 0x46), (.shl 9 4 3, 14), (.shr 9 1 3, 0x4000000000000000),
    (.sra 9 1 3, 0xC000000000000000), (.mul 9 2 4, 0xFFFFFFFFFFFFFFF9), (.mulh 9 2 4, 0xFFFFFFFFFFFFFFFF), (.mulhn 9 2 4, 6), (.min 9 1 4, 0x8000000000000001),
    (.max 9 1 4, 7), (.minn 9 1 4, 7), (.maxn 9 1 4, 0x8000000000000001), (.slt 9 2 4, 1), (.sltn 9 2 4, 0), (.seq 9 4 4, 1), (.addx 9 4 3 3, 527),
    (.popc 9 1, 2), (.clz 9 0, 64), (.ctz 9 0, 64), (.clz 9 4, 61), (.ctz 9 1, 0)] : List (Instr × Word)).all (fun p => gives p.1 9 tNums == p.2) = true := by decide +kernel
/-- R85, R86: quotients truncate toward zero, remainders take the dividend's sign; -7 / 2 and -7 mod 2. -/
theorem test_division : let s := setRegs [(1, 0xFFFFFFFFFFFFFFF9#64), (2, 2)] tS
    gives (.div 9 1 2) 9 s = 0xFFFFFFFFFFFFFFFD#64 ∧ gives (.rem 9 1 2) 9 s = 0xFFFFFFFFFFFFFFFF#64 ∧ gives (.divn 9 1 2) 9 s = 0x7FFFFFFFFFFFFFFC#64 ∧
    gives (.remn 9 1 2) 9 s = 1 ∧ causes (after (.div 9 1 0) s) = [.divideByZero] := by decide +kernel
/-- R72, R87 to R89: immediates are sign-extended; the instances of the manual's own table. -/
theorem test_immediates : let s := setRegs [(2, 0x0000000012345678#64), (4, 5)] tS
    gives (.addi 9 4 (-3)) 9 s = 2 ∧ gives (.andi 9 2 0x3FFF) 9 s = 0x12345678 ∧ gives (.ori 9 4 0x2000) 9 s = 0xFFFFFFFFFFFFE005#64 ∧
    gives (.xori 9 4 1) 9 s = 4 ∧ gives (.slti 9 4 0x3FFF) 9 s = 0 ∧ gives (.shli 9 4 63) 9 s = 0x8000000000000000#64 ∧ gives (.shri 9 2 8) 9 s = 0x123456 ∧
    gives (.srai 9 2 28) 9 s = 1 ∧ gives (.li 9 0x80000000) 9 s = 0xFFFFFFFF80000000#64 ∧ gives (.lih 2 0xFE000000) 2 s = 0xFE00000012345678#64 ∧
    gives (.bext 9 2 8 16) 9 s = 0x34 ∧ gives (.bins 4 2 8 56) 4 s = 0x7800000000000005#64 := by decide +kernel
/-- The line in the buffer has four instruction words, so that an instruction of two words is followed by slot 3. -/
def tFour (s : State) : State := modCtx (fun c => { c with line := codeLine .s (List.replicate 4 0x01000000) }) s
theorem test_zero_register : rawReg (after (.li 0 5) (tFour tS)) 0 = 0 ∧ (ctx (after (.li 0 5) (tFour tS))).pc = 3 := by decide +kernel
/-- R90, R92, R93: a jump, a call that leaves the next position in s31, a branch not taken, a loop pushed. -/
theorem test_control : let s := tFour (setReg 6 3 tLines)
    (ctx (after (.b 0x12) s)).pc = 0x12 ∧ gives (.jal 0x12) 31 s = 2 ∧ (ctx (after (.bc .lt 2 1 0x12) s)).pc = 3 ∧ (ctx (after (.bci .ne 1 0x13 0x12) s)).pc = 0x12 ∧
    ((ctx (after (.loop 6 0x12) s)).loops.map fun r => (r.b, r.e, r.rem)) = [(3, 0x12, 3)] ∧ (ctx (after (.jr 1) s)).pc = 0x12 := by decide +kernel
/-- R94, R95: little-endian bytes, extension by sign or by zero; an access that is not aligned. -/
theorem test_load_store : let s := after (.std 3 2 0) tSpad
    gives (.ldb 9 2 0) 9 s = 0xFFFFFFFFFFFFFF88#64 ∧ gives (.ldbn 9 2 0) 9 s = 0x88 ∧ gives (.ldh 9 2 2) 9 s = 0x5566 ∧ gives (.ldhn 9 2 6) 9 s = 0x1122 ∧
    gives (.ldw 9 2 4) 9 s = 0x11223344 ∧ gives (.ldwn 9 2 0) 9 s = 0x55667788 ∧ gives (.ldd 9 2 0) 9 s = 0x1122334455667788#64 ∧
    gives (.ldd 9 2 0) 9 (after (.stb 0 2 1) s) = 0x1122334455660088#64 ∧ gives (.ldd 9 2 0) 9 (after (.sth 0 2 4) s) = 0x1122000055667788#64 ∧
    gives (.ldd 9 2 0) 9 (after (.stw 0 2 0) s) = 0x1122334400000000#64 ∧ causes (after (.ldd 9 2 4) s) = [.misaligned] := by decide +kernel
/-- R97 to R99: a status that is written reads back, and `csrx` returns what stood there; a read-only CSR refuses. -/
theorem test_csr : let s := setReg 1 21 tS
    gives (.csrr 9 3) 9 (after (.csrw 1 3) s) = 21 ∧ gives (.csrx 9 0 3) 9 (after (.csrw 1 3) s) = 21 ∧ causes (after (.csrw 1 0) s) = [.reservedField] ∧
    (after (.srseedWrite 1) s).me.m.csrs.srseed = 21 ∧ (after (.retmodeWrite 4) s).me.m.csrs.retmode = 0 ∧ causes (after (.trap 9) s) = [.trap] := by decide +kernel
/-- R100 to R106: a forked stream starts with its two registers; masks and handlers. -/
theorem test_streams : let s := after (.fork .m 1 2 0x11) (setRegs [(1, 5), (2, 6)] tFork)
    (memberCtx s.me.m .m).pc = 0x11 ∧ (memberCtx s.me.m .m).state = .running ∧ vat (k := 5) (memberCtx s.me.m .m).regs 2 = 6 ∧
    gives (.evmask 9 5) 9 tS = 0 ∧ (after (.evmask 9 5) tS).me.m.events.mask = 5 ∧ vat (k := 2) (after (.catchEv .deadline 1) tS).me.m.events.handlers 3 = 1 ∧
    (ctx (after .yield tS)).pc = 2 ∧ (ctx (after (.join true true true) tS)).pc = 2 ∧ (ctx (after .exit tV)).state = .idle ∧ causes (after .evret tS) = [.notInHandler] := by
  decide +kernel
/-- R107, R108: delivery saves the position and the cause, and returns to it. -/
theorem test_event : let t := after .eventDelivery (tEvent .deadline 0x11)
    (ctx t).pc = 0x11 ∧ t.me.m.csrs.evpc = 1 ∧ t.me.m.csrs.evcause = 0x703 ∧ t.me.m.events.inHandler = true ∧ (ctx (after .evret t)).pc = 1 ∧
    (vat (k := 2) (after .evdlDeadline (onMember (fun m => { m with csrs := { m.csrs with evdl := 0 } }) tS)).me.m.events.queues 3) = [0] := by decide +kernel
/-- R179 to R187: ring slots in turn; a barrier of one core's member counts its arrival. -/
theorem test_sync : let s := tRing [.free, .free] [] [] tS
    gives (.rclaim 9 15) 9 s = 0xFE00000000000000#64 ∧ gives (.rclaim 9 15) 9 (after (.rclaim 9 15) s) = 0xFE00000000000040#64 ∧
    slotState (ringOf (after (.rfill 0 15) (after (.rclaim 9 15) s)).me.m 15) 0 = .filled ∧
    slotState (ringOf (after (.rwait 9 15) (after (.rfill 0 15) (after (.rclaim 9 15) s))).me.m 15) 0 = .held ∧
    gives (.bara 9 .core) 9 tS = 0 ∧ gives (.bart 9 0 .core) 9 (after (.bara 8 .core) tS) = 1 ∧ (ctx (after (.fence .full .sys) tS)).pc = 2 ∧
    (ctx (after (.qfence 0xF) (onMember (fun m => { m with age := 5 }) tS))).carried.toList = [5, 5, 5, 5] ∧ causes (after (.bar .sys) tS) = [.barrierScope] ∧ gives (.rstat 9 15) 9 tS = 0 ∧
    causes (after (.rfree 0 15) s) = [.ringConfig] ∧ (after (.hgive 1 1) tQuad).me.buffers.length = 1 ∧
    ringSet (ringOf (after (.rset 1 2 3) (setRegs [(1, 0xFE00000000000000#64), (2, 0x40)] tS)).me.m 3) = true ∧
    gives (.htake 9) 9 { tS with me := { tS.me with inbox := [5] } } = 5 := by decide +kernel
/-- R188 to R191: a word in memory is added to and the old one returned; a comparison that fails stores nothing; an empty queue. -/
theorem test_atomics : let s := memPut 0x100008 [9] (onMember (fun m => { m with csrs := { m.csrs with retmode := 1 } }) tAtom)
    gives (.aop 9 1 2 .add .rlx .core false) 9 s = 9 ∧ storeRead (after (.aop 9 1 2 .add .rlx .core false) s).mem 0x100008 1 = [14] ∧
    storeRead (after (.acas 9 1 2 3 .rlx .core false) s).mem 0x100008 1 = [9] ∧ causes (after (.apop 9) tS) = [.apopEmpty] := by decide +kernel
/-- R195 to R199: a post raises the level to 1; a complete board starts round 1; the time with its fraction. -/
theorem test_boards_and_time : let ref : BoardRef := ⟨false, 0⟩
    gives (.bpost 9 1 2 ref 1) 9 (tBoard 0 none 0 (setRegs [(1, 7), (2, 1)] tS)) = 1 ∧ gives (.blook 9 ref 1) 9 (tBoard 3 (some 0) 0 tS) = 2 ∧
    gives (.bread 9 2 ref 1) 9 (after (.bpost 9 1 2 ref 1) (tBoard 0 none 0 (setRegs [(1, 7), (2, 1)] tS))) = 7 ∧ gives (.bround 9 ref) 9 (tBoard 3 (some 0) 0 tS) = 1 ∧
    gives (.tread 9 8) 9 (tDie .locked (10 * 65536 + 3) 100 0 tS) = 10 ∧ bits (gives (.tread 9 8) 8 (tDie .locked (10 * 65536 + 3) 100 0 tS)) 15 0 = 3 ∧
    causes (after (.twait 1) tS) = [.timeUnlocked] ∧ (ctx (after .twaitExpiry (tWait .locked))).state = .running := by decide +kernel
/-- R200 to R203: a bobbin that two contributions of 1.5 and 1.5 seal as 3.0. -/
theorem test_bobbins : let s := spadPut 0 (natToBytes 4 0x3FC00000) (setReg 2 0xFE00000000000000#64 (after (.bopen 1 3 4 63 .sum) (setRegs [(3, 1), (4, 2)] tS)))
    let t := after (.bcontMem 1 2 0) (after (.bcontMem 1 2 0) s)
    rawReg s 1 = 63 ∧ (bobbinOf t.me.m 63).state = .sealed ∧ (bobbinOf t.me.m 63).vals = [0x40400000] ∧ gives (.bwait 9 1) 9 t = 2 ∧
    (bobbinOf (after (.bfree 1) t).me.m 63).state = .free ∧
    (bobbinOf (after (.bcontFreg 1 0 15) (tBob .opened tV)).me.m 63).received = 2 := by decide +kernel

/-- Every element, without a predicate. -/
def tAll : PMod := ⟨0, false⟩
/-- R122, R125, R126, R129, R139 on 1, 2, 3, 4 and 1, 1, 1, 1: values by hand in FP32. -/
theorem test_tile_arithmetic : ([(.vadd 31 1 2 tAll .rne false, [0x40000000, 0x40400000, 0x40800000, 0x40A00000]),
    (.vsub 31 1 2 tAll .rne false, [0, 0x3F800000, 0x40000000, 0x40400000]), (.vmul 31 1 1 tAll .rne false, [0x3F800000, 0x40800000, 0x41100000, 0x41800000]),
    (.vmin 31 1 2 tAll .rne false, [0x3F800000, 0x3F800000, 0x3F800000, 0x3F800000]), (.vmax 31 1 2 tAll .rne false, [0x3F800000, 0x40000000, 0x40400000, 0x40800000]),
    (.vneg 31 1 tAll .rne, [0xBF800000, 0xC0000000, 0xC0400000, 0xC0800000]), (.vabs 31 1 tAll .rne, [0x3F800000, 0x40000000, 0x40400000, 0x40800000]),
    (.vadds 31 1 4 tAll .rne, [0x40400000, 0x40800000, 0x40A00000, 0x40C00000]), (.vmuls 31 1 4 tAll .rne, [0x40000000, 0x40800000, 0x40C00000, 0x41000000]),
    (.vcvt 31 1 .bf16 tAll .rne, [0x3F80, 0x4000, 0x4040, 0x4080]), (.vcvt 31 1 .e4m3 tAll .rne, [0x38, 0x40, 0x44, 0x48]), (.vcvt 31 4 .fp32 tAll .rne, [0, 0x3F800000, 0x40000000, 0x40400000]),
    (.vtrans 31 1 tAll, [0x3F800000, 0x40400000, 0x40000000, 0x40800000]), (.vmov 31 4 tAll, [0, 1, 2, 3]), (.vadd 31 4 4 tAll .rne false, [0, 2, 4, 6])] : List (Instr × List Word)).all
    (fun p => elems 31 (after p.1 tTiles) == p.2) = true := by decide +kernel
/-- R130: powers of two and reciprocals that are exact. -/
theorem test_tile_functions : let one := putTile 8 (tTile .fp32 [0x3F800000, 0x40000000, 0x40800000, 0x41000000] [] Slots.none) tTiles
    elems 31 (after (.vexp2 31 1 tAll .rne) one) = [0x40000000, 0x40800000, 0x41000000, 0x41800000] ∧ elems 31 (after (.vlog2 31 8 tAll .rne) one) = [0, 0x3F800000, 0x40000000, 0x40400000] ∧
    elems 31 (after (.vrcp 31 8 tAll .rne) one) = [0x3F800000, 0x3F000000, 0x3E800000, 0x3E000000] ∧ nth (elems 31 (after (.vrsq 31 8 tAll .rne) one)) 2 0 = 0x3F000000 := by decide +kernel
/-- R135 to R137: 1 + 2, 3 + 4; the columns 4 and 6; the maxima with their indexes. -/
theorem test_reductions : let f := fun (i : Instr) (r : FIdx) => ((vat (k := 4) (after i tTiles).me.m.fregs r).vals.toList.take 2)
    f (.vrsum 1 0 (.freg 14 0)) 14 = [0x40400000, 0x40E00000] ∧ f (.vcsum 1 0 (.freg 14 0)) 14 = [0x40800000, 0x40C00000] ∧
    f (.vrmax 1 0 (.freg 14 0)) 14 = [0x40000000, 0x40800000] ∧ f (.vcmax 1 0 (.freg 14 0)) 14 = [0x40400000, 0x40800000] := by decide +kernel

/-- R154: one step of a nest over [[1, 2], [3, 4]] twice, into a fresh region at rows and columns 254 and 255: 7, 10, 15, 22. -/
theorem test_matrix_product : let t := after .nestStep tStep
    t.me.m.acc = [(256 * 254 + 254, 0x40E00000), (256 * 254 + 255, 0x41200000), (256 * 255 + 254, 0x41700000), (256 * 255 + 255, 0x41B00000)] := by
  decide +kernel
/-- R161 to R168: the shadow takes its fields; a region whose words are made zero. -/
theorem test_matrix_setup : let s := setRegs [(7, 0x200000003#64)] tMat
    (after (.mnest 5 2) tMat).me.m.shadow.n.toList.getD 2 0 = 0x3F800000 ∧ (after (.mscale 5) tMat).me.m.shadow.s = 0x3F800000 ∧
    (after (.mstep 0 7 7 1) s).me.m.shadow.sa.toList.getD 1 0 = 0x200000003 ∧ (after (.mgo none) tMat).me.m.mq.length = 1 ∧
    (regionOf (after (.mregion 3 5) tMat).me.m 5).desc = some tDesc ∧ (after (.mprog 9) tMat).me.m.shadow.prof = some 9 ∧
    causes (after (.mgo none) (after (.mprog 9) tMat)) = [.profileUnknown] ∧ causes (after (.mstep 7 7 7 1) s) = [.nestConfig] := by decide +kernel
/-- R210: a copy of one element of eight bytes in the scratchpad, from offset 0 to offset 64. -/
theorem test_copy : let s := spadPut 0 [1, 2, 3, 4, 5, 6, 7, 8] (tCmds (tCmd .copy 0xFE00000000000000#64 0xFE00000000000040#64 false))
    storeRead (after .shuttleWalk s).me.spad 64 8 = [1, 2, 3, 4, 5, 6, 7, 8] := by decide +kernel

end Sys2Proof.Tests
end

section
/-! PROOFS. The decoder and the encoder: every encoded instruction is decoded again, and what the decoder answers is
well formed (R65, R66). -/
namespace Sys2Proof.EncodingProofs
open Sys2Proof Sys2Proof.Laws

/-! ### Encoding, then decoding -/

/-- The table of the round-trip laws; the steps of the hardware, the firmware and the host have no words. -/
theorem decodeList_encode (i : Instr) : RoundTrip.Statement i := by
  cases i with
  | nop => apply RoundTrip.nop | add => apply RoundTrip.add | sub => apply RoundTrip.sub
  | and => apply RoundTrip.and | or => apply RoundTrip.or | xor => apply RoundTrip.xor | shl => apply RoundTrip.shl
  | shr => apply RoundTrip.shr | sra => apply RoundTrip.sra | mul => apply RoundTrip.mul
  | mulh => apply RoundTrip.mulh | mulhn => apply RoundTrip.mulhn | div => apply RoundTrip.div
  | divn => apply RoundTrip.divn | rem => apply RoundTrip.rem | remn => apply RoundTrip.remn
  | min => apply RoundTrip.min | max => apply RoundTrip.max | minn => apply RoundTrip.minn
  | maxn => apply RoundTrip.maxn | slt => apply RoundTrip.slt | sltn => apply RoundTrip.sltn
  | seq => apply RoundTrip.seq | addx => apply RoundTrip.addx | popc => apply RoundTrip.popc
  | clz => apply RoundTrip.clz | ctz => apply RoundTrip.ctz | addi => apply RoundTrip.addi
  | andi => apply RoundTrip.andi | ori => apply RoundTrip.ori | xori => apply RoundTrip.xori
  | slti => apply RoundTrip.slti | shli => apply RoundTrip.shli | shri => apply RoundTrip.shri
  | srai => apply RoundTrip.srai | li => apply RoundTrip.li | lih => apply RoundTrip.lih
  | bext => apply RoundTrip.bext | bins => apply RoundTrip.bins | b => apply RoundTrip.b
  | jal => apply RoundTrip.jal | jr => apply RoundTrip.jr | bc => apply RoundTrip.bc | bci => apply RoundTrip.bci
  | loop => apply RoundTrip.loop | ldb => apply RoundTrip.ldb | ldh => apply RoundTrip.ldh
  | ldw => apply RoundTrip.ldw | ldd => apply RoundTrip.ldd | ldbn => apply RoundTrip.ldbn
  | ldhn => apply RoundTrip.ldhn | ldwn => apply RoundTrip.ldwn | stb => apply RoundTrip.stb
  | sth => apply RoundTrip.sth | stw => apply RoundTrip.stw | std => apply RoundTrip.std
  | csrr => apply RoundTrip.csrr | csrw => apply RoundTrip.csrw | csrx => apply RoundTrip.csrx
  | srseedWrite => apply RoundTrip.srseedWrite | retmodeWrite => apply RoundTrip.retmodeWrite
  | trap => apply RoundTrip.trap | fork => apply RoundTrip.fork | join => apply RoundTrip.join
  | exit => apply RoundTrip.exit | catchEv => apply RoundTrip.catchEv | evret => apply RoundTrip.evret
  | evmask => apply RoundTrip.evmask | yield => apply RoundTrip.yield | qfence => apply RoundTrip.qfence
  | fence => apply RoundTrip.fence | rclaim => apply RoundTrip.rclaim | rfill => apply RoundTrip.rfill
  | rwait => apply RoundTrip.rwait | rfree => apply RoundTrip.rfree | rset => apply RoundTrip.rset
  | rstat => apply RoundTrip.rstat | hgive => apply RoundTrip.hgive | htake => apply RoundTrip.htake
  | bar => apply RoundTrip.bar | bara => apply RoundTrip.bara | bart => apply RoundTrip.bart
  | aop => apply RoundTrip.aop | acas => apply RoundTrip.acas | apop => apply RoundTrip.apop
  | bpost => apply RoundTrip.bpost | blook => apply RoundTrip.blook | bread => apply RoundTrip.bread
  | bround => apply RoundTrip.bround | tread => apply RoundTrip.tread | twait => apply RoundTrip.twait
  | bopen => apply RoundTrip.bopen | bcontFreg => apply RoundTrip.bcontFreg | bcontMem => apply RoundTrip.bcontMem
  | bwait => apply RoundTrip.bwait | bfree => apply RoundTrip.bfree | vshape => apply RoundTrip.vshape
  | vld => apply RoundTrip.vld | vst => apply RoundTrip.vst | vzeroKeep => apply RoundTrip.vzeroKeep
  | vzeroEmpty => apply RoundTrip.vzeroEmpty | vmov => apply RoundTrip.vmov | vadd => apply RoundTrip.vadd
  | vsub => apply RoundTrip.vsub | vmul => apply RoundTrip.vmul | vfma => apply RoundTrip.vfma
  | vmax => apply RoundTrip.vmax | vmin => apply RoundTrip.vmin | vabs => apply RoundTrip.vabs
  | vneg => apply RoundTrip.vneg | vadds => apply RoundTrip.vadds | vmuls => apply RoundTrip.vmuls
  | vbcr => apply RoundTrip.vbcr | vbcc => apply RoundTrip.vbcc | vcvt => apply RoundTrip.vcvt
  | vexp2 => apply RoundTrip.vexp2 | vlog2 => apply RoundTrip.vlog2 | vrcp => apply RoundTrip.vrcp
  | vrsq => apply RoundTrip.vrsq | vsig => apply RoundTrip.vsig | vtanh => apply RoundTrip.vtanh
  | vcmp => apply RoundTrip.vcmp | vsel => apply RoundTrip.vsel | vpset => apply RoundTrip.vpset
  | vrsum => apply RoundTrip.vrsum | vrmax => apply RoundTrip.vrmax | vrmaxi => apply RoundTrip.vrmaxi
  | vcsum => apply RoundTrip.vcsum | vcmax => apply RoundTrip.vcmax | vctopk => apply RoundTrip.vctopk
  | vtrans => apply RoundTrip.vtrans | vacc => apply RoundTrip.vacc | vtoacc => apply RoundTrip.vtoacc
  | vsetrs => apply RoundTrip.vsetrs | vsetcs => apply RoundTrip.vsetcs | vsetrk => apply RoundTrip.vsetrk
  | vresolve => apply RoundTrip.vresolve | vgetslot => apply RoundTrip.vgetslot
  | vputslot => apply RoundTrip.vputslot | vstrict => apply RoundTrip.vstrict | vfld => apply RoundTrip.vfld
  | vfst => apply RoundTrip.vfst | vfop => apply RoundTrip.vfop | vscl => apply RoundTrip.vscl
  | vrope => apply RoundTrip.vrope | vgather => apply RoundTrip.vgather | vscat => apply RoundTrip.vscat
  | vstat => apply RoundTrip.vstat | vsmerge => apply RoundTrip.vsmerge | mloadn => apply RoundTrip.mloadn
  | mnest => apply RoundTrip.mnest | mstep => apply RoundTrip.mstep | mopnd => apply RoundTrip.mopnd
  | mregion => apply RoundTrip.mregion | mscale => apply RoundTrip.mscale | mgo => apply RoundTrip.mgo
  | mwait => apply RoundTrip.mwait | mzero => apply RoundTrip.mzero | mdrain => apply RoundTrip.mdrain
  | mprog => apply RoundTrip.mprog | mstat => apply RoundTrip.mstat | mslot => apply RoundTrip.mslot
  | cshape => apply RoundTrip.cshape | ccopy => apply RoundTrip.ccopy | cpush => apply RoundTrip.cpush
  | cpull => apply RoundTrip.cpull | cmcast => apply RoundTrip.cmcast | cpage => apply RoundTrip.cpage
  | cred => apply RoundTrip.cred | ccode => apply RoundTrip.ccode | cattn => apply RoundTrip.cattn
  | cwait => apply RoundTrip.cwait | cstat => apply RoundTrip.cstat | illegalOpcode => apply RoundTrip.illegalOpcode
  | privilegedOpcode => apply RoundTrip.privilegedOpcode
  | _ => exact fun _ h => absurd rfl h

/-! ### What a decoder answers -/

/-- Where a decoder answers an instruction at all, the instruction is well formed. -/
def AnswersWf (d : Decoded) : Prop := ∀ i, d = .ok i → i.wf = true

theorem answersWf_error (e : DecodeErr) : AnswersWf (.error e) := fun _ h => nomatch h

theorem answersWf_ok {i : Instr} (h : i.wf = true) : AnswersWf (.ok i) := fun _ hj => Except.ok.inj hj ▸ h

theorem answersWf_okIf {c : Bool} {i : Instr} (h : c = true → i.wf = true) : AnswersWf (okIf c i) := by
  unfold okIf
  split
  · next hc => exact answersWf_ok (h hc)
  · exact answersWf_error _

theorem answersWf_okSome {α : Type} {o : Option α} {f : α → Decoded} (h : ∀ a, o = some a → AnswersWf (f a)) :
    AnswersWf (okSome o f) := by
  cases o with
  | none => exact answersWf_error _
  | some a => exact h a rfl

theorem answersWf_ite {c : Prop} [Decidable c] {x y : Decoded} (hx : c → AnswersWf x) (hy : ¬c → AnswersWf y) :
    AnswersWf (if c then x else y) := by
  split
  · next h => exact hx h
  · next h => exact hy h

/-! ### Fields of a word -/

theorem toNat_ofNat_div (n lo len : Nat) : (BitVec.ofNat len (n / 2 ^ lo)).toNat = fBits n lo len := BitVec.toNat_ofNat ..

theorem toNat_ofNat_low (n len : Nat) : (BitVec.ofNat len n).toNat = fBits n 0 len := by simp [fBits]

/-- A check that a field is in use or all zero, said of the operand that stands in it (R66). -/
theorem unusedField_zero {c used : Bool} {n lo len : Nat} {x : BitVec len} (hx : x.toNat = fBits n lo len)
    (h : (c && (used || fBits n lo len == 0)) = true) : (used || x == 0#len) = true := by
  rw [← hx] at h
  refine (Bool.or_eq_true _ _).mpr (((Bool.or_eq_true _ _).mp (Bool.and_eq_true _ _ ▸ h).2).imp id fun h0 => ?_)
  exact beq_iff_eq.mpr (BitVec.eq_of_toNat_eq (by simpa using h0))

/-- A format field never names the empty tag (R18). -/
theorem tagOfCode_ne_empty {k : Nat} {t : Tag} (h : Tag.ofCode k = some t) : (t != .empty) = true := by
  rw [bne_iff_ne]
  rintro rfl
  unfold Tag.ofCode at h
  split at h <;> cases h

/-! ### The shared forms of the long instructions -/

theorem dTarget_answersWf (w : Nat) {f : CodePos → Instr} (h : ∀ t, (f t).wf = true) : AnswersWf (dTarget w f) :=
  answersWf_okIf fun _ => h _

theorem dCompletion_answersWf (w : Nat) {f : Completion → Decoded} (h : ∀ c, AnswersWf (f c)) :
    AnswersWf (dCompletion w f) :=
  answersWf_okSome fun _ _ => answersWf_ite (fun _ => h _) fun _ => answersWf_error _

/-- R78: a command without a capability has the field zero. -/
theorem dCopy_answersWf (n w : Nat) (cap : Bool) {f : Reg → Reg → Completion → Instr}
    (h : ∀ a b c, (cap || c.cap == 0) = true → (f a b c).wf = true) : AnswersWf (dCopy n w cap f) :=
  dCompletion_answersWf w fun c => answersWf_okIf fun hc => h _ _ c (Bool.and_eq_true _ _ ▸ hc).2

/-- R135: the fields of word 2 that the destination does not use are zero. -/
theorem dRed_answersWf (n w : Nat) (usesQ usesX bobbinOk : Bool) {f : Reg → PIdx → RedDest → Instr}
    (h : ∀ a p dest, dest.wf usesQ usesX bobbinOk = true → (f a p dest).wf = true) :
    AnswersWf (dRed n w usesQ usesX bobbinOk f) := by
  unfold dRed
  refine answersWf_ite (fun _ => ?_) fun _ => answersWf_error _
  split
  · exact answersWf_okIf fun hc => h _ _ _ (unusedField_zero (toNat_ofNat_div ..) hc)
  · exact answersWf_okIf fun hc => h _ _ _ (unusedField_zero (toNat_ofNat_div ..) hc)
  · refine answersWf_okIf fun hc => h _ _ _ ?_
    simp only [Bool.and_eq_true] at hc
    obtain ⟨⟨hbobbin, -⟩, -⟩ := hc
    exact hbobbin
  · exact answersWf_error _

/-- R161: an operand in memory has a format, and a table register only where its scales stand in a table. -/
theorem dMopnd_answersWf (n w : Nat) : AnswersWf (dMopnd n w) := by
  unfold dMopnd
  refine answersWf_ite (fun _ => answersWf_okSome fun src _ => ?_) fun _ => answersWf_error _
  refine answersWf_ite (fun _ => answersWf_okIf fun _ => rfl) fun _ => ?_
  exact answersWf_okSome fun tag ht => answersWf_okIf fun hc =>
    (Bool.and_eq_true _ _).mpr ⟨tagOfCode_ne_empty ht, unusedField_zero (toNat_ofNat_div ..) hc⟩

/-- R89: a length of 1 to 64 that ends within the register. -/
theorem bitField_inRange {w : Nat} {c : Bool}
    (h : (c && decide (1 ≤ fBits w 6 7) && decide (fBits w 6 7 ≤ 64) && decide (fBits w 0 6 + fBits w 6 7 ≤ 64)) = true) :
    (decide (1 ≤ (BitVec.ofNat 7 (w / 2 ^ 6)).toNat) && decide ((BitVec.ofNat 7 (w / 2 ^ 6)).toNat ≤ 64) &&
      decide ((BitVec.ofNat 6 w).toNat + (BitVec.ofNat 7 (w / 2 ^ 6)).toNat ≤ 64)) = true := by
  rw [Bool.and_assoc, Bool.and_assoc, Bool.and_eq_true, ← Bool.and_assoc] at h
  rw [toNat_ofNat_div, toNat_ofNat_low]
  exact h.2

/-- R160: a nest has six levels. -/
theorem level_inRange {n : Nat} {c : Bool} (h : (c && decide (fBits n 0 3 < 6)) = true) :
    decide ((BitVec.ofNat 3 n).toNat < 6) = true := by
  rw [toNat_ofNat_low]
  exact (Bool.and_eq_true _ _ ▸ h).2

/-! ### The groups of the opcode map

In each group most forms have no condition on their operands; the cases left are the ones that nest their checks,
and the ones whose operands are conditioned. -/

/-- R72: a write of `srseed` or `retmode` is an instruction of its own. -/
theorem csrw_answersWf (n : Nat) (c : Bool) (a : Reg) :
    AnswersWf (okIf c (if fBits n 0 12 == 6 then .srseedWrite a else if fBits n 0 12 == 5 then .retmodeWrite a
      else .csrw a (BitVec.ofNat 12 n))) := by
  refine answersWf_okIf fun _ => ?_
  split
  · rfl
  · split
    · rfl
    · next h6 h5 =>
      rw [beq_iff_eq] at h5 h6
      simp only [Instr.wf, Bool.and_eq_true, bne_iff_ne, ne_eq, ← BitVec.toNat_inj, toNat_ofNat_low n]
      exact ⟨h5, h6⟩

theorem decodeCommon_answersWf (op n : Nat) : AnswersWf (decodeCommon op n) := by
  unfold decodeCommon
  split
  any_goals exact answersWf_okIf fun _ => rfl
  any_goals exact answersWf_ok rfl
  any_goals exact answersWf_error _
  · exact csrw_answersWf n _ _

theorem decodeSync_answersWf (op n : Nat) : AnswersWf (decodeSync op n) := by
  unfold decodeSync
  split
  any_goals exact answersWf_okIf fun _ => rfl
  any_goals exact answersWf_okSome fun _ _ => answersWf_okIf fun _ => rfl
  any_goals exact answersWf_error _
  · -- `fence`
    exact answersWf_okSome fun _ _ => answersWf_okSome fun _ _ => answersWf_okIf fun _ => rfl
  · -- `bcont`
    exact answersWf_ite (fun _ => answersWf_okIf fun _ => rfl) fun _ => answersWf_okIf fun _ => rfl

theorem decodeTile_answersWf (op n : Nat) : AnswersWf (decodeTile op n) := by
  unfold decodeTile
  split
  any_goals exact answersWf_okIf fun _ => rfl
  any_goals exact answersWf_okSome fun _ _ => answersWf_okIf fun _ => rfl
  any_goals exact answersWf_error _
  · -- `vzero`
    exact answersWf_ite (fun _ => answersWf_okIf fun _ => rfl) fun _ => answersWf_okIf fun _ => rfl
  · -- `vcvt`
    exact answersWf_okSome fun _ _ => answersWf_okSome fun _ ht => answersWf_okIf fun _ => tagOfCode_ne_empty ht
  · -- `vfop`: an operation of one register has the other field zero (R149)
    exact answersWf_okSome fun _ _ => answersWf_okIf (unusedField_zero (toNat_ofNat_div ..))

theorem decodeEngine_answersWf (op n : Nat) : AnswersWf (decodeEngine op n) := by
  unfold decodeEngine
  split
  any_goals exact answersWf_okIf fun _ => rfl
  any_goals exact answersWf_okSome fun _ _ => answersWf_okIf fun _ => rfl
  any_goals exact answersWf_error _
  · -- `mnest`
    exact answersWf_okIf level_inRange
  · -- `mstep`
    exact answersWf_okIf level_inRange

theorem decodeLong_answersWf (op n w : Nat) : AnswersWf (decodeLong op n w) := by
  unfold decodeLong
  split
  any_goals exact answersWf_okIf fun _ => rfl
  any_goals exact answersWf_okSome fun _ _ => answersWf_okIf fun _ => rfl
  any_goals exact dRed_answersWf n w _ _ _ fun _ _ _ hd => hd
  any_goals exact dCopy_answersWf n w _ fun _ _ _ hc => hc
  any_goals exact answersWf_error _
  · -- `bext`
    exact answersWf_okIf bitField_inRange
  · -- `bins`
    exact answersWf_okIf bitField_inRange
  · -- `bc`
    exact answersWf_okSome fun _ _ => answersWf_ite (fun _ => dTarget_answersWf w fun _ => rfl) fun _ => answersWf_error _
  · -- `loop`
    exact answersWf_ite (fun _ => dTarget_answersWf w fun _ => rfl) fun _ => answersWf_error _
  · -- `fork`: of another stream than S (R73)
    exact answersWf_okSome fun _ _ =>
      answersWf_ite (fun hc => dTarget_answersWf w fun _ => (Bool.and_eq_true _ _ ▸ hc).1) fun _ => answersWf_error _
  · -- `catch`
    exact answersWf_okSome fun _ _ => answersWf_ite (fun _ => dTarget_answersWf w fun _ => rfl) fun _ => answersWf_error _
  · -- `aop`: no 32-bit integer form of a float operation (R69)
    exact answersWf_okSome fun _ _ => answersWf_okSome fun _ _ => answersWf_okSome fun _ _ =>
      answersWf_okIf fun hc => (Bool.and_eq_true _ _ ▸ hc).2
  · -- `acas`
    exact answersWf_okSome fun _ _ => answersWf_okSome fun _ _ => answersWf_okIf fun _ => rfl
  · -- `vshape`
    exact answersWf_okSome fun _ ht => answersWf_okIf fun _ => tagOfCode_ne_empty ht
  · -- `vld`: a side register only under a block tag (R118)
    exact answersWf_okSome fun _ ht => answersWf_okIf fun hc =>
      (Bool.and_eq_true _ _).mpr ⟨tagOfCode_ne_empty ht, unusedField_zero (toNat_ofNat_low ..) hc⟩
  · -- `mopnd`
    exact dMopnd_answersWf n w
  · -- `mdrain`
    exact answersWf_okSome fun _ ht => answersWf_okSome fun _ _ => answersWf_okSome fun _ _ =>
      answersWf_okIf fun _ => tagOfCode_ne_empty ht
  · -- `cmcast`: neither a fill nor a ring
    refine dCompletion_answersWf w fun c => answersWf_okIf fun hc => ?_
    simp only [Bool.and_eq_true] at hc
    obtain ⟨⟨-, hfill⟩, hring⟩ := hc
    exact (Bool.and_eq_true _ _).mpr ⟨hfill, hring⟩
  · -- `cred`: no capability
    exact dCompletion_answersWf w fun c => answersWf_okSome fun _ _ => answersWf_okIf fun hc => (Bool.and_eq_true _ _ ▸ hc).2
  · -- `ccode`: neither a capability nor a shape
    refine dCompletion_answersWf w fun c => answersWf_okIf fun hc => ?_
    simp only [Bool.and_eq_true] at hc
    obtain ⟨⟨-, hcap⟩, hshape⟩ := hc
    exact (Bool.and_eq_true _ _).mpr ⟨hcap, hshape⟩
  · -- `cattn`: neither a capability nor a shape, and always a fill
    refine dCompletion_answersWf w fun c => answersWf_okIf fun hc => ?_
    simp only [Bool.and_eq_true] at hc
    obtain ⟨⟨⟨-, hcap⟩, hshape⟩, hfill⟩ := hc
    simp only [Instr.wf, Bool.and_eq_true]
    exact ⟨⟨hcap, hshape⟩, hfill⟩

/-! ### Words -/

theorem decodeWords_answersWf (w : Word32) (next : Option Word32) : AnswersWf (decodeWords w next) := by
  unfold decodeWords
  refine answersWf_ite (fun hu => answersWf_ok hu) fun _ => ?_
  refine answersWf_ite (fun hp => answersWf_ok hp) fun _ => ?_
  refine answersWf_ite (fun _ => ?_) fun _ => ?_
  · cases next with
    | none => exact answersWf_error _
    | some v => exact decodeLong_answersWf _ _ _
  refine answersWf_ite (fun _ => decodeCommon_answersWf _ _) fun _ => ?_
  refine answersWf_ite (fun _ => decodeSync_answersWf _ _) fun _ => ?_
  exact answersWf_ite (fun _ => decodeTile_answersWf _ _) fun _ => decodeEngine_answersWf _ _

/-- A short instruction is read from its first word alone (R65). -/
theorem decodeWords_of_short {w : Word32} (h : longOpcode (w.toNat / 2 ^ 24) = false) (u v : Option Word32) :
    decodeWords w u = decodeWords w v := by
  simp only [decodeWords, h, Bool.false_eq_true, if_false]

/-- Settles O8: the first part from the round-trip law of each instruction, the second from the well-formedness of
what each group of the opcode map answers. -/
theorem decodeEncodeAgree : Obligations.DecodeEncodeAgree :=
  ⟨decodeList_encode, fun w v i h =>
    ⟨decodeWords_answersWf w (some v) i h, fun hs u => (decodeWords_of_short hs u (some v)).trans h⟩⟩

end Sys2Proof.EncodingProofs
end

section
/-! PROOFS. Words written out from the tables (R72 to R79), the immediate operations (R72, R87, R88), the entry of code
lines (R59 to R63, R370) and what a step runs (R70, R231, R370). -/
namespace Sys2Proof.EncodingProofs
open Sys2Proof Sys2Proof.Machine

/-- Settles O7: the decoder computes each of the words. -/
theorem decodesWords : Obligations.DecodesWords := ⟨rfl, rfl, rfl, rfl, rfl, rfl, rfl⟩

/-! ### Immediate operations -/

/-- An instruction that runs f on one readable register writes its result and completes. -/
theorem run_unary {a : Reg} {s : State} (h : readable a s = true) (d : Reg) (f : Word → Word) :
    ∃ t, run s (unary d a f s) = .next (stepStop (ctx s).pc t) ∧ WroteReg 1 d (f (rawReg s a)) s t := by
  obtain ⟨t, ht, hw⟩ := retire_wr 1 d (f (rawReg s a)) s
  refine ⟨t, ?_, hw⟩
  rw [unary, rd_readable h, bind_ok, run_ok, ht]

/-- A shift amount of an immediate is below 64, so it is the amount itself (R87). -/
theorem shiftAmount_setWidth (sh : BitVec 6) : (sh.setWidth 64).toNat % 64 = sh.toNat := by
  have := sh.isLt
  rw [BitVec.toNat_setWidth]
  omega

theorem aluShl_setWidth (x : Word) (sh : BitVec 6) : aluShl x (sh.setWidth 64) = x <<< sh.toNat :=
  congrArg (x <<< ·) (shiftAmount_setWidth sh)
theorem aluShr_setWidth (x : Word) (sh : BitVec 6) : aluShr x (sh.setWidth 64) = x >>> sh.toNat :=
  congrArg (x >>> ·) (shiftAmount_setWidth sh)
theorem aluSra_setWidth (x : Word) (sh : BitVec 6) : aluSra x (sh.setWidth 64) = x.sshiftRight sh.toNat :=
  congrArg x.sshiftRight (shiftAmount_setWidth sh)

/-- Settles O3: each operation is one register write, of the operation's result. -/
theorem scalarUnary : Obligations.ScalarUnary := by
  intro s d a imm sh w h
  refine ⟨?_, ?_, ?_⟩
  · simp only [List.forall_mem_cons, ← aluShl_setWidth, ← aluShr_setWidth, ← aluSra_setWidth]
    exact ⟨run_unary h d _, run_unary h d _, run_unary h d _, run_unary h d _, run_unary h d _,
      run_unary h d _, run_unary h d _, run_unary h d _, List.forall_mem_nil _⟩
  · obtain ⟨t, ht, hw⟩ := retire_wr 2 d (w.signExtend 64) s
    exact ⟨t, congrArg Host.Outcome.next ht, hw⟩
  · obtain ⟨t, ht, hw⟩ := retire_wr 1 0 0 s
    exact ⟨t, congrArg Host.Outcome.next ht, hw⟩

/-! ### Entry of a code line -/

/-- A check passes where its condition holds and what follows it has a result. -/
theorem need_bind_eq_ok {α : Type} {b : Bool} {c : Cause} {e : Eff α} {x : α} :
    (need b c >>= fun _ => e) = .ok x ↔ b = true ∧ e = .ok x := by
  cases b
  · simp [fail]
  · simp

theorem fetchLine_eq_ok_iff (s : State) (st : Stream) (pos : CodePos) (l : Vector Word32 16) : fetchLine st pos s = .ok l ↔
    l = readLine (lineOf pos) s ∧ lineOf pos < 135168 ∧ inRanges (lineOf pos) s = true ∧
    overlayBusy (lineOf pos) s = false ∧ linePoisoned (lineOf pos) s = false ∧
    bits (linkWord l) 24 20 = 0 ∧ 1 ≤ slotOf pos ∧ slotOf pos ≤ lineCount l ∧ bits (linkWord l) 31 30 = st.code := by
  unfold fetchLine
  simp only [need_bind_eq_ok, Bool.and_eq_true, Bool.not_eq_true', decide_eq_true_eq, beq_iff_eq, bne_iff_ne,
    Except.ok.injEq]
  constructor
  · rintro ⟨hn, hr, ho, hp, hz, ⟨⟨-, hs⟩, hc⟩, hst, rfl⟩
    exact ⟨rfl, hn, hr, ho, hp, hz, Nat.one_le_iff_ne_zero.mpr hs, hc, hst⟩
  · rintro ⟨rfl, hn, hr, ho, hp, hz, hs, hc, hst⟩
    exact ⟨hn, hr, ho, hp, hz, ⟨⟨by omega, by omega⟩, hc⟩, hst, rfl⟩

theorem exec_lineFetch (s : State) : exec .lineFetch s = execLineFetch s := rfl

/-- A stream that enters a line takes it, and goes on to run it (R59). -/
theorem exec_lineFetch_enter {s : State} (hp : (ctx s).pend = .enter) :
    exec .lineFetch s = run s (fetchLine s.cur (ctx s).pc s >>= fun l =>
      .ok (setCtx { ctx s with line := l, pend := .run } s)) := by
  rw [exec_lineFetch, execLineFetch, hp]
  rfl

/-- The line that was left has no next line (R59). -/
theorem exec_lineFetch_chainEnd {s : State} (hp : (ctx s).pend = .chainEnd) :
    exec .lineFetch s = run s (fail .chainEnd) := by
  rw [exec_lineFetch, execLineFetch, hp]

/-- The link word of the line that was left is read again (R370). -/
theorem exec_lineFetch_again {s : State} (hp : (ctx s).pend = .again) :
    exec .lineFetch s = run s (need (!linePoisoned (lineOf (ctx s).pc) s) .fetchPoison >>= fun _ =>
      need (!lineTerm (readLine (lineOf (ctx s).pc) s)) .chainEnd >>= fun _ =>
      .ok (setCtx { ctx s with pc := position (lineNext (readLine (lineOf (ctx s).pc) s)) 1, pend := .enter } s)) := by
  rw [exec_lineFetch, execLineFetch, hp]
  rfl

/-- Settles O10: the checks of a fetch one by one, and the three ways a stream can stand before a line. -/
theorem lineEntry : Obligations.LineEntry := by
  refine ⟨fetchLine_eq_ok_iff, fun s => ⟨?_, ?_, ?_, ?_⟩, fun s w => ⟨rfl, rfl⟩⟩
  · intro l hp hl
    rw [exec_lineFetch_enter hp, hl, bind_ok, run_ok]
  · intro f hp hf
    rw [exec_lineFetch_enter hp, hf, bind_error, run_fault]
  · intro hp
    rw [exec_lineFetch_chainEnd hp, run_fail]
  · intro hp
    refine ⟨fun hq => ?_, fun hq ht => ?_, fun hq ht => ?_⟩ <;> rw [exec_lineFetch_again hp, hq]
    · rfl
    · rw [ht]; rfl
    · rw [ht]; rfl

/-! ### What a step runs -/

/-- The step of a unit that has an instruction to run (log 1). -/
theorem step_of_issue {s : State} {i : Instr} (ha : s.agenda = []) (hi : issue s = .instr i) :
    step s = afterTurn s (exec i (turnState s)) := by
  unfold step
  rw [ha, hi]

/-- A stream that runs its line, with no fault found and no stop before it, issues what stands in its slot. -/
theorem issueStream_of_ready {s : State} (hr : ready s.me s.cur = true)
    (hf : (s.me.m.found.any fun x => x.1.who.stream == s.cur) = false) (hp : (ctx s).pend = .run)
    (hb : codeBreak s.cur (ctx s).pc s = none)
    (hm : maskBreak (vat (k := 4) (ctx s).line (BitVec.ofNat 4 (slotOf (ctx s).pc))) s = none) :
    issueStream s = decodeSlot s.cur (ctx s) := by
  unfold issueStream
  simp only [hf, hr, hp, hb, hm]
  rfl

/-- The word in the slot a stream stands at, and its opcode. -/
def slotWord (c : StreamCtx) : Word32 := vat (k := 4) c.line (BitVec.ofNat 4 (slotOf c.pc))
def slotOp (c : StreamCtx) : Nat := (slotWord c).toNat / 2 ^ 24

/-- A long instruction has its second word in a slot of the line (R59). -/
def SlotWhole (c : StreamCtx) : Prop := longOpcode (slotOp c) = true → slotOf c.pc < 15 ∧ slotOf c.pc < lineCount c.line

section DecodeSlot
variable {c : StreamCtx} (hl : SlotWhole c) (st : Stream)
include hl

theorem not_splitLong : ¬(longOpcode (slotOp c) && (slotOf c.pc == 15 || lineCount c.line ≤ slotOf c.pc)) = true := by
  simp only [Bool.and_eq_true, Bool.or_eq_true, beq_iff_eq, decide_eq_true_eq]
  rintro ⟨h, hs⟩
  have := hl h
  omega

theorem decodeSlot_unlisted (hu : unlistedOpcode (slotOp c) = true) :
    decodeSlot st c = .instr (.illegalOpcode (slotWord c)) :=
  (if_neg (not_splitLong hl)).trans (if_pos hu)

theorem decodeSlot_privileged (hu : unlistedOpcode (slotOp c) = false) (hp : privilegedOp (slotOp c) = true) :
    decodeSlot st c = .instr (.privilegedOpcode (slotWord c)) :=
  (if_neg (not_splitLong hl)).trans <| (if_neg (ne_true_of_eq_false hu)).trans (if_pos hp)

theorem decodeSlot_decoded (hu : unlistedOpcode (slotOp c) = false) (hp : privilegedOp (slotOp c) = false)
    (ho : opcodeLegalIn (slotOp c) (flag (slotWord c) 8) st = true) {i : Instr}
    (hd : decodeWords (slotWord c) (some (vat (k := 4) c.line (BitVec.ofNat 4 (slotOf c.pc + 1)))) = .ok i) :
    decodeSlot st c = .instr i := by
  refine (if_neg (not_splitLong hl)).trans <| (if_neg (ne_true_of_eq_false hu)).trans <|
    (if_neg (ne_true_of_eq_false hp)).trans <| (if_neg (by rw [Bool.not_eq_true, Bool.not_eq_false']; exact ho)).trans ?_
  rw [slotWord] at hd
  rw [hd]

end DecodeSlot

/-- The turn of a stream that issues an instruction runs it as that stream; the turn then passes. -/
theorem step_stream {s : State} {st : Stream} {i : Instr} (ha : s.agenda = []) (ht : s.turn = .stream st)
    (hi : issueStream { s with cur := st } = .instr i) : step s = afterTurn s (exec i { s with cur := st }) := by
  have hissue : issue s = .instr i := by rw [issue, ht]; exact hi
  rw [step_of_issue ha hissue, turnState, ht, turnStream, ht]

/-- The turn of a queue performs its entry in the context of its issue; nothing is issued then (R231). -/
theorem step_queue {s : State} {st : Stream} {e : QEntry} {i : Instr} (ha : s.agenda = []) (ht : s.turn = .queue st)
    (he : entryNow st s = some e) (hi : decodeSlot st e.ctx = .instr i) :
    step s = afterTurn s (exec i (installEntry e s)) := by
  have hissue : issue s = .instr i := by rw [issue, ht]; simp only [issueQueue, he]; exact hi
  rw [step_of_issue ha hissue, turnState, ht]
  simp only [he]

/-- No debug stop is passed where no stream issues. -/
theorem endIssue_queue {s : State} {st : Stream} (ht : s.turn = .queue st) (t : State) : endIssue s t = t := by
  rw [endIssue, ht]

/-- Settles O9: what a stream's slot decodes to, what a queue's entry decodes to, and the agenda, each as the step. -/
theorem stepRunsDecoded : Obligations.StepRunsDecoded := by
  refine ⟨?_, ?_⟩
  · intro s st ha ht u c n w op after hr hf hp hb hm hl
    have hrun : ∀ i, decodeSlot st c = .instr i → step s = after i := fun i hi => by
      rw [step_stream ha ht ((issueStream_of_ready (s := u) hr hf hp hb hm).trans hi)]
      change afterTurn s (exec i u) = after i
      simp only [after]
      cases exec i u <;> rfl
    exact ⟨fun i hu hv ho hd => hrun i (decodeSlot_decoded hl st hu hv ho hd),
      fun hu => hrun _ (decodeSlot_unlisted hl st hu), fun hu hv => hrun _ (decodeSlot_privileged hl st hu hv),
      fun _ _ => rfl⟩
  · intro s st e i ha ht he hi
    rw [step_queue ha ht he hi]
    cases exec i (installEntry e s) with
    | next t => rw [afterTurn, endIssue_queue ht]
    | fault r => rfl
    | refused r => rfl

end Sys2Proof.EncodingProofs
end

section
/-! PROOFS. The instructions of the M stream (R152 to R169): each check that an instruction passes is one rule, each
instruction one equation, and the obligations are read off the equations. -/
namespace Sys2Proof.MatrixProofs
open Sys2Proof Sys2Proof.Machine

/-! ### Checks that hold -/

section Checks
variable {α : Type} {s : State}

theorem rd_bind {r : Reg} (h : readable r s = true) (f : Word → Eff α) : (rd s r >>= f) = f (rawReg s r) := by
  rw [rd_readable h, bind_ok]

theorem need_bind {b : Bool} (h : b = true) (c : Cause) (f : Unit → Eff α) : (need b c >>= f) = f () := by
  rw [h, need_true, bind_ok]

theorem waitUntil_bind {b : Bool} (h : b = true) (f : Unit → Eff α) : (waitUntil b >>= f) = f () := by
  rw [h, waitUntil_true, bind_ok]

theorem notHeld_bind {x : Foot} (h : held x s = false) (f : Unit → Eff α) : (notHeld x s >>= f) = f () :=
  waitUntil_bind (by rw [h]; rfl) f

theorem regionFree_bind {r : AIdx} (h : held ⟨[regionUnit s.me.m r], [regionUnit s.me.m r]⟩ s = false) (f : Unit → Eff α) :
    (regionFree r s >>= f) = f () := notHeld_bind h f

/-- A check of an address that passes (R368). -/
theorem failAt_skip {b : Bool} (h : b = false) (c : Cause) (addr : Nat) (f : Unit → Eff α) :
    (if b = true then failAt c addr >>= f else f ()) = f () := by rw [h, if_neg Bool.false_ne_true]

/-- A matrix command whose own fields are in order, and for which the M queue has room, comes to its effect (R231). -/
theorem runM_conclude {ok : Bool} (hok : ok = true) (hq : queueRoom .m s = true) (o : BitVec 2) (e : Eff State) :
    runM ok o s e = conclude o s e := by
  rw [runM, hok, hq]; rfl

theorem runM_ok {ok : Bool} (hok : ok = true) (hq : queueRoom .m s = true) (o : BitVec 2) (t : State) :
    runM ok o s (.ok t) = .next t := by
  rw [runM_conclude hok hq, conclude_ok]

end Checks

/-! ### The shadow (R152, R160, R161) -/

section Shadow
variable {s : State} {a b d : Reg} {level : BitVec 3} (hq : queueRoom .m s = true)
include hq

theorem exec_mnest (ha : readable a s = true) (hl : level.toNat < 6) (hx : (rawReg s a).toNat < 2 ^ 32) :
    exec (.mnest a level) s = .next (retire 1 (modShadow (fun q =>
      { q with n := q.n.setIfInBounds level.toNat ((rawReg s a).setWidth 32) }) s)) := by
  change execMnest a level s = _
  rw [execMnest, rd_bind ha, need_bind (decide_eq_true hx), runM_ok (decide_eq_true hl) hq]

theorem exec_mnest_large (ha : readable a s = true) (hl : level.toNat < 6) (hx : 2 ^ 32 ≤ (rawReg s a).toNat) :
    exec (.mnest a level) s = .next (takeFault s.cur (ctx s).pc 0 { cause := .nestConfig } s) := by
  change execMnest a level s = _
  rw [execMnest, rd_bind ha, decide_eq_false (Nat.not_lt.mpr hx), need_false, bind_fail,
    runM_conclude (decide_eq_true hl) hq]
  exact run_fail s .nestConfig

theorem exec_mstep (ha : readable a s = true) (hb : readable b s = true) (hd : readable d s = true) (hl : level.toNat < 6)
    (hz : (rawReg s d).toNat < 2 ^ 32) :
    exec (.mstep d a b level) s = .next (retire 1 (modShadow (fun q => { q with
      sa := q.sa.setIfInBounds level.toNat (rawReg s a), sb := q.sb.setIfInBounds level.toNat (rawReg s b),
      sc := q.sc.setIfInBounds level.toNat (rawReg s d) }) s)) := by
  change execMstep d a b level s = _
  rw [execMstep, rd_bind hd, rd_bind ha, rd_bind hb, need_bind (decide_eq_true hz), runM_ok (decide_eq_true hl) hq]

theorem exec_mscale (ha : readable a s = true) (hx : (rawReg s a).toNat < 2 ^ 32) :
    exec (.mscale a) s = .next (retire 1 (modShadow (fun q => { q with s := (rawReg s a).setWidth 32 }) s)) := by
  change execMscale a s = _
  rw [execMscale, rd_bind ha, need_bind (decide_eq_true hx), runM_ok rfl hq]

theorem exec_mprog (n : BitVec 4) :
    exec (.mprog n) s = .next (retire 1 (modShadow (fun q => { q with prof := some n }) s)) := runM_ok rfl hq 0 _

/-- `mopnd` sets the operand its register fields come to. -/
theorem exec_mopnd {op : MOperand} {o : NestOp} (isB : Bool) (hr : operandReserved op s = true) (ho : operandOf op s = .ok o) :
    exec (.mopnd isB op) s =
      .next (retire 2 (modShadow (fun q => if isB then { q with opB := o } else { q with opA := o }) s)) := by
  change execMopnd isB op s = _
  rw [execMopnd, ho, bind_ok, runM_ok hr hq]

end Shadow

theorem operandOf_addr {s : State} {a b d : Reg} (ha : readable a s = true) (hb : readable b s = true)
    (hd : readable d s = true) (tag : Tag) (src : ScaleSrc) : operandOf (.addr a b tag src d) s =
      .ok (.addr (rawReg s a) (rawReg s b) tag src (if src = .table then rawReg s d else 0)) := by
  rw [operandOf, rd_bind ha, rd_bind hb, rd_bind hd]
  simp only [beq_iff_eq]

/-! ### The nest record image (R163) -/

theorem imageAddress_ok {s : State} {a : Reg} (ha : readable a s = true) (hx : (rawReg s a).toNat % 64 = 0)
    (hd : queueDone s = true) (hm : behindMark s = false) (hh : held (accessFoot .read (rawReg s a).toNat 256) s = false) :
    imageAddress a s = .ok (rawReg s a).toNat := by
  rw [imageAddress, rd_bind ha]
  refine (failAt_skip (bne_eq_false_iff_eq.mpr hx) _ _ _).trans ?_
  exact (waitUntil_bind (by rw [hd, hm]; rfl) _).trans (notHeld_bind hh _)

/-- A legal image at the address becomes the shadow, after the access to it. -/
theorem exec_mloadn {s t : State} {a : Reg} {x : Nat} {bytes : List Byte} {p : Bool} {q : Nest} (hq : queueRoom .m s = true)
    (ha : imageAddress a s = .ok x) (hl : loadBytes { dir := .read } x 256 s = .ok (bytes, p, t))
    (hi : imageNest bytes = .ok q) (hr : nestReserved q s = true) :
    exec (.mloadn a) s = .next (retire 1 (modShadow (fun _ => q) t)) := by
  change execMloadn a s = _
  rw [execMloadn, ha]
  simp only [hl, hi, bind_ok]
  rw [need_bind hr, runM_ok rfl hq]

/-! ### Regions (R153, R162, R166, R167) -/

theorem descriptorOk_iff (d : BitVec 64) : descriptorOk d = true ↔
    dRow0 d + dRows d ≤ 256 ∧ dCol0 d + dCols d ≤ 256 ∧ dSRows d ≤ dRows d ∧ dSCols d ≤ dCols d ∧ dDepth d ≠ 0 := by
  simp [descriptorOk, and_assoc]

theorem regionTurn {s : State} (hm : behindMark s = false) (hd : accessesDone s = true) :
    (!behindMark s && accessesDone s) = true := by rw [hm, hd]; rfl

theorem exec_mregion {s : State} {a : Reg} {r : AIdx} (hq : queueRoom .m s = true) (ha : readable a s = true)
    (hr : hasRegion r s = true) (hm : behindMark s = false) (hd : accessesDone s = true)
    (hf : held ⟨[regionUnit s.me.m r], [regionUnit s.me.m r]⟩ s = false)
    (hn : held ⟨[], [regionRect r (rawReg s a)]⟩ s = false) (ho : descriptorOk (rawReg s a) = true) :
    exec (.mregion a r) s = .next (retire 1 (modShadow (fun q => { q with dest := r })
      (putRegion r { regionOf s.me.m r with desc := some (rawReg s a), slots := Slots.none, fresh := true } s))) := by
  change execMregion a r s = _
  rw [execMregion, rd_bind ha, need_bind ho, waitUntil_bind (regionTurn hm hd), regionFree_bind hf, notHeld_bind hn, runM_ok hr hq]

/-- A command on a described region that no older command uses. -/
theorem onRegion_conclude {s : State} {r : AIdx} {d : BitVec 64} (hq : queueRoom .m s = true) (hr : hasRegion r s = true)
    (hm : behindMark s = false) (hd : accessesDone s = true)
    (hf : held ⟨[regionUnit s.me.m r], [regionUnit s.me.m r]⟩ s = false) (hg : (regionOf s.me.m r).desc = some d)
    (e : BitVec 64 → Eff State) : onRegion r s e = conclude 1 s (e d) := by
  rw [onRegion, runM_conclude hr hq, waitUntil_bind (regionTurn hm hd), regionFree_bind hf, hg]

/-! ### The words that `mzero` clears -/

section Clear
variable {w : Nat}

theorem storeGet_clear_from (m : Store w) (lo a n b : Nat) (h : storeWfFrom lo m = true) :
    storeGet (storeClear m a n) b = if a ≤ b ∧ b < a + n then 0 else storeGet m b := by
  induction m generalizing lo with
  | nil => exact (ite_self (c := a ≤ b ∧ b < a + n) (0 : BitVec w)).symm
  | cons e rest ih =>
    obtain ⟨k, v⟩ := e
    simp only [storeWfFrom, Bool.and_eq_true, decide_eq_true_eq] at h
    obtain ⟨-, hr⟩ := h
    have hbelow : b < k → storeGet rest b = 0 := fun hb => storeGet_below rest (k + 1) b hr (by omega)
    have ihr := ih (k + 1) hr
    unfold storeClear at ihr ⊢
    by_cases hk : k < a ∨ a + n ≤ k
    · rw [List.filter_cons_of_pos (by simpa using hk)]
      simp only [storeGet, ihr]
      by_cases hkb : k = b
      · rw [if_pos hkb, if_pos hkb, if_neg (by omega)]
      · rw [if_neg hkb, if_neg hkb]
        by_cases hlt : b < k
        · rw [if_pos hlt, if_pos hlt]
          exact (ite_self (c := a ≤ b ∧ b < a + n) (0 : BitVec w)).symm
        · rw [if_neg hlt, if_neg hlt]
    · rw [List.filter_cons_of_neg (by simpa using hk), ihr]
      by_cases hin : a ≤ b ∧ b < a + n
      · rw [if_pos hin, if_pos hin]
      · rw [if_neg hin, if_neg hin, storeGet, if_neg (by omega)]
        by_cases hlt : b < k
        · rw [if_pos hlt, hbelow hlt]; rfl
        · rw [if_neg hlt]

/-- A read after a range is cleared. -/
theorem storeGet_clear {m : Store w} (a n b : Nat) (h : Memory.wf m = true) :
    storeGet (storeClear m a n) b = if a ≤ b ∧ b < a + n then 0 else storeGet m b := storeGet_clear_from m 0 a n b h

/-- A read after several ranges of one length are cleared. -/
theorem storeGet_clearRanges {m : Store w} (h : Memory.wf m = true) (start : Nat → Nat) (len n b : Nat) :
    Memory.wf ((upTo n).foldl (fun q i => storeClear q (start i) len) m) = true ∧
    storeGet ((upTo n).foldl (fun q i => storeClear q (start i) len) m) b =
      if ∃ i < n, start i ≤ b ∧ b < start i + len then 0 else storeGet m b := by
  induction n with
  | zero => exact ⟨h, (if_neg (by simp)).symm⟩
  | succ n ih =>
    obtain ⟨hwf, hget⟩ := ih
    simp only [upTo, List.range_succ, List.foldl_append, List.foldl_cons, List.foldl_nil] at hwf hget ⊢
    refine ⟨storeClear_wf _ _ hwf, ?_⟩
    rw [storeGet_clear _ _ _ hwf, hget]
    simp only [Nat.exists_lt_succ_right]
    by_cases hlast : start n ≤ b ∧ b < start n + len
    · rw [if_pos hlast, if_pos (.inr hlast)]
    · simp only [hlast, if_false, or_false]

end Clear

/-- R166: the words of the region's rectangle are zero, all others as before. -/
theorem storeGet_clearWords {acc : Store 32} {d : BitVec 64} (h : Memory.wf acc = true) (hd : dCol0 d + dCols d ≤ 256)
    {row col : Nat} (hc : col < 256) : storeGet (clearWords d acc) (256 * row + col) =
      if dRow0 d ≤ row ∧ row < dRow0 d + dRows d ∧ dCol0 d ≤ col ∧ col < dCol0 d + dCols d then 0
      else storeGet acc (256 * row + col) := by
  have hrect : (∃ i < dRows d, 256 * (dRow0 d + i) + dCol0 d ≤ 256 * row + col ∧
      256 * row + col < 256 * (dRow0 d + i) + dCol0 d + dCols d) ↔
      dRow0 d ≤ row ∧ row < dRow0 d + dRows d ∧ dCol0 d ≤ col ∧ col < dCol0 d + dCols d := by
    constructor
    · rintro ⟨i, hi, hlo, hhi⟩
      omega
    · rintro ⟨hr0, hr1, hc0, hc1⟩
      exact ⟨row - dRow0 d, by omega, by omega, by omega⟩
  rw [clearWords, (storeGet_clearRanges h (fun i => 256 * (dRow0 d + i) + dCol0 d) (dCols d) (dRows d) _).2]
  simp only [hrect]

theorem canonical_acc {s : State} (h : canonical s = true) : Memory.wf s.me.m.acc = true := by
  have := canonical_me h
  simp only [coreCanonical, memberCanonical, Bool.and_eq_true] at this
  exact this.2

/-! ### Waiting and status (R165, R168) -/

theorem ownEmpty_iff (st : Stream) (s : State) : ownEmpty st s = true ↔
    queueEmpty st s.me.m = true ∧ ∀ m ∈ s.inFlight, unperformed (mine st s) m = false := by
  simp [ownEmpty, pendingOf]

/-- `mwait` completes where its queue is empty and performed, and waits otherwise (R165). -/
theorem exec_mwait {s : State} (hq : queueRoom .m s = true) : exec .mwait s =
    if queueEmpty .m s.me.m = true ∧ (∀ m ∈ s.inFlight, unperformed (mine .m s) m = false) then .next (retire 1 s)
    else .next (stall s) := by
  change execMwait s = _
  rw [execMwait, runM_conclude rfl hq]
  simp only [← ownEmpty_iff]
  cases ownEmpty .m s <;> rfl

theorem boolNat_le (b : Bool) : boolNat b ≤ 1 := by cases b <;> decide

/-- A bit of a word built from a number. -/
theorem getLsbD_ofNat_eq {n i : Nat} {b : Bool} (hi : i < 64) (h : n / 2 ^ i % 2 = boolNat b) : (BitVec.ofNat 64 n).getLsbD i = b := by
  rw [BitVec.getLsbD_ofNat, decide_eq_true hi, Bool.true_and, Nat.testBit_eq_decide_div_mod_eq, h]
  cases b <;> rfl

/-- The parts of the status word: the fields of the walk, which stand above bit 7, and the flags. -/
theorem engineStatus_parts (s : State) : ∃ w c, w % 256 = 0 ∧
    (∀ x, s.me.m.active = some x → w = field (min x.done 0xFFFFFFFF) 16 + field x.profile.toNat 12 + field x.nest.dest.toNat 8) ∧
    (c = true ↔ ∃ n, s.me.m.copied = some n ∧ n ≠ s.me.m.shadow) ∧
    engineStatus s = BitVec.ofNat 64 (w + field (boolNat (rampHolds s)) 3 + field (boolNat (drainOpen s)) 2 +
      field (boolNat c) 1 + boolNat (nestBusy s.me.m)) := by
  refine ⟨_, _, ?_, ?_, ?_, rfl⟩
  · cases s.me.m.active with
    | none => rfl
    | some x => simp only [field]; omega
  · intro x hx
    rw [hx]
  · cases s.me.m.copied with
    | none => simp
    | some n => simp

theorem engineStatus_busy (s : State) : (engineStatus s).getLsbD 0 = nestBusy s.me.m := by
  obtain ⟨w, c, hw, -, -, h⟩ := engineStatus_parts s
  have := boolNat_le (nestBusy s.me.m)
  rw [h]
  exact getLsbD_ofNat_eq (by decide) (by simp only [field]; omega)

theorem engineStatus_changed (s : State) :
    (engineStatus s).getLsbD 1 = true ↔ ∃ n, s.me.m.copied = some n ∧ n ≠ s.me.m.shadow := by
  obtain ⟨w, c, hw, -, hc, h⟩ := engineStatus_parts s
  have := boolNat_le (nestBusy s.me.m)
  have := boolNat_le c
  rw [← hc, h, getLsbD_ofNat_eq (b := c) (by decide) (by simp only [field]; omega)]

theorem engineStatus_drain (s : State) : (engineStatus s).getLsbD 2 = drainOpen s := by
  obtain ⟨w, c, hw, -, -, h⟩ := engineStatus_parts s
  have := boolNat_le (nestBusy s.me.m)
  have := boolNat_le c
  have := boolNat_le (drainOpen s)
  rw [h]
  exact getLsbD_ofNat_eq (by decide) (by simp only [field]; omega)

/-- The fields of the walk that the engine holds. -/
theorem engineStatus_walk {s : State} {w : Walk} (h : s.me.m.active = some w) :
    (engineStatus s).extractLsb' 8 3 = w.nest.dest ∧ (engineStatus s).extractLsb' 12 4 = w.profile ∧
    (engineStatus s).extractLsb' 16 32 = BitVec.ofNat 32 (min w.done 0xFFFFFFFF) := by
  obtain ⟨f, c, -, hf, -, he⟩ := engineStatus_parts s
  have := boolNat_le (nestBusy s.me.m)
  have := boolNat_le c
  have := boolNat_le (drainOpen s)
  have := boolNat_le (rampHolds s)
  have := w.nest.dest.isLt
  have := w.profile.isLt
  rw [he, hf w h]
  refine ⟨?_, ?_, ?_⟩ <;> apply BitVec.eq_of_toNat_eq <;>
    simp only [BitVec.extractLsb'_toNat, BitVec.toNat_ofNat, Nat.shiftRight_eq_div_pow, field] <;> omega

theorem exec_mstat {s : State} (hq : queueRoom .m s = true) (d : Reg) :
    exec (.mstat d) s = .next (retire 1 (wr d (engineStatus s) s)) := runM_ok rfl hq 0 _

/-- Settles O41: the equation of each instruction that sets the shadow, and the fields of the status word. -/
theorem matrixSetup : Obligations.MatrixSetup := by
  intro s a b d level isB r n ha hb hd hq x y z put opnd
  refine ⟨fun hl => ⟨exec_mnest hq ha hl, exec_mnest_large hq ha hl, exec_mstep hq ha hb hd hl⟩, exec_mscale hq ha, exec_mprog hq n,
    fun t src ht => exec_mopnd hq isB ht rfl, fun tag src => exec_mopnd hq isB rfl (operandOf_addr ha hb hd tag src),
    ?_, ?_, exec_mwait hq, engineStatus s, exec_mstat hq d, engineStatus_busy s,
    Bool.eq_iff_iff.mpr ((engineStatus_changed s).trans decide_eq_true_iff.symm), engineStatus_drain s,
    fun w hw => engineStatus_walk hw⟩
  · intro bytes p t q hx hdone hm hh hl hi hr
    exact exec_mloadn hq (imageAddress_ok ha hx hdone hm hh) hl hi hr
  · intro hr hm hdone hf hn hrows hcols hsrows hscols hdepth
    exact exec_mregion hq ha hr hm hdone hf hn ((descriptorOk_iff _).mpr ⟨hrows, hcols, hsrows, hscols, hdepth⟩)

/-! ### `mgo` (R164) -/

/-- A product of word counts is zero where one of them is. -/
theorem foldl_mul_eq_zero (l : List Word32) (k : Nat) :
    (l.foldl (fun t x => t * x.toNat) k == 0) = (k == 0 || l.any (· == 0)) := by
  induction l generalizing k with
  | nil => simp
  | cons x rest ih =>
    have hx : (k * x.toNat == 0) = (k == 0 || x == 0) := by
      rw [Bool.eq_iff_iff, Bool.or_eq_true, beq_iff_eq, beq_iff_eq, beq_iff_eq, Nat.mul_eq_zero]
      exact or_congr_right (BitVec.toNat_inj (y := 0))
    rw [List.foldl_cons, ih, hx, List.any_cons, Bool.or_assoc]

/-- A nest has no step at all where a count is zero (R154). -/
theorem nestTotal_eq_zero (n : Nest) : (nestTotal n == 0) = n.n.toList.any (· == 0) := foldl_mul_eq_zero _ 1

/-- The nest that `mgo` starts; its profile is found by the checks. -/
def goWalk (x : Option FIdx) (s : State) : Walk :=
  ⟨s.me.m.shadow, x, 0, 0, s.me.m.shadow.n.toList.any (· == 0), (ctx s).pc⟩

theorem exec_mgo {s : State} {x : Option FIdx} {p : Nat} (hq : queueRoom .m s = true)
    (hx : ∀ f, x = some f → hasFreg f s = true) (hb : nestBusy s.me.m = false)
    (hf : held (nestFoot (goWalk x s) s.me.m) s = false) (hc : nestChecks s.me.m.shadow x s = .ok p) :
    exec (.mgo x) s = .next (retire 1 (modM (fun m => { m with
      active := some { goWalk x s with profile := BitVec.ofNat 4 p }, copied := some s.me.m.shadow, age := m.age + 1,
      mq := m.mq ++ if (goWalk x s).finished then [] else [.nest m.age] }) s)) := by
  have hmq : ∀ m : Member, (m.mq ++ if (goWalk x s).finished then [] else [.nest m.age]) =
      if (goWalk x s).finished then m.mq else m.mq ++ [.nest m.age] := fun m => by
    cases (goWalk x s).finished
    · rfl
    · exact List.append_nil m.mq
  have hreserved : (match x with | some f => hasFreg f s | none => true) = true := by
    cases x with
    | none => rfl
    | some f => exact hx f rfl
  rw [goWalk] at hf
  change execMgo x s = _
  simp only [hmq]
  unfold execMgo
  simp only [nestTotal_eq_zero]
  rw [waitUntil_bind (by rw [hb]; rfl), notHeld_bind hf, hc, bind_ok]
  exact runM_ok hreserved hq 0 _

/-! ### `mzero`, `mslot`, `mdrain` (R166, R167, R169) -/

theorem exec_mzero {s : State} {r : AIdx} {d : BitVec 64} (hq : queueRoom .m s = true) (hr : hasRegion r s = true)
    (hm : behindMark s = false) (hd : accessesDone s = true)
    (hf : held ⟨[regionUnit s.me.m r], [regionUnit s.me.m r]⟩ s = false) (hg : (regionOf s.me.m r).desc = some d) :
    exec (.mzero r) s = .next (retire 1 (putRegion r ⟨some d, Slots.none, false, true⟩
      (modM (fun m => { m with acc := clearWords d m.acc }) s))) :=
  onRegion_conclude hq hr hm hd hf hg _

theorem exec_mslot {s : State} {a : Reg} {r : AIdx} {sel : SlotSel} {d : BitVec 64} (hq : queueRoom .m s = true)
    (ha : readable a s = true) (hr : hasRegion r s = true) (hm : behindMark s = false) (hd : accessesDone s = true)
    (hf : held ⟨[regionUnit s.me.m r], [regionUnit s.me.m r]⟩ s = false) (hg : (regionOf s.me.m r).desc = some d)
    (hw : needSlotWrite sel (rawReg s a) (dRows d) (dCols d) true s = .ok ()) :
    exec (.mslot a r sel) s = .next (retire 1 (putRegion r { regionOf s.me.m r with
      slots := withSlot (regionOf s.me.m r).slots sel (rawReg s a), fresh := false } s)) := by
  refine (onRegion_conclude hq hr hm hd hf hg _).trans ?_
  rw [rd_bind ha, hw, bind_ok, conclude_ok]

theorem drainChecks_ok {s : State} {a b : Word} {r : AIdx} {tag : Tag} {mode : DrainMode} {d : BitVec 64}
    (hg : (regionOf s.me.m r).desc = some d) (hadd : mode = .add → tag = .fp32) (hkv : mode = .kv → tag = .e4m3)
    (hl : blockLen tag = 0 ∨ dCols d % blockLen tag = 0) (hb : b.toNat % 32 = 0) (ha : mode = .kv → a.toNat % 32 = 0) :
    drainChecks a b r tag mode s = .ok () := by
  have htag : (!(mode == .add && tag != .fp32) && !(mode == .kv && tag != .e4m3)) = true := by
    rw [Decidable.imp_iff_not_or] at hadd hkv
    simpa using And.intro hadd hkv
  have hlen : (blockLen tag == 0 || dCols d % blockLen tag == 0) = true := by simpa using hl
  have hrow : (mode == .kv && a.toNat % 32 != 0) = false := by simpa using ha
  rw [drainChecks, hg]
  simp only [need_bind htag, need_bind hlen]
  refine (failAt_skip (bne_eq_false_iff_eq.mpr hb) _ _ _).trans ?_
  rw [hrow]
  rfl

theorem exec_mdrain {s : State} {a b : Reg} {r : AIdx} {tag : Tag} {mode : DrainMode} (rmode : RMode)
    (hq : queueRoom .m s = true) (ha : readable a s = true) (hb : readable b s = true) (hr : hasRegion r s = true)
    (hc : drainChecks (rawReg s a) (rawReg s b) r tag mode s = .ok ()) :
    exec (.mdrain a b r tag rmode mode) s = .next (retire 2 (modM (fun m => { m with
      age := m.age + 1, mq := m.mq ++
        [.drain ⟨m.age, r, rawReg s a, rawReg s b, tag, rmode, mode, false, 0, 0, (ctx s).pc⟩] }) s)) := by
  change execMdrain a b r tag rmode mode s = _
  rw [execMdrain, rd_bind ha, rd_bind hb, hc, bind_ok, runM_ok hr hq]

/-- Settles O42: the equation of each command, and the words that `mzero` leaves. -/
theorem matrixCommands : Obligations.MatrixCommands := by
  intro s a b x r sel tag rmode mode d q ha hb hq n g
  refine ⟨fun hx hbusy hf hc => exec_mgo hq hx hbusy hf hc, ?_, ?_⟩
  · intro hr hm hdone hf hg
    refine ⟨⟨clearWords d s.me.m.acc, exec_mzero hq hr hm hdone hf hg, fun hcan hcols row col hcol => ?_⟩, fun hw => ?_⟩
    · exact storeGet_clearWords (canonical_acc hcan) hcols hcol
    · exact exec_mslot hq ha hr hm hdone hf hg hw
  · intro hr hg hadd hkv hl hy hx
    exact exec_mdrain rmode hq ha hb hr (drainChecks_ok hg hadd hkv hl hy hx)

end Sys2Proof.MatrixProofs
end
